-- ==== Sys2Proof/Word.lean ====
section
/-! DEFINITION. The word types of the block (R7: little-endian data, bit 0 least significant). -/

namespace Sys2Proof

/-- A 64-bit word of scratchpad, memory and descriptors. -/
abbrev Word := BitVec 64

/-- A 32-bit register of a register page. -/
abbrev Reg := BitVec 32

/-- One byte. -/
abbrev Byte := BitVec 8

/-- A 64-byte line of main memory, byte 0 in bits [7:0]. -/
abbrev Line := BitVec 512

/-- A 48-bit core address. -/
abbrev Addr := BitVec 48

end Sys2Proof
end

