-- ==== Sys2Proof/Syntax.lean ====
section
/-! DEFINITION. The commands of the block: one constructor per row of spec/opcode_table.json, with the
operands that the row's rule needs. A unit is named by its physical number (R6) in a `Fin`, so no command
can name a unit that the block does not have. -/

namespace Sys2Proof

/-- A master of the control crossbar (R16), or host exchange (R18). -/
inductive Master where
  | core (n : Fin 16)
  | fetcher (q : Fin 4)
  | debug
  | hostPort
  | service
  | hostExchange
  deriving DecidableEq, Repr

/-- The fuse block's answer to a programming request (R370). -/
inductive FuseAnswer where
  | ack | fail | timeout
  deriving DecidableEq, Repr

/-- What every response carries beside its tag and status (R177): RSP_TPAR, and the number of its beats, the last of them
with RSP_LAST. -/
structure RspHead where
  tpar  : Bool
  beats : Nat
  deriving DecidableEq, Repr

/-- What a response with data carries beside it (R177): the head, RSP_ECC of its two beats, and RSP_CRC. -/
structure RspBits where
  head : RspHead
  ecc  : BitVec 64
  crc  : BitVec 32
  deriving DecidableEq, Repr

/-- The commands of the block. -/
inductive Instr where
  -- cores (03, 04, 05)
  | bundleIssue (core : Fin 16)
  | multiplyComplete (core : Fin 16)
  | divideComplete (core : Fin 16)
  | nearLoadLanding (core : Fin 16)
  | farAccessResponse (core : Fin 16)
  | interruptEntry (core : Fin 16) (fast : Bool)
  | taskSwitch (core : Fin 16)
  | swmodeChange (core : Fin 16)
  | spillEngineMove (core : Fin 16)
  | mbox (m : Master) (core : Fin 16) (v : Reg)
  | memberMismatch (core : Fin 16) (bad : Option (Fin 3))
  | resynchronisationPause (core : Fin 16)
  | resynchronisationEnded (core : Fin 16)
  -- takes (06)
  | headerRead (q : Fin 4) (slot : Fin 64)
  | tcueArmingDecision (core : Fin 16)
  | admission (q : Fin 4)
  | descriptorFetch (q : Fin 4) (slot : Fin 64)
  -- chains (07, 09)
  | reelStart (chain : Fin 68)
  | reelCacheFill (chain : Fin 68)
  | microwordIssue (chain : Fin 68)
  -- marver and ports (08)
  | marverEntryCreation (chain : Fin 68)
  | marverOffer
  | requestAtBoundary (port : Fin 528)
  | data (port : Fin 528) (tag : BitVec 9) (line : Line) (p : RspBits)
  | ack (port : Fin 528) (tag : BitVec 9) (h : RspHead)
  | uerr (port : Fin 528) (tag : BitVec 9) (h : RspHead)
  | retry (port : Fin 528) (tag : BitVec 9) (h : RspHead)
  | reqCrd (port : Fin 528)
  | wdCrd (port : Fin 528)
  | responseCreditReturn (port : Fin 528)
  | residueMismatch (chain : Fin 68)
  | groupCommit (chain : Fin 68)
  | chainHardFault (chain : Fin 68)
  | chainRepaired (q : Fin 4)
  | laneFold (chain : Fin 68)
  | combineHop (chain : Fin 68)
  | finalRounding (chain : Fin 68)
  | spliceVectorArrival (chain : Fin 68)
  | linkElementArrival (chain : Fin 68)
  | completionRecord (q : Fin 4) (slot : Fin 64)
  -- microcode (09)
  | install (m : Master) (q : Fin 4)
  | installComplete (q : Fin 4)
  | clear (m : Master) (q : Fin 4)
  | clearComplete (q : Fin 4)
  | reload (m : Master) (q : Fin 4)
  | reloadComplete (q : Fin 4)
  | diridx (m : Master) (q : Fin 4) (v : Reg)
  | microcodeWindowWrite (m : Master) (q : Fin 4) (off : BitVec 18) (wide : Bool) (v : Word)
  | microcodeScrub (q : Fin 4)
  | microwordRewrite (q : Fin 4)
  -- scratchpad (10, 16)
  | correctionWriteback (bank : Fin 68)
  | scratchpadScrub (bank : Fin 68)
  | ownreq (m : Master) (bank : Fin 68) (v : Reg)
  | handoverEnd (bank : Fin 68)
  | repent (m : Master) (bank : Fin 68) (v : Reg)
  | refresh (m : Master) (bank : Fin 68)
  | refreshEnd (bank : Fin 68)
  | hostExchangeWrite (addr : BitVec 18) (line : Line)
  | hostExchangeRead (addr : BitVec 18)
  -- machine time, cues, timers (11)
  | mtTick (slate : Bool)
  | mtLoad (valid : Bool) (v : Word)
  | holdoverBegin
  | holdoverIncrement
  | cueSelection
  | cueFire (entry : Fin 4096)
  | cueTableWrite (m : Master) (off : BitVec 16) (wide : Bool) (v : Word)
  | timerCount (ch : Fin 32) (gate : BitVec 8)
  | tgstart (m : Master) (v : Reg)
  | tgstop (m : Master) (v : Reg)
  | capture (ch : Fin 32) (rising : Bool)
  | pernowLo (m : Master) (ch : Fin 32) (v : Reg)
  | pernowHi (m : Master) (ch : Fin 32) (v : Reg)
  | cntWrite (m : Master) (ch : Fin 32) (hi : Bool) (v : Reg)
  | capLoRead (m : Master) (ch : Fin 32)
  -- interrupts (12)
  | sourceSample (src : Fin 1024)
  | groupOpen (g : Fin 32)
  | groupClose (g : Fin 32)
  | claimn (m : Master) (core : Fin 16)
  | claimf (m : Master) (core : Fin 16)
  | hclaim (m : Master) (line : Fin 8)
  | eoi (m : Master) (core : Fin 16) (v : Reg)
  | heoi (m : Master) (v : Reg)
  | swset (m : Master) (v : Reg)
  | sourceTableWrite (m : Master) (off : BitVec 13) (wide : Bool) (v : Word)
  | gcfg (m : Master) (g : Fin 32) (v : Reg)
  | icucCtl (m : Master) (core : Fin 16) (v : Reg)
  -- power (13)
  | sequencerDecision (dom : Fin 235)
  | holdoffExpiry (dom : Fin 235)
  | scheduledWake (dom : Fin 235)
  | demand (dom : Fin 235)
  | wakeComplete (dom : Fin 235)
  | pwrDack (dom : Fin 235) (code : BitVec 3)
  | pseqForce (m : Master) (v : Reg)
  | powerDomainTableWrite (m : Master) (off : BitVec 12) (wide : Bool) (v : Word)
  | grant
  | leaveRelease (q : Fin 4) (slot : Fin 64)
  | pwrBudget (v : BitVec 12)
  | keepExpiry (dom : Fin 235)
  -- security and debug (14)
  | lccmd (m : Master) (v : Reg)
  | wipeComplete
  | fuseProgramAnswer (a : FuseAnswer)
  | blkid
  | connect (v : BitVec 8)
  | daddr (v : BitVec 48)
  | ddata (v : Word)
  | read
  | write
  | debugCommandComplete
  | bypass
  | testLogicReset
  | halt (m : Master) (core : Fin 16)
  | forcedHalt (m : Master) (core : Fin 16)
  | haltall (m : Master) (v : Reg)
  | haltTakesEffect (core : Fin 16)
  | resume (m : Master) (core : Fin 16)
  | resumeall (m : Master) (v : Reg)
  | step (m : Master) (core : Fin 16)
  | cancel (m : Master) (core : Fin 16)
  | feedgo (m : Master) (core : Fin 16)
  -- faults, repair, test (15)
  | tagTimeout (port : Fin 528) (tag : BitVec 9)
  | portLogicFault (port : Fin 528)
  | portSubstituted (port : Fin 528)
  | bankMigration (bank : Fin 68)
  | bankMigrated (bank : Fin 68)
  | steeringRowReplaced (row : Fin 8192)
  | bankSteeringTableWrite (m : Master) (off : BitVec 21) (wide : Bool) (v : Word)
  | bstScrub
  | flush (m : Master)
  | hotWindowEnd
  | hmcfg (m : Master) (v : Reg)
  | islandCopyFault (copy : Fin 3)
  | retire (m : Master) (v : Reg)
  | unret (m : Master) (v : Reg)
  | retireReq (m : Master) (page : BitVec 12)
  | dailiesEntryWrite
  | rdidx (m : Master) (v : Reg)
  | dent0Read (m : Master)
  | injctl (m : Master) (page : BitVec 12) (v : Reg)
  | testen (m : Master) (v : Reg)
  | seed (m : Master) (v : Reg)
  -- pages (02)
  | commit (m : Master) (page : BitVec 12)
  | commitPoint (page : BitVec 12)
  | discard (m : Master) (page : BitVec 12)
  | freeze (m : Master) (page : BitVec 12) (on : Bool)
  | registerWrite (m : Master) (off : BitVec 24) (v : Reg)
  | counterRead (m : Master) (off : BitVec 24)
  | lowHalfRead (m : Master) (off : BitVec 24)
  -- boundary (16)
  | controlPortBeat (wr : Bool) (addr : BitVec 23) (len : BitVec 4) (wdata : Reg) (be : BitVec 4)
  | cpSelFall
  | controlSpaceRead (addr : BitVec 24)
  | controlSpaceWrite (addr : BitVec 24) (v : Reg)
  | scratchpadRead (addr : BitVec 24)
  | scratchpadWrite (addr : BitVec 24) (v : Word)
  | coldReset
  | startUp (fuses : List (Nat × Reg)) (straps : BitVec 4)
  | warmReset
  | warmResetDrainEnd
  | run (m : Master) (v : Reg)
  | mtSlate
  | mtValidRise
  | islandUnpowered
  | rescfgWindowEnd (chain : Fin 68)
  | bkcfgWindowEnd (bank : Fin 68)
  | islandReloadEnd
  | contextSaveComplete (core : Fin 16)
  | svcSelNRise
  | undefinedCommand (cmd : BitVec 8)
  | warmResetRelease
  deriving DecidableEq, Repr

end Sys2Proof
end

