-- ==== Sys2Proof/Decode.lean ====
section
/-! DEFINITION. The commands that a word spells. No row of spec/opcode_table.json gives its command any bits: the
block's commands are no encoded words (R1, R360), so no word spells one. -/

namespace Sys2Proof

/-- The command that the low `nbits` bits `w` spell by the opcode table's fields: none, since the table has no
fields. -/
def decodeTableWord (_nbits _w : Nat) : Option Instr := none

end Sys2Proof
end

