-- ==== Sys2Proof/Config.lean ====
section
/-! DEFINITION. What the spec leaves open, as free values that nothing can evaluate (each an opaque constant named
in a row of the assumption log), and what it fixes for the whole block. -/

namespace Sys2Proof.Config

/-- Microword `w` of the shipped library image in the boot ROM's library region (R224): the spec gives the library's
directory and its results, not its words. Assumption 5. -/
opaque libWord : Nat → BitVec 128

/-- Byte `i` of the boot ROM's code region as data reads return it (R224): the spec gives the behaviour of the code,
not its bytes. Assumption 6. -/
opaque romByte : Nat → Byte

/-- The `k`th free value drawn for a return-frame slot that no mask names, as a context save writes it (R100).
Assumption 7. -/
opaque frameSlot : Nat → Word

/-- The `k`th free value drawn for the content of a newly mapped spare column: bit `r` says whether the bit of row
`r` differs from the one the code expects (R239). Assumption 8. -/
opaque spareColumn : Nat → BitVec 512

/-- The `k`th free value drawn for a pipe operand or result that the spec leaves open: the RED result of an
accumulating operation, a lane read from a stream that is OFF, a scalar that the descriptor does not hold (R111, R115,
R208). Assumption 9. -/
opaque openLane : Nat → Word

/-- The BCLK to a known event `n` ticks away when PSEQ divides by a HORATIO of zero (R296). Assumption 10. -/
opaque farEvent : Nat → Nat

end Sys2Proof.Config
end

