-- ==== Sys2Proof/Machine/State.lean ====
section
/-! DEFINITION. The state of the block as plain data, the reasons a step can stop, and the state after reset.
Tables that the block holds per unit are sparse: a list of (index, value) pairs with rising indices and no
value equal to the table's reset value (`Tab` in Machine/Ops.lean gives the reset value and the accessors). -/

namespace Sys2Proof.Machine

/-- Why the machine stops with a fault. No command of this block stops it: every error that the spec names is an effect
on the state. -/
inductive Fault where
  deriving DecidableEq, Repr

/-- Why a command is refused. -/
inductive Refusal where
  /-- An instruction without a meaning in this model. Safe: the machine stops. -/
  | notModelled (mnemonic : String)
  deriving DecidableEq, Repr

/-- A sparse table: (index, value) with rising indices, unlisted indices reading the table's reset value. -/
abbrev Tab (α : Type) := List (Nat × α)

/-- The header of a register page that is held as state (R31): CFGERR, CMTPEND, FAULT, FREEZE, POWN, PERR and
PEVT, with the BCLK in which the last COMMIT was accepted (R37). BUSY, RETIRED and PWRSTATE are computed. -/
structure Header where
  cfgerr  : Bool := false
  cmtpend : Bool := false
  fault   : Bool := false
  freeze  : Bool := false
  level   : BitVec 2 := 0
  tag     : BitVec 8 := 0
  perr    : Reg := 0
  pevt    : BitVec 4 := 0b1101
  cmtAt   : Nat := 0
  deriving DecidableEq, Repr

/-- The injection registers at the start of a page's test region (R354). -/
structure Inj where
  ctl : Reg := 0
  pos : Reg := 0
  cnt : Reg := 0
  deriving DecidableEq, Repr

/-- One return-stack frame: a header and eight slots (R89). -/
structure Frame where
  hdr   : Word := 0
  slots : Tab Word := []
  deriving DecidableEq, Repr

/-- A pending near load (R49): the operand cell that holds the pending value, the data that lands, and whether it lands
before the next bundle issues. -/
structure Mark where
  cell : Nat
  data : Word
  late : Bool := false
  deriving DecidableEq, Repr

/-- One context of a core (R41, R88, R101, R102). Operand cell number p, counted from the bottom of the stack,
spilled cells included, stands in physical cell p mod 32; `marks` lists the pending near loads (R49). `rep1` says that
the bundle being repeated has not completed an iteration (R331), `restored` that its stack registers were written
through BANKWIN since its last bundle (R103). -/
structure Ctx where
  pc      : Addr := 0
  a       : Tab Word := []
  lc      : Word := 0
  rc      : BitVec 32 := 0
  phi     : Word := 0
  plo     : Word := 0
  quo     : Word := 0
  rem     : Word := 0
  flags   : Word := 0
  osbase  : Addr := 0
  oslimit : Addr := 0
  osp     : Addr := 0
  depth   : BitVec 16 := 0
  cells   : Tab Word := []
  marks   : List Mark := []
  fcause  : BitVec 8 := 0
  faddr   : Word := 0
  fpc     : Addr := 0
  rsdepth : BitVec 7 := 0
  guard   : Bool := false
  frames  : Tab Frame := []
  level   : BitVec 2 := 0
  tag     : BitVec 8 := 0
  state   : BitVec 3 := 0
  prio    : BitVec 2 := 0
  savea   : Addr := 0
  evt     : BitVec 32 := 0
  waith   : Word := 0
  rssel   : BitVec 6 := 0
  ossel   : BitVec 5 := 0
  rep1    : Bool := false
  restored : Bool := false
  deriving DecidableEq, Repr

/-- A multiply or divide in progress: signedness, operands N and T, the context that receives the result (R52, R53). -/
structure MulDiv where
  signed : Bool
  n      : Word
  t      : Word
  ctx    : Nat
  deriving DecidableEq, Repr

/-- An open locked sequence (R57): bundles still to issue, the reserved word (a physical word index), whether the
reservation is open. -/
structure LockSeq where
  left : Nat
  resv : Option Nat
  held : Bool
  deriving DecidableEq, Repr

/-- A far access that has been sent and not answered (R51): the access, the level and tag it is made at, and, for
main memory, the line or the failure that the ports have returned. `fed` marks an access of a fed bundle (R330), `ctx` its context; `ws`
are the bundle's syllables and `got` the answer once the target has performed the access. -/
structure FarAcc where
  addr  : Nat
  size  : Nat
  store : Bool
  data  : Word
  fed   : Bool
  ctx   : Nat := 0
  line  : Option Line := none
  bad   : Bool := false
  wait  : Bool := false
  ws    : List Nat := []
  got   : Option Word := none
  deriving DecidableEq, Repr

/-- A TCUE whose arming is not yet decided (R121): slot, cue entry, time, the context it was issued in, with that
context as it was before the bundle and the bundle's syllables; `got` is the handle once decided, while the bundle's end
still waits; `undo` the scratchpad bytes that the bundle's near stores replaced, as (physical word, bytes, syndrome, enables), and
`broke` the cores whose reservations they broke. -/
structure TcuePend where
  slot  : Nat
  entry : Nat
  time  : Word
  ctx   : Nat
  fed   : Bool
  saved : Ctx := {}
  ws    : List Nat := []
  got   : Option Word := none
  undo  : List (Nat × Word × BitVec 9 × Nat) := []
  broke : List Nat := []
  deriving DecidableEq, Repr

/-- One logical core (R11, R63, R87, R98, R105, R379). `cur` is the executing context; `mode` the SWMODE in force
(R99); `saving` the ended context whose save is running (R100); `nreqSeen` the indication last posted to EVT bit 29
(R285); `twait` the handle of the TWAIT at which the next bundle is held, `waitX` that it is held at a WAIT (R84); `want` what the stalled bundle needs of the spill
engine: 1 a spill, 2 a fill (R45); `mwait` that an MWAIT holds the next bundle (R54). -/
structure CoreSt where
  ctxs     : Tab Ctx := []
  cur      : Option Nat := none
  nest     : Nat := 0
  tend     : Bool := false
  savefail : Bool := false
  cfgLive  : Reg := 0
  cfgStg   : Reg := 0
  mode     : BitVec 2 := 0
  fvbase   : Addr := 0x20000200
  ivbase   : Addr := 0x20000400
  last     : Tab Nat := []
  bankwin  : BitVec 7 := 0
  mul      : Option MulDiv := none
  div      : Option MulDiv := none
  lock     : Option LockSeq := none
  far      : Option FarAcc := none
  tcue     : Option TcuePend := none
  pause    : Bool := false
  mwait    : Bool := false
  saving   : Option Nat := none
  nreqSeen : Bool := false
  want     : BitVec 2 := 0
  twait    : Option Nat := none
  waitX    : Bool := false
  deriving DecidableEq, Repr

/-- One debug comparator (R335). -/
structure Cmp where
  lo  : Reg := 0
  hi  : Reg := 0
  cfg : Reg := 0
  deriving DecidableEq, Repr

/-- A DBGC page (R327, R329, R330, R335). `pend` is the cause of the pending halt, `force` that a forced request is part of
it, `byDbg` that the
level table of R324 holds for it; `stepping` a STEP whose bundle
has not issued; `skipBrk` the resumed bundle that matches no break comparator; `fissue` a fed bundle that has not issued. -/
structure Dbgc where
  stepirq  : Bool := false
  fctx     : BitVec 7 := 0
  halted   : Bool := false
  pend     : Option (BitVec 3) := none
  force    : Bool := false
  byDbg    : Bool := false
  cause    : BitVec 3 := 0
  cmpn     : BitVec 3 := 0
  pcmpn    : BitVec 3 := 0
  ctx      : BitVec 7 := 0x7F
  lockbrk  : Bool := false
  feed     : Tab Reg := []
  fbusy    : Bool := false
  fissue   : Bool := false
  fdone    : Bool := false
  ffault   : Bool := false
  fwait    : Bool := false
  fcause   : BitVec 8 := 0
  dbgok    : Tab Reg := []
  cmps     : Tab Cmp := []
  stepping : Bool := false
  skipBrk  : Bool := false
  deriving DecidableEq, Repr

/-- The state of a take queue slot (R119). -/
inductive SlotSt where
  | free | armed | queued | running | ending
  deriving DecidableEq, Repr

/-- The exact accumulators and state bits of a crucible (R162, R163), with the modular, logic and minimum or maximum
accumulators of RED (R152). `st0` and `st1` hold NAN, PINF, NINF, NZ, ANY from bit 0. -/
structure Cruc where
  acc0  : Int := 0
  acc1  : Int := 0
  st0   : BitVec 5 := 0
  st1   : BitVec 5 := 0
  terms : Nat := 0
  isum  : Word := 0
  ext   : Option Word := none
  deriving DecidableEq, Repr

/-- What a strip position gives the combining channel: its folded crucible and its counts of packed elements per
stream (R165, R169). -/
structure Part where
  pos : Nat
  cr  : Cruc := {}
  pks : Tab Nat := []
  deriving DecidableEq, Repr

/-- A fault of a take: code, element index and FOFF (R138, R139). -/
structure TFault where
  code : BitVec 8
  elem : Nat := 0
  foff : Nat := 0
  deriving DecidableEq, Repr

/-- A directory entry of the microcode store (R216) with its install count (R215) and the BCLK of its install (R220). -/
structure DirEnt where
  d0    : Reg := 0
  d1    : Reg := 0
  d2    : Reg := 0
  d3    : Reg := 0
  count : Nat := 0
  instAt : Option Nat := none
  deriving DecidableEq, Repr

/-- One take queue slot with the take that it holds (R117 to R139). `words` holds w0 to w15 and x0 to x15 once
fetched; `chains` the logical chains allocated, lowest first; `seq` its arrival number, 0 if it has not been queued;
`ent` and `ship` the directory entry found at fetch and the shipped reel that it is; `holds` the recurrence holds
(input, output, distance); `imgWait` that the crucible image has not been checked; `ends` the element that each strip
position has reached when it ended; `cap` the lowest element that a fault or a failed store names; `total` the
combined crucible of a reduction, `parts` the folded strips and `hops` the positions that have been combined. -/
structure Slot where
  st         : SlotSt := .free
  gen        : BitVec 8 := 0
  core       : Nat := 0
  ctx        : Nat := 0
  byTake     : Bool := false
  level      : BitVec 2 := 0
  tag        : BitVec 8 := 0
  desc       : Nat := 0
  w0         : Option Word := none
  w1         : Option Word := none
  cued       : Bool := false
  seq        : Nat := 0
  leave      : Bool := false
  chains     : List Nat := []
  fetched    : Bool := false
  words      : List Word := []
  ent        : DirEnt := {}
  ship       : Option Nat := none
  aborted    : Bool := false
  fault      : Option TFault := none
  cap        : Option Nat := none
  flags      : BitVec 5 := 0
  replays    : Nat := 0
  width      : Nat := 16
  serial     : Bool := false
  holds      : List (Nat × Nat × Nat) := []
  imgWait    : Bool := false
  ends       : List (Nat × Nat) := []
  total      : Cruc := {}
  parts      : List Part := []
  hops       : List Nat := []
  stored     : Bool := false
  arrAt      : Nat := 0
  arrKey     : Nat := 0
  fins       : List Nat := []
  failAt     : Option Nat := none
  fetchAt    : Option Nat := none
  deriving DecidableEq, Repr

/-- A QUAD page with its take queue and microcode store (R118, R145, R204, R216, R218, R225). `fences` lists
(core, context, arrival number) of the TFENCEs that may still hold a take; `store` holds the written words, `none` a library word as shipped; `mcRun` is the running command and its index;
`mcSynd` the flipped bits of stored words (128 data bits, the two check bytes, and a mark of an injection), `mcBad` the poisoned
words; `mcUndo` the last poisoning of a scrub (BCLK, word, MCPOIS before it, whether a VALID entry held the word; R220); `cand` the
candidate of R126 (arrival number, n, the chains in service). -/
structure Quad where
  slots    : Tab Slot := []
  seq      : Nat := 0
  fences   : List (Nat × Nat × Nat) := []
  qcfgLive : Reg := 16
  qcfgStg  : Reg := 16
  fbv      : Bool := false
  fbovr    : Bool := false
  tkdone   : Reg := 0
  tkfault  : Reg := 0
  fbrec    : Tab Reg := []
  store    : Tab (Option (BitVec 128)) := []
  mcSynd   : Tab (BitVec 145) := []
  mcBad    : List Nat := []
  dir      : Tab DirEnt := []
  mcctl    : Reg := 0x00000C01
  mcRun    : Option (Nat × Nat) := none
  mcLeave  : Bool := false
  mcCmd    : BitVec 2 := 0
  mcResult : BitVec 4 := 0
  cmdlost  : Bool := false
  lost     : Bool := false
  failaddr : BitVec 9 := 0
  diridx   : BitVec 9 := 0
  dird     : Tab Reg := []
  mcerr    : Reg := 0
  mccorr   : Reg := 0
  mcuerr   : Reg := 0
  mcpois   : Reg := 0
  scrub    : Nat := 0
  rewrite  : List Nat := []
  cand     : Option (Nat × Nat × List Nat) := none
  mcUndo   : Option (Nat × Nat × Reg × Bool) := none
  deriving DecidableEq, Repr

/-- The micro-sequencer state that a snapshot records (R211 to R214): with it the counts of packed elements per
stream (R209), the terms of the present row that a row reel has added, the running accumulator of SCAN and SEGSUM (R208), the last pipe results (R210), and how many splice vectors have been
read and sent. `vfirst` says that no microword of the present vector has issued. -/
structure Micro where
  pc     : Nat := 0
  stk    : List Nat := []
  lc0    : BitVec 16 := 0
  lc1    : BitVec 16 := 0
  ptr    : Nat := 0
  vfirst : Bool := true
  pks    : Tab Nat := []
  rowAt  : Nat := 0
  run    : Cruc := {}
  lda    : List Word := []
  ldb    : List Word := []
  fma    : List Word := []
  ilu    : List Word := []
  red    : List Word := []
  spinAt : Nat := 0
  sendAt : Nat := 0
  deriving DecidableEq, Repr

/-- A staged store element (R191): output stream (4 E, 5 F), element of the take, byte offset in main memory, value. -/
structure Staged where
  stream : Nat
  elem   : Nat
  addr   : Nat
  val    : Word
  deriving DecidableEq, Repr

/-- An element of a read stream in the read region (R151): stream, place in the stream, value, line and byte offset in
it. -/
structure Land where
  stream : Nat
  key    : Int
  val    : Word
  line   : Nat
  off    : Nat
  deriving DecidableEq, Repr

/-- A store element not yet acknowledged, with the staging line that it holds (R150, R197). -/
structure Unack where
  stream : Nat
  elem   : Nat
  line   : Nat
  deriving DecidableEq, Repr

/-- A marver entry (R191, R192): line, direction, logical and physical port, stream, the places that the line's
bytes serve (stream, element, byte offset in the line), the store data and enables, its stamp, its granule and job
tag, the lowest element of the take that a read serves, the highest element whose store it waits for (R133), and whether a port
has been offered it. -/
structure MvEntry where
  line   : Nat
  wr     : Bool
  lp     : Nat
  pp     : Nat
  places : List (Nat × Int × Nat)
  elems  : List (Nat × Nat)
  data   : Line := 0
  be     : BitVec 64 := 0
  stamp  : Nat := 0
  jobtag : BitVec 8 := 0
  elem   : Nat := 0
  holdTo : Option Nat := none
  offered : Bool := false
  deriving DecidableEq, Repr

/-- The committed progress of a strip that a frame checkpoint holds (R130, R341); `bad` says that its slot reads uncorrectable
(R347). -/
structure Ckpt where
  micro : Micro := {}
  pass2 : Bool := false
  lanes : Tab Cruc := []
  flags : BitVec 5 := 0
  bad   : Bool := false
  deriving DecidableEq, Repr

/-- The strip that a chain runs (R129, R151, R159, R210 to R214). `nxt` counts the items asked for per read stream;
`landed` is the read region, `staged` the store elements that no entry carries and `unacked` those not yet
acknowledged; `grp` and `gflags` the uncommitted crucible terms (by 16 × group + lane) and flags (by group); `snaps`
the boundary snapshots by group and `cptr` the first uncommitted element; `pass2` the second pass, `bases` the
packed elements of each stream before the strip; `badGrp` the element of a group that moved here after its replay failed; `cks` the frame
checkpoints; `streams` the read streams and `from_`, `fromPks` and `csr0` where their items start (element, packed
counts, row pointer); `spin` the vectors received on channel P, `chan`
those on their way here, `sentN` how many it has sent, `fin` forwarded elements on their way here; `lin` the elements
accepted from a cross-quadrant link (R170, R173). `stgErr` are the staged elements (stream, element) whose word the staging
store holds with an uncorrectable error (R150), `steered` the ports of the lines that have staged elements (R191), and `ckBad`
says that the checkpoint that the strip resumes from does not read (R347). -/
structure Strip where
  q        : Nat
  slot     : Nat
  gen      : BitVec 8
  lchain   : Nat
  pos      : Nat
  lo       : Nat
  hi       : Nat
  spliced  : Bool := false
  ready    : Bool := false
  micro    : Micro := {}
  snaps    : List (Nat × Micro) := []
  cptr     : Nat := 0
  pass2    : Bool := false
  ended    : Bool := false
  stop     : Bool := false
  nxt      : Tab Nat := []
  landed   : List Land := []
  staged   : List Staged := []
  unacked  : List Unack := []
  lanes    : Tab Cruc := []
  grp      : Tab Cruc := []
  flags    : BitVec 5 := 0
  gflags   : Tab (BitVec 5) := []
  retried  : Bool := false
  cks      : List (Nat × Ckpt) := []
  streams  : List Nat := []
  from_    : Nat := 0
  fromPks  : Tab Nat := []
  csr0     : Option Int := none
  bases    : Tab Nat := []
  badGrp   : Option Nat := none
  spin     : List (List Word) := []
  chan     : List (List Word) := []
  sentN    : Nat := 0
  fin      : List Land := []
  lin      : List Word := []
  stgErr   : List (Nat × Nat) := []
  steered  : List (Nat × Nat × Nat) := []
  ckBad    : Bool := false
  deriving DecidableEq, Repr

/-- A chain with its CHAIN page, marver and reel cache (R150, R174, R191, R215). `undo` is the last group replay (BCLK, whether it
counted in GREPLAY and in REPLAYS; R161), `cacheBad` the cached words with a check error. -/
structure Chain where
  strip   : Option Strip := none
  marver  : List MvEntry := []
  cacheId : Option (Nat × Nat) := none
  cache   : List (Option (BitVec 128)) := []
  en      : Bool := true
  rescnt  : Reg := 0
  greplay : Reg := 0
  elem    : Word := 0
  elemHi  : Reg := 0
  rescfg  : Reg := 0x00001F04
  srLive  : Reg := 0
  srStg   : Reg := 0
  swLive  : Reg := 16
  swStg   : Reg := 16
  winCnt  : Nat := 0
  undo    : Option (Nat × Bool × Bool) := none
  cacheBad : List Nat := []
  deriving DecidableEq, Repr

/-- Who made a port request. -/
inductive ReqSrc where
  | chain (p : Nat) (q slot : Nat) (gen : BitVec 8)
  | gateway (core : Nat)
  | debugPort
  deriving DecidableEq, Repr

/-- An element on a cross-quadrant link with the take and element that sent it (R173). -/
structure LinkEl where
  val  : Word
  q    : Nat
  slot : Nat
  gen  : BitVec 8
  elem : Nat
  deriving DecidableEq, Repr

/-- A request that holds a tag of a physical port (R182, R194): `resent` that it has been sent again under R182, `pay`
that its next sending costs credits, `sent` that it stands at the boundary, `order` its acceptance number, `since` its
acceptance BCLK. -/
structure TagReq where
  src    : ReqSrc
  ent    : MvEntry
  resent : Bool := false
  pay    : Bool := false
  sent   : Bool := false
  order  : Nat := 0
  since  : Nat := 0
  deriving DecidableEq, Repr

/-- A physical port (R178, R342): tags held, credits held by the block, responses whose credit is not yet returned,
the credits that the controller holds, a fault with its detection BCLK, a substitution that found no spare and whether an
injection caused it, the tags that a warm reset abandoned, the request presented at the boundary last with its BCLK, and the
BCLK of the last response credit returned. -/
structure Port where
  tags   : List (Nat × TagReq) := []
  gone   : List Nat := []
  reqCrd : Nat := 32
  wdCrd  : Nat := 32
  rspOwe : Nat := 0
  rspCrd : Nat := 32
  order  : Nat := 0
  fault  : Bool := false
  lost   : Bool := false
  lostInj : Bool := false
  faultAt : Nat := 0
  outTag : Option Nat := none
  outAt  : Option Nat := none
  crdAt  : Option Nat := none
  deriving DecidableEq, Repr

/-- A PGRP page (R201). -/
structure Pgrp where
  cfgLive : Reg := 0x00002020
  cfgStg  : Reg := 0x00002020
  corr    : Reg := 0
  crcrty  : Reg := 0
  uerr    : Reg := 0
  taghw   : BitVec 9 := 0
  deriving DecidableEq, Repr

/-- A physical scratchpad bank with its SBANK page (R226, R228, R236, R241, R344). `repSub`/`repSpare` are
REPSEL; `repair` holds the 72 × 4 column repair entries; `corrQ` the words whose correction waits to be written
back; `drain` the pending handover's new owner; `copying` a running migration. -/
structure Bank where
  owner    : Option (BitVec 8) := none
  pend     : Option (BitVec 8) := none
  holost   : Bool := false
  acfg     : Reg := 0x0000C140
  corr     : Reg := 0
  uerr     : Reg := 0
  uerraddr : Reg := 0
  hxdrop   : Reg := 0
  repsel   : Reg := 0
  repair   : Tab (BitVec 8) := []
  rbusy    : Bool := false
  corrQ    : List Nat := []
  scrub    : Nat := 0
  winC     : Nat := 0
  winU     : Nat := 0
  winInj   : Bool := false
  copying  : Bool := false
  deriving DecidableEq, Repr

/-- The STEER page, Bank Steering Table, port map and gateway (R184, R187, R190, R196, R202, R345). `synd` holds
the flipped bits of stored entries (32 data bits, 7 check bits, and a mark of an injection); `rowPrev` and `rowNow` the rows in which the last and
the present pass of the scrubber found an error, `rowUerr` those in which a lookup met an uncorrectable entry, and
`rowDue` those to be replaced (R345), `rowInj` those in which an error was injected (R353); `gwBuf` is the gateway's read buffer, most recently used first, and `gwQ` its
requests that no port has accepted. -/
structure Steer where
  bst     : Tab Reg := []
  synd    : Tab (BitVec 40) := []
  ptMap   : Tab Nat := []
  bstctl  : Reg := 0x00000A01
  corr    : Reg := 0
  uerr    : Reg := 0
  pois    : Reg := 0
  err     : Reg := 0
  mapsel  : BitVec 9 := 0
  bufen   : Bool := true
  scrub   : Nat := 0
  rowPrev : List Nat := []
  rowNow  : List Nat := []
  rowUerr : List Nat := []
  rowDue  : List Nat := []
  rowInj  : List Nat := []
  spare0  : Nat := 16
  spare1  : Nat := 16
  gwBuf   : List (Nat × Line) := []
  gwQ     : List (ReqSrc × MvEntry) := []
  deriving DecidableEq, Repr

/-- The hot-port monitor (R200, R203). -/
structure HotMon where
  cfg    : Reg := 0x40000414
  hot    : Bool := false
  multi  : Bool := false
  lport  : BitVec 9 := 0
  gran   : Reg := 0
  cnt    : Reg := 0
  map    : Tab Reg := []
  counts : Tab Nat := []
  deriving DecidableEq, Repr

/-- An interrupt source word and its sensing state (R273, R275). `senseAt` is the BCLK of the last change of SENSE (R286). -/
structure Src where
  senseAt : Option Nat := none
  cfg    : BitVec 16 := 0
  pend   : Bool := false
  active : Bool := false
  inn    : Bool := false
  lost   : Bool := false
  actby  : BitVec 5 := 0
  deriving DecidableEq, Repr

/-- A coalescing group (R279). `evAt` is the BCLK of its last member event. -/
structure Grp where
  cfg   : Reg := 0
  evAt  : Option Nat := none
  ev    : Nat := 0
  timer : Nat := 0
  opn   : Bool := false
  deriving DecidableEq, Repr

/-- The ICU page (R272, R287). `pulses` lists the sources pulsed in this BCLK, and `claimed` the claim registers read in it
(2n + 1 CLAIMF and 2n CLAIMN of core n, 32 + k HCLAIMk). -/
structure Icu where
  srcs     : Tab Src := []
  grps     : Tab Grp := []
  pulses   : List Nat := []
  claimed  : List Nat := []
  hraised  : BitVec 8 := 0
  hbadeoi  : Bool := false
  srcerr   : Reg := 0
  edgelost : Reg := 0
  deriving DecidableEq, Repr

/-- An ICUC page (R288). -/
structure Icuc where
  nmask   : Bool := false
  fmask   : Bool := false
  nraised : Bool := false
  fraised : Bool := false
  badeoi  : Bool := false
  deriving DecidableEq, Repr

/-- Machine time and the MTIME page (R243 to R246, R268). -/
structure Mt where
  mtime    : Word := 0
  mtimeHi  : Reg := 0
  synced   : Bool := false
  holdover : Bool := true
  validin  : Bool := false
  hoevt    : Bool := false
  ldevt    : Bool := false
  slip     : Bool := false
  backstep : Bool := false
  ctl      : Reg := 0x00000051
  horatio  : Reg := 0x80000000
  frac     : BitVec 32 := 0
  loadprev : Word := 0
  prevHi   : Reg := 0
  snapt    : Word := 0
  snapHi   : Reg := 0
  windows  : BitVec 8 := 0
  deriving DecidableEq, Repr

/-- A cue table entry (R247). -/
structure CueEnt where
  time : Word := 0
  q1   : Word := 0
  deriving DecidableEq, Repr

/-- The cue engine and the CUE page (R249, R250, R255, R269). `sel` lists the selected cues as (entry, on time); `held`
the pool entries that an undecided TCUE reserves; `hit` the armed entries whose TIME the last tick reached, in BCLK
`hitAt`. -/
structure Cue where
  tbl     : Tab CueEnt := []
  sel     : List (Nat × Bool) := []
  held    : List Nat := []
  hit     : List Nat := []
  hitAt   : Nat := 0
  cfgLive : Reg := 0x00000800
  cfgStg  : Reg := 0x00000800
  tcdmask : Reg := 0
  latecnt : Reg := 0
  skipcnt : Reg := 0
  err     : Reg := 0
  deriving DecidableEq, Repr

/-- A timer channel (R258 to R264, R270). -/
structure Timer where
  ctl     : Reg := 0x00000200
  capcfg  : Reg := 0
  cnt     : Word := 0
  cntHi   : Reg := 0
  cmp     : Word := 0xFFFFFFFFFFFFFFFF
  per     : Word := 0xFFFFFFFFFFFFFFFF
  cmpStg  : Word := 0xFFFFFFFFFFFFFFFF
  perStg  : Word := 0xFFFFFFFFFFFFFFFF
  cap     : Word := 0
  capHi   : Reg := 0
  phase   : Word := 0
  perLo   : Reg := 0
  stat    : Reg := 0
  presc   : Nat := 0
  edges   : Nat := 0
  commit  : Bool := false
  deriving DecidableEq, Repr

/-- A power domain and its table entry (R292, R296, R308, R367). `goal` is the state being entered or, for a wake,
IDLE, and `goalAt` the BCLK in which its entry began; `wleave` a wake that waits for leave; `keepDbg`, `keepHalt` the keep votes (R299, R326). -/
structure Dom where
  st       : BitVec 3 := 1
  goal     : Option (BitVec 3) := none
  goalAt   : Option Nat := none
  waking   : Bool := false
  wsched   : Bool := false
  wleave   : Bool := false
  limit    : Option (BitVec 3) := none
  floor    : BitVec 3 := 2
  holdoff  : BitVec 5 := 20
  wprio    : BitVec 2 := 3
  wclass   : BitVec 4 := 0
  groups   : Option (BitVec 8) := none
  keepDbg  : Bool := false
  keepHalt : Bool := false
  demand   : Bool := false
  idleAt   : Nat := 0
  noSel    : Bool := false
  dreq     : BitVec 3 := 1
  dack     : BitVec 3 := 1
  deriving DecidableEq, Repr

/-- What a leave is for (R301). -/
inductive LeaveFor where
  | take (q slot : Nat)
  | wake (dom : Nat)
  | reload (q : Nat)
  | ended (q seq : Nat)
  deriving DecidableEq, Repr

/-- A waiting request for leave (R302). -/
structure LeaveReq where
  prio : Nat
  for_ : LeaveFor
  cls  : Nat
  deriving DecidableEq, Repr

/-- A booking (R304): its slot, cost, recorded cue time, and whether the cue has fired. -/
structure Booking where
  q     : Nat
  slot  : Nat
  cost  : Nat
  time  : Word
  fired : Bool
  deriving DecidableEq, Repr

/-- The power admission unit (R301 to R307, R311). `ramp` lists (BCLK, cost) of leaves that took effect; `grantAt` is the BCLK of
the last grant. -/
structure Pau where
  cap      : BitVec 12 := 2560
  chip     : BitVec 12 := 0
  pool     : BitVec 12 := 512
  rampmax  : BitVec 12 := 800
  cost     : Tab (BitVec 12) := []
  reqs     : List LeaveReq := []
  held     : List (LeaveFor × Nat) := []
  bookings : List Booking := []
  ramp     : List (Nat × Nat) := []
  grantAt  : Option Nat := none
  thrcnt   : Reg := 0
  refcnt   : Reg := 0
  isOver   : Bool := false
  deriving DecidableEq, Repr

/-- The power sequencer (R296, R312). -/
structure Pseq where
  en       : Bool := true
  guard    : BitVec 16 := 64
  wakecnt  : Reg := 0
  latewake : Reg := 0
  err      : Reg := 0
  deriving DecidableEq, Repr

/-- The SEC page and a lifecycle move (R318, R333). -/
structure Sec where
  lcField  : Bool := false
  moving   : Bool := false
  prog     : Bool := false
  movefail : Bool := false
  cplvl    : Reg := 0
  jdbg     : Reg := 0
  privcnt  : Reg := 0
  deriving DecidableEq, Repr

/-- A command of the debug port with DADDR and DDATA as they stood when it started (R321). -/
structure DbgCmd where
  wr    : Bool
  daddr : BitVec 48
  data  : Word
  deriving DecidableEq, Repr

/-- The debug port and the DBG page (R319 to R323, R334). `cmd` is the running command, `line` the
line or failure that main memory returned to it, `asked` that its request stands in the gateway, `orphan` that its
connection was lost; `irOut` what the last Capture-IR showed, `tdo` what the last Capture-DR. -/
structure Dbg where
  ir      : BitVec 6 := 0x3F
  irOut   : BitVec 6 := 0
  conn    : Bool := false
  lost    : Bool := false
  haltevt : Bool := false
  cmpevt  : Bool := false
  devten  : Reg := 0
  dcfg    : Reg := 16
  daddr   : BitVec 48 := 0
  ddata   : Word := 0
  rdata   : Word := 0
  result  : BitVec 3 := 0
  defer   : Bool := false
  cmd     : Option DbgCmd := none
  line    : Option Line := none
  bad     : Bool := false
  asked   : Bool := false
  orphan  : Bool := false
  tdo     : Word := 0
  deriving DecidableEq, Repr

/-- A dailies entry waiting in the log queue, or in the ring (R349): e0 and e1. -/
structure LogEnt where
  time : Word := 0
  e1   : Word := 0
  deriving DecidableEq, Repr

/-- The RAS page (R348, R349, R358). `queue` holds each waiting entry with the BCLK of its event. -/
structure Ras where
  ring    : Tab LogEnt := []
  queue   : List (Nat × LogEnt) := []
  attnp   : Bool := false
  faultp  : Bool := false
  ovf     : Bool := false
  rctl    : BitVec 3 := 0b111
  wridx   : BitVec 10 := 0
  rdidx   : BitVec 10 := 0
  dsel    : BitVec 10 := 0
  latch   : LogEnt := {}
  lostcnt : Reg := 0
  deriving DecidableEq, Repr

/-- A repair of the cullet (R340): kind (0 chain, 1 bank, 2 member, 3 port), scope (quadrant, or 0) and the logical
number being repaired; `old` the unit that faulted, `spare` the one taken, and whether an injection caused the repair. -/
structure Repair where
  kind    : Nat
  scope   : Nat
  logical : Nat
  old     : Nat
  spare   : Option Nat
  inj     : Bool := false
  deriving DecidableEq, Repr

/-- The outputs of the boundary that the block's state decides, but for those of the ports (R360, R361, R373): an open-drain
line is true while it is driven low. -/
structure Pins where
  irq      : BitVec 8 := 0
  cpReady  : Bool := false
  cpErr    : Bool := false
  cpRdata  : Reg := 0
  hxRdy    : Bool := false
  hxDone   : Bool := false
  hxDrop   : Bool := false
  hxRvalid : Bool := false
  hxRdata  : Line := 0
  hxRerr   : BitVec 4 := 0
  throttle : Bool := false
  fuseReq  : Bool := false
  fuseProg : Bool := false
  fuseAddr : BitVec 13 := 0
  svcDo    : Option (BitVec 2 × Word) := none
  tdo      : Word := 0
  faultLow : Bool := false
  attnLow  : Bool := false
  timeLow  : Bool := false
  dreq     : List (BitVec 3) := []
  deriving DecidableEq, Repr

/-- The cullet maps, unit states and the CULLET page (R338 to R345, R357, R383). The maps hold the physical unit
of each logical unit, `none` when none serves it; unit states are 0 active, 1 spare, 2 retired; members are numbered
3n + k. `isl` is the island copy being reloaded and `frozen` an island without a majority, with its outputs as last voted in `held` (R346). -/
structure Cullet where
  chMap   : Tab (Option Nat) := []
  bkMap   : Tab (Option Nat) := []
  mbMap   : Tab (Option Nat) := []
  chSt    : Tab (BitVec 2) := []
  bkSt    : Tab (BitVec 2) := []
  slSt    : Tab (BitVec 2) := []
  ptSt    : Tab (BitVec 2) := []
  running : List Repair := []
  waiting : List Repair := []
  moved   : List (Nat × Strip) := []
  ptmo    : BitVec 16 := 8192
  bkcfg   : Reg := 0x001F4002
  isl     : Option (Fin 3) := none
  frozen  : Bool := false
  held    : Pins := {}
  deriving DecidableEq, Repr

/-- The PERT page (R356, R359). -/
structure Pert where
  seed   : Reg := 1
  lfsr   : Reg := 1
  pgsel0 : Reg := 0
  pgsel1 : Reg := 0
  pdly   : Reg := 0
  crdpat : Reg := 0
  crdAt  : Nat := 0
  mvlim  : Reg := 512
  cuedly : Reg := 0
  irqdly : Reg := 0
  deriving DecidableEq, Repr

/-- An access that the control crossbar still owes to its target (R365, R371): level and tag, its master (0 the control port,
1 the service port, 2 + n core n), its space (0 control space, 1 scratchpad, 2 main memory), address, size in bytes, the data
of a write, byte enables, the peek attribute, and whether the service port waits for its answer. -/
structure Owed where
  lj    : BitVec 2 × BitVec 8
  who   : Nat
  space : Nat := 0
  addr  : Nat
  size  : Nat := 4
  wr    : Option Word := none
  be    : Nat := 15
  peek  : Bool := false
  ans   : Bool := false
  deriving DecidableEq, Repr

/-- A burst of host exchange (R366): a write with its line, or a read, and HX_ADDR. -/
structure HxBurst where
  wr   : Bool
  addr : BitVec 18
  line : Line := 0
  deriving DecidableEq, Repr

/-- The BLK page, the resets and the pins of the boundary that are not held elsewhere (R360, R363, R366, R371,
R376 to R381). `powered` says that the island is supplied, `started` that START_UP has run; `warm` a warm reset whose drain has not ended,
begun in BCLK `warmAt`, `warmLow` that the warm reset input is low, `warmDefer` a warm reset that waits for a lifecycle move; `cp` the burst in progress of the control port, as (write, offset, beats left), `cpBeat` its beat that
waits at its target; `owed` the accesses that wait there without their master; `hx` the burst of host exchange in progress and `hxReq` the
requests that the host holds until HX_RDY; `gate` the GATE inputs as last sampled. -/
structure Blk where
  ready    : Bool := false
  fuseok   : Bool := false
  fuseerr  : Bool := false
  bstdone  : Bool := false
  spzdone  : Bool := false
  libdone  : Bool := false
  rstcause : BitVec 2 := 0b01
  run      : BitVec 16 := 0
  bootv    : Addr := 0x20000000
  testen   : Bool := false
  park     : BitVec 4 := 0
  started  : Bool := false
  warm     : Bool := false
  warmLow  : Bool := false
  warmAt   : Nat := 0
  warmDefer : Bool := false
  powered  : Bool := true
  gate     : BitVec 8 := 0
  cp       : Option (Bool × Nat × Nat) := none
  cpBeat   : Option (Reg × BitVec 4) := none
  owed     : List Owed := []
  cpReady  : Bool := false
  cpErr    : Bool := false
  cpRdata  : Reg := 0
  hx       : Option HxBurst := none
  hxReq    : List HxBurst := []
  hxDone   : Bool := false
  hxDrop   : Bool := false
  hxRvalid : Bool := false
  hxRdata  : Line := 0
  hxRerr   : BitVec 4 := 0
  svcDone  : Bool := false
  svcStat  : BitVec 2 := 0
  svcData  : Word := 0
  deriving DecidableEq, Repr

/-- The fuse shadow and the FUSE page (R368, R369, R382). -/
structure Fuse where
  words  : Tab Reg := []
  loaded : Bool := false
  sigok  : Bool := false
  crcok  : Bool := false
  mapok  : Bool := false
  fsel   : BitVec 13 := 0
  fcrc   : Reg := 0
  deriving DecidableEq, Repr

/-- What has happened to a timer channel in the present BCLK (R267): a source event, a group start, a stop (`true`: by a write of
software), a write of CTL, and a capture (`true`: of an edge). -/
structure TimerEv where
  counted  : Bool := false
  started  : Bool := false
  stopped  : Option Bool := none
  ctl      : Bool := false
  captured : Option Bool := none
  deriving DecidableEq, Repr

/-- What the block held at the start of the present BCLK, for the rules that decide on it: the cue table, the interrupt controller,
the power classes and the power domain table (R280, R300, R307, R308), and what holds flags that a write of 1 clears (R38). With it
what has happened in this BCLK: to each timer channel (R267), the first refusal of each page with its record (`true`: of a table window;
R38), a DISCARD of a chain page with a commit pending (its staged registers; R38), an increase of MTIME, a tick that takes MT[19:0] to
zero, and a load with whether the block was in holdover before it (R243, R258, R263). -/
structure Start where
  cues   : Tab CueEnt := []
  icu    : Icu := {}
  icuc   : Tab Icuc := []
  cost   : Tab (BitVec 12) := []
  doms   : Tab Dom := []
  hdr    : Tab Header := []
  cores  : Tab CoreSt := []
  dbgc   : Tab Dbgc := []
  quads  : Tab Quad := []
  banks  : Tab Bank := []
  timers : Tab Timer := []
  mt     : Mt := {}
  sec    : Sec := {}
  dbg    : Dbg := {}
  ras    : Ras := {}
  hot    : HotMon := {}
  steer  : Steer := {}
  tev    : Tab TimerEv := []
  refs   : Tab (Option (Bool × Reg)) := []
  discs  : Tab (Option (Reg × Reg)) := []
  ticked : Bool := false
  slate  : Bool := false
  loaded : Option Bool := none
  deriving DecidableEq, Repr

/-- The whole block. `pending` is the queue of waiting commands, first in first out; `bclk` counts BCLK since cold
reset (CSR CYCLE, R42); `mem` holds the scratchpad bytes of the physical banks at 0x40000 × bank + byte, `synd` the
check-byte errors of its words; `link` the elements on each cross-quadrant link, by consumer logical chain (R173);
`fresh` counts the free values drawn so far. -/
structure State where
  pending : List Instr := []
  bclk    : Nat := 0
  fresh   : Nat := 0
  start   : Start := {}
  blk     : Blk := {}
  hdr     : Tab Header := []
  inj     : Tab Inj := []
  cores   : Tab CoreSt := []
  dbgc    : Tab Dbgc := []
  quads   : Tab Quad := []
  chains  : Tab Chain := []
  link    : Tab (List LinkEl) := []
  ports   : Tab Port := []
  pgrps   : Tab Pgrp := []
  banks   : Tab Bank := []
  mem     : List Host.Cell := []
  synd    : Tab (BitVec 9) := []
  steer   : Steer := {}
  hot     : HotMon := {}
  icu     : Icu := {}
  icuc    : Tab Icuc := []
  mt      : Mt := {}
  cue     : Cue := {}
  timers  : Tab Timer := []
  doms    : Tab Dom := []
  pau     : Pau := {}
  pseq    : Pseq := {}
  sec     : Sec := {}
  dbg     : Dbg := {}
  ras     : Ras := {}
  cullet  : Cullet := {}
  pert    : Pert := {}
  fuse    : Fuse := {}
  deriving DecidableEq, Repr

/-- The block right after cold reset, before its start-up sequence (R375, R376): every field at the value the spec
gives for cold reset; READY is 0 until START_UP. -/
def State.reset : State := {}

end Sys2Proof.Machine
end

