-- ==== Sys2Proof/Machine/Ops.lean ====
section
/-! DEFINITION. The shared operations: sparse tables, bit fields, accessors of State, masters and permission
(R313, R314), headers, refusals and the dailies (R35, R349), SECDED and CRC (R181), scratchpad words (R226, R234). -/

namespace Sys2Proof.Machine

/-! ## Sparse tables -/

/-- The value of a sparse table at index `i`; `d` is the table's reset value. -/
def tget {α : Type} (d : Nat → α) : Tab α → Nat → α
  | [], i => d i
  | (j, v) :: t, i => if i = j then v else if i < j then d i else tget d t i

/-- A sparse table with index `i` set to `v`, in canonical form. -/
def tset {α : Type} [DecidableEq α] (d : Nat → α) (i : Nat) (v : α) : Tab α → Tab α
  | [] => if v = d i then [] else [(i, v)]
  | (j, w) :: t =>
    if i < j then (if v = d i then (j, w) :: t else (i, v) :: (j, w) :: t)
    else if i = j then (if v = d i then t else (i, v) :: t)
    else (j, w) :: tset d i v t

/-- The canonical form: indices strictly rising from `lo`, no value equal to the reset value. -/
def tabWf {α : Type} [DecidableEq α] (d : Nat → α) (lo : Nat) : Tab α → Bool
  | [] => true
  | (j, v) :: t => decide (lo ≤ j) && decide (v ≠ d j) && tabWf d (j + 1) t

/-- The reset value zero. -/
def zeroD {n : Nat} : Nat → BitVec n := fun _ => 0

/-! ## Bits -/

/-- Bits [hi:lo] of a word, as a number (R7). -/
def fld {n : Nat} (w : BitVec n) (hi lo : Nat) : Nat := (w.toNat >>> lo) % 2 ^ (hi + 1 - lo)

/-- Bit `i` of a word. -/
def bit {n : Nat} (w : BitVec n) (i : Nat) : Bool := w.getLsbD i

/-- A word with bits [hi:lo] replaced by `v`. -/
def setFld {n : Nat} (w : BitVec n) (hi lo v : Nat) : BitVec n :=
  BitVec.ofNat n (w.toNat - (fld w hi lo) * 2 ^ lo + (v % 2 ^ (hi + 1 - lo)) * 2 ^ lo)

/-- A word with bit `i` set to `b`. -/
def setBit {n : Nat} (w : BitVec n) (i : Nat) (b : Bool) : BitVec n := setFld w i i (if b then 1 else 0)

/-- 1 for true and 0 for false. -/
def b2n (b : Bool) : Nat := if b then 1 else 0

/-- 1 for true and 0 for false, as a word. -/
def b2w {n : Nat} (b : Bool) : BitVec n := if b then 1 else 0

/-- The numbers lo to lo + k − 1. -/
def rangeFrom (lo k : Nat) : List Nat := (List.range k).map (lo + ·)

/-- A saturating counter increased by `k` (R33). -/
def satAdd (r : Reg) (k : Nat) : Reg := if r.toNat + k ≥ 2 ^ 32 then 0xFFFFFFFF else r + BitVec.ofNat 32 k

/-- A saturating counter increased by 1. -/
def satInc (r : Reg) : Reg := satAdd r 1

/-- W1C: each 1 written clears the bit (R33). -/
def w1c (cur : Bool) (v : Reg) (i : Nat) : Bool := cur && !bit v i

/-- A list with its element `i` replaced. -/
def lset {α : Type} : List α → Nat → α → List α
  | [], _, _ => []
  | _ :: t, 0, v => v :: t
  | x :: t, i + 1, v => x :: lset t i v

/-- The element `i` of a list, or `d`. -/
def lget {α : Type} (d : α) : List α → Nat → α
  | [], _ => d
  | x :: _, 0 => x
  | _ :: t, i + 1 => lget d t i

/-! ## Accessors of the tables of State -/

def coreInit : Nat → CoreSt := fun _ => {}
def dbgcInit : Nat → Dbgc := fun _ => {}
def quadInit : Nat → Quad := fun _ => {}
def chainInit : Nat → Chain := fun _ => {}
def portInit : Nat → Port := fun _ => {}
def pgrpInit : Nat → Pgrp := fun _ => {}
def bankInit : Nat → Bank := fun _ => {}
def icucInit : Nat → Icuc := fun _ => {}
def timerInit : Nat → Timer := fun _ => {}
def domInit : Nat → Dom := fun _ => {}
def hdrInit : Nat → Header := fun _ => {}
def injInit : Nat → Inj := fun _ => {}
def ctxInit : Nat → Ctx := fun _ => {}
def slotInit : Nat → Slot := fun _ => {}
def srcInit : Nat → Src := fun _ => {}
def grpInit : Nat → Grp := fun _ => {}
def frameInit : Nat → Frame := fun _ => {}
def cueInit : Nat → CueEnt := fun _ => {}
def dirInit : Nat → DirEnt := fun _ => {}
def crucInit : Nat → Cruc := fun _ => {}
def cmpInit : Nat → Cmp := fun _ => {}
def logInit : Nat → LogEnt := fun _ => {}
/-- Every task set's priority starts with last[p] = 0x3F (R98). -/
def lastInit : Nat → Nat := fun _ => 0x3F

def State.core (s : State) (n : Nat) : CoreSt := tget coreInit s.cores n
def State.dbgcOf (s : State) (n : Nat) : Dbgc := tget dbgcInit s.dbgc n
def State.quad (s : State) (q : Nat) : Quad := tget quadInit s.quads q
def State.chain (s : State) (p : Nat) : Chain := tget chainInit s.chains p
def State.port (s : State) (p : Nat) : Port := tget portInit s.ports p
def State.pgrp (s : State) (g : Nat) : Pgrp := tget pgrpInit s.pgrps g
def State.bank (s : State) (b : Nat) : Bank := tget bankInit s.banks b
def State.icucOf (s : State) (n : Nat) : Icuc := tget icucInit s.icuc n
def State.timer (s : State) (c : Nat) : Timer := tget timerInit s.timers c
def State.dom (s : State) (d : Nat) : Dom := tget domInit s.doms d
def State.header (s : State) (pg : Nat) : Header := tget hdrInit s.hdr pg
def State.injOf (s : State) (pg : Nat) : Inj := tget injInit s.inj pg
def State.src (s : State) (n : Nat) : Src := tget srcInit s.icu.srcs n
def State.grp (s : State) (g : Nat) : Grp := tget grpInit s.icu.grps g
def State.cueEnt (s : State) (i : Nat) : CueEnt := tget cueInit s.cue.tbl i
def CoreSt.ctx (c : CoreSt) (n : Nat) : Ctx := tget ctxInit c.ctxs n
def Quad.slot (q : Quad) (n : Nat) : Slot := tget slotInit q.slots n

def State.setCore (s : State) (n : Nat) (c : CoreSt) : State := { s with cores := tset coreInit n c s.cores }
def State.setDbgc (s : State) (n : Nat) (c : Dbgc) : State := { s with dbgc := tset dbgcInit n c s.dbgc }
def State.setQuad (s : State) (n : Nat) (c : Quad) : State := { s with quads := tset quadInit n c s.quads }
def State.setChain (s : State) (n : Nat) (c : Chain) : State := { s with chains := tset chainInit n c s.chains }
def State.setPort (s : State) (n : Nat) (c : Port) : State := { s with ports := tset portInit n c s.ports }
def State.setPgrp (s : State) (n : Nat) (c : Pgrp) : State := { s with pgrps := tset pgrpInit n c s.pgrps }
def State.setBank (s : State) (n : Nat) (c : Bank) : State := { s with banks := tset bankInit n c s.banks }
def State.setIcuc (s : State) (n : Nat) (c : Icuc) : State := { s with icuc := tset icucInit n c s.icuc }
def State.setTimer (s : State) (n : Nat) (c : Timer) : State := { s with timers := tset timerInit n c s.timers }
def State.setDom (s : State) (n : Nat) (c : Dom) : State := { s with doms := tset domInit n c s.doms }
def State.setHeader (s : State) (n : Nat) (c : Header) : State := { s with hdr := tset hdrInit n c s.hdr }
def State.setInj (s : State) (n : Nat) (c : Inj) : State := { s with inj := tset injInit n c s.inj }
def State.setIcu (s : State) (v : Icu) : State := { s with icu := v }
def State.setSteer (s : State) (v : Steer) : State := { s with steer := v }
def State.setMt (s : State) (v : Mt) : State := { s with mt := v }
def State.setCue (s : State) (v : Cue) : State := { s with cue := v }
def State.setPau (s : State) (v : Pau) : State := { s with pau := v }
def State.setPseq (s : State) (v : Pseq) : State := { s with pseq := v }
def State.setSec (s : State) (v : Sec) : State := { s with sec := v }
def State.setDbg (s : State) (v : Dbg) : State := { s with dbg := v }
def State.setRas (s : State) (v : Ras) : State := { s with ras := v }
def State.setCullet (s : State) (v : Cullet) : State := { s with cullet := v }
def State.setPert (s : State) (v : Pert) : State := { s with pert := v }
def State.setFuse (s : State) (v : Fuse) : State := { s with fuse := v }
def State.setBlk (s : State) (v : Blk) : State := { s with blk := v }
def State.setHot (s : State) (v : HotMon) : State := { s with hot := v }
def State.setSrc (s : State) (n : Nat) (v : Src) : State := s.setIcu { s.icu with srcs := tset srcInit n v s.icu.srcs }
def State.setGrp (s : State) (n : Nat) (v : Grp) : State := s.setIcu { s.icu with grps := tset grpInit n v s.icu.grps }
def State.setCueEnt (s : State) (n : Nat) (v : CueEnt) : State := s.setCue { s.cue with tbl := tset cueInit n v s.cue.tbl }
def CoreSt.setCtx (c : CoreSt) (n : Nat) (v : Ctx) : CoreSt := { c with ctxs := tset ctxInit n v c.ctxs }
def Quad.setSlot (q : Quad) (n : Nat) (v : Slot) : Quad := { q with slots := tset slotInit n v q.slots }

/-- Context `x` of core `n`. -/
def State.ctx (s : State) (n x : Nat) : Ctx := (s.core n).ctx x
def State.setCtx (s : State) (n x : Nat) (v : Ctx) : State := s.setCore n ((s.core n).setCtx x v)
def State.slot (s : State) (q k : Nat) : Slot := (s.quad q).slot k
def State.setSlot (s : State) (q k : Nat) (v : Slot) : State := s.setQuad q ((s.quad q).setSlot k v)

/-- The parts of the state that the start of a BCLK keeps. -/
def State.snap (s : State) : Start := 
  { cues := s.cue.tbl, icu := s.icu, icuc := s.icuc, cost := s.pau.cost, doms := s.doms, hdr := s.hdr, cores := s.cores, dbgc := s.dbgc,
    quads := s.quads, banks := s.banks, timers := s.timers, mt := s.mt, sec := s.sec, dbg := s.dbg, ras := s.ras, hot := s.hot, steer := s.steer }

/-- The block with the pages that hold flags as they stood at the start of the BCLK (R38). -/
def State.atStart (s : State) : State :=
  let b := s.start
  { s with icu := b.icu, icuc := b.icuc, hdr := b.hdr, cores := b.cores, dbgc := b.dbgc, quads := b.quads, banks := b.banks, timers := b.timers,
           mt := b.mt, sec := b.sec, dbg := b.dbg, ras := b.ras, hot := b.hot, steer := b.steer }

def State.setStart (s : State) (b : Start) : State := { s with start := b }

/-- No timer event of a channel in this BCLK. -/
def tevInit : Nat → TimerEv := fun _ => {}

/-- What has happened to timer channel `c` in this BCLK, and the channel as it stood at its start (R267). -/
def State.tev (s : State) (c : Nat) : TimerEv := tget tevInit s.start.tev c
def State.setTev (s : State) (c : Nat) (e : TimerEv) : State := s.setStart { s.start with tev := tset tevInit c e s.start.tev }
def State.oldTimer (s : State) (c : Nat) : Timer := tget timerInit s.start.timers c

/-- The first refusal of a page in this BCLK is noted (R38). -/
def noteRef (pg : Nat) (win : Bool) (rec : Reg) (s : State) : State :=
  if (tget (fun _ => none) s.start.refs pg).isSome then s
  else s.setStart { s.start with refs := tset (fun _ => none) pg (some (win, rec)) s.start.refs }

/-- The entry of a domain's table that is in force: a write takes effect in the next BCLK (R308). -/
def State.domCfg (s : State) (d : Nat) : Dom := tget domInit s.start.doms d

/-! ## Maps of the cullet (R10, R190, R383). The reset maps are those of the fallback of R369. -/

def chMapD : Nat → Option Nat := fun l => some (17 * (l / 16) + l % 16)
def bkMapD : Nat → Option Nat := fun l => some (17 * (l / 16) + l % 16)
/-- Member 3n + k of the block in slot 14q + m. -/
def mbMapD : Nat → Option Nat := fun i => some (14 * (i / 12) + i % 12)
def ptMapD : Nat → Nat := fun p => p
def unit17D : Nat → BitVec 2 := fun p => if p % 17 = 16 then 1 else 0
def unit14D : Nat → BitVec 2 := fun p => if p % 14 ≥ 12 then 1 else 0
def unitPtD : Nat → BitVec 2 := fun p => if p ≥ 512 then 1 else 0

def State.chPhys (s : State) (l : Nat) : Option Nat := tget chMapD s.cullet.chMap l
def State.bkPhys (s : State) (l : Nat) : Option Nat := tget bkMapD s.cullet.bkMap l
def State.mbSlot (s : State) (i : Nat) : Option Nat := tget mbMapD s.cullet.mbMap i
def State.ptPhys (s : State) (l : Nat) : Nat := tget ptMapD s.steer.ptMap l
def State.chUnit (s : State) (p : Nat) : BitVec 2 := tget unit17D s.cullet.chSt p
def State.bkUnit (s : State) (p : Nat) : BitVec 2 := tget unit17D s.cullet.bkSt p
def State.slUnit (s : State) (p : Nat) : BitVec 2 := tget unit14D s.cullet.slSt p
def State.ptUnit (s : State) (p : Nat) : BitVec 2 := tget unitPtD s.cullet.ptSt p
/-- The logical chain that physical chain `p` serves. -/
def State.chLog (s : State) (p : Nat) : Option Nat := (List.range 64).find? fun l => decide (s.chPhys l = some p)
/-- The logical bank that physical bank `p` serves. -/
def State.bkLog (s : State) (p : Nat) : Option Nat := (List.range 64).find? fun l => decide (s.bkPhys l = some p)
/-- The logical port that physical port `p` serves, and so whether it is live (R201). A port without a logical
port is a spare or retired. -/
def State.ptLog (s : State) (p : Nat) : Option Nat :=
  if s.ptPhys p = p ∧ p < 512 then some p else (List.range 512).find? fun l => decide (s.ptPhys l = p)
/-- The logical core member 3n + k that slot `m` serves. -/
def State.mbLog (s : State) (m : Nat) : Option Nat := (List.range 48).find? fun i => decide (s.mbSlot i = some m)

/-! ## Page numbers (R29) -/

def pgCore (n : Nat) : Nat := 0x001 + n
def pgChain (n : Nat) : Nat := 0x020 + n
def pgQuad (n : Nat) : Nat := 0x070 + n
def pgPgrp (n : Nat) : Nat := 0x080 + n
def pgSbank (n : Nat) : Nat := 0x0B0 + n
def pgIcu : Nat := 0x100
def pgIcuc (n : Nat) : Nat := 0x101 + n
def pgMtime : Nat := 0x120
def pgCue : Nat := 0x121
def pgTimer (n : Nat) : Nat := 0x122 + n
def pgPau : Nat := 0x130
def pgPseq : Nat := 0x131
def pgSec : Nat := 0x140
def pgDbg : Nat := 0x141
def pgDbgc (n : Nat) : Nat := 0x142 + n
def pgRas : Nat := 0x160
def pgCullet : Nat := 0x161
def pgPert : Nat := 0x162
def pgFuse : Nat := 0x163
def pgSteer : Nat := 0x170
def pgHotmon : Nat := 0x171

/-! ## The dailies log queue (R349 to R351) -/

/-- A log entry's place in its BCLK: ascending page, then ascending code (R349). -/
def logKey (e : LogEnt) : Nat := fld e.e1 23 12 * 256 + fld e.e1 7 0

/-- A waiting entry put behind every earlier BCLK and in the order of R349 within its own. -/
def logInsert (b : Nat) (e : LogEnt) : List (Nat × LogEnt) → List (Nat × LogEnt)
  | [] => [(b, e)]
  | (c, f) :: t => if c = b ∧ logKey e < logKey f then (b, e) :: (c, f) :: t else (c, f) :: logInsert b e t

/-- An entry lost under R348 or R349 is counted, sets OVF, and still sets ATTNP or FAULTP (R351). -/
def rasLose (sev : Nat) (r : Ras) : Ras :=
  { r with lostcnt := satInc r.lostcnt, ovf := true, attnp := r.attnp || decide (sev = 1), faultp := r.faultp || decide (sev = 2) }

/-- An event enters the log queue (R349): code, severity, page, detail, and whether an injection caused it. With the queue full
the event that comes last in the order of its BCLK is lost. -/
def logEv (code sev page : Nat) (detail : Nat) (s : State) (inj : Bool := false) : State :=
  if sev = 0 ∧ !bit s.ras.rctl 2 then s
  else
    let e1 : Word := BitVec.ofNat 64 (code + sev * 2 ^ 8 + b2n s.mt.holdover * 2 ^ 10 + b2n inj * 2 ^ 11 + page * 2 ^ 12 + (detail % 2 ^ 32) * 2 ^ 32)
    let q := logInsert s.bclk ⟨s.mt.mtime, e1⟩ s.ras.queue
    match q.getLast? with
    | some x => if 64 < q.length then s.setRas (rasLose (fld x.2.e1 9 8) { s.ras with queue := q.dropLast }) else s.setRas { s.ras with queue := q }
    | none => s

/-! ## Headers and refusals (R31, R34, R35) -/

/-- A refused write or commit to a page: CFGERR, PERR and the dailies entry of PEVT.CFGERREN (R35), and PRIVCNT for
code 0x05 (R315). -/
def refuse (pg off code : Nat) (s : State) : State :=
  let h := s.header pg
  let perr : Reg := BitVec.ofNat 32 (off + code * 2 ^ 24)
  let s := noteRef pg false perr (if code = 5 then s.setSec { s.sec with privcnt := satInc s.sec.privcnt } else s)
  if h.cfgerr then s
  else
    let s := s.setHeader pg { h with cfgerr := true, perr := perr }
    if bit h.pevt 0 then logEv 0x01 0 pg perr.toNat s else s

/-- CFGERR of a page set by a refused table window write, whose index and code stand in the window's own register
(R30); the dailies entry has PERR, which such a write leaves (R350). -/
def refuseWin (pg : Nat) (rec : Reg) (code : Nat) (s : State) : State :=
  let h := s.header pg
  let s := noteRef pg true rec (if code = 5 then s.setSec { s.sec with privcnt := satInc s.sec.privcnt } else s)
  if h.cfgerr then s
  else
    let s := s.setHeader pg { h with cfgerr := true }
    if bit h.pevt 0 then logEv 0x01 0 pg h.perr.toNat s else s

/-- PSTAT.FAULT of a page rises, with the dailies entry of PEVT.FAULTEN (R31, R350). -/
def raiseFault (pg : Nat) (s : State) (inj : Bool := false) : State :=
  let h := s.header pg
  if h.fault then s
  else
    let s := s.setHeader pg { h with fault := true }
    if bit h.pevt 2 then logEv 0x03 1 pg 0 s inj else s

/-- PSTAT.FAULT of a page falls. -/
def clearFault (pg : Nat) (s : State) : State := s.setHeader pg { s.header pg with fault := false }

/-! ## Masters and permission (R313, R314) -/

/-- Level and job tag at which a master makes its accesses (R313). An idle core makes none; it reads MACHINE. -/
def masterLvl (s : State) : Master → BitVec 2 × BitVec 8
  | .core n => match (s.core n).cur with
    | some x => ((s.ctx n x).level, (s.ctx n x).tag)
    | none => (0, 0)
  | .fetcher _ => (0, 0)
  | .debug => if s.sec.lcField then (1, if bit s.sec.jdbg 8 then BitVec.ofNat 8 (fld s.sec.jdbg 7 0) else 0) else (0, 0)
  | .hostPort => (BitVec.ofNat 2 (fld s.sec.cplvl 1 0), BitVec.ofNat 8 (fld s.sec.cplvl 15 8))
  | .hostExchange => (BitVec.ofNat 2 (fld s.sec.cplvl 1 0), BitVec.ofNat 8 (fld s.sec.cplvl 15 8))
  | .service => (0, 0)

/-- Is a requester of level `l` and tag `j` permitted on a resource owned by (`ol`, `oj`)? (R314) -/
def permitted (l : BitVec 2) (j : BitVec 8) (ol : BitVec 2) (oj : BitVec 8) : Bool :=
  if l = 0 then true
  else if l = 1 then decide (ol = 1) || decide (ol = 2)
  else if l = 2 then decide (ol = 2) && decide (oj = j)
  else false

/-- Is the requester permitted by POWN of a page? -/
def pownOk (s : State) (pg : Nat) (lj : BitVec 2 × BitVec 8) : Bool :=
  permitted lj.1 lj.2 (s.header pg).level (s.header pg).tag

/-! ## SECDED and CRC (R181) -/

/-- The position of data bit `i` in the code of R181: positions that are no power of two, ascending. -/
def eccPos (i : Nat) : Nat :=
  if i < 1 then 3 else if i < 4 then i + 4 else if i < 11 then i + 5 else if i < 26 then i + 6
  else if i < 57 then i + 7 else i + 8

/-- XOR of a list of bits. -/
def xorAll (l : List Bool) : Bool := l.foldl Bool.xor false

/-- The check byte of a 64-bit word (R181). -/
def checkByte (d : Word) : BitVec 8 :=
  let c := (List.range 7).map fun i => xorAll ((List.range 64).map fun k => bit d k && (eccPos k).testBit i)
  let c7 := Bool.xor (xorAll ((List.range 64).map (bit d))) (xorAll c)
  BitVec.ofNat 8 ((c ++ [c7]).foldr (fun b n => b2n b + 2 * n) 0)

/-- What the code says of a word whose stored check byte differs from the computed one by `syn`: the data bit to
flip for a single-bit error (`none` when a check bit failed). -/
inductive EccOut where
  | good
  | single (flip : Option Nat)
  | double
  deriving DecidableEq, Repr

/-- Decoding of a syndrome (R181): odd overall parity is a single-bit error at the position of the low seven bits. -/
def eccDecode (syn : BitVec 8) : EccOut :=
  if syn = 0 then .good
  else if xorAll ((List.range 8).map (bit syn)) then
    let p := fld syn 6 0
    match (List.range 64).find? (fun i => eccPos i == p) with
    | some i => .single (some i)
    | none => if p = 0 ∨ p = 1 ∨ p = 2 ∨ p = 4 ∨ p = 8 ∨ p = 16 ∨ p = 32 ∨ p = 64 then .single none else .double
  else .double

/-- A word with bit `i` flipped. -/
def flipBit {n : Nat} (w : BitVec n) (i : Nat) : BitVec n := w ^^^ (BitVec.ofNat n (2 ^ i))

/-- The syndrome that flipping bit `i` of the 72 stored bits (64 data bits, then c0 to c7) adds to a word. -/
def flipSyn (i : Nat) : BitVec 8 :=
  if i < 64 then checkByte (BitVec.ofNat 64 (2 ^ i)) else BitVec.ofNat 8 (2 ^ (i - 64))

/-- One bit of CRC-32C, reflected (polynomial 0x1EDC_6F41 reversed is 0x82F6_3B78). -/
def crcBit (c : BitVec 32) : BitVec 32 := if bit c 0 then (c >>> 1) ^^^ 0x82F63B78 else c >>> 1

/-- One byte of CRC-32C. -/
def crcByte (c : BitVec 32) (b : Byte) : BitVec 32 :=
  let c := c ^^^ (b.setWidth 32)
  crcBit (crcBit (crcBit (crcBit (crcBit (crcBit (crcBit (crcBit c)))))))

/-- CRC-32C of a list of bytes (R181). -/
def crc32c (bs : List Byte) : BitVec 32 := (bs.foldl crcByte 0xFFFFFFFF) ^^^ 0xFFFFFFFF

/-- Byte `i` of a word, byte 0 least significant (R7). -/
def byteOf {n : Nat} (w : BitVec n) (i : Nat) : Byte := BitVec.ofNat 8 (w.toNat >>> (8 * i))

/-- 64-bit word `i` of a line. -/
def lineWord (l : Line) (i : Nat) : Word := BitVec.ofNat 64 (l.toNat >>> (64 * i))

/-! ## Power states of the domains (R289, R292) -/

def domChain (p : Nat) : Nat := p
def domSlot (m : Nat) : Nat := 68 + m
def domBank (b : Nat) : Nat := 124 + b
def domPgrp (g : Nat) : Nat := 192 + g
def domQuad (q : Nat) : Nat := 225 + q
def domStore (q : Nat) : Nat := 229 + q
def domBst (h : Nat) : Nat := 233 + h

/-- Is the domain in RUN or IDLE, and not entering another state, so that it accepts work? (R292, R294) -/
def awake (s : State) (d : Nat) : Bool := decide ((s.dom d).st.toNat ≤ 1) && decide ((s.dom d).goal = none)

/-- Is core member `i` being resynchronised (R343)? It has no vote until that ends. -/
def resyncing (s : State) (i : Nat) : Bool := s.cullet.running.any fun r => decide (r.kind = 2) && decide (r.logical = i)

/-- The members of core `n` that vote: (member, slot). -/
def voters (s : State) (n : Nat) : List (Nat × Nat) :=
  ((List.range 3).filter fun k => !resyncing s (3 * n + k)).filterMap fun k => (s.mbSlot (3 * n + k)).map fun m => (k, m)

/-- The domains of the slots that serve core `n` (R291). -/
def coreDoms (s : State) (n : Nat) : List Nat := (voters s n).map fun v => domSlot v.2

/-- The domains of the slots that the maps give a core, one being resynchronised included. -/
def slotDoms (s : State) (n : Nat) : List Nat := ((List.range 3).filterMap fun k => s.mbSlot (3 * n + k)).map domSlot

/-- The domains that the sequencer treats as one unit with `d` (R291): the slots of one logical core. -/
def domUnit (s : State) (d : Nat) : List Nat :=
  if 68 ≤ d ∧ d < 124 then match s.mbLog (d - 68) with
    | some i => slotDoms s (i / 3)
    | none => [d]
  else [d]

/-- An operation on every domain of a unit. -/
def onUnit (f : Nat → State → State) (d : Nat) (s : State) : State := (domUnit s d).foldl (fun s e => f e s) s

/-- A domain stays in its state where the sequencer has decided in this very BCLK that it enters a deeper one (R300). -/
def stayOne (d : Nat) (s : State) : State :=
  let m := s.dom d
  if m.goal ≠ none ∧ m.goalAt = some s.bclk then
    s.setDom d { m with goal := none, goalAt := none, dreq := if m.st.toNat ≤ 1 then 1 else m.st }
  else s

/-- A demand stands on a domain. -/
def markDemand (d : Nat) (s : State) : State :=
  if (s.dom d).demand then s else s.setDom d { s.dom d with demand := true }

/-- A demand on a domain (R294); it governs over a decision of the same BCLK to enter a deeper state (R300). -/
def addDemand (d : Nat) (s : State) : State :=
  onUnit stayOne d (markDemand d s)

/-- Is the core's member domains awake? -/
def coreAwake (s : State) (n : Nat) : Bool := (coreDoms s n).all (awake s)

/-! ## Scratchpad words (R226, R234) -/

/-- The 64-bit word at physical word index `w` (32,768 × bank + word) as stored. -/
def rawWord (s : State) (w : Nat) : Word :=
  BitVec.ofNat 64 ((List.range 8).foldr (fun i n => (tget zeroD s.mem (8 * w + i)).toNat + 256 * n) 0)

/-- Bytes written to a stored word: byte `i` of `v` where `be` has bit `i`. -/
def putBytes (mem : List Host.Cell) (w : Nat) (v : Word) (be : Nat) : List Host.Cell :=
  (List.range 8).foldl (fun m i => if be.testBit i then tset zeroD (8 * w + i) (byteOf v i) m else m) mem

/-- What a read of the word sees (R234): the corrected value, and whether it is uncorrectable. -/
def spPeek (s : State) (w : Nat) : Word × EccOut :=
  let v := rawWord s w
  match eccDecode ((tget zeroD s.synd w).setWidth 8) with
  | .good => (v, .good)
  | .single (some i) => (flipBit v i, .single (some i))
  | .single none => (v, .single none)
  | .double => (v, .double)

/-- A read of a word with the effects of R234: a single-bit error is counted and queued for write-back, an
uncorrectable one is counted, recorded and logged. -/
def spRead (s : State) (w : Nat) : State × Word × Bool :=
  let r := spPeek s w
  let b := w / 32768
  let k := s.bank b
  let j := bit (tget zeroD s.synd w) 8
  match r.2 with
  | .good => (s, r.1, false)
  | .single _ =>
    if k.corrQ.contains (w % 32768) then (s, r.1, false)
    else (s.setBank b { k with corr := satInc k.corr, winC := k.winC + 1, winInj := k.winInj || j, corrQ := k.corrQ ++ [w % 32768] }, r.1, false)
  | .double =>
    let k := { k with uerr := satInc k.uerr, winU := k.winU + 1, winInj := k.winInj || j }
    (logEv 0x40 1 (pgSbank b) (w % 32768) (s.setBank b { k with uerraddr := BitVec.ofNat 32 (2 ^ 31 + w % 32768) }) j, 0, true)

/-- A write of the enabled bytes of a word (R232, R234): a full write makes the word good; a partial one merges into
the corrected word, and leaves an uncorrectable word uncorrectable. -/
def spWrite (s : State) (w : Nat) (v : Word) (be : Nat := 255) : State :=
  if be % 256 = 255 then { s with mem := putBytes s.mem w v 255, synd := tset zeroD w 0 s.synd }
  else if be % 256 = 0 then s
  else match (spPeek s w).2 with
    | .double => { s with mem := putBytes s.mem w v be }
    | _ => { s with mem := putBytes (putBytes s.mem w (spPeek s w).1 255) w v be, synd := tset zeroD w 0 s.synd }

/-- The physical word index of a scratchpad byte address, `none` where no bank serves it (R18, R383). -/
def spIndex (s : State) (a : Nat) : Option Nat :=
  if a ≥ 0x1000000 then none else (s.bkPhys (a / 0x40000)).map fun b => b * 32768 + (a % 0x40000) / 8

/-- Is the requester permitted by POWN of the bank that holds physical word `w`? (R314) -/
def spOk (s : State) (w : Nat) (lj : BitVec 2 × BitVec 8) : Bool := pownOk s (pgSbank (w / 32768)) lj

/-- The owner code of a physical bank (R228): the director of its quadrant until a handover. -/
def ownerOf (s : State) (b : Nat) : BitVec 8 :=
  match (s.bank b).owner with
  | some c => c
  | none => BitVec.ofNat 8 (4 * (b / 17))

/-- Every LOCK reservation that satisfies `f` breaks (R58); FLAGS.RSV of the executing context falls. -/
def breakResv (f : Nat → Bool) (s : State) : State :=
  (List.range 16).foldl (fun s n =>
    let c := s.core n
    match c.lock with
    | some l => match l.resv with
      | some w => if l.held && f w then
          let c := { c with lock := some { l with held := false } }
          match c.cur with
          | some x => s.setCore n (c.setCtx x { c.ctx x with flags := setBit (c.ctx x).flags 13 false })
          | none => s.setCore n c
        else s
      | none => s
    | none => s) s

/-- A write of a word by a master other than the reserving core breaks a reservation on it (R58). -/
def spWriteBreak (s : State) (w : Nat) (v : Word) (be : Nat) (me : Option Nat) : State :=
  let s := spWrite s w v be
  (List.range 16).foldl (fun s n =>
    if me = some n then s
    else
      let c := s.core n
      match c.lock with
      | some l => if l.held && decide (l.resv = some w) then
          let c := { c with lock := some { l with held := false } }
          match c.cur with
          | some x => s.setCore n (c.setCtx x { c.ctx x with flags := setBit (c.ctx x).flags 13 false })
          | none => s.setCore n c
        else s
      | none => s) s

/-- May an access to bank `b` proceed? (R230, R237, R240, R318, R344) It waits while the bank sleeps, is frozen, is being
wiped, or, for a user of port B, while a migration holds port B. -/
def bankOpen (s : State) (b : Nat) (portA : Bool) : Bool :=
  awake s (domBank b) && !(s.header (pgSbank b)).freeze && !s.sec.moving && (portA || !(s.bank b).copying)

/-- The permission refusals of R315 count in PRIVCNT. -/
def countPriv (s : State) : State := s.setSec { s.sec with privcnt := satInc s.sec.privcnt }

/-- A fresh number for the next free value. -/
def drawFresh (s : State) : State × Nat := ({ s with fresh := s.fresh + 1 }, s.fresh)

/-- A step that always answers a next state. -/
abbrev Out := Host.Outcome State Fault Refusal

/-- What the block does with an input, or on its own, is nothing while it is unpowered or in cold reset (R360, R361). -/
def whenUp (s : State) (o : Out) : Out := if s.blk.started then o else .next s

end Sys2Proof.Machine
end

