-- ==== Sys2Proof/Machine/Power.lean ====
section
/-! DEFINITION. Power domains and admission: the base operations that other units use (R289 to R295, R301 to R307). -/

namespace Sys2Proof.Machine

/-- The reset LIMIT of a domain (R309). -/
def limitD (d : Nat) : BitVec 3 := if d < 68 ∨ (192 ≤ d ∧ d < 225) then 4 else 3

/-- The quadrant of a domain, or 4 for a unit of no quadrant (R289, R309). -/
def domQuadrant (d : Nat) : Nat :=
  if d < 68 then d / 17 else if d < 124 then (d - 68) / 14 else if d < 192 then (d - 124) / 17
  else if d < 225 then 4 else if d < 229 then d - 225 else if d < 233 then d - 229 else 4

/-- The reset GROUPS of a domain (R309). -/
def groupsD (d : Nat) : BitVec 8 := BitVec.ofNat 8 (2 ^ domQuadrant d)

/-- LIMIT and GROUPS of a table entry. -/
def Dom.limitOr (m : Dom) (d : Nat) : BitVec 3 := m.limit.getD (limitD d)
def Dom.groupsOr (m : Dom) (d : Nat) : BitVec 8 := m.groups.getD (groupsD d)
/-- LIMIT and GROUPS in force. -/
def State.domLimit (s : State) (d : Nat) : BitVec 3 := (s.domCfg d).limitOr d
def State.domGroups (s : State) (d : Nat) : BitVec 8 := (s.domCfg d).groupsOr d

/-- Is the unit of a domain retired? (R291, R308) -/
def domRetired (s : State) (d : Nat) : Bool :=
  if d < 68 then decide (s.chUnit d = 2) else if d < 124 then decide (s.slUnit (d - 68) = 2)
  else if d < 192 then decide (s.bkUnit (d - 124) = 2) else false

/-- Is the unit of a domain a cullet spare, or a port group that holds a free spare port? (R291, R308, R338) -/
def domSpare (s : State) (d : Nat) : Bool :=
  if d < 68 then decide (s.chUnit d = 1) else if d < 124 then decide (s.slUnit (d - 68) = 1)
  else if d < 192 then decide (s.bkUnit (d - 124) = 1)
  else if d < 225 then (rangeFrom (16 * (d - 192)) 16).any fun p => decide (s.ptUnit p = 1)
  else false

/-- Has the fabric acknowledged what the block asks of a domain, so that PWR_DREQ may change? (R367) -/
def fabricSettled (s : State) (d : Nat) : Bool :=
  decide ((s.dom d).goal = none) && !(s.dom d).waking && decide ((s.dom d).dack = (s.dom d).dreq)

/-- The handshake code that asks for a state (R367). -/
def dreqCode (st : BitVec 3) : BitVec 3 := if st.toNat ≤ 1 then 1 else st

/-! ## Admission -/

def costD : Nat → BitVec 12 := fun k => BitVec.ofNat 12 (64 + 32 * k)
/-- COST of class `k` as a grant or booking reads it (R311): a write counts from the next BCLK on (R307). -/
def State.classCost (s : State) (k : Nat) : Nat := (tget costD s.start.cost k).toNat
/-- The effective budget B (R301). -/
def budgetB (u : Pau) : Nat := min (min u.chip.toNat 3200) u.cap.toNat
/-- HELD: the cost of leaves granted and not released (R302). -/
def heldSum (u : Pau) : Nat := u.held.foldl (fun n e => n + e.2) 0
/-- BOOKED: the cost of bookings held (R304). -/
def bookedSum (u : Pau) : Nat := u.bookings.foldl (fun n e => n + e.cost) 0
/-- GR: the cost of leaves that took effect in this BCLK and the 1,999 before it (R303). -/
def grSum (u : Pau) (now : Nat) : Nat := u.ramp.foldl (fun n e => if now < e.1 + 2000 then n + e.2 else n) 0
/-- DUE: the cost of bookings not yet leave whose TIME is at or before MTIME + 1,000 (R303). -/
def dueSum (u : Pau) (mt : Word) : Nat :=
  u.bookings.foldl (fun n e => if !e.fired && decide (e.time.toNat ≤ mt.toNat + 1000) then n + e.cost else n) 0

/-- OVER after a change of the sums, with the dailies entry of its rise (R305). -/
def updOver (s : State) : State :=
  let o := decide (heldSum s.pau + bookedSum s.pau > budgetB s.pau)
  let s := if o && !s.pau.isOver then logEv 0x60 0 pgPau (heldSum s.pau) s else s
  s.setPau { s.pau with isOver := o }

/-- A request for leave enters its queue, once (R302). -/
def askLeave (r : LeaveReq) (s : State) : State :=
  if s.pau.reqs.any (fun x => decide (x.for_ = r.for_)) then s
  else s.setPau { s.pau with reqs := s.pau.reqs ++ [r] }

/-- A request leaves its queue without a grant, when its take is aborted (R302, R307). -/
def dropRequest (f : LeaveFor) (s : State) : State :=
  s.setPau { s.pau with reqs := s.pau.reqs.filter fun r => decide (r.for_ ≠ f) }

/-- The request of a take that ends without having been aborted stands until it is granted (R302); the leave is then released at
once. -/
def orphanRequest (q k seq : Nat) (s : State) : State :=
  s.setPau { s.pau with reqs := s.pau.reqs.map fun r => if r.for_ = .take q k then { r with for_ := .ended q seq } else r }

/-- A leave granted on demand is released (R301). -/
def releaseLeave (f : LeaveFor) (s : State) : State :=
  updOver (s.setPau { s.pau with held := s.pau.held.filter fun e => decide (e.1 ≠ f) })

/-- A booking is released (R304). -/
def releaseBooking (q k : Nat) (s : State) : State :=
  updOver (s.setPau { s.pau with bookings := s.pau.bookings.filter fun b => !(decide (b.q = q) && decide (b.slot = k)) })

/-- Booking of a take's class for its cue time (R304): made, or refused and counted in REFCNT. -/
def book (q k cls : Nat) (t : Word) (s : State) : State × Bool :=
  let c := s.classCost cls
  let u := s.pau
  let near := u.bookings.foldl (fun n e =>
    if decide (e.time.toNat ≤ t.toNat + 1000) && decide (t.toNat ≤ e.time.toNat + 1000) then n + e.cost else n) 0
  if (s.header pgPau).freeze = false ∧ bookedSum u + c ≤ u.pool.toNat ∧ (u.rampmax = 0 ∨ near + c ≤ u.rampmax.toNat) then
    (updOver (s.setPau { u with bookings := u.bookings ++ [⟨q, k, c, t, false⟩] }), true)
  else (s.setPau { u with refcnt := satInc u.refcnt }, false)

/-- A booking becomes its take's leave when the cue fires; it counts in GR from this BCLK (R303, R304). -/
def bookingFires (q k : Nat) (s : State) : State :=
  let mine := fun (b : Booking) => decide (b.q = q) && decide (b.slot = k)
  let c := (s.pau.bookings.filter mine).foldl (fun n e => n + e.cost) 0
  s.setPau { s.pau with bookings := s.pau.bookings.map fun b => if mine b then { b with fired := true } else b,
                        ramp := s.pau.ramp ++ [(s.bclk, c)] }

/-! ## Entering and leaving states -/

/-- One domain begins to enter a state deeper than IDLE, or IDLE itself at once (R292, R367). -/
def enterOne (st : BitVec 3) (d : Nat) (s : State) : State :=
  if st.toNat ≤ 1 then s.setDom d { s.dom d with st := st }
  else s.setDom d { s.dom d with goal := some st, goalAt := some s.bclk, dreq := dreqCode st }

/-- The domain of a retired unit is asked for COLD, once every earlier request is acknowledged (R291, R310, R367); a wake that
waits for leave is given up. -/
def askCold (d : Nat) (s : State) : State :=
  let s := if (s.dom d).wleave || (s.dom d).wsched then
      dropRequest (.wake d) (s.setDom d { s.dom d with wleave := false, wsched := false }) else s
  if fabricSettled s d then enterOne 4 d s else s

/-- The state that a domain is in or entering. -/
def stateOf (s : State) (d : Nat) : Nat := match (s.dom d).goal with | some g => g.toNat | none => (s.dom d).st.toNat

/-- A domain and its unit begin to enter a state that is deeper than theirs (R291). -/
def enterState (st : BitVec 3) (d : Nat) (s : State) : State :=
  onUnit (fun e s => if stateOf s e < st.toNat then enterOne st e s else s) d s

/-- One domain begins to wake (R295): from GLORY at once, from LEHR or COLD after leave in WCLASS at WPRIO. While it
still enters a state, the wake waits for the entry to end (R292, R300). -/
def wakeOne (d : Nat) (s : State) : State :=
  let m := s.dom d
  if m.goal ≠ none then markDemand d s
  else if m.waking ∨ m.wleave ∨ m.st.toNat ≤ 1 then s
  else
    let s := s.setPseq { s.pseq with wakecnt := satInc s.pseq.wakecnt }
    if m.st = 2 then s.setDom d { m with waking := true, wsched := false, dreq := 1 }
    else askLeave ⟨(s.domCfg d).wprio.toNat, .wake d, (s.domCfg d).wclass.toNat⟩ (s.setDom d { m with wleave := true, wsched := false })

/-- A domain and its unit begin to wake (R291, R295). -/
def wakeDom (d : Nat) (s : State) : State := onUnit wakeOne d s

/-- A demand on every domain of a core (R285, R294). -/
def demandCore (n : Nat) (s : State) : State := (coreDoms s n).foldl (fun s d => addDemand d s) s

/-- Is the block as a whole in LEHR or COLD? (R299) -/
def blockAsleep (s : State) : Bool := (List.range 235).all fun d => decide ((s.dom d).st.toNat ≥ 3)

end Sys2Proof.Machine
end

