-- ==== Sys2Proof/Machine/Steering.lean ====
section
/-! DEFINITION. The Bank Steering Table, the hash functions and the steering checks (R183 to R190). -/

namespace Sys2Proof.Machine

/-- Every Bank Steering Table entry starts as H1, SKEW 0, JOBTAG 0, no attribute (R184). -/
def bstD : Nat → Reg := fun _ => 0x00000001

def State.bstEntry (s : State) (g : Nat) : Reg := tget bstD s.steer.bst g
def State.setBst (s : State) (g : Nat) (v : Reg) : State :=
  s.setSteer { s.steer with bst := tset bstD g v s.steer.bst, synd := tset zeroD g 0 s.steer.synd }

/-- The number of set bits below bit `k`. -/
def popLow {n : Nat} (w : BitVec n) (k : Nat) : Nat := ((List.range k).filter (bit w)).length

/-- The number of set bits. -/
def popc {n : Nat} (w : BitVec n) : Nat := popLow w n

/-- The row of an entry (R345). -/
def bstRow (g : Nat) : Nat := g / 64

/-- Poison a steering entry (R187): all ones, counted, recorded and logged. -/
def bstPoison (g : Nat) (inj : Bool) (s : State) : State :=
  let s := s.setBst g 0xFFFFFFFF
  logEv 0x33 1 pgSteer g
    (s.setSteer { s.steer with uerr := satInc s.steer.uerr, pois := BitVec.ofNat 32 (2 ^ 31 + g) }) inj

/-- Check one entry (R187): a correctable error is corrected in place and counted, an uncorrectable one poisons it. -/
def bstCheck (g : Nat) (s : State) : State :=
  let e := tget zeroD s.steer.synd g
  if e = 0 then s
  else if popLow e 39 = 1 then
    s.setSteer { s.steer with synd := tset zeroD g 0 s.steer.synd, corr := satInc s.steer.corr }
  else bstPoison g (bit e 39) s

/-- A row in which an injected error was met (R353). -/
def noteRowInj (r : Nat) (inj : Bool) (s : State) : State :=
  if inj && !s.steer.rowInj.contains r then s.setSteer { s.steer with rowInj := s.steer.rowInj ++ [r] } else s

/-- A lookup of an entry, with its check; a second uncorrectable entry of one row makes the row due for
replacement (R187, R345). -/
def bstLookup (g : Nat) (s : State) : State × Reg :=
  let e := tget zeroD s.steer.synd g
  let bad := decide (popLow e 39 ≥ 2)
  let s := bstCheck g s
  let r := bstRow g
  let s := noteRowInj r (bad && bit e 39) s
  let s := if bad then
      (if s.steer.rowUerr.contains r then s.setSteer { s.steer with rowDue := s.steer.rowDue ++ [r] }
       else s.setSteer { s.steer with rowUerr := s.steer.rowUerr ++ [r] })
    else s
  (s, s.bstEntry g)

/-- 9-bit rotation left by `r` (R189). -/
def rot9 (x : Nat) (r : Nat) : Nat := (x * 2 ^ (r % 9) + x / 2 ^ (9 - r % 9)) % 512

/-- The rotations of a hash function; `none` omits the term (R189). -/
def hashRot (k : Nat) : Option Nat × Option Nat × Option Nat :=
  match k with
  | 0 => (none, none, none)
  | 1 => (some 0, some 0, some 0)
  | 2 => (some 1, some 2, some 3)
  | 3 => (some 2, some 4, some 6)
  | 4 => (some 3, some 6, some 0)
  | 5 => (some 4, some 8, some 3)
  | 6 => (some 5, some 1, some 6)
  | 7 => (some 6, some 3, some 0)
  | 8 => (some 7, some 5, some 3)
  | 9 => (some 8, some 7, some 6)
  | 10 => (some 1, some 3, some 5)
  | 11 => (some 3, some 7, some 2)
  | 12 => (some 5, some 2, some 8)
  | 13 => (some 0, none, none)
  | 14 => (some 4, none, none)
  | _ => (none, some 0, some 0)

/-- One term of a hash. -/
def hashTerm (x : Nat) : Option Nat → Nat
  | some r => rot9 x r
  | none => 0

/-- Hash function H`k` of a line number (R189). -/
def hashH (k l : Nat) : Nat :=
  let r := hashRot k
  (l % 512) ^^^ hashTerm (l / 2 ^ 9 % 512) r.1 ^^^ hashTerm (l / 2 ^ 18 % 512) r.2.1 ^^^ hashTerm (l / 2 ^ 27 % 64) r.2.2

/-- The logical port of line `l` under entry `e` (R183). -/
def steerPort (e : Reg) (l : Nat) : Nat := (hashH (fld e 3 0) l + fld e 12 4) % 512

/-- The local line address of line `l` (R176). -/
def localAddr (l : Nat) : Nat := l / 512

/-- The steering checks of R185 for a line; the answer is the take's fault code. A gateway access ignores NS. -/
def steerCheck (e : Reg) (lvl : BitVec 2) (tag : BitVec 8) (gateway store : Bool) : Option (BitVec 8) :=
  if fld e 31 24 ≠ 0 then some 0x0A
  else if lvl ≠ 0 ∧ fld e 20 13 ≠ tag.toNat then some 0x07
  else if bit e 22 ∧ !gateway then some 0x0A
  else if bit e 21 ∧ store then some 0x09
  else none

/-- The half of the table that holds a granule's entry (R188). -/
def bstHalf (g : Nat) : Nat := if g < 262144 then 0 else 1

/-- Is the half that holds a granule's entry awake? (R188) -/
def bstAwake (s : State) (g : Nat) : Bool := awake s (domBst (bstHalf g))

/-- The answer of steering a line (R183 to R185): the ports, or the fault code, with the entry used. The lookup is a demand on
its half of the table (R294). -/
def steerLine (l : Nat) (lvl : BitVec 2) (tag : BitVec 8) (gateway store : Bool) (s : State) :
    State × Except (BitVec 8) (Nat × Nat) :=
  let r := bstLookup (l / 2 ^ 14) (addDemand (domBst (bstHalf (l / 2 ^ 14))) s)
  match steerCheck r.2 lvl tag gateway store with
  | some c => (r.1, .error c)
  | none => (r.1, .ok (steerPort r.2 l, r.1.ptPhys (steerPort r.2 l)))

/-- The gateway's read buffer drops every line (R196). -/
def gwFlush (s : State) : State := s.setSteer { s.steer with gwBuf := [] }

/-- A table write takes effect for its granule: the buffer drops every line of it (R196). -/
def bstStore (g : Nat) (v : Reg) (s : State) : State :=
  let s := s.setBst g v
  s.setSteer { s.steer with gwBuf := s.steer.gwBuf.filter fun x => decide (x.1 / 2 ^ 14 ≠ g) }

/-- A refused Bank Steering Table window write (R186, R35). -/
def bstRefuse (g code : Nat) (s : State) : State :=
  let rec_ : Reg := BitVec.ofNat 32 (g + code * 2 ^ 24)
  let s := if (s.header pgSteer).cfgerr then s else s.setSteer { s.steer with err := rec_ }
  refuseWin pgSteer rec_ code s

/-- May the requester use the Bank Steering Table window? A JOB requester never (R314). -/
def bstOk (s : State) (lj : BitVec 2 × BitVec 8) : Bool := pownOk s pgSteer lj && decide (lj.1 ≠ 2)

/-- A Bank Steering Table window write after its checks (R30, R186). An aligned 64-bit write changes two entries. -/
def bstWrite (lj : BitVec 2 × BitVec 8) (off : Nat) (wide : Bool) (v : Word) (s : State) : State :=
  let g := off / 4
  let lo : Reg := v.setWidth 32
  let hi : Reg := BitVec.ofNat 32 (fld v 63 32)
  if !bstOk s lj then bstRefuse g 5 s
  else if fld lo 31 24 ≠ 0 ∨ (wide ∧ fld hi 31 24 ≠ 0) then bstRefuse g 1 s
  else if wide then bstStore (g + 1) hi (bstStore g lo s) else bstStore g lo s

/-- The half of the table that a row belongs to (R345). -/
def rowHalf (r : Nat) : Nat := if r < 4096 then 0 else 1

/-- `bstScrub` (R187, R202, R345): while SCRUBEN = 1 and the half is awake, one entry is checked; a row with an error
on two successive passes becomes due for replacement. -/
def execBstScrub (s : State) : Out := whenUp s <|
  let g := s.steer.scrub
  let r := bstRow g
  if bit s.steer.bstctl 0 && awake s (domBst (bstHalf g)) then
    let e := tget zeroD s.steer.synd g
    let had := decide (e ≠ 0)
    let s := noteRowInj r (had && bit e 39) (bstCheck g s)
    let t := s.steer
    let t := if had then
        { t with rowNow := if t.rowNow.contains r then t.rowNow else t.rowNow ++ [r],
                 rowDue := if t.rowPrev.contains r && !t.rowDue.contains r then t.rowDue ++ [r] else t.rowDue }
      else t
    let t := if g + 1 = 524288 then { t with scrub := 0, rowPrev := t.rowNow, rowNow := [] } else { t with scrub := g + 1 }
    .next (s.setSteer t)
  else .next s

/-- `steeringRowReplaced` (R345): the row's entries, corrected, move to a spare row of their half; with no spare row
free the row stays in service and the entry has DETAIL[31] = 1. -/
def execSteeringRowReplaced (row : Fin 8192) (s : State) : Out :=
  let r := row.val
  if !s.steer.rowDue.contains r then .next s
  else
    let h := rowHalf r
    let free := if h = 0 then s.steer.spare0 else s.steer.spare1
    let t := s.steer
    let inj := t.rowInj.contains r
    let t := { t with rowInj := t.rowInj.filter (· ≠ r), rowDue := t.rowDue.filter (· ≠ r), rowUerr := t.rowUerr.filter (· ≠ r),
                      rowPrev := t.rowPrev.filter (· ≠ r), rowNow := t.rowNow.filter (· ≠ r) }
    if free = 0 then .next (logEv 0x34 1 pgSteer (r + 2 ^ 31) (s.setSteer t) inj)
    else
      let t := if h = 0 then { t with spare0 := free - 1 } else { t with spare1 := free - 1 }
      let s := (rangeFrom (64 * r) 64).foldl (fun s g => bstCheck g s) (s.setSteer t)
      .next (logEv 0x34 1 pgSteer r s inj)

end Sys2Proof.Machine
end

