-- ==== Sys2Proof/Machine/Inject.lean ====
section
/-! DEFINITION. Armed injections (R352 to R355). -/

namespace Sys2Proof.Machine

/-- KIND of INJCTL. -/
def Inj.kind (i : Inj) : Nat := fld i.ctl 3 0
/-- ARM of INJCTL. -/
def Inj.armed (i : Inj) : Bool := bit i.ctl 4
/-- BIT of INJCTL. -/
def Inj.bitPos (i : Inj) : Nat := fld i.ctl 15 8
/-- POS of INJPOS. -/
def Inj.at (i : Inj) : Nat := fld i.pos 18 0

/-- Does an injection of one of the kinds act now on page `pg`? (R352, R354) -/
def injDue (s : State) (pg : Nat) (kinds : List Nat) : Option Nat :=
  let i := s.injOf pg
  if s.blk.testen ∧ i.armed ∧ kinds.contains i.kind then some i.kind else none

/-- The injection of page `pg` has acted: it is counted and, unless REPEAT = 1, disarmed (R354). -/
def injDone (pg : Nat) (s : State) : State :=
  let i := s.injOf pg
  s.setInj pg { i with cnt := satInc i.cnt, ctl := if bit i.ctl 5 then i.ctl else setBit i.ctl 4 false }

/-- The stored bits that a single-bit (`dbl` false) or double-bit injection flips (R354). -/
def injBits (i : Inj) (dbl : Bool) : List Nat := if dbl then [i.bitPos % 72, (i.bitPos + 1) % 72] else [i.bitPos % 72]

end Sys2Proof.Machine
end

