-- ==== Sys2Proof/Machine/Scratch.lean ====
section
/-! DEFINITION. Scratchpad banks: correction, scrubbing, handover, column repair and refresh, and host exchange
(R226 to R241, R366). -/

namespace Sys2Proof.Machine

/-- `correctionWriteback` (R234): the oldest corrected word that waits is written back, if it still reads as corrected. -/
def execCorrectionWriteback (bank : Fin 68) (s : State) : Out :=
  let k := s.bank bank
  match k.corrQ with
  | [] => .next s
  | w :: rest =>
    if !awake s (domBank bank) || k.copying then .next s
    else
      let s := s.setBank bank { k with corrQ := rest }
      match (spPeek s (bank * 32768 + w)).2 with
      | .single _ => .next (spWrite s (bank * 32768 + w) (spPeek s (bank * 32768 + w)).1)
      | _ => .next s

/-- `scratchpadScrub` (R235): while SCRUBEN = 1 and the bank is awake, the next word is read under R234. -/
def execScratchpadScrub (bank : Fin 68) (s : State) : Out := whenUp s <|
  let k := s.bank bank
  if bit k.acfg 8 && awake s (domBank bank) && !k.copying && !s.sec.moving then
    let s := s.setBank bank { k with scrub := (k.scrub + 1) % 32768 }
    .next (spRead s (bank * 32768 + k.scrub)).1
  else .next s

/-- A write of a defined code to OWNREQ (R236): a handover starts, and unless it is to the present owner the
reservations on the bank's words break; while one is pending it is ignored. -/
def ownreqWrite (b : Nat) (v : Reg) (s : State) : State :=
  let k := s.bank b
  if k.pend ≠ none then s.setBank b { k with holost := true }
  else
    let c : BitVec 8 := BitVec.ofNat 8 (fld v 7 0)
    let s := s.setBank b { k with pend := some c }
    if c = ownerOf s b then s else breakResv (fun w => decide (w / 32768 = b)) s

/-- `handoverEnd` (R236): OWNER takes the new code. -/
def execHandoverEnd (bank : Fin 68) (s : State) : Out :=
  match (s.bank bank).pend with
  | some c => .next (s.setBank bank { s.bank bank with owner := some c, pend := none })
  | none => .next s

/-- Bit `i` of the stored word at physical index `w` flipped: a data bit, or a check bit from 64. -/
def flipStored (w i : Nat) (s : State) : State :=
  let s := { s with synd := tset zeroD w (tget zeroD s.synd w ^^^ (flipSyn i).setWidth 9) s.synd }
  if i < 64 then { s with mem := putBytes s.mem w (flipBit (rawWord s w) i) 255 } else s

/-- The repair entry that governs column `c` of sub-array `sub` (R238). -/
def colSource (k : Bank) (sub c : Nat) : Option Nat :=
  (List.range 4).find? fun e => bit (tget zeroD k.repair (4 * sub + e)) 6 && decide (fld (tget zeroD k.repair (4 * sub + e)) 5 0 = c)

/-- Column `c` of a sub-array comes from other cells than before: their content is free (R239). -/
def freeColumn (b sub c : Nat) (s : State) : State :=
  let d := drawFresh s
  (List.range 512).foldl (fun s r => if (Config.spareColumn d.2).getLsbD r then flipStored (b * 32768 + r * 64 + c) sub s else s) d.1

/-- A write of REPENT for the entry that REPSEL names (R238, R239): FUSED clears. -/
def repentWrite (b : Nat) (v : Reg) (s : State) : State :=
  let k := s.bank b
  let sub := fld k.repsel 6 0
  let i := 4 * sub + fld k.repsel 9 8
  let old := tget zeroD k.repair i
  let k' := { k with repair := tset zeroD i (BitVec.ofNat 8 (fld v 6 0)) k.repair }
  let s := s.setBank b k'
  let moved := fun c => decide (colSource k sub c ≠ colSource k' sub c)
  let s := if moved (fld old 5 0) then freeColumn b sub (fld old 5 0) s else s
  if fld v 5 0 ≠ fld old 5 0 ∧ moved (fld v 5 0) then freeColumn b sub (fld v 5 0) s else s

/-- A write of 1 to REPCTL.REFRESH (R239, R241). Every word of the bank has a bit in each sub-array. -/
def refreshWrite (b : Nat) (s : State) : State :=
  let k := s.bank b
  if k.rbusy then s else s.setBank b { k with rbusy := true }

/-- One word read and rewritten by a refresh (R234, R239). -/
def refreshWord (s : State) (w : Nat) : State :=
  let r := spRead s w
  if r.2.2 then r.1 else spWrite r.1 w r.2.1

/-- `refreshEnd` (R239): every word has been read and rewritten through the current repair; RBUSY clears. -/
def execRefreshEnd (bank : Fin 68) (s : State) : Out :=
  if (s.bank bank).rbusy then
    let ws := (s.synd.map Prod.fst).filter fun w => decide (w / 32768 = bank.val)
    let s := ws.foldl refreshWord s
    .next (s.setBank bank { s.bank bank with rbusy := false })
  else .next s

/-! ## Host exchange (R366) -/

/-- A burst that is discarded: HXDROP, the dailies, and HX_WDONE with HX_WDROP (R229, R315, R366). -/
def hxDrop (b w : Nat) (s : State) : State :=
  let s := logEv 0x42 0 (pgSbank b) w (s.setBank b { s.bank b with hxdrop := satInc (s.bank b).hxdrop })
  s.setBlk { s.blk with hxDone := true, hxDrop := true }

/-- A write burst at its bank (R229, R315, R366): one to a bank that host exchange owns and may write is written as a whole; any
other is discarded as a whole; `none` while it waits for the bank. -/
def hxWrite (addr : BitVec 18) (line : Line) (s : State) : Option State :=
  match spIndex s (addr.toNat * 64) with
  | none => some (s.setBlk { s.blk with hxDone := true, hxDrop := true })
  | some w =>
    let b := w / 32768
    if !spOk s w (masterLvl s .hostExchange) then some (hxDrop b (w % 32768) (countPriv s))
    else if ownerOf s b ≠ 0x14 then some (hxDrop b (w % 32768) s)
    else if !bankOpen s b true then none
    else
      let s := (List.range 8).foldl (fun s i => spWriteBreak s (w + i) (lineWord line i) 255 none) (addDemand (domBank b) s)
      some (s.setBlk { s.blk with hxDone := true, hxDrop := false })

/-- Eight words read, as a line with one bit per word that says uncorrectable. -/
def readEight (w : Nat) (s : State) : State × Line × List Bool :=
  (List.range 8).foldl (fun (r : State × Line × List Bool) i =>
    let x := spRead r.1 (w + i)
    (x.1, r.2.1 ||| ((x.2.1.setWidth 512) <<< (64 * i)), r.2.2 ++ [x.2.2])) (s, 0, [])

/-- A read returns its four beats, each with HX_RERR where it holds an uncorrectable word (R366). -/
def hxReturn (line : Line) (err : BitVec 4) (s : State) : State :=
  s.setBlk { s.blk with hxRvalid := true, hxRdata := line, hxRerr := err }

/-- A read burst at its bank (R315, R366). A refused read, and one of a bank that no unit serves, returns zero. -/
def hxRead (addr : BitVec 18) (s : State) : Option State :=
  match spIndex s (addr.toNat * 64) with
  | none => some (hxReturn 0 0 s)
  | some w =>
    let b := w / 32768
    if !spOk s w (masterLvl s .hostExchange) then some (hxReturn 0 0 (countPriv s))
    else if !bankOpen s b (decide (ownerOf s b = 0x14)) then none
    else
      let r := readEight w (addDemand (domBank b) s)
      let e := fun j => b2n (lget false r.2.2 (2 * j) || lget false r.2.2 (2 * j + 1))
      some (hxReturn r.2.1 (BitVec.ofNat 4 (e 0 + 2 * e 1 + 4 * e 2 + 8 * e 3)) r.1)

/-- A burst at its bank. -/
def hxMake (x : HxBurst) (s : State) : Option State := if x.wr then hxWrite x.addr x.line s else hxRead x.addr s

/-- The bank of a burst that waits gets a demand (R294). -/
def hxWait (x : HxBurst) (s : State) : State :=
  match spIndex s (x.addr.toNat * 64) with
  | some w => addDemand (domBank (w / 32768)) s
  | none => s

/-- The burst in progress is made, or waits (R366). -/
def hxGo (x : HxBurst) (s : State) : State :=
  match hxMake x s with
  | some t => t.setBlk { t.blk with hx := none }
  | none => hxWait x (s.setBlk { s.blk with hx := some x })

/-- Host exchange in one BCLK: the burst in progress goes on; with none, the next request that the host holds is accepted where
HX_RDY is 1 (R366). -/
def hxNext (s : State) : State :=
  match s.blk.hx with
  | some x => hxGo x s
  | none => match s.blk.hxReq with
    | x :: rest => if s.blk.ready then hxGo x (s.setBlk { s.blk with hxReq := rest }) else s
    | [] => s

/-- The host presents a request (R366): it is accepted where HX_RDY is 1, and held by the host until then. -/
def hxRequest (x : HxBurst) (s : State) : State :=
  if s.blk.ready && s.blk.hx.isNone && s.blk.hxReq.isEmpty then hxGo x s else s.setBlk { s.blk with hxReq := s.blk.hxReq ++ [x] }

/-- `hostExchangeWrite` (R229, R315, R366). -/
def execHostExchangeWrite (addr : BitVec 18) (line : Line) (s : State) : Out := whenUp s <| .next (hxRequest ⟨true, addr, line⟩ s)

/-- `hostExchangeRead` (R315, R366). -/
def execHostExchangeRead (addr : BitVec 18) (s : State) : Out := whenUp s <| .next (hxRequest ⟨false, addr, 0⟩ s)

end Sys2Proof.Machine
end

