-- ==== Sys2Proof/Machine/Takes.lean ====
section
/-! DEFINITION. Takes: descriptors, the take queue, header reads, admission, the fetch with its checks, faults, and the
completion record (R106 to R145, R171, R173, R217). -/

namespace Sys2Proof.Machine

/-! ## Descriptor fields (R107, R109, R110, R114, R115) -/

def Slot.h0 (t : Slot) : Word := t.w0.getD 0
def Slot.h1 (t : Slot) : Word := t.w1.getD 0
def Slot.reel (t : Slot) : Nat := fld t.h0 8 0
def Slot.etype (t : Slot) : Nat := fld t.h0 11 9
def Slot.rm (t : Slot) : Nat := fld t.h0 13 12
def Slot.order (t : Slot) : Bool := bit t.h0 16
def Slot.hSerial (t : Slot) : Bool := bit t.h0 17
def Slot.notify (t : Slot) : Bool := bit t.h0 18
def Slot.cru (t : Slot) : Bool := bit t.h0 19
def Slot.extd (t : Slot) : Bool := bit t.h0 20
def Slot.splice (t : Slot) : Bool := bit t.h0 21
def Slot.pclass (t : Slot) : Nat := fld t.h0 27 24
def Slot.prio (t : Slot) : Nat := fld t.h0 29 28
def Slot.creq (t : Slot) : Nat := fld t.h0 38 32
def Slot.jobtag (t : Slot) : BitVec 8 := BitVec.ofNat 8 (fld t.h0 47 40)
def Slot.len (t : Slot) : Nat := fld t.h1 39 0
/-- Descriptor word k, or extension word k − 16. -/
def Slot.w (t : Slot) (k : Nat) : Word := lget 0 t.words k
/-- Base word of stream `j` (0 A to 5 F). -/
def Slot.baseW (t : Slot) (j : Nat) : Word := t.w (2 + 2 * j)
/-- Mode word of stream `j`. -/
def Slot.modeW (t : Slot) (j : Nat) : Word := t.w (3 + 2 * j)
def Slot.base (t : Slot) (j : Nat) : Nat := fld (t.baseW j) 38 0
/-- MODE of stream `j`: 0 OFF, 1 LINEAR, 2 INDEXED, 3 LITERAL. -/
def Slot.mode (t : Slot) (j : Nat) : Nat := fld (t.modeW j) 1 0
def Slot.ixs (t : Slot) (j : Nat) : Nat := fld (t.modeW j) 3 2
def Slot.iw (t : Slot) (j : Nat) : Nat := fld (t.modeW j) 5 4
def Slot.stride (t : Slot) (j : Nat) : Int := (BitVec.ofNat 32 (fld (t.modeW j) 63 32)).toInt
/-- The streams that name stream `j` as their index stream (R111). -/
def Slot.namers (t : Slot) (j : Nat) : List Nat :=
  (List.range 6).filter fun k => decide (t.mode k = 2) && decide (t.ixs k = j)
def Slot.isIndex (t : Slot) (j : Nat) : Bool := !(t.namers j).isEmpty
/-- The index width that stream `j` serves. -/
def Slot.ixw (t : Slot) (j : Nat) : Nat := match t.namers j with | k :: _ => t.iw k | [] => 0
/-- The element size of stream `j` in bytes (R111). -/
def Slot.esize (t : Slot) (j : Nat) : Nat := if t.isIndex j ∧ t.ixw j < 2 then 4 else 8
def Slot.ystride (t : Slot) : Int := (BitVec.ofNat 32 (fld (t.w 23) 31 0)).toInt
def Slot.zstride (t : Slot) : Int := (BitVec.ofNat 32 (fld (t.w 23) 63 32)).toInt
def Slot.tapmask (t : Slot) : Nat := fld (t.w 24) 26 0
/-- CSEL of a tap (R115). -/
def Slot.csel (t : Slot) (k : Nat) : Nat := ((t.w 25).toNat + (t.w 26).toNat * 2 ^ 64) / 2 ^ (3 * k) % 8
/-- The taps of TAPMASK, ascending. -/
def Slot.taps (t : Slot) : List Nat := (List.range 27).filter fun k => t.tapmask.testBit k
/-- The element offset of a tap (R115). -/
def Slot.tapOff (t : Slot) (k : Nat) : Int :=
  ((k % 3 : Nat) - 1 : Int) * t.stride 0 + ((k / 3 % 3 : Nat) - 1 : Int) * t.ystride + ((k / 9 : Nat) - 1 : Int) * t.zstride
/-- Scalar S`k`; one that the descriptor does not hold is free. -/
def Slot.scalar (t : Slot) (k : Nat) : Word :=
  if k = 0 then t.w 14 else if t.words.length ≥ 32 then t.w (15 + k) else Config.openLane k
def Slot.cradr (t : Slot) : Nat := fld (t.w 15) 23 0
def Slot.isrc (t : Slot) : Nat := fld (t.w 15) 33 24
def Slot.link (t : Slot) : Bool := bit (t.w 15) 34
def Slot.next (t : Slot) : Nat := fld (t.w 15) 63 40
/-- Number of frames (R126). -/
def Slot.frames (t : Slot) : Nat := (t.len + 4095) / 4096

/-- The handle of slot `k` of quadrant `q` (R117). -/
def handleOf (q k : Nat) (gen : BitVec 8) : Nat := q * 2 ^ 14 + k * 2 ^ 8 + gen.toNat
/-- GEN advanced (R117). -/
def genNext (g : BitVec 8) : BitVec 8 := if g = 255 then 1 else g + 1

/-! ## The reel directory and the shipped library (R216, R223) -/

/-- BASE, LEN, ETMASK, flags in DIRD1[31:24], and the roles of A to F of the shipped reels (R223). -/
def libTable : List (Nat × Nat × Nat × Nat × List Nat) :=
  [(0x0000, 160, 31, 0x19, [0x1D, 0x20, 0x20, 0x20, 0x0D, 0]),
   (0x00A0, 96, 31, 0x00, [0x20, 0, 0, 0, 0x0D, 0]),
   (0x0100, 224, 3, 0x19, [0x1D, 0x1D, 0x20, 0x20, 0x0D, 0]),
   (0x01E0, 224, 3, 0x19, [0x1D, 0x1D, 0x20, 0x20, 0x0D, 0]),
   (0x02C0, 352, 3, 0x02, [0x1D, 0x1D, 0x20, 0x20, 0x05, 0x06]),
   (0x0420, 320, 31, 0x02, [0x1D, 0x20, 0x20, 0x20, 0x05, 0x06]),
   (0x0560, 448, 15, 0x40, [0x1D, 0x20, 0x20, 0x20, 0x0D, 0]),
   (0x0720, 256, 31, 0x00, [0x09, 0x20, 0x20, 0x20, 0x0D, 0])] ++
  [(0x0820, 256, 31, 0x00, [0x1D, 0x20, 0x20, 0x20, 0x09, 0]),
   (0x0920, 384, 31, 0x40, [0x1D, 0x1D, 0x20, 0x20, 0x05, 0x05]),
   (0x0AA0, 384, 31, 0x40, [0x1D, 0x1D, 0x20, 0x20, 0x0D, 0]),
   (0x0C20, 320, 3, 0x21, [0x1D, 0x1D, 0x1E, 0x1E, 0x0D, 0x0D]),
   (0x0D60, 512, 3, 0x1D, [0x05, 0, 0, 0, 0x0D, 0]),
   (0x0F60, 448, 1, 0x00, [0x05, 0x09, 0x20, 0x05, 0x05, 0]),
   (0x1120, 416, 1, 0x20, [0x05, 0x09, 0x20, 0, 0x05, 0]),
   (0x12C0, 202, 5, 0x00, [0x1D, 0x20, 0x20, 0x20, 0x0D, 0])]

/-- The directory entry of shipped reel `k` (R216, R223). -/
def libEntry (k : Nat) : DirEnt :=
  let e := lget (0, 1, 0, 0, []) libTable k
  let r := fun j => lget 0 e.2.2.2.2 j
  { d0 := BitVec.ofNat 32 (e.1 + (e.2.1 - 1) * 2 ^ 16 + 2 ^ 31),
    d1 := BitVec.ofNat 32 (e.2.2.1 * 2 ^ 16 + e.2.2.2.1 * 2 ^ 24),
    d2 := BitVec.ofNat 32 (r 0 + r 1 * 2 ^ 8 + r 2 * 2 ^ 16 + r 3 * 2 ^ 24),
    d3 := BitVec.ofNat 32 (r 4 + r 5 * 2 ^ 8) }

def DirEnt.valid (e : DirEnt) : Bool := bit e.d0 31
def DirEnt.basew (e : DirEnt) : Nat := fld e.d0 12 0
def DirEnt.len (e : DirEnt) : Nat := fld e.d0 24 16 + 1
def DirEnt.start (e : DirEnt) : Nat := fld e.d1 8 0
def DirEnt.etmask (e : DirEnt) : Nat := fld e.d1 20 16
def DirEnt.spl (e : DirEnt) : Bool := bit e.d1 24
def DirEnt.cru (e : DirEnt) : Bool := bit e.d1 25
def DirEnt.sten (e : DirEnt) : Bool := bit e.d1 26
def DirEnt.xprod (e : DirEnt) : Bool := bit e.d1 27
def DirEnt.xcons (e : DirEnt) : Bool := bit e.d1 28
def DirEnt.needx (e : DirEnt) : Bool := bit e.d1 29
def DirEnt.twop (e : DirEnt) : Bool := bit e.d1 30
/-- Role byte of stream `j` (R216). -/
def DirEnt.role (e : DirEnt) (j : Nat) : Nat := if j < 4 then fld e.d2 (8 * j + 7) (8 * j) else fld e.d3 (8 * j - 25) (8 * j - 32)

/-- Every store word is a library word as shipped, or zero where the library has none (R223). -/
def storeD : Nat → Option (BitVec 128) := fun w => if w < 0x138A then none else some 0

def Quad.entry (Q : Quad) (k : Nat) : DirEnt := tget dirInit Q.dir k

/-- An entry with VALID = 0. -/
def DirEnt.clear (e : DirEnt) : DirEnt := { e with d0 := setBit e.d0 31 false }

/-- An entry as a fetch of BCLK `now` sees it: one that INSTALL completes in that BCLK has VALID = 0 (R220). -/
def Quad.seen (Q : Quad) (k now : Nat) : DirEnt := if (Q.entry k).instAt = some now then (Q.entry k).clear else Q.entry k

/-- The shipped reel that an entry names, while its words stand in the store as shipped (R223). -/
def shippedReel (Q : Quad) (e : DirEnt) : Option Nat :=
  match (List.range 16).find? fun k => decide ((libEntry k).d0 = e.d0 ∧ (libEntry k).d1 = e.d1 ∧ (libEntry k).d2 = e.d2 ∧ (libEntry k).d3 = e.d3) with
  | some k => if Q.store.any (fun x => decide (e.basew ≤ x.1 ∧ x.1 < e.basew + e.len)) then none else some k
  | none => none

/-! ## Queue operations -/

/-- The place of an arrival among those of its BCLK (R119): cue fires by index, then links by slot, then TAKE by core. -/
def arrCue (i : Nat) : Nat := i
def arrLink (k : Nat) : Nat := 2 ^ 16 + k
def arrTake (n : Nat) : Nat := 2 ^ 17 + n

/-- The arrival number that an arrival takes: behind every earlier one, but before those of its BCLK that R119 puts after it. -/
def arrival (Q : Quad) (k key now : Nat) : Nat :=
  (Q.slots.filter fun x => decide (x.1 ≠ k) && decide (x.2.seq ≠ 0) && decide (x.2.arrAt = now) && decide (key < x.2.arrKey)).foldl
    (fun m x => min m x.2.seq) (Q.seq + 1)

/-- Arrival numbers from `m` on are moved up by one, where an arrival goes in before them. -/
def Quad.openSeq (Q : Quad) (m : Nat) : Quad :=
  let up := fun n => if m ≤ n then n + 1 else n
  if Q.seq < m then { Q with seq := Q.seq + 1 }
  else { Q with seq := Q.seq + 1, slots := Q.slots.map fun x => (x.1, { x.2 with seq := up x.2.seq }),
                fences := Q.fences.map fun f => (f.1, f.2.1, up f.2.2), cand := Q.cand.map fun c => (up c.1, c.2) }

/-- The slot enters QUEUED with its arrival number (R119). -/
def enqueue (q k key : Nat) (s : State) : State :=
  let Q := s.quad q
  let m := arrival Q k key s.bclk
  s.setQuad q ((Q.openSeq m).setSlot k { Q.slot k with st := .queued, seq := m, arrAt := s.bclk, arrKey := key })

/-- Is any strip, request or marver entry of the take still in the block? (R138) -/
def takeTagged (s : State) (q k : Nat) (gen : BitVec 8) : Bool :=
  let mine := fun (r : ReqSrc) => match r with
    | .chain _ q' k' g' => decide (q' = q ∧ k' = k ∧ g' = gen)
    | _ => false
  s.ports.any fun p => p.2.tags.any fun t => mine t.2.src

/-- The physical chains that run a strip of the take. -/
def takeChains (s : State) (q k : Nat) : List Nat :=
  (s.chains.filter fun c => match c.2.strip with
    | some t => decide (t.q = q) && decide (t.slot = k)
    | none => false).map Prod.fst

/-- A strip of the take that waits for a chain. -/
def isMoved (q k : Nat) (m : Nat × Strip) : Bool := decide (m.2.q = q) && decide (m.2.slot = k)

/-- One strip of a take that stops (R137, R138): it stops at its next boundary microword. -/
def stopStrip (p : Nat) (s : State) : State :=
  match (s.chain p).strip with
  | none => s
  | some r => s.setChain p { s.chain p with strip := some { r with stop := true } }

/-- Every strip of the take stops (R137, R138); one that waits for a chain ends at once. -/
def stopStrips (q k : Nat) (s : State) : State :=
  let s := (takeChains s q k).foldl (fun s p => stopStrip p s) s
  let ms := s.cullet.moved.filter (isMoved q k)
  let t := s.slot q k
  if ms.isEmpty then s
  else (s.setSlot q k { t with ends := t.ends ++ ms.map fun m => (m.2.pos, m.2.cptr),
                               flags := ms.foldl (fun f m => f ||| m.2.flags) t.flags }).setCullet
    { s.cullet with moved := s.cullet.moved.filter fun m => !isMoved q k m }

/-- The lower of an element and the one recorded. -/
def capMin (c : Option Nat) (e : Nat) : Option Nat := match c with | some x => some (min x e) | none => some e

/-- A group replay of chain `p` in this very BCLK is not counted or logged after all (R161). -/
def undoReplay (p : Nat) (s : State) : State :=
  let c := s.chain p
  match c.undo, c.strip with
  | some u, some r =>
    if u.1 ≠ s.bclk then s
    else
      let t := s.slot r.q r.slot
      let s := s.setChain p { c with greplay := if u.2.1 then c.greplay - 1 else c.greplay, undo := none }
      let s := s.setSlot r.q r.slot { t with replays := if u.2.2 then t.replays - 1 else t.replays }
      let mine := fun (e : Nat × LogEnt) => decide (e.1 = s.bclk) && decide (fld e.2.e1 7 0 = 0x20) && decide (fld e.2.e1 23 12 = pgChain p)
      s.setRas { s.ras with queue := s.ras.queue.filter fun e => !mine e }
  | _, _ => s

/-- Does the group that the strip replays hold element `e`? -/
def groupHolds (r : Strip) (e : Nat) : Bool := decide (r.cptr ≤ e) && decide (e < r.lo + 64 * ((r.cptr - r.lo) / 64 + 1))

/-- The steered lines for which nothing is staged any more are forgotten. -/
def Strip.trim (r : Strip) : Strip := { r with steered := r.steered.filter fun l => r.staged.any fun x => decide (x.addr / 64 = l.1) }

/-- Nothing of element `e` is stored any more: it leaves the staging (R138). -/
def Strip.dropElem (r : Strip) (e : Nat) : Strip :=
  if r.staged.any fun x => decide (x.elem = e) then
    ({ r with staged := r.staged.filter fun x => decide (x.elem ≠ e),
              unacked := r.unacked.filter fun u => !(r.staged.any fun x => decide (x.elem = e) && decide (x.stream = u.stream) && decide (x.elem = u.elem)) }).trim
  else r

/-- The strips of a take after a fault at element `e`: the element is stored by none, and a replay of its group in the same BCLK
does not count (R138, R161). -/
def dropFaulted (q k e : Nat) (s : State) : State :=
  (takeChains s q k).foldl (fun s p => match (s.chain p).strip with
    | some r =>
      let s := if groupHolds r e then undoReplay p s else s
      s.setChain p { s.chain p with strip := some (r.dropElem e) }
    | none => s) s

/-- A fault of a take is detected (R138): it stops the take, and the record reports the one with the lowest element.
After a TABORT it is not reported, and its element counts as not done. -/
def takeFault (q k : Nat) (f : TFault) (s : State) : State :=
  let t := s.slot q k
  if t.st = .free ∨ t.st = .armed then s
  else
    let better := match t.fault with | some g => decide (f.elem < g.elem) | none => true
    let t := { t with cap := capMin t.cap f.elem, st := .ending, failAt := if t.st = .ending then t.failAt else some s.bclk,
                      fault := if !t.aborted && better then some f else t.fault }
    stopStrips q k (dropFaulted q k f.elem (s.setSlot q k t))

/-- The chain page's staged set takes effect (R37, R174), with the dailies entry of PEVT.CMTEN; a DISCARD in the same BCLK only reloads
the staged registers after it (R38). -/
def chainCommit (p : Nat) (s : State) : State :=
  let h := s.header (pgChain p)
  if h.cmtpend then
    let c := s.chain p
    let s := (s.setChain p { c with srLive := c.srStg, swLive := c.swStg }).setHeader (pgChain p) { h with cmtpend := false }
    if bit h.pevt 1 then logEv 0x02 0 (pgChain p) 0 s else s
  else match tget (fun _ => none) s.start.discs p with
    | some d => s.setChain p { s.chain p with srLive := d.1, srStg := d.1, swLive := d.2, swStg := d.2 }
    | none => s

/-! ## Cross-quadrant links (R172, R173) -/

/-- The logical chain at the other end of the link of logical chain `l`. -/
def linkPeer (l : Nat) : Option Nat :=
  match l with
  | 15 => some 16 | 16 => some 15 | 31 => some 32 | 32 => some 31 | 47 => some 48 | 48 => some 47
  | 63 => some 0 | 0 => some 63 | 7 => some 39 | 39 => some 7 | 23 => some 55 | 55 => some 23
  | _ => none

/-- The last chain of a SPLICE take sends on its link: its live SPROUTE.DST is XLINK. -/
def linkOut (s : State) (l : Nat) : Bool :=
  (linkPeer l).isSome && match s.chPhys l with
    | some p => decide (fld (s.chain p).srLive 3 2 = 1)
    | none => false

/-- The first chain of a SPLICE take receives from its link: its live SPROUTE.SRC is XLINK. -/
def linkIn (s : State) (l : Nat) : Bool :=
  (linkPeer l).isSome && match s.chPhys l with
    | some p => decide (fld (s.chain p).srLive 1 0 = 1)
    | none => false

/-- Does the take produce on, or consume from, a link? -/
def takeProd (s : State) (t : Slot) : Bool := t.splice && match t.chains.getLast? with | some l => linkOut s l | none => false
def takeCons (s : State) (t : Slot) : Bool := t.splice && match t.chains with | l :: _ => linkIn s l | [] => false

/-- The elements that a take holds on links are discarded when it is aborted (R173). -/
def dropLinks (q k : Nat) (s : State) : State :=
  let t := s.slot q k
  let s := match takeProd s t, t.chains.getLast? with
    | true, some l => match linkPeer l with
      | some c => { s with link := tset (fun _ => []) c [] s.link }
      | none => s
    | _, _ => s
  let s := match takeCons s t, t.chains with
    | true, l :: _ => { s with link := tset (fun _ => []) l [] s.link }
    | _, _ => s
  (takeChains s q k).foldl (fun s p => match (s.chain p).strip with
    | some r => if takeProd s t then
        s.setChain p { s.chain p with strip := some { r with unacked := r.unacked.filter fun u => decide (u.stream ≠ 4) } }
      else s
    | none => s) s

/-- The armed cues that launch a handle are disarmed (R137, R256). -/
def disarmTake (h : Nat) (s : State) : State :=
  let es := s.cue.tbl.filter fun e => bit e.2.q1 4 && decide (fld e.2.q1 3 0 = 1) && decide (fld e.2.q1 23 8 = h)
  let s := es.foldl (fun s e => s.setCueEnt e.1 { e.2 with q1 := setBit e.2.q1 4 false }) s
  s.setCue { s.cue with sel := s.cue.sel.filter fun x => !(es.any fun e => decide (e.1 = x.1)) }

/-- TABORT of a live take (R137), or of one that a fault has put in ENDING in this very BCLK (R138): answers whether it was accepted. Its leave or booking is released (R301, R304). -/
def abortTake (q k : Nat) (s : State) : State × Bool :=
  let t := s.slot q k
  let live := match t.st with
    | .armed | .queued | .running => true
    | .ending => !t.aborted && decide (t.failAt = some s.bclk)
    | .free => false
  if live then
    let s := releaseBooking q k (releaseLeave (.take q k) (dropRequest (.take q k) s))
    let s := if t.st = .armed then disarmTake (handleOf q k t.gen) s else s
    let s := if t.st = .running ∨ t.st = .ending then dropLinks q k s else s
    let s := (takeChains s q k).foldl (fun s p => undoReplay p s) s
    (stopStrips q k (s.setSlot q k { s.slot q k with st := .ending, aborted := true, leave := false }), true)
  else (s, false)

/-! ## Header reads (R121) -/

/-- The words at `n` consecutive word indices from `w`, and whether one of them is uncorrectable (with its index). -/
def readWords (w n : Nat) (s : State) : State × List Word × Option Nat :=
  (List.range n).foldl (fun (r : State × List Word × Option Nat) i =>
    let x := spRead r.1 (w + i)
    (x.1, r.2.1 ++ [x.2.1], if r.2.2.isNone && x.2.2 then some i else r.2.2)) (s, [], none)

/-- A scratchpad read of the take engine: waits, refused (0x0E), uncorrectable (0x0F, with its address), or the words. -/
inductive TakeRead where
  | wait
  | refused
  | bad (a : Nat)
  | ok (ws : List Word)
  deriving DecidableEq, Repr

/-- A read of `n` words at scratchpad address `a`, at the take's level and tag (R123, R128). A bank that no unit serves
refuses it. -/
def takeRead (q : Nat) (t : Slot) (a n : Nat) (s : State) : State × TakeRead :=
  match spIndex s a with
  | none => (s, .refused)
  | some w =>
    let b := w / 32768
    if !spOk s w (t.level, t.tag) then (countPriv s, .refused)
    else if !bankOpen s b (decide (ownerOf s b = BitVec.ofNat 8 (16 + q))) then (addDemand (domBank b) s, .wait)
    else
      let r := readWords w n (addDemand (domBank b) s)
      match r.2.2 with
      | some i => (r.1, .bad (a + 8 * i))
      | none => (r.1, .ok r.2.1)

/-- `headerRead` (R121, R124): the fetcher reads w0 and w1 of a queued take whose header it does not hold. -/
def execHeaderRead (q : Fin 4) (slot : Fin 64) (s : State) : Out :=
  let t := s.slot q slot
  if t.st = .queued ∧ t.w0 = none then
    let r := takeRead q t t.desc 2 s
    match r.2 with
    | .wait => .next r.1
    | .refused => .next (takeFault q slot ⟨0x0E, 0, t.desc⟩ r.1)
    | .bad a => .next (takeFault q slot ⟨0x0F, 0, a⟩ r.1)
    | .ok ws => .next (r.1.setSlot q slot { r.1.slot q slot with w0 := some (lget 0 ws 0), w1 := some (lget 0 ws 1) })
  else .next s

/-! ## Admission (R124 to R127) -/

/-- Has a take completed in the sense of R120: its slot is FREE or holds another take? -/
def slotDone (t : Slot) : Bool := decide (t.st = .free)

/-- Is the queued take `t` in slot `k` held by ORDER or a TFENCE? (R125, R83) -/
def heldBack (Q : Quad) (k : Nat) (t : Slot) : Bool :=
  let others := Q.slots.filter fun x => decide (x.1 ≠ k) && decide (x.2.core = t.core) && decide (x.2.ctx = t.ctx) && decide (x.2.seq ≠ 0)
    && (decide (x.2.st = .queued) || decide (x.2.st = .running) || decide (x.2.st = .ending))
  (t.order && others.any fun x => decide (x.2.seq < t.seq)) ||
  (t.byTake && Q.fences.any fun f => decide (f.1 = t.core) && decide (f.2.1 = t.ctx) && decide (f.2.2 < t.seq) &&
    others.any fun x => x.2.byTake && decide (x.2.seq ≤ f.2.2))

/-- Does take x go before take y in the queue? -/
def queueBefore (x y : Nat × Slot) : Bool :=
  decide (x.2.prio > y.2.prio) || (decide (x.2.prio = y.2.prio) && decide (x.2.seq < y.2.seq))

/-- The candidate of R124. -/
def candOf (Q : Quad) : Option Nat :=
  let c := Q.slots.filter fun x => decide (x.2.st = .queued) && x.2.w0.isSome && !heldBack Q x.1 x.2
  match c with
  | [] => none
  | x :: t => some (t.foldl (fun b y => if queueBefore y b then y else b) x).1

/-- The logical chains of quadrant `q` in service (R126). -/
def inService (s : State) (q : Nat) : List Nat := (rangeFrom (16 * q) 16).filter fun l => (s.chPhys l).isSome

/-- Is the chain that serves logical chain `l` free? (R127) -/
def chainFree (s : State) (l : Nat) : Bool :=
  match s.chPhys l with
  | some p => decide ((s.chain p).strip = none) && !(s.header (pgChain p)).freeze
      && !((s.cullet.running ++ s.cullet.waiting).any fun r => decide (r.kind = 0) && decide (r.logical = l))
  | none => false

/-- REPLAYS of the take rises by one (R159, R160). -/
def addReplay (q k : Nat) (s : State) : State :=
  let t := s.slot q k
  s.setSlot q k { t with replays := min 255 (t.replays + 1) }

/-- A strip that has moved is placed on physical chain `p`, which serves logical chain `l` (R341). -/
def placeStrip (p l : Nat) (r : Strip) (s : State) : State :=
  let s := s.setChain p { s.chain p with strip := some { r with lchain := l } }
  addDemand (domChain p) (addReplay r.q r.slot s)

/-- A strip without a spare takes the first free chain of its quadrant (R130). Entries of `moved` are (the logical chain
that a repair will serve, or 64 for none, and the strip). -/
def placeMoved (q : Nat) (s : State) : State :=
  match s.cullet.moved.find? fun m => decide (m.1 = 64) && decide (m.2.q = q) with
  | none => s
  | some m =>
    match (inService s q).find? (chainFree s) with
    | none => s
    | some l => match s.chPhys l with
      | some p => placeStrip p l m.2 (s.setCullet { s.cullet with moved := s.cullet.moved.filter (· ≠ m) })
      | none => s

/-- Every strip that waits for a chain of the quadrant looks for one, before any queued take is admitted (R130). -/
def placeWaiting (q : Nat) (s : State) : State :=
  (s.cullet.moved.filter fun m => decide (m.1 = 64) && decide (m.2.q = q)).foldl (fun s _ => placeMoved q s) s

/-- The ring run of `n` logical chains from local position `j`. -/
def ringRun (q j n : Nat) : List Nat := (List.range n).map fun i => 16 * q + (j + i) % 16

/-- n of R126, or none for fault code 0x10. -/
def chainCount (s : State) (q : Nat) (t : Slot) : Option Nat :=
  let m := (inService s q).length
  if t.hSerial then some 1
  else if t.splice then
    let n := t.creq
    if 2 ≤ n ∧ n ≤ 16 ∧ (List.range 16).any (fun j => (ringRun q j n).all fun l => (s.chPhys l).isSome) then some n else none
  else if t.creq = 0 then
    some (min (min (max 1 ((t.len + 2 ^ fld (s.quad q).qcfgLive 4 0 - 1) / 2 ^ fld (s.quad q).qcfgLive 4 0)) m) t.frames)
  else some (min (min t.creq m) t.frames)

/-- n of the candidate (R126): as fixed when it became the candidate, while the set of in-service chains stays. -/
def fixedCount (s : State) (q : Nat) (t : Slot) : Option Nat :=
  match (s.quad q).cand with
  | some c => if c.1 = t.seq ∧ c.2.2 = inService s q then some c.2.1 else chainCount s q t
  | none => chainCount s q t

/-- n of the candidate is fixed. -/
def fixCount (q : Nat) (t : Slot) (n : Nat) (s : State) : State :=
  s.setQuad q { s.quad q with cand := some (t.seq, n, inService s q) }

/-- The chains that a take of `n` chains receives now, if they are free (R127). -/
def freeSet (s : State) (q n : Nat) (t : Slot) : Option (List Nat) :=
  if t.splice then
    ((List.range 16).find? fun j => (ringRun q j n).all (chainFree s)).map fun j => ringRun q j n
  else
    let f := (inService s q).filter (chainFree s)
    if n ≤ f.length ∧ 0 < n then some (f.take n) else none

/-- The strip at position `i` of `n` (R129), or the whole take on every chain of a pipeline (R131). -/
def newStrip (q k : Nat) (t : Slot) (n i l : Nat) : Strip :=
  let F := t.frames
  let lo := if t.splice then 0 else 4096 * (i * F / n)
  let hi := if t.splice then t.len else min (4096 * ((i + 1) * F / n)) t.len
  { q := q, slot := k, gen := t.gen, lchain := l, pos := i, lo := lo, hi := hi, spliced := t.splice,
    micro := { ptr := lo }, cptr := lo, from_ := lo }

/-- The chains of a take are allocated (R127): each starts a strip, its page commits (R37), and its domain has a demand. -/
def allocate (q k : Nat) (ls : List Nat) (s : State) : State :=
  let t := s.slot q k
  let n := ls.length
  ls.zipIdx.foldl (fun s (x : Nat × Nat) => match s.chPhys x.1 with
    | some p =>
      let s := chainCommit p s
      addDemand (domChain p) (s.setChain p { s.chain p with strip := some (newStrip q k t n x.2 x.1) })
    | none => s) s

/-- `admission` (R124): one BCLK of the take engine of a quadrant. With FREEZE = 1, and while the island is frozen or
READY is 0, no take is admitted. A strip that waits for a chain goes before it (R130). -/
def execAdmission (q : Fin 4) (s : State) : Out :=
  if !s.blk.ready || s.cullet.frozen then .next s
  else
  let s := placeWaiting q s
  match candOf (s.quad q) with
  | none => .next s
  | some k =>
    let t := s.slot q k
    match fixedCount s q t with
    | none => .next (takeFault q k ⟨0x10, 0, 0⟩ s)
    | some n =>
      let s := fixCount q t n s
      if t.len = 0 then
        if (s.header (pgQuad q)).freeze then .next s
        else .next (s.setSlot q k { t with st := .running })
      else if !t.leave then .next (askLeave ⟨t.prio, .take q k, t.pclass⟩ s)
      else if (s.header (pgQuad q)).freeze then .next s
      else match freeSet s q n t with
      | none => .next s
      | some ls => .next (allocate q k ls (s.setSlot q k { t with st := .running, chains := ls }))

/-! ## Extents, addresses and footprints (R111, R112, R133) -/

/-- Least and greatest of a list of integers. -/
def intMin (l : List Int) : Int := l.foldl min (l.headD 0)
def intMax (l : List Int) : Int := l.foldl max (l.headD 0)

/-- The extent of stream `j` that is known at fetch (R112): its least and greatest element. -/
def extentOf (t : Slot) (j : Nat) : Option (Int × Int) :=
  let n : Int := t.len
  match t.ship with
  | some 0x0C => if j = 0 then
      let o := t.taps.map t.tapOff
      some (intMin o, n - 1 + intMax o) else some (0, n - 1)
  | some 0x09 => if j = 5 then some (0, 0) else some (0, n - 1)
  | some 0x0D => if j < 3 then none else if j = 3 then some (0, n) else some (0, n - 1)
  | some 0x0E => if j < 3 then
      (if t.w 14 = 0 then none else
        let o := ((t.w 14).toNat - 1 : Int) * t.ystride
        some (min 0 o, n - 1 + max 0 o)) else some (0, n - 1)
  | some 0x04 | some 0x05 => if j = 4 then some (0, 0) else if j = 5 ∧ t.cru then some (0, 79) else some (0, n - 1)
  | _ => some (0, n - 1)

/-- The byte address of element `x` of a LINEAR stream (R111). -/
def linAddr (t : Slot) (j : Nat) (x : Int) : Int := t.base j + (t.esize j : Int) * t.stride j * x

/-- The footprint of a LINEAR stream in bytes: first byte, byte after the last (R133). -/
def footprint (t : Slot) (j : Nat) : Option (Int × Int) :=
  if t.mode j = 1 ∧ 0 < t.len then
    (extentOf t j).map fun e =>
      let a := linAddr t j e.1
      let b := linAddr t j e.2
      (min a b, max a b + (t.esize j : Int))
  else none

/-- Do two footprints intersect? -/
def meet (x y : Option (Int × Int)) : Bool :=
  match x, y with
  | some a, some b => decide (a.1 < b.2) && decide (b.1 < a.2)
  | _, _ => false

/-- How overlap makes a take run (R133): one chain, as SERIAL, and the holds (input, output, distance). -/
structure Overlap where
  one   : Bool := false
  asSer : Bool := false
  holds : List (Nat × Nat × Nat) := []
  deriving DecidableEq, Repr

/-- The row of R133 for input `i` and output `o`. -/
def overlapIO (t : Slot) (i o : Nat) (r : Overlap) : Overlap :=
  if meet (footprint t i) (footprint t o) then
    let s := t.stride i
    let d := (t.base o : Int) - t.base i
    if s ≠ 0 ∧ t.stride o = s ∧ t.esize i = 8 ∧ !(t.ent.sten && decide (i = 0)) ∧ d % (8 * s) = 0 then
      (if d / (8 * s) ≤ 0 then { r with one := true }
       else { r with one := true, holds := r.holds ++ [(i, o, (d / (8 * s)).toNat)] })
    else { r with one := true, asSer := true }
  else r

/-- A LINEAR output whose elements overlap one another: STRIDE 0 and more than one element. -/
def selfOverlap (t : Slot) (o : Nat) : Bool :=
  decide (t.mode o = 1) && decide (t.stride o = 0) && decide (1 < t.len) &&
    match extentOf t o with
    | some e => decide (e.1 < e.2)
    | none => false

/-- Overlap of the footprints of a take (R133). -/
def overlapOf (t : Slot) : Overlap :=
  let r := [(0, 4), (0, 5), (1, 4), (1, 5), (2, 4), (2, 5), (3, 4), (3, 5)].foldl (fun r x => overlapIO t x.1 x.2 r) ({} : Overlap)
  let r := if meet (footprint t 4) (footprint t 5) then { r with one := true } else r
  [4, 5].foldl (fun r o => if selfOverlap t o then { r with one := true } else r) r

/-- The largest power of two not above min(16, d) (R134). -/
def pow2Le (d : Nat) : Nat := if 16 ≤ d then 16 else if 8 ≤ d then 8 else if 4 ≤ d then 4 else if 2 ≤ d then 2 else 1

/-! ## The fetch checks (R106, R113, R116, R128, R171, R173, R217) -/

/-- Is every bit of the field zero? -/
def z {n : Nat} (w : BitVec n) (hi lo : Nat) : Bool := decide (fld w hi lo = 0)

/-- Reserved fields and values of stream `j` (R110, R111, R113). -/
def streamOk1 (t : Slot) (j : Nat) : Bool :=
  let b := t.baseW j
  let m := t.modeW j
  match t.mode j with
  | 0 => decide (b = 0) && z m 63 2
  | 1 => z b 63 39 && z m 31 2
  | 2 => z b 63 39 && decide (t.iw j ≠ 3) && z m 31 6 && z m 63 32 && decide (t.ixs j ≠ j) && decide (t.mode (t.ixs j) = 1)
  | _ => decide (j < 4) && z m 63 2

/-- Streams that name one index stream give one IW (R111). -/
def ixwOk (t : Slot) : Bool := (List.range 4).all fun j => (t.namers j).all fun k => decide (t.iw k = t.ixw j)

/-- The extension block's fields under the reel's entry (R112, R115): a reserved field is zero. -/
def extOk1 (t : Slot) : Bool :=
  let e := t.ent
  z (t.w 24) 63 27 && z (t.w 26) 63 17 && (rangeFrom 27 5).all (fun k => decide (t.w k = 0)) &&
  (if !e.valid then true
   else if e.sten then (List.range 27).all fun k => t.tapmask.testBit k || decide (t.csel k = 0)
   else decide (t.w 24 = 0) && decide (t.w 25 = 0) && decide (t.w 26 = 0) &&
     (if t.ship = some 0x0E then decide (t.zstride = 0) else decide (t.w 23 = 0)))

/-- Fault code 0x01: reserved fields and values (R107, R109, R114, R116). -/
def bad01 (t : Slot) : Bool :=
  let a := t.w 0
  let c := t.w 15
  !(z a 15 14 && z a 23 22 && z a 31 30 && z a 39 39 && z a 63 48 && decide (t.etype ≤ 4) && decide (t.creq ≤ 64)
    && !(t.hSerial && t.splice) && z (t.w 1) 63 40
    && (List.range 6).all (streamOk1 t) && ixwOk t
    && z c 4 0 && z c 39 35 && (if t.notify then decide (t.isrc ≠ 0 ∧ t.isrc ≠ 1023) else decide (t.isrc = 0))
    && (if t.link then z c 46 40 else decide (t.next = 0))
    && (!t.extd || extOk1 t)
    && !(decide (t.ship = some 0x0E) && decide ((t.w 14).toNat ≥ 2 ^ 32)))

/-- Does stream `j` meet its role? (R217). A linked end takes its stream from, or gives it to, the link instead (R173). -/
def roleOk (t : Slot) (linkA linkE : Bool) (j : Nat) : Bool :=
  let r := t.ent.role j
  let u := r % 4
  if (linkA && decide (j = 0)) || (linkE && decide (j = 4)) then decide (t.mode j = 0) && !t.isIndex j
  else if t.isIndex j then r.testBit 5 && decide (u = 0)
  else match t.mode j with
    | 0 => decide (u ≠ 1)
    | 1 => decide (u ≠ 0) && r.testBit 2
    | 2 => decide (u ≠ 0) && r.testBit 3
    | _ => decide (u ≠ 0) && r.testBit 4

/-- The tap groups of stream A (R149): runs of taps, ascending by offset, within 2,048 elements of the first. -/
def tapGroups (t : Slot) : List (List Nat) :=
  let ins := fun (l : List Nat) (k : Nat) =>
    (l.filter fun x => decide (t.tapOff x ≤ t.tapOff k)) ++ [k] ++ l.filter fun x => decide (t.tapOff k < t.tapOff x)
  let srt := t.taps.foldl ins []
  (srt.foldl (fun (r : List (List Nat)) k => match r with
    | g :: rest => match g.getLast? with
      | some f => if t.tapOff k - t.tapOff f > 2048 then [k] :: g :: rest else (k :: g) :: rest
      | none => [k] :: rest
    | [] => [[k]]) []).reverse

/-- Does the take read stream `j` for its pipes? -/
def readsStream (t : Slot) (j : Nat) : Bool :=
  decide (j < 4) && (t.isIndex j || (decide (t.ent.role j % 4 ≠ 0) && (decide (t.mode j = 1) || decide (t.mode j = 2))))

/-- The number of read streams (R150). -/
def readStreams (t : Slot) : Nat :=
  if t.ent.sten then (tapGroups t).length + ((rangeFrom 1 3).filter (readsStream t)).length
  else ((List.range 4).filter (readsStream t)).length

/-- Fault code 0x03 (R113, R144, R168, R171, R173, R217). -/
def bad03 (s : State) (t : Slot) : Bool :=
  let e := t.ent
  let prod := takeProd s t
  let cons := takeCons s t
  !(e.etmask.testBit t.etype && (!t.splice || e.spl) && (!t.cru || e.cru)
    && (!(e.needx || e.sten) || t.extd) && (!e.sten || decide (3 ≤ t.taps.length))
    && (List.range 6).all (roleOk t cons prod)
    && (!t.cru || (decide (t.etype ≤ 1) && decide (t.mode 5 = 1) && decide (t.stride 5 = 1)))
    && (!t.splice || decide (readStreams t ≤ 3))
    && (!prod || e.xprod) && (!cons || e.xcons))

/-- Fault code 0x05: alignment (R106, R111, R144). -/
def bad05 (t : Slot) : Bool :=
  (t.extd && decide (t.desc % 256 ≠ 0)) ||
  ((List.range 6).any fun j => (decide (t.mode j = 1) || decide (t.mode j = 2)) && decide (t.base j % t.esize j ≠ 0)) ||
  (t.cru && decide (t.base 5 % 64 ≠ 0))

/-- Fault code 0x06: an element of a LINEAR stream outside [0, 2^39). -/
def bad06 (t : Slot) : Bool :=
  (List.range 6).any fun j => match footprint t j with
    | some f => decide (f.1 < 0) || decide (f.2 > 2 ^ 39)
    | none => false

/-- The first failing check of the fetch after the reads, in the order of R128. -/
def fetchCode (s : State) (t : Slot) : Option (BitVec 8) :=
  if t.cued ∧ (t.w 0 ≠ t.h0 ∨ t.w 1 ≠ t.h1) then some 0x04
  else if t.level = 2 ∧ t.jobtag ≠ t.tag then some 0x08
  else if bad01 t then some 0x01
  else if !t.ent.valid then some 0x02
  else if bad03 s t then some 0x03
  else if bad05 t then some 0x05
  else if bad06 t then some 0x06
  else none

/-- The fetch checks of a take; one launched without a cue is checked against its own words. -/
def fetchCheck (s : State) (t : Slot) : Option (BitVec 8) :=
  fetchCode s (if t.cued then t else { t with w0 := some (t.w 0), w1 := some (t.w 1) })

/-- The chains of a take but its lowest are released, and that one runs the whole take (R126, R133). -/
def keepOne (q k : Nat) (s : State) : State :=
  let t := s.slot q k
  let s := (takeChains s q k).foldl (fun s p => match (s.chain p).strip with
    | some r => if r.pos = 0 then s.setChain p { s.chain p with strip := some { r with hi := t.len } }
        else s.setChain p { s.chain p with strip := none }
    | none => s) s
  let keep := fun (m : Nat × Strip) => if isMoved q k m then (if m.2.pos = 0 then some (m.1, { m.2 with hi := t.len }) else none) else some m
  let s := if s.cullet.moved.any (isMoved q k) then s.setCullet { s.cullet with moved := s.cullet.moved.filterMap keep } else s
  placeWaiting q (s.setSlot q k { t with chains := t.chains.take 1 })

/-- The fetch has passed (R126, R133, R134, R109, R168): how the take runs is fixed; with LENGTH = 0 it ends. -/
def fetchPassed (q k : Nat) (s : State) : State :=
  let t := s.slot q k
  let o := overlapOf t
  let ser := t.hSerial || o.asSer
  let w := if ser then 1 else match o.holds with | [] => 16 | h :: r => pow2Le (r.foldl (fun m x => min m x.2.2) h.2.2)
  let s := if o.one && !t.splice && decide (1 < t.chains.length) then keepOne q k s else s
  let t := s.slot q k
  s.setSlot q k { t with fetched := true, serial := ser, width := w, holds := if ser then [] else o.holds,
                         imgWait := t.cru && decide (0 < t.len), st := if t.len = 0 then .ending else t.st }

/-- The chains of a take that ends before any strip starts are freed (R128), for the strips that wait for one (R130). -/
def freeStrips (q k : Nat) (s : State) : State :=
  placeWaiting q ((takeChains s q k).foldl (fun s p => s.setChain p { s.chain p with strip := none }) s)

/-- A fetch that fails (R128): the fault is recorded and the chains are released; the leave goes with the record. -/
def fetchFails (q k : Nat) (f : TFault) (s : State) : State := freeStrips q k (takeFault q k f s)

/-- `descriptorFetch` (R128): w0 to w15 and, with EXTD, the extension are read, and every fetch check is made on the
directory entry as it stands. The fetch waits while a bank or the microcode store is not awake. -/
def execDescriptorFetch (q : Fin 4) (slot : Fin 64) (s : State) : Out :=
  let t := s.slot q slot
  if t.st ≠ .running ∨ t.fetched then .next s
  else if !awake s (domStore q) then .next (addDemand (domStore q) s)
  else
    let r := takeRead q t t.desc 16 s
    match r.2 with
    | .wait => .next r.1
    | .refused => .next (fetchFails q slot ⟨0x0E, 0, t.desc⟩ r.1)
    | .bad a => .next (fetchFails q slot ⟨0x0F, 0, a⟩ (r.1.setSlot q slot { t with words := [] }))
    | .ok ws =>
      let x := if bit (lget 0 ws 0) 20 then takeRead q t (t.desc + 128) 16 r.1 else (r.1, .ok [])
      match x.2 with
      | .wait => .next x.1
      | .refused => .next (fetchFails q slot ⟨0x0E, 0, t.desc + 128⟩ (x.1.setSlot q slot { t with words := ws }))
      | .bad a => .next (fetchFails q slot ⟨0x0F, 0, a⟩ (x.1.setSlot q slot { t with words := ws }))
      | .ok xs =>
        let e := (x.1.quad q).seen (fld (lget 0 ws 0) 8 0) s.bclk
        let t := { t with words := ws ++ xs, ent := e, ship := shippedReel (x.1.quad q) e, fetchAt := some s.bclk }
        let s := x.1.setSlot q slot t
        match fetchCheck s t with
        | some c => .next (fetchFails q slot ⟨c, 0, 0⟩ s)
        | none => .next (fetchPassed q slot s)

/-- A take of slot `n` whose fetch has looked at entry `k` in the BCLK in which the entry is cleared: the fetch sees VALID = 0
(R220). -/
def refetch (q k n : Nat) (s : State) : State :=
  let t := s.slot q n
  if t.fetchAt ≠ some s.bclk ∨ t.st = .free ∨ fld (t.w 0) 8 0 ≠ k then s
  else match fetchCheck s { t with ent := t.ent.clear, ship := none } with
    | none => s
    | some c => if t.fetched then fetchFails q n ⟨c, 0, 0⟩ s else s.setSlot q n { t with fault := t.fault.map fun _ => ⟨c, 0, 0⟩ }

/-! ## The completion record (R138 to R144) -/

/-- The length of a strip position, from the number of positions (R129). -/
def stripEnd (t : Slot) (n i : Nat) : Nat := if t.splice then t.len else min (4096 * ((i + 1) * t.frames / n)) t.len
def stripLo (t : Slot) (n i : Nat) : Nat := if t.splice then 0 else 4096 * (i * t.frames / n)

/-- DONE of R138: positions in order while each before has reached its end. -/
def doneScan (t : Slot) (n : Nat) : Nat → Nat → Nat
  | 0, i => if i = 0 then 0 else stripEnd t n (i - 1)
  | f + 1, i =>
    if i ≥ n then (if n = 0 then 0 else stripEnd t n (n - 1))
    else match t.ends.find? fun e => e.1 = i with
      | some e => if e.2 ≥ stripEnd t n i then doneScan t n f (i + 1) else e.2
      | none => stripLo t n i

/-- The count of elements done (R138). -/
def doneCount (t : Slot) : Nat :=
  if !t.aborted ∧ t.fault = none then t.len
  else
    let d := if t.splice then (match t.ends.find? fun e => e.1 + 1 = t.chains.length with | some e => e.2 | none => 0)
             else doneScan t t.chains.length t.chains.length 0
    match t.cap with | some c => min d c | none => d

/-- STATUS of R139. -/
def statusOf (t : Slot) : Nat := if t.aborted then 3 else if t.fault.isSome then 2 else 1

/-- Does the take's record launch the take at NEXT? (R141, R143) -/
def follows (t : Slot) : Bool := decide (statusOf t = 1) && t.link

/-- The four words of the record (R139). -/
def recordWords (q k : Nat) (t : Slot) : List Word :=
  let f := match t.aborted, t.fault with | false, some f => f | _, _ => ⟨0, 0, 0⟩
  let offs := match f.code.toNat with
    | 0x07 | 0x09 | 0x0A | 0x0B | 0x0E | 0x0F => f.foff
    | _ => 0
  let nexth := if follows t then handleOf q k (genNext t.gen) else 0
  [BitVec.ofNat 64 (statusOf t + f.code.toNat * 2 ^ 8 + handleOf q k t.gen * 2 ^ 16 + nexth * 2 ^ 32 + t.level.toNat * 2 ^ 48 + t.tag.toNat * 2 ^ 56),
   BitVec.ofNat 64 (doneCount t),
   BitVec.ofNat 64 (t.flags.toNat + (min t.replays 255) * 2 ^ 16 + offs * 2 ^ 24),
   BitVec.ofNat 64 f.elem]

/-- The fallback record (R142). -/
def fallbackRecord (q : Nat) (ws : List Word) (s : State) : State :=
  let Q := s.quad q
  let rec_ := (List.range 8).foldl (fun m i => tset zeroD i (BitVec.ofNat 32 ((lget 0 ws (i / 2)).toNat / 2 ^ (32 * (i % 2)))) m) Q.fbrec
  s.setQuad q { Q with fbrec := rec_, fbv := true, fbovr := Q.fbovr || Q.fbv }

/-- Is the take ready for its record? (R138, R119) -/
def recordReady (s : State) (q k : Nat) (t : Slot) : Bool :=
  decide (t.st = .ending) && (takeChains s q k).isEmpty && !(s.cullet.moved.any (isMoved q k)) && !takeTagged s q k t.gen

/-- Where the record goes: waits, the fallback, or a physical word index. -/
inductive RecTo where
  | wait
  | fallback (priv : Bool)
  | at (w : Nat)
  deriving DecidableEq, Repr

/-- A descriptor word that the record needs and the slot does not hold: the state after its read, the word if it could
be read, and whether the read waits. -/
def recordWord (q : Nat) (t : Slot) (i : Nat) (held : Option Word) (s : State) : State × Option Word × Bool :=
  match held with
  | some w => (s, some w, false)
  | none =>
    let x := takeRead q t (t.desc + 8 * i) 1 s
    match x.2 with
    | .ok ws => (x.1, some (lget 0 ws 0), false)
    | .wait => (x.1, none, true)
    | _ => (x.1, none, false)

/-- The place of the record, with w15 read for it where it is not held (R140, R142). -/
def recordPlace (q : Nat) (t : Slot) (s : State) : State × Option Word × RecTo :=
  let r := recordWord q t 15 (if 16 ≤ t.words.length then some (t.w 15) else none) s
  match r.2.1, r.2.2 with
  | none, true => (r.1, none, .wait)
  | none, false => (r.1, none, .fallback false)
  | some w15, _ =>
    let a := fld w15 23 0
    if a % 32 ≠ 0 then (r.1, some w15, .fallback false)
    else match spIndex r.1 a with
    | none => (r.1, some w15, .fallback false)
    | some w =>
      if !spOk r.1 w (t.level, t.tag) then (r.1, some w15, .fallback true)
      else if !bankOpen r.1 (w / 32768) (decide (ownerOf r.1 (w / 32768) = BitVec.ofNat 8 (16 + q))) then
        (addDemand (domBank (w / 32768)) r.1, some w15, .wait)
      else (addDemand (domBank (w / 32768)) r.1, some w15, .at w)

/-- Does a context of the core wait for the take with handle `h`: at a TWAIT, or as a task in WAIT on it? (R98) -/
def awaits (c : CoreSt) (h : Nat) : Bool :=
  decide (c.twait = some h) || c.ctxs.any fun x => decide (x.2.state = 3) && decide (x.2.waith.toNat = h) && decide (h ≠ 0)

/-- Every core of the quadrant that waits on the handle has a demand (R294). -/
def wakeWaiters (q : Nat) (h : Nat) (s : State) : State :=
  (List.range 4).foldl (fun s i => if awaits (s.core (4 * q + i)) h then demandCore (4 * q + i) s else s) s

/-- A source input is pulsed for one BCLK (R141, R248, R287). -/
def pulseSource (n : Nat) (s : State) : State :=
  if s.icu.pulses.contains n then s else s.setIcu { s.icu with pulses := s.icu.pulses ++ [n] }

/-- Notification (R141): the waiters, the source, then the link or the free slot. -/
def notify (q k : Nat) (t : Slot) (s : State) : State :=
  let s := wakeWaiters q (handleOf q k t.gen) s
  let s := if t.notify ∧ t.isrc ≠ 0 ∧ t.isrc ≠ 1023 then pulseSource t.isrc s else s
  if follows t then
    enqueue q k (arrLink k) (s.setSlot q k { gen := genNext t.gen, core := t.core, ctx := t.ctx, level := t.level, tag := t.tag, desc := t.next })
  else s.setSlot q k { gen := t.gen }

/-- What follows the record (R145, R196, R301, R304, R141): the counts, the leave or booking, the gateway buffer, and
notification. -/
def recordDone (q k : Nat) (t : Slot) (s : State) : State :=
  let Q := s.quad q
  let s := match statusOf t with
    | 1 => s.setQuad q { Q with tkdone := satInc Q.tkdone }
    | 2 => s.setQuad q { Q with tkfault := satInc Q.tkfault }
    | _ => s
  let s := if t.aborted then dropRequest (.take q k) s else orphanRequest q k t.seq s
  notify q k t (gwFlush (releaseBooking q k (releaseLeave (.take q k) s)))

/-- `completionRecord` (R139 to R143): once every request has drained the record is written, the leave or booking is
released, the gateway buffer is dropped (R196), and notification is given. -/
def execCompletionRecord (q : Fin 4) (slot : Fin 64) (s : State) : Out :=
  let t := s.slot q slot
  if !recordReady s q slot t then .next s
  else
    let h := recordWord q t 0 t.w0 s
    if h.2.2 then .next h.1
    else
      let p := recordPlace q t h.1
      let t := { t with w0 := some (h.2.1.getD 0),
                        words := if 16 ≤ t.words.length then t.words else List.replicate 15 0 ++ [p.2.1.getD 0] }
      match p.2.2 with
      | .wait => .next p.1
      | .at w => .next (recordDone q slot t ((List.range 4).foldl (fun s i => spWriteBreak s (w + i) (lget 0 (recordWords q slot t) i) 255 none) p.1))
      | .fallback true => .next (recordDone q slot t (fallbackRecord q (recordWords q slot t) (countPriv p.1)))
      | .fallback false => .next (recordDone q slot t (fallbackRecord q (recordWords q slot t) p.1))

end Sys2Proof.Machine
end

