-- ==== Sys2Proof/Machine/MicroStore.lean ====
section
/-! DEFINITION. A word of the stream microcode store and its check (R204, R221). -/

namespace Sys2Proof.Machine

/-- The last library word is 0x1389 (R223). -/
def libWords : Nat := 0x138A

/-- The stored word `w` without its flipped bits; a library word as shipped is what the image holds. -/
def Quad.good (Q : Quad) (w : Nat) : BitVec 128 :=
  match tget storeD Q.store w with
  | some v => v
  | none => Config.libWord w

/-- The flipped bits of word `w`. -/
def Quad.flips (Q : Quad) (w : Nat) : BitVec 144 := (tget zeroD Q.mcSynd w).setWidth 144

/-- Half `h` of a word's data. -/
def dataHalf {n : Nat} (v : BitVec n) (h : Nat) : Word := BitVec.ofNat 64 (v.toNat >>> (64 * h))
/-- Check byte `h` among the 144 stored bits. -/
def chkHalf (v : BitVec 144) (h : Nat) : BitVec 8 := BitVec.ofNat 8 (v.toNat >>> (128 + 8 * h))

/-- The syndrome of half `h` under a mask of flipped bits; the code is linear (R181). -/
def halfSyn (m : BitVec 144) (h : Nat) : BitVec 8 := checkByte (dataHalf m h) ^^^ chkHalf m h

/-- The mask after the correction that the code makes of half `h` (R181). -/
def fixHalf (m : BitVec 144) (h : Nat) : BitVec 144 :=
  match eccDecode (halfSyn m h) with
  | .single (some i) => flipBit m (64 * h + i)
  | .single none => m ^^^ BitVec.ofNat 144 ((halfSyn m h).toNat * 2 ^ (128 + 8 * h))
  | _ => m

/-- The data of word `w` as they stand, flipped bits included. -/
def Quad.data (Q : Quad) (w : Nat) : BitVec 128 := Q.good w ^^^ BitVec.ofNat 128 (Q.flips w).toNat

/-- The word that a chain's reel cache takes: `none` for a library word as shipped. -/
def Quad.fillWord (Q : Quad) (w : Nat) : Option (BitVec 128) :=
  if Q.flips w = 0 then tget storeD Q.store w else some (Q.data w)

/-- Word `w` written whole, with its own check bytes (R204). -/
def Quad.putWord (Q : Quad) (w : Nat) (v : Option (BitVec 128)) : Quad :=
  { Q with store := tset storeD w v Q.store, mcSynd := tset zeroD w 0 Q.mcSynd, mcBad := Q.mcBad.filter (· ≠ w),
           rewrite := Q.rewrite.filter (· ≠ w) }

/-- Does the range of an entry hold word `w`? -/
def DirEnt.covers (e : DirEnt) (w : Nat) : Bool := e.valid && decide (e.basew ≤ w) && decide (w < e.basew + e.len)

/-- Every VALID entry that `f` chooses loses VALID; LOST and the dailies say so if there was one (R221, R222). -/
def clearEntries (q : Nat) (f : Nat → DirEnt → Bool) (s : State) (inj : Bool := false) : State :=
  let Q := s.quad q
  let hit := Q.dir.filter fun e => e.2.valid && f e.1 e.2
  if hit.isEmpty then s
  else
    let d := hit.foldl (fun d e => tset dirInit e.1 e.2.clear d) Q.dir
    logEv 0x44 1 (pgQuad q) q (s.setQuad q { Q with dir := d, lost := true }) inj

/-- An uncorrectable word (R221): a library word waits for its rewrite, any other is poisoned. -/
def mcUncorrectable (q w : Nat) (inj : Bool) (s : State) : State :=
  let Q := s.quad q
  if Q.rewrite.contains w ∨ Q.mcBad.contains w then s
  else
    let s := logEv 0x43 1 (pgQuad q) w (s.setQuad q { Q with mcuerr := satInc Q.mcuerr }) inj
    let Q := s.quad q
    if w < libWords then s.setQuad q { Q with rewrite := Q.rewrite ++ [w] }
    else clearEntries q (fun _ e => e.covers w)
      (s.setQuad q { Q with mcBad := Q.mcBad ++ [w], mcpois := BitVec.ofNat 32 (2 ^ 31 + w) }) inj

/-- A word is read and checked (R221): the state after it, and whether the word can be used. -/
def mcCheck (q w : Nat) (s : State) : State × Bool :=
  let Q := s.quad q
  let m := Q.flips w
  if Q.rewrite.contains w ∨ Q.mcBad.contains w then (s, false)
  else if halfSyn m 0 = 0 ∧ halfSyn m 1 = 0 then (s, true)
  else if eccDecode (halfSyn m 0) = .double ∨ eccDecode (halfSyn m 1) = .double then (mcUncorrectable q w (bit (tget zeroD Q.mcSynd w) 144) s, false)
  else (s.setQuad q { Q with mcSynd := tset zeroD w ((fixHalf (fixHalf m 0) 1).setWidth 145) Q.mcSynd, mccorr := satInc Q.mccorr }, true)

end Sys2Proof.Machine
end

