-- ==== Sys2Proof/Machine/Cullet.lean ====
section
/-! DEFINITION. The cullet: retirement and its log, free spares, and chain repair with the strips that it moves
(R130, R171, R338 to R341, R347). -/

namespace Sys2Proof.Machine

def State.setCh (s : State) (l : Nat) (v : Option Nat) : State := s.setCullet { s.cullet with chMap := tset chMapD l v s.cullet.chMap }
def State.setBk (s : State) (l : Nat) (v : Option Nat) : State := s.setCullet { s.cullet with bkMap := tset bkMapD l v s.cullet.bkMap }
def State.setMb (s : State) (l : Nat) (v : Option Nat) : State := s.setCullet { s.cullet with mbMap := tset mbMapD l v s.cullet.mbMap }
def State.setPt (s : State) (l : Nat) (v : Nat) : State := s.setSteer { s.steer with ptMap := tset ptMapD l v s.steer.ptMap }

/-- The state of unit `u` of a kind (0 chain, 1 bank, 2 member slot, 3 port). -/
def unitSt (s : State) (kind u : Nat) : BitVec 2 :=
  match kind with
  | 0 => s.chUnit u
  | 1 => s.bkUnit u
  | 2 => s.slUnit u
  | _ => s.ptUnit u

def setUnit (kind u : Nat) (v : BitVec 2) (s : State) : State :=
  let c := s.cullet
  match kind with
  | 0 => s.setCullet { c with chSt := tset unit17D u v c.chSt }
  | 1 => s.setCullet { c with bkSt := tset unit17D u v c.bkSt }
  | 2 => s.setCullet { c with slSt := tset unit14D u v c.slSt }
  | _ => s.setCullet { c with ptSt := tset unitPtD u v c.ptSt }

/-- How many units a kind has, and the logical unit that a unit serves. -/
def unitCount (kind : Nat) : Nat := match kind with | 0 => 68 | 1 => 68 | 2 => 56 | _ => 528
def unitLog (s : State) (kind u : Nat) : Option Nat :=
  match kind with
  | 0 => s.chLog u
  | 1 => s.bkLog u
  | 2 => s.mbLog u
  | _ => s.ptLog u

/-- The repair scope of a unit (R340): its quadrant, or 0 for a port. -/
def unitScope (kind u : Nat) : Nat := match kind with | 0 => u / 17 | 1 => u / 17 | 2 => u / 14 | _ => 0

/-- The power domain of a unit; a port has none of its own. -/
def unitDom (kind u : Nat) : Option Nat :=
  match kind with | 0 => some (domChain u) | 1 => some (domBank u) | 2 => some (domSlot u) | _ => none

/-- The page that R350 names for a retired unit, given the logical unit it served. -/
def retirePage (kind u : Nat) (l : Option Nat) : Nat :=
  match kind with
  | 0 => pgChain u
  | 1 => pgSbank u
  | 2 => match l with | some i => pgCore (i / 3) | none => pgCullet
  | _ => pgPgrp (u / 16)

/-- A unit is retired in service (R339, R350, R291): its state, its dailies entry, its domain toward COLD. -/
def retireUnit (kind u : Nat) (l : Option Nat) (s : State) (inj : Bool := false) : State :=
  let s := setUnit kind u 2 s
  let pg := retirePage kind u l
  let s := if bit (s.header pg).pevt 3 then logEv 0x04 1 pg (u + kind * 2 ^ 10 + (l.getD 0x3FF) * 2 ^ 12) s inj else s
  match unitDom kind u with
  | some d => askCold d s
  | none => s

/-- Is the spare `u` taken by a repair that is running? -/
def spareTaken (s : State) (kind u : Nat) : Bool :=
  s.cullet.running.any fun r => decide (r.kind = kind) && decide (r.spare = some u)

/-- The spare that a repair takes (R338): the lowest-numbered free one of its scope. -/
def freeSpare (s : State) (kind scope : Nat) : Option Nat :=
  (List.range (unitCount kind)).find? fun u =>
    decide (unitSt s kind u = 1) && decide (unitScope kind u = scope) && !spareTaken s kind u

/-- Is a repair of a kind and scope running? -/
def repairBusy (s : State) (kind scope : Nat) : Bool :=
  s.cullet.running.any fun r => decide (r.kind = kind) && decide (r.scope = scope)

/-- Is a repair of the unit running or waiting? -/
def repairOf (s : State) (kind u : Nat) : Bool :=
  (s.cullet.running ++ s.cullet.waiting).any fun r => decide (r.kind = kind) && (decide (r.old = u) || decide (r.spare = some u))

/-- The next waiting repair of a kind and scope, and the queue without it (R340). -/
def nextWaiting (s : State) (kind scope : Nat) : Option Repair :=
  s.cullet.waiting.find? fun r => decide (r.kind = kind) && decide (r.scope = scope)

def endRepair (r : Repair) (s : State) : State :=
  s.setCullet { s.cullet with running := s.cullet.running.filter (· ≠ r) }

def dropWaiting (r : Repair) (s : State) : State :=
  s.setCullet { s.cullet with waiting := s.cullet.waiting.filter (· ≠ r) }

/-! ## Strips that move (R130, R166, R171, R341) -/

/-- The start of a strip. -/
def startCk (r : Strip) : Ckpt := { micro := { ptr := r.lo } }

/-- Does a checkpoint follow only frames whose stores are all acknowledged? -/
def ckDone (r : Strip) (c : Ckpt) : Bool := r.unacked.all fun u => decide (c.micro.ptr ≤ u.elem)

/-- The checkpoint at the start of the strip's first unfinished frame (R130): its newest one, or its start. -/
def lastCk (r : Strip) : Ckpt := (((r.cks.filter fun c => ckDone r c.2).getLast?).map Prod.snd).getD (startCk r)

/-- The checkpoint of frame `f` of the take, or of the newest frame before it. -/
def ckAt (r : Strip) (f : Nat) : Ckpt := (((r.cks.filter fun c => decide (c.1 ≤ f)).getLast?).map Prod.snd).getD (startCk r)

/-- A strip put back to a checkpoint: its reads start again there and nothing is uncommitted. -/
def restartAt (r : Strip) (c : Ckpt) : Strip :=
  { r with ready := false, micro := c.micro, snaps := [], cptr := c.micro.ptr, pass2 := c.pass2, ended := false,
           nxt := [], landed := [], staged := [], unacked := [], steered := [], stgErr := [], lanes := c.lanes, grp := [], flags := c.flags,
           gflags := [], retried := false, from_ := c.micro.ptr, fromPks := c.micro.pks, csr0 := none,
           cks := r.cks.filter fun x => decide (x.2.micro.ptr ≤ c.micro.ptr) || (c.pass2 && !x.2.pass2),
           spin := r.spin.take c.micro.spinAt, chan := [], sentN := c.micro.sendAt, fin := [],
           ckBad := c.bad }

/-- Every strip of a SPLICE take goes back to the first frame that the last chain has not finished (R171). -/
def restartPipe (q k : Nat) (s : State) : State :=
  let ps := takeChains s q k
  let strips := (ps.filterMap fun p => (s.chain p).strip) ++ ((s.cullet.moved.filter (isMoved q k)).map Prod.snd)
  let f := match strips.find? fun r => decide (r.pos + 1 = (s.slot q k).chains.length) with
    | some r => (lastCk r).micro.ptr / 4096
    | none => 0
  let s := ps.foldl (fun s p => match (s.chain p).strip with
    | some r => s.setChain p { s.chain p with strip := some (restartAt r (ckAt r f)), marver := [] }
    | none => s) s
  let back := fun (m : Nat × Strip) => if isMoved q k m then (m.1, restartAt m.2 (ckAt m.2 f)) else m
  let s := s.setSlot q k { s.slot q k with fins := [] }
  s.setCullet { s.cullet with moved := s.cullet.moved.map back }

/-- The quadrant has no free spare chain (R341): it runs with one chain fewer, and the strip follows R130. -/
def chainLost (p l : Nat) (inj : Bool) (s : State) : State :=
  let s := retireUnit 0 p (some l) (s.setCh l none) inj
  let s := logEv 0x22 2 (pgChain p) l s inj
  let s := s.setCullet { s.cullet with moved := s.cullet.moved.map fun m => if m.1 = l then (64, m.2) else m }
  placeMoved (l / 16) s

/-- A chain repair starts: the spare is assigned and woken, or the chain is lost (R341, steps 1 and 2). -/
def startChainRepair (r : Repair) (s : State) : State :=
  match freeSpare s 0 r.scope with
  | some u =>
    let s := s.setCullet { s.cullet with running := s.cullet.running ++ [{ r with spare := some u }] }
    wakeDom (domChain u) (addDemand (domChain u) s)
  | none => chainLost r.old r.logical r.inj s

/-- A chain repair starts now, or waits behind one of its quadrant (R340). -/
def queueChainRepair (r : Repair) (s : State) : State :=
  if repairBusy s 0 r.scope then s.setCullet { s.cullet with waiting := s.cullet.waiting ++ [r] }
  else startChainRepair r s

/-- Does a take have an end on a cross-quadrant link? -/
def takeLinked (s : State) (t : Slot) : Bool := takeProd s t || takeCons s t

/-- The strip of a chain that stops is kept for its replacement: it goes back to its newest frame; a linked take ends
with 0x0C instead (R171, R173, R341). -/
def moveStrip (p l : Nat) (s : State) : State :=
  match (s.chain p).strip with
  | none => s.setChain p { s.chain p with marver := [] }
  | some r =>
    let t := s.slot r.q r.slot
    let s := s.setChain p { s.chain p with strip := none, marver := [] }
    if takeLinked s t then takeFault r.q r.slot ⟨0x0C, r.cptr, 0⟩ s
    else if r.stop || t.st = .ending && (t.aborted || t.fault.isSome) then
      let e := (r.pos, r.cptr)
      s.setSlot r.q r.slot { t with ends := t.ends ++ [e], flags := t.flags ||| r.flags }
    else
      let s := s.setCullet { s.cullet with moved := s.cullet.moved ++ [(l, restartAt r (lastCk r))] }
      let s := if t.fins.contains r.pos then s.setSlot r.q r.slot { t with fins := t.fins.filter (· ≠ r.pos) } else s
      if r.spliced then restartPipe r.q r.slot s else s

/-- The chain repairs that wait in a quadrant start, until one runs (R340). -/
def nextChainRepair (q : Nat) (s : State) : State :=
  (s.cullet.waiting.filter fun r => decide (r.kind = 0) && decide (r.scope = q)).foldl
    (fun s r => if repairBusy s 0 q then s else startChainRepair r (dropWaiting r s)) s

/-- A chain is treated as having a hard fault (R160, R341). A spare that faults is retired; where a repair was about to
use it, the strip follows R130 without a spare (R347), and the repairs that wait go on (R340). -/
def hardFault (p : Nat) (s : State) (inj : Bool := false) : State :=
  if s.chUnit p = 2 ∨ (s.cullet.running ++ s.cullet.waiting).any (fun r => decide (r.kind = 0) && decide (r.old = p)) then s
  else
    let s := raiseFault (pgChain p) s inj
    match s.chLog p with
    | some l => queueChainRepair ⟨0, l / 16, l, p, none, inj⟩ (moveStrip p l (undoReplay p s))
    | none =>
      match s.cullet.running.find? fun r => decide (r.kind = 0) && decide (r.spare = some p) with
      | some r => nextChainRepair r.scope (chainLost r.old r.logical r.inj (retireUnit 0 p none (endRepair r s) inj))
      | none => retireUnit 0 p none s inj

/-- `chainHardFault` (R341). -/
def execChainHardFault (chain : Fin 68) (s : State) : Out := whenUp s <| .next (hardFault chain s)

/-- `chainRepaired` (R341, steps 3 to 5): once the spare is awake it takes the logical chain, its SPROUTE and SPWIDTH,
and the strip; the old chain is retired. A checkpoint slot that reads uncorrectable ends the take with 0x0C (R347). -/
def execChainRepaired (q : Fin 4) (s : State) : Out :=
  match s.cullet.running.find? fun r => decide (r.kind = 0) && decide (r.scope = q.val) with
  | none => .next s
  | some r => match r.spare with
    | none => .next s
    | some u =>
      if !awake s (domChain u) then .next s
      else
        let o := s.chain r.old
        let s := endRepair r (setUnit 0 u 0 (s.setCh r.logical (some u)))
        let s := s.setChain u { s.chain u with srLive := o.srLive, srStg := o.srStg, swLive := o.swLive, swStg := o.swStg }
        let m := s.cullet.moved.find? fun m => decide (m.1 = r.logical)
        let s := match m with
          | some m => if m.2.ckBad then takeFault m.2.q m.2.slot ⟨0x0C, m.2.cptr, 0⟩ s
              else placeStrip u r.logical m.2 (s.setCullet { s.cullet with moved := s.cullet.moved.filter (· ≠ m) })
          | none => s
        let s := logEv 0x21 1 (pgChain r.old) (u + b2n m.isSome * 2 ^ 8) s r.inj
        .next (nextChainRepair q (retireUnit 0 r.old (some r.logical) s r.inj))

end Sys2Proof.Machine
end

