-- ==== Sys2Proof/Machine/Flags.lean ====
section
/-! DEFINITION. Flag computations: the carry and overflow of the S unit (R73), and binary floating point with its
sticky flags (R55, R75, R76, R153 to R155), over exact integers narrowed by one rounding. -/

namespace Sys2Proof.Machine

/-! ## Integer flags (R73) -/

/-- N + T + cin with carry out of bit 63 and signed overflow. -/
def addFlags (n t : Word) (cin : Bool) : Word × Bool × Bool :=
  let r := n + t + b2w cin
  (r, decide (n.toNat + t.toNat + b2n cin ≥ 2 ^ 64), decide (n.toInt + t.toInt + (b2n cin : Int) ≠ r.toInt))

/-- N − T − cin with borrow and signed overflow. -/
def subFlags (n t : Word) (cin : Bool) : Word × Bool × Bool :=
  let r := n - t - b2w cin
  (r, decide (n.toNat < t.toNat + b2n cin), decide (n.toInt - t.toInt - (b2n cin : Int) ≠ r.toInt))

/-- FLAGS with C and V written (R43). -/
def setCV (f : Word) (c v : Bool) : Word := setBit (setBit f 0 c) 1 v

/-- FLAGS with the sticky FP flags NV, DZ, OF, UF, NX of `k` (bits 0 to 4) set (R43). -/
def orSticky (f : Word) (k : BitVec 5) : Word := f ||| ((k.setWidth 64) <<< 2)

/-! ## Binary floating point -/

/-- A binary format: `mw` fraction bits and `ew` exponent bits. -/
structure Fmt where
  mw : Nat
  ew : Nat
  deriving DecidableEq, Repr

def f64 : Fmt := ⟨52, 11⟩
def f32 : Fmt := ⟨23, 8⟩

/-- An unpacked value: NaN, infinity, or (−1)^s · m · 2^e. -/
inductive Fp where
  | nan
  | inf (s : Bool)
  | fin (s : Bool) (m : Nat) (e : Int)
  deriving DecidableEq, Repr

def Fmt.bias (f : Fmt) : Int := (2 : Int) ^ (f.ew - 1) - 1
def Fmt.signBit (f : Fmt) : Nat := 2 ^ (f.mw + f.ew)
def Fmt.infBits (f : Fmt) : Nat := (2 ^ f.ew - 1) * 2 ^ f.mw
def Fmt.quietBit (f : Fmt) : Nat := 2 ^ (f.mw - 1)
/-- The default NaN (R55, R154). -/
def Fmt.defNan (f : Fmt) : Nat := f.infBits + f.quietBit
def Fmt.neg (f : Fmt) (b : Nat) : Bool := decide (b / f.signBit % 2 = 1)
def Fmt.isNan (f : Fmt) (b : Nat) : Bool := decide (b % f.signBit > f.infBits)
def Fmt.isSnan (f : Fmt) (b : Nat) : Bool := f.isNan b && decide (b / f.quietBit % 2 = 0)
def Fmt.quiet (f : Fmt) (b : Nat) : Nat := if b / f.quietBit % 2 = 0 then b + f.quietBit else b
def Fmt.withSign (f : Fmt) (s : Bool) (b : Nat) : Nat := b + b2n s * f.signBit

/-- Unpack a bit pattern. -/
def Fmt.unpack (f : Fmt) (b : Nat) : Fp :=
  let s := f.neg b
  let ex := b / 2 ^ f.mw % 2 ^ f.ew
  let fr := b % 2 ^ f.mw
  if ex = 2 ^ f.ew - 1 then (if fr = 0 then .inf s else .nan)
  else if ex = 0 then .fin s fr (1 - f.bias - f.mw)
  else .fin s (fr + 2 ^ f.mw) (ex - f.bias - f.mw)

/-- The number of bits of `m`. -/
def bitLen (m : Nat) : Nat := if m = 0 then 0 else Nat.log2 m + 1

/-- m · 2^−sh rounded to an integer under rm (0 nearest even, 1 zero, 2 up, 3 down), and whether it was inexact. -/
def roundShift (rm : Nat) (s : Bool) (m : Nat) (sh : Int) : Nat × Bool :=
  if sh ≤ 0 then (m * 2 ^ (-sh).toNat, false)
  else
    let d := 2 ^ sh.toNat
    let q := m / d
    let r := m % d
    let up := match rm with
      | 0 => decide (2 * r > d) || (decide (2 * r = d) && decide (q % 2 = 1))
      | 1 => false
      | 2 => decide (r > 0) && !s
      | _ => decide (r > 0) && s
    (if up then q + 1 else q, decide (r ≠ 0))

/-- The sticky flags as bits NV, DZ, OF, UF, NX. -/
def fpFlags (nv dz of uf nx : Bool) : BitVec 5 :=
  BitVec.ofNat 5 (b2n nv + 2 * b2n dz + 4 * b2n of + 8 * b2n uf + 16 * b2n nx)

def fNV : BitVec 5 := 1

/-- Round (−1)^s · m · 2^e to the format under rm, with tininess detected after rounding (R55, R154). A zero keeps
its sign. -/
def Fmt.round (f : Fmt) (rm : Nat) (s : Bool) (m : Nat) (e : Int) : Nat × BitVec 5 :=
  if m = 0 then (f.withSign s 0, 0)
  else
    let p := f.mw + 1
    let emin := 1 - f.bias
    let top := e + bitLen m - 1
    let free := roundShift rm s m (top - (p - 1) - e)
    let tiny := decide ((if free.1 = 2 ^ p then top + 1 else top) < emin)
    let q := max (top - (p - 1)) (emin - (p - 1))
    let r := roundShift rm s m (q - e)
    let enc := if r.1 < 2 ^ (p - 1) then r.1 else ((q + (p - 1) + f.bias).toNat) * 2 ^ f.mw + r.1 - 2 ^ f.mw
    if enc ≥ f.infBits then
      let toInf := match rm with | 0 => true | 1 => false | 2 => !s | _ => s
      (f.withSign s (if toInf then f.infBits else f.infBits - 1), fpFlags false false true false true)
    else (f.withSign s enc, fpFlags false false false (tiny && r.2) r.2)

/-- Does an operand list hold a NaN? Then the first one, quieted, and NV for any signalling operand (R55). -/
def Fmt.nanOf (f : Fmt) (ops : List Nat) : Option (Nat × BitVec 5) :=
  match ops.find? f.isNan with
  | some b => some (f.quiet b, if ops.any f.isSnan then fNV else 0)
  | none => none

/-- The sum of two finite values, exact. -/
def sumExact (s1 : Bool) (m1 : Nat) (e1 : Int) (s2 : Bool) (m2 : Nat) (e2 : Int) : Int × Int :=
  let e := min e1 e2
  let v1 : Int := (m1 * 2 ^ (e1 - e).toNat : Nat)
  let v2 : Int := (m2 * 2 ^ (e2 - e).toNat : Nat)
  ((if s1 then -v1 else v1) + (if s2 then -v2 else v2), e)

/-- The rounded sum of two values that are no NaN (exact values given unpacked). -/
def Fmt.addFp (f : Fmt) (rm : Nat) (x y : Fp) : Nat × BitVec 5 :=
  match x, y with
  | .nan, _ => (f.defNan, fNV)
  | _, .nan => (f.defNan, fNV)
  | .inf s, .inf t => if s = t then (f.withSign s f.infBits, 0) else (f.defNan, fNV)
  | .inf s, .fin _ _ _ => (f.withSign s f.infBits, 0)
  | .fin _ _ _, .inf s => (f.withSign s f.infBits, 0)
  | .fin s1 m1 e1, .fin s2 m2 e2 =>
    let v := sumExact s1 m1 e1 s2 m2 e2
    if v.1 = 0 then
      (f.withSign (if m1 = 0 ∧ m2 = 0 ∧ s1 = s2 then s1 else decide (rm = 3)) 0, 0)
    else f.round rm (decide (v.1 < 0)) v.1.natAbs v.2

/-- The exact product of two values that are no NaN; `none` for 0 × ∞. -/
def mulExact (x y : Fp) : Option Fp :=
  match x, y with
  | .fin s1 m1 e1, .fin s2 m2 e2 => some (.fin (Bool.xor s1 s2) (m1 * m2) (e1 + e2))
  | .inf s, .inf t => some (.inf (Bool.xor s t))
  | .inf s, .fin t m _ => if m = 0 then none else some (.inf (Bool.xor s t))
  | .fin t m _, .inf s => if m = 0 then none else some (.inf (Bool.xor s t))
  | _, _ => none

def Fp.negate : Fp → Fp
  | .nan => .nan
  | .inf s => .inf (!s)
  | .fin s m e => .fin (!s) m e

/-- a + b, or a − b with `sub` (R55). -/
def Fmt.add (f : Fmt) (rm : Nat) (sub : Bool) (a b : Nat) : Nat × BitVec 5 :=
  match f.nanOf [a, b] with
  | some r => r
  | none => f.addFp rm (f.unpack a) (if sub then (f.unpack b).negate else f.unpack b)

/-- a × b (R55). -/
def Fmt.mul (f : Fmt) (rm : Nat) (a b : Nat) : Nat × BitVec 5 :=
  match f.nanOf [a, b] with
  | some r => r
  | none => match mulExact (f.unpack a) (f.unpack b) with
    | none => (f.defNan, fNV)
    | some (.fin s m e) => f.round rm s m e
    | some (.inf s) => (f.withSign s f.infBits, 0)
    | some .nan => (f.defNan, fNV)

/-- ±(a × b) ± c with one rounding; 0 × ∞ sets NV also with a NaN addend (R55, R153). -/
def Fmt.fma (f : Fmt) (rm : Nat) (negP negC : Bool) (a b c : Nat) : Nat × BitVec 5 :=
  let x := f.unpack a
  let y := f.unpack b
  match f.nanOf [a, b, c] with
  | some r =>
    let inv := !f.isNan a && !f.isNan b && decide (mulExact x y = none)
    (r.1, if inv then fNV else r.2)
  | none => match mulExact x y with
    | none => (f.defNan, fNV)
    | some p => f.addFp rm (if negP then p.negate else p) (if negC then (f.unpack c).negate else f.unpack c)

/-- The integer square root by bits, `k` bits from the top. -/
def isqrtGo (n : Nat) : Nat → Nat → Nat
  | 0, r => r
  | k + 1, r => isqrtGo n k (if (r + 2 ^ k) * (r + 2 ^ k) ≤ n then r + 2 ^ k else r)

/-- √a (R75): √−0 = −0, a negative non-zero operand is invalid. -/
def Fmt.sqrt (f : Fmt) (rm : Nat) (a : Nat) : Nat × BitVec 5 :=
  match f.nanOf [a] with
  | some r => r
  | none => match f.unpack a with
    | .nan => (f.defNan, fNV)
    | .inf s => if s then (f.defNan, fNV) else (f.infBits, 0)
    | .fin s m e =>
      if m = 0 then (a, 0)
      else if s then (f.defNan, fNV)
      else
        let e0 := e - 2 * (f.mw + 4)
        let e1 := if e0 % 2 = 0 then e0 else e0 - 1
        let n := m * 2 ^ (e - e1).toNat
        let r := isqrtGo n (bitLen n / 2 + 1) 0
        f.round rm false (2 * r + (if r * r = n then 0 else 1)) (e1 / 2 - 1)

/-- Compare two values that are no NaN: negative, zero or positive as a − b. -/
def cmpFp (x y : Fp) : Int :=
  match x, y with
  | .inf s, .inf t => (if s then -1 else 1) - (if t then -1 else 1)
  | .inf s, _ => if s then -1 else 1
  | _, .inf t => if t then 1 else -1
  | .fin s1 m1 e1, .fin s2 m2 e2 => (sumExact s1 m1 e1 (!s2) m2 e2).1
  | _, _ => 0

/-- FCMP (R75): predicate 0 EQ, 1 LT, 2 LE, 3 UN. -/
def Fmt.cmp (f : Fmt) (p : Nat) (a b : Nat) : Bool × BitVec 5 :=
  let sn := f.isSnan a || f.isSnan b
  if f.isNan a || f.isNan b then
    (decide (p = 3), if sn || decide (p = 1) || decide (p = 2) then fNV else 0)
  else
    let c := cmpFp (f.unpack a) (f.unpack b)
    (match p with | 0 => decide (c = 0) | 1 => decide (c < 0) | 2 => decide (c ≤ 0) | _ => false, 0)

/-- minimumNumber or maximumNumber (R153): −0 is less than +0; one NaN gives the other operand, two the default NaN. -/
def Fmt.minMax (f : Fmt) (mx : Bool) (a b : Nat) : Nat × BitVec 5 :=
  let fl : BitVec 5 := if f.isSnan a || f.isSnan b then fNV else 0
  if f.isNan a then (if f.isNan b then f.defNan else b, fl)
  else if f.isNan b then (a, fl)
  else
    let c := cmpFp (f.unpack a) (f.unpack b)
    let aLess := decide (c < 0) || (decide (c = 0) && f.neg a && !f.neg b)
    (if aLess = mx then b else a, fl)

/-- Round a value that is no NaN or infinity to an integer under rm, and whether it was inexact. -/
def toIntRound (rm : Nat) (s : Bool) (m : Nat) (e : Int) : Int × Bool :=
  let r := roundShift rm s m (-e)
  (if s then -(r.1 : Int) else r.1, r.2)

/-- Floating point to a `w`-bit integer (R55, R76). A NaN gives 0x8000…0 with NV. -/
def Fmt.toI (f : Fmt) (rm w : Nat) (signed : Bool) (a : Nat) : Nat × BitVec 5 :=
  let lo : Int := if signed then -(2 : Int) ^ (w - 1) else 0
  let hi : Int := if signed then (2 : Int) ^ (w - 1) - 1 else (2 : Int) ^ w - 1
  let wrap (v : Int) : Nat := (v % (2 : Int) ^ w).toNat
  match f.unpack a with
  | .nan => (2 ^ (w - 1), fNV)
  | .inf s => (wrap (if s then lo else hi), fNV)
  | .fin s m e =>
    let r := toIntRound rm s m e
    if r.1 < lo then (wrap lo, fNV) else if r.1 > hi then (wrap hi, fNV)
    else (wrap r.1, fpFlags false false false false r.2)

/-- A `w`-bit integer to floating point (R76). -/
def Fmt.fromI (f : Fmt) (rm w : Nat) (signed : Bool) (a : Nat) : Nat × BitVec 5 :=
  let v : Int := if signed && decide (a ≥ 2 ^ (w - 1)) then (a : Int) - (2 : Int) ^ w else a
  if v = 0 then (0, 0) else f.round rm (decide (v < 0)) v.natAbs 0

/-- binary64 to binary32 (R76, kind 4): a NaN keeps its sign and the top 22 bits of its payload, quieted. -/
def cvtD2S (rm : Nat) (a : Nat) : Nat × BitVec 5 :=
  match f64.unpack a with
  | .nan => (f32.withSign (f64.neg a) (f32.defNan + a / 2 ^ 29 % 2 ^ 22), if f64.isSnan a then fNV else 0)
  | .inf s => (f32.withSign s f32.infBits, 0)
  | .fin s m e => f32.round rm s m e

/-- binary32 to binary64 (R76, kind 5): exact, a signalling NaN quieted with NV. -/
def cvtS2D (a : Nat) : Nat × BitVec 5 :=
  match f32.unpack a with
  | .nan => (f64.withSign (f32.neg a) (f64.infBits + (f32.quiet a % 2 ^ 23) * 2 ^ 29), if f32.isSnan a then fNV else 0)
  | .inf s => (f64.withSign s f64.infBits, 0)
  | .fin s m e => f64.round 0 s m e

/-- FCVT of a 64-bit operand by kind (R76). Kinds 6 and 7 give the operand (R208). -/
def fcvt (rm kind : Nat) (a : Word) : Word × BitVec 5 :=
  let r := match kind with
    | 0 => f64.toI rm 64 true a.toNat
    | 1 => f64.fromI rm 64 true a.toNat
    | 2 => f64.toI rm 64 false a.toNat
    | 3 => f64.fromI rm 64 false a.toNat
    | 4 => cvtD2S rm a.toNat
    | 5 => cvtS2D (a.toNat % 2 ^ 32)
    | _ => (a.toNat, 0)
  (BitVec.ofNat 64 r.1, r.2)

end Sys2Proof.Machine
end

