-- ==== Sys2Proof/Machine/Pipes.lean ====
section
/-! DEFINITION. Arithmetic of the chains' pipes on one 64-bit element: FMA, ILU, RED and the crucible (R152 to R157,
R162 to R168, R207, R208). -/

namespace Sys2Proof.Machine

/-- Element types (R108). -/
def isPaired (et : Nat) : Bool := decide (et = 1 ∨ et = 3)
def isFp (et : Nat) : Bool := decide (et = 0 ∨ et = 1)

def lo32 (w : Word) : Nat := w.toNat % 2 ^ 32
def hi32 (w : Word) : Nat := w.toNat / 2 ^ 32
def join32 (l h : Nat) : Word := BitVec.ofNat 64 (l % 2 ^ 32 + (h % 2 ^ 32) * 2 ^ 32)

/-- A result and its sticky flags. -/
abbrev FR := Nat × BitVec 5

/-- An operation on one binary64, or on each half as binary32 (R153). -/
def byFp (et : Nat) (f : Fmt → (Word → Nat) → FR) : Word × BitVec 5 :=
  if isPaired et then
    let l := f f32 lo32
    let h := f f32 hi32
    (join32 l.1 h.1, l.2 ||| h.2)
  else
    let r := f f64 BitVec.toNat
    (BitVec.ofNat 64 r.1, r.2)

/-- An integer operation on 64 bits, or on each half at 32 bits (R157). -/
def byInt (et : Nat) (f : Nat → (Word → Nat) → Nat) : Word :=
  if isPaired et then join32 (f 32 lo32) (f 32 hi32) else BitVec.ofNat 64 (f 64 BitVec.toNat)

/-- The FMA pipe, OP 1 to 12 (R153, R208). -/
def fmaOp (rm et op : Nat) (a b c : Word) : Word × BitVec 5 :=
  byFp et fun F g => match op with
    | 1 => F.add rm false (g a) (g b)
    | 2 => F.add rm true (g a) (g b)
    | 3 => F.mul rm (g a) (g b)
    | 4 => F.fma rm false false (g a) (g b) (g c)
    | 5 => F.fma rm false true (g a) (g b) (g c)
    | 6 => F.fma rm true false (g a) (g b) (g c)
    | 7 => F.fma rm true true (g a) (g b) (g c)
    | 8 => F.minMax false (g a) (g b)
    | 9 => F.minMax true (g a) (g b)
    | 10 => (g a % F.signBit, 0)
    | 11 => ((g a + F.signBit) % (2 * F.signBit), 0)
    | _ => (g a % F.signBit + g b / F.signBit * F.signBit, 0)

/-- A natural number of `w` bits as a signed integer. -/
def sInt (w v : Nat) : Int := if v < 2 ^ (w - 1) then v else (v : Int) - 2 ^ w

/-- A mask of `w` ones where `p` holds. -/
def mask (w : Nat) (p : Bool) : Nat := if p then 2 ^ w - 1 else 0

/-- The number of set bits of a natural number below 2^w. -/
def popN (w v : Nat) : Nat := ((List.range w).filter v.testBit).length

/-- Leading zeros of a value of `w` bits. -/
def clzN (w v : Nat) : Nat := w - bitLen v

/-- Integer and logic operations of the ILU, OP 1 to 24 (R157, R208), on `w`-bit values. -/
def iluInt (w op a b c : Nat) : Nat :=
  let m := 2 ^ w
  let k := b % w
  match op with
  | 1 => (a + b) % m
  | 2 => (a + m - b) % m
  | 3 => (m - a) % m
  | 4 => a * b % m
  | 5 => if sInt w a < 0 then (m - a) % m else a
  | 6 => mask w (decide (a = b))
  | 7 => mask w (decide (sInt w a < sInt w b))
  | 8 => mask w (decide (a < b))
  | 9 => if sInt w a ≤ sInt w b then a else b
  | 10 => if sInt w a ≤ sInt w b then b else a
  | 11 => min a b
  | 12 => max a b
  | 13 => a &&& b
  | 14 => a ||| b
  | 15 => a ^^^ b
  | 16 => m - 1 - a
  | 17 => a &&& (m - 1 - b)
  | 18 => a * 2 ^ k % m
  | 19 => a / 2 ^ k
  | 20 => (sInt w a / 2 ^ k % (m : Int)).toNat
  | 21 => (a * 2 ^ k + a / 2 ^ (w - k)) % m
  | 22 => popN w a
  | 23 => clzN w a
  | _ => if c = 0 then b else a

/-- FCVT by kind on a half, in binary32 and 32-bit integers (R155); kinds 4 and 5 have no binary32 counterpart. -/
def cvtHalf (rm kind : Nat) (open_ a : Nat) : FR :=
  match kind with
  | 0 => f32.toI rm 32 true a
  | 1 => f32.fromI rm 32 true a
  | 2 => f32.toI rm 32 false a
  | 3 => f32.fromI rm 32 false a
  | 4 => (open_, 0)
  | 5 => (open_, 0)
  | _ => (a, 0)

/-- The ILU pipe (R155, R157, R208). `open_` stands for a result that the spec does not give. -/
def iluOp (rm et op kind : Nat) (open_ a b c : Word) : Word × BitVec 5 :=
  if op ≤ 24 then (byInt et fun w g => iluInt w op (g a) (g b) (g c), 0)
  else if op ≤ 28 then
    if isPaired et then
      let l := f32.cmp (op - 25) (lo32 a) (lo32 b)
      let h := f32.cmp (op - 25) (hi32 a) (hi32 b)
      (join32 (mask 32 l.1) (mask 32 h.1), l.2 ||| h.2)
    else
      let r := f64.cmp (op - 25) a.toNat b.toNat
      (BitVec.ofNat 64 (mask 64 r.1), r.2)
  else if op = 29 then
    if isPaired et then
      let l := cvtHalf rm kind (lo32 open_) (lo32 a)
      let h := cvtHalf rm kind (hi32 open_) (hi32 a)
      (join32 l.1 h.1, l.2 ||| h.2)
    else fcvt rm kind a
  else (a, 0)

/-! ## The crucible (R162 to R169) -/

/-- An accumulator of `w` bits, two's complement. -/
def wrapInt (w : Nat) (v : Int) : Int := (v + 2 ^ (w - 1)) % 2 ^ w - 2 ^ (w - 1)

/-- TERMS saturating. -/
def satTerms (n : Nat) : Nat := min n (2 ^ 64 - 1)

/-- The bits NAN, PINF, NINF, NZ, ANY that a term sets, and its value in units of the crucible's bit 0 (R162, R163). -/
def termOf (scale : Int) : Fp → BitVec 5 × Int
  | .nan => (0b11001, 0)
  | .inf s => (if s then 0b11100 else 0b11010, 0)
  | .fin s m e => (if s && decide (m = 0) then 0b10000 else 0b11000,
      (if s then -1 else 1) * ((m * 2 ^ (e + scale).toNat : Nat) : Int))

/-- The term of a SUM, or of a DOT product; NV for a signalling NaN or ∞ × 0 (R163, R164). -/
def sumTerm (F : Fmt) (a : Nat) : Fp × BitVec 5 := (F.unpack a, if F.isSnan a then fNV else 0)
def dotTerm (F : Fmt) (a b : Nat) : Fp × BitVec 5 :=
  if F.isNan a || F.isNan b then (.nan, if F.isSnan a || F.isSnan b then fNV else 0)
  else match mulExact (F.unpack a) (F.unpack b) with
    | some p => (p, 0)
    | none => (.nan, fNV)

/-- The bits NAN to ANY of a term: NAN bit 0, PINF 1, NINF 2, NZ 3, ANY 4. -/
def addTerm64 (t : Fp) (c : Cruc) : Cruc :=
  let x := termOf 2148 t
  { c with acc0 := wrapInt 4352 (c.acc0 + x.2), st0 := c.st0 ||| x.1, terms := satTerms (c.terms + 1) }

def addTerm32 (l h : Fp) (c : Cruc) : Cruc :=
  let x := termOf 298 l
  let y := termOf 298 h
  { c with acc0 := wrapInt 2176 (c.acc0 + x.2), st0 := c.st0 ||| x.1,
           acc1 := wrapInt 2176 (c.acc1 + y.2), st1 := c.st1 ||| y.1, terms := satTerms (c.terms + 2) }

/-- A crucible term a, or a × b, added (R164); with the flags it sets. -/
def addTerm (et : Nat) (dot : Bool) (a b : Word) (c : Cruc) : Cruc × BitVec 5 :=
  if isPaired et then
    let l := if dot then dotTerm f32 (lo32 a) (lo32 b) else sumTerm f32 (lo32 a)
    let h := if dot then dotTerm f32 (hi32 a) (hi32 b) else sumTerm f32 (hi32 a)
    (addTerm32 l.1 h.1 c, l.2 ||| h.2)
  else
    let x := if dot then dotTerm f64 a.toNat b.toNat else sumTerm f64 a.toNat
    (addTerm64 x.1 c, x.2)

/-- The value of an accumulator under R164. -/
def roundAcc (F : Fmt) (scale : Int) (rm : Nat) (acc : Int) (st : BitVec 5) : FR :=
  if bit st 0 || (bit st 1 && bit st 2) then (F.defNan, fNV)
  else if bit st 1 then (F.infBits, 0)
  else if bit st 2 then (F.withSign true F.infBits, 0)
  else if acc ≠ 0 then F.round rm (decide (acc < 0)) acc.natAbs (-scale)
  else if bit st 4 && !bit st 3 then (F.withSign true 0, 0)
  else (F.withSign (decide (rm = 3)) 0, 0)

/-- The rounded value of a crucible (R164). -/
def roundCruc (rm et : Nat) (c : Cruc) : Word × BitVec 5 :=
  if isPaired et then
    let l := roundAcc f32 298 rm c.acc0 c.st0
    let h := roundAcc f32 298 rm c.acc1 c.st1
    (join32 l.1 h.1, l.2 ||| h.2)
  else
    let r := roundAcc f64 2148 rm c.acc0 c.st0
    (BitVec.ofNat 64 r.1, r.2)

/-- Sum modulo the width of the element type (R152). -/
def addMod (et : Nat) (a b : Word) : Word := byInt et fun w g => (g a + g b) % 2 ^ w

/-- The reduction of two extremes or masks under RED operation `op` (R152, R208). -/
def extOp (rm et op : Nat) (a b : Word) : Word × BitVec 5 :=
  match op with
  | 3 => fmaOp rm et 8 a b 0
  | 4 => fmaOp rm et 9 a b 0
  | 6 => (byInt et fun w g => iluInt w 9 (g a) (g b) 0, 0)
  | 7 => (byInt et fun w g => iluInt w 10 (g a) (g b) 0, 0)
  | 8 => (a &&& b, 0)
  | 9 => (a ||| b, 0)
  | _ => (a ^^^ b, 0)

/-- The population count of an element as it is summed (R152). -/
def popElem (a : Word) : Word := BitVec.ofNat 64 (popN 64 a.toNat)

/-- One element accumulated by RED operation `op` (1 to 11, R208), with its flags. A signalling NaN operand of the
first minimum or maximum sets NV as any other does. -/
def redAcc (rm et op : Nat) (a b : Word) (c : Cruc) : Cruc × BitVec 5 :=
  match op with
  | 1 => addTerm et false a 0 c
  | 2 => addTerm et true a b c
  | 5 => ({ c with isum := addMod et c.isum a }, 0)
  | 11 => ({ c with isum := c.isum + popElem a }, 0)
  | _ => match c.ext with
    | none => ({ c with ext := some a }, (extOp rm et op a a).2)
    | some e => let r := extOp rm et op e a; ({ c with ext := some r.1 }, r.2)

/-- Two accumulators combined under RED operation `op` (R165). -/
def crucAdd (rm et op : Nat) (x y : Cruc) : Cruc :=
  let w := if isPaired et then 2176 else 4352
  { acc0 := wrapInt w (x.acc0 + y.acc0), acc1 := wrapInt 2176 (x.acc1 + y.acc1),
    st0 := x.st0 ||| y.st0, st1 := x.st1 ||| y.st1, terms := satTerms (x.terms + y.terms),
    isum := if op = 11 then x.isum + y.isum else addMod et x.isum y.isum,
    ext := match x.ext, y.ext with
      | some a, some b => some (extOp rm et op a b).1
      | some a, none => some a
      | none, e => e }

/-- The final value of a reduction by `op` (R152, R164). -/
def redFinal (rm et op : Nat) (c : Cruc) : Word × BitVec 5 :=
  match op with
  | 1 => roundCruc rm et c
  | 2 => roundCruc rm et c
  | 5 => (c.isum, 0)
  | 11 => (c.isum, 0)
  | _ => (c.ext.getD 0, 0)

/-! ## The crucible image (R167, R168) -/

/-- A word rotated left. -/
def rolW (w : Word) (k : Nat) : Word := w.rotateLeft (k % 64)

/-- CHECK over the words but v2 (R167). -/
def imageCheck (v : List Word) : Word :=
  (List.range 80).foldl (fun x k => if k = 2 then x else x ^^^ rolW (lget 0 v k) k) 0

/-- The image of a crucible (R167). -/
def imageOf (et : Nat) (c : Cruc) : List Word :=
  let a0 := (c.acc0 % (2 : Int) ^ (if isPaired et then 2176 else 4352)).toNat
  let a1 := if isPaired et then (c.acc1 % (2 : Int) ^ 2176).toNat else 0
  let n := a0 + a1 * 2 ^ 2176
  let v := [BitVec.ofNat 64 (0xA05C4B + et * 2 ^ 24 + c.st0.toNat * 2 ^ 32 + (if isPaired et then c.st1.toNat * 2 ^ 37 else 0)),
            BitVec.ofNat 64 c.terms, 0] ++ List.replicate 9 0 ++ (List.range 68).map fun k => BitVec.ofNat 64 (n / 2 ^ (64 * k))
  lset v 2 (imageCheck v)

/-- The crucible that an image holds, `none` if it is not valid (R168). -/
def imageRead (et : Nat) (v : List Word) : Option Cruc :=
  let v0 := lget 0 v 0
  let n := (List.range 68).foldr (fun k x => (lget 0 v (12 + k)).toNat + 2 ^ 64 * x) 0
  if fld v0 23 0 = 0xA05C4B ∧ fld v0 26 24 = et ∧ fld v0 31 27 = 0 ∧ fld v0 63 42 = 0 ∧ (isPaired et ∨ fld v0 41 37 = 0)
      ∧ (rangeFrom 3 9).all (fun k => decide (lget 0 v k = 0)) ∧ imageCheck v = lget 0 v 2 then
    if isPaired et then
      some { acc0 := wrapInt 2176 (n % 2 ^ 2176 : Nat), acc1 := wrapInt 2176 (n / 2 ^ 2176 : Nat), st0 := BitVec.ofNat 5 (fld v0 36 32),
             st1 := BitVec.ofNat 5 (fld v0 41 37), terms := (lget 0 v 1).toNat }
    else some { acc0 := wrapInt 4352 n, st0 := BitVec.ofNat 5 (fld v0 36 32), terms := (lget 0 v 1).toNat }
  else none

end Sys2Proof.Machine
end

