-- ==== Sys2Proof/Machine/Reels.lean ====
section
/-! DEFINITION. What a reel does to one vector: the operands of a strip, the shipped reels (R223), and the microword of a
laboratory reel (R206 to R212). -/

namespace Sys2Proof.Machine

/-! ## Operands of a strip -/

/-- The element `key` of read stream `id`, if it has landed (R151). -/
def landGet (r : Strip) (id : Nat) (key : Int) : Option Word :=
  (r.landed.find? fun x => decide (x.stream = id) && decide (x.key = key)).map Land.val

/-- Counts of packed elements by stream (R209): read, and raised. -/
def pkOf (l : Tab Nat) (j : Nat) : Nat := tget (fun _ => 0) l j
def pkAdd (l : Tab Nat) (j n : Nat) : Tab Nat := tset (fun _ => 0) j (pkOf l j + n) l

/-- The next packed element of stream `j`, counted over the take (R209). -/
def Strip.pkAt (r : Strip) (j : Nat) : Nat := pkOf r.bases j + pkOf r.micro.pks j

/-- The shipped reel that a chain runs: its cached words are all as shipped. -/
def shipOf (c : Chain) (t : Slot) : Option Nat := if c.cache.all (fun w => decide (w = none)) then t.ship else none

/-- The microword at a reel-relative address of the cache; a shipped word is what the library image holds. -/
def wordAt (c : Chain) (t : Slot) (i : Nat) : BitVec 128 :=
  match lget none c.cache i with
  | some w => w
  | none => Config.libWord (t.ent.basew + i)

/-- Does the take run in two passes? (R169, R216) -/
def twoPass (t : Slot) : Bool := t.ent.twop && decide (1 < t.chains.length) && !t.splice

/-- Is the strip in the first of two passes? -/
def firstPass (t : Slot) (r : Strip) : Bool := twoPass t && !r.pass2

/-- The chain's strip is the last of a pipeline, or the take has no SPLICE (R211). -/
def isLast (t : Slot) (r : Strip) : Bool := !r.spliced || decide (r.pos + 1 = t.chains.length)

/-- The chain receives from, or sends on, a cross-quadrant link (R173). -/
def recvLink (s : State) (t : Slot) (r : Strip) : Bool := r.spliced && decide (r.pos = 0) && takeCons s t
def sendLink (s : State) (t : Slot) (r : Strip) : Bool := r.spliced && isLast t r && takeProd s t

/-- An index taken at its width (R111). -/
def ixVal (t : Slot) (j : Nat) (v : Word) : Int :=
  match t.iw j with
  | 0 => (v.toNat % 2 ^ 32 : Nat)
  | 1 => sInt 32 (v.toNat % 2 ^ 32)
  | _ => v.toInt

/-- Operand of stream `j` at element `i`: a literal, +0 where the stream is OFF, or the landed element. -/
def opnd (t : Slot) (r : Strip) (j : Nat) (i : Nat) : Option Word :=
  match t.mode j with
  | 0 => some 0
  | 3 => some (t.baseW j)
  | _ => landGet r j i

/-- Operand A at element `i`, from the link in a linked consumer (R173). -/
def opndA (link : Bool) (t : Slot) (r : Strip) (i : Nat) : Option Word :=
  if link then (if i - r.lo < r.lin.length then some (lget 0 r.lin (i - r.lo)) else none) else opnd t r 0 i

/-- The read stream of a tap (R149). -/
def tapStream (t : Slot) (k : Nat) : Nat := 10 + (tapGroups t).findIdx fun g => g.contains k

/-- Stream A at the element that a tap reads. With STRIDE 0 every element is the same one. -/
def opndTap (link : Bool) (t : Slot) (r : Strip) (k i : Nat) : Option Word :=
  if link then opndA true t r i
  else landGet r (tapStream t k) (if t.stride 0 = 0 then 0 else (i : Int) + t.tapOff k)

/-- All options present, as a list. -/
def allSome {α : Type} : List (Option α) → Option (List α)
  | [] => some []
  | none :: _ => none
  | some x :: t => (allSome t).map fun l => x :: l

/-- The active elements of the present vector (R210). -/
def active (t : Slot) (r : Strip) : List Nat :=
  (rangeFrom r.micro.ptr t.width).filter fun i => decide (i < r.hi)

/-- What a microword, or a vector of a shipped reel, does: values stored (stream, element, element of the stream,
value), flags, terms of RED (lane, a, b) with its operation, the vector sent on channel P, and the sequencer state after it. -/
structure VecOut where
  stores : List (Nat × Nat × Nat × Word) := []
  flags  : BitVec 5 := 0
  terms  : List (Nat × Word × Word) := []
  op     : Nat := 0
  send   : Option (List Word) := none
  micro  : Micro
  ended  : Bool := false
  freed  : List (Nat × Int) := []
  drawn  : Nat := 0
  deriving DecidableEq, Repr

/-- Flags of a list of results. -/
def orFlags (l : List (BitVec 5)) : BitVec 5 := l.foldl (· ||| ·) 0

/-! ## Shipped reels (R223) -/

/-- The taps that a chain adds, ascending: all of them, or in a pipeline its run of them (R171). A pipeline that receives A from
a link has no tap streams, and its first chain adds them all. -/
def tapRun (link : Bool) (t : Slot) (r : Strip) : List Nat :=
  if !r.spliced then t.taps
  else if link then (if r.pos = 0 then t.taps else [])
  else
    let n := (t.taps.length + t.chains.length - 1) / max 1 t.chains.length
    (t.taps.drop (n * r.pos)).take n

/-- The sum of the chain's taps of a stencil at element `i`, ascending, from what the chains before have added (R171, R223). -/
def stencilAt (link : Bool) (t : Slot) (r : Strip) (i : Nat) (sum : Word) : Option (Word × BitVec 5) :=
  (tapRun link t r).foldl (fun acc k => match acc, opndTap link t r k i with
    | some a, some v =>
      let x := fmaOp t.rm t.etype 4 v (t.scalar (t.csel k)) a.1
      some (x.1, a.2 ||| x.2)
    | _, _ => none) (some (sum, 0))

/-- The values that an elementwise shipped reel gives at element `i`: E, F and flags. -/
def elemwise (link : Bool) (k : Nat) (t : Slot) (r : Strip) (i : Nat) : Option (Word × Word × BitVec 5) :=
  let f := fun a b c => fmaOp t.rm t.etype 4 a b c
  match k with
  | 1 => some (t.scalar 0, 0, 0)
  | 2 => match opndA link t r i, opnd t r 1 i with
    | some a, some b => let x := f a (t.scalar 0) b; some (x.1, 0, x.2)
    | _, _ => none
  | 3 => match opndA link t r i, opnd t r 1 i with
    | some a, some b => let x := f b (t.scalar 0) a; some (x.1, 0, x.2)
    | _, _ => none
  | 0x0B => match opnd t r 0 i, opnd t r 1 i, opnd t r 2 i, opnd t r 3 i with
    | some a, some b, some c, some d =>
      let x := f a (t.scalar 0) c
      let e := fmaOp t.rm t.etype 6 b (t.scalar 1) x.1
      let y := f b (t.scalar 0) d
      let g := f a (t.scalar 1) y.1
      some (e.1, g.1, x.2 ||| e.2 ||| y.2 ||| g.2)
    | _, _, _, _ => none
  | 0x0C => (stencilAt link t r i 0).map fun x => (x.1, 0, x.2)
  | 0x0F => (opnd t r 0 i).map fun a =>
      let x := fcvt t.rm (fld (t.scalar 0) 2 0) a
      (x.1, 0, x.2)
  | _ => (opndA link t r i).map fun a => (a, 0, 0)

/-- Is the index of an INDEXED output landed at element `i`? -/
def outReady (t : Slot) (r : Strip) (o i : Nat) : Bool :=
  decide (t.mode o ≠ 2) || (landGet r (t.ixs o) i).isSome

/-- The micro state one vector further (R210). -/
def nextVec (t : Slot) (m : Micro) : Micro := { m with ptr := m.ptr + t.width, vfirst := true }

/-- The running accumulator after one element of SCAN, its value and flags (R169). -/
def scanStep (t : Slot) (a : Word) (c : Cruc) : Cruc × Word × BitVec 5 :=
  if isFp t.etype then
    let x := addTerm t.etype false a 0 c
    let v := roundCruc t.rm t.etype x.1
    (x.1, v.1, x.2 ||| v.2)
  else
    let c := { c with isum := addMod t.etype c.isum a }
    (c, c.isum, 0)

/-- A vector of an elementwise reel. In a pipeline the first chain computes the values and each later chain adds its run of a
stencil's taps, or passes the values on; the last stores them (R131, R171). -/
def vecElem (link snd : Bool) (k : Nat) (t : Slot) (r : Strip) : Option VecOut :=
  let is := active t r
  let vals : Option (List (Word × Word × BitVec 5)) :=
    if r.spliced && decide (0 < r.pos) then
      (if r.micro.spinAt < r.spin.length then
        let v := lget [] r.spin r.micro.spinAt
        allSome (is.zipIdx.map fun x =>
          if k = 0x0C then (stencilAt link t r x.1 (lget 0 v (2 * x.2))).map fun y => (y.1, 0, y.2)
          else some (lget 0 v (2 * x.2), lget 0 v (2 * x.2 + 1), 0))
       else none)
    else allSome (is.map (elemwise link k t r))
  match vals with
  | none => none
  | some vs =>
    let m := nextVec t r.micro
    let m := if r.spliced && decide (0 < r.pos) then { m with spinAt := m.spinAt + 1 } else m
    if isLast t r then
      if is.all (fun i => outReady t r 4 i && outReady t r 5 i) then
        some { stores := (if t.mode 4 ≠ 0 ∨ snd then (is.zip vs).map fun x => (4, x.1, x.1, x.2.1) else [])
                 ++ (if t.mode 5 ≠ 0 ∧ k = 0x0B then (is.zip vs).map fun x => (5, x.1, x.1, x.2.2.1) else []),
               flags := orFlags (vs.map fun x => x.2.2), micro := m }
      else none
    else some { flags := orFlags (vs.map fun x => x.2.2), micro := { m with sendAt := m.sendAt + 1 },
                send := some (vs.foldr (fun x l => x.1 :: x.2.1 :: l) []) }

/-- The RED operation of SUM (R152). -/
def sumOp (t : Slot) : Nat := if isFp t.etype then 1 else if t.etype = 4 then 11 else 5

/-- A vector of DOT or SUM (R164): terms only. -/
def vecRed (k : Nat) (t : Slot) (r : Strip) : Option VecOut :=
  let is := active t r
  match allSome (is.map (opnd t r 0)), allSome (is.map fun i => if k = 4 then opnd t r 1 i else some 0) with
  | some a, some b => some { terms := (List.range is.length).zip (a.zip b), op := if k = 4 then 2 else sumOp t, micro := nextVec t r.micro }
  | _, _ => none

/-- A vector of SCAN (R169): the first pass keeps the running value only. -/
def vecScan (t : Slot) (r : Strip) : Option VecOut :=
  let is := active t r
  match allSome (is.map (opnd t r 0)) with
  | none => none
  | some a =>
    if !firstPass t r && !(is.all (outReady t r 4)) then none
    else
      let x := (is.zip a).foldl (fun (x : Cruc × List (Nat × Nat × Nat × Word) × BitVec 5) e =>
        let y := scanStep t e.2 x.1
        (y.1, x.2.1 ++ [(4, e.1, e.1, y.2.1)], x.2.2 ||| y.2.2)) (r.micro.run, [], 0)
      some { stores := if firstPass t r then [] else x.2.1, flags := if firstPass t r then 0 else x.2.2, micro := { nextVec t r.micro with run := x.1 } }

/-- A vector of COMPRESS (R112, R223): the selected elements go to consecutive elements of E. -/
def vecCompress (t : Slot) (r : Strip) : Option VecOut :=
  let is := active t r
  match allSome (is.map (opnd t r 1)) with
  | none => none
  | some b =>
    let sel := (is.zip b).filter fun x => decide (x.2 ≠ 0)
    let m := nextVec t r.micro
    let m := { m with pks := pkAdd m.pks 4 sel.length }
    if firstPass t r then some { micro := m }
    else match allSome (is.map (opnd t r 0)) with
    | none => none
    | some _ => some { stores := sel.zipIdx.map fun x => (4, x.1.1, r.pkAt 4 + x.2, (opnd t r 0 x.1.1).getD 0), micro := m }

/-- Operand A of EXPAND for the `k`th selecting element of the take. -/
def expandA (t : Slot) (r : Strip) (k : Nat) : Option Word :=
  match t.mode 0 with
  | 3 => some (t.baseW 0)
  | _ => landGet r 20 k

/-- A vector of EXPAND (R112, R223). -/
def vecExpand (t : Slot) (r : Strip) : Option VecOut :=
  let is := active t r
  match allSome (is.map (opnd t r 1)) with
  | none => none
  | some b =>
    let x := (is.zip b).foldl (fun (x : Nat × List (Option (Nat × Nat × Nat × Word))) e =>
      if e.2 ≠ 0 then (x.1 + 1, x.2 ++ [(expandA t r (r.pkAt 0 + x.1)).map fun v => (4, e.1, e.1, v)])
      else (x.1, x.2 ++ [some (4, e.1, e.1, t.scalar 0)])) (0, [])
    let m := nextVec t r.micro
    let m := { m with pks := pkAdd m.pks 0 x.1 }
    if firstPass t r then some { micro := m }
    else match allSome x.2 with
    | some l => if is.all (outReady t r 4) then some { stores := l, micro := m } else none
    | none => none

/-- Up to 16 terms of the present row of CSR or ELL that have landed, from key `k` to before `e`. -/
def rowTerms (r : Strip) : Nat → Int → Int → List (Int × Word × Word)
  | 0, _, _ => []
  | f + 1, k, e =>
    if k ≥ e then []
    else match landGet r 0 k, landGet r 1 k with
    | some a, some b => (k, a, b) :: rowTerms r f (k + 1) e
    | _, _ => []

/-- One step of a row reel (CSR, ELL): terms of the row enter its crucible, and a finished row is rounded once and
stored (R112, R223). The row's keys run from `k0` to before `e`; `rowAt` counts those already added. -/
def vecRow (k0 e : Int) (t : Slot) (r : Strip) : Option VecOut :=
  let i := r.micro.ptr
  let m := r.micro
  let k := k0 + m.rowAt
  if k ≥ e then
    let v := roundCruc t.rm 0 m.run
    some { stores := [(4, i, i, v.1)], flags := v.2,
           micro := { m with ptr := i + 1, vfirst := true, rowAt := 0, run := {} } }
  else match rowTerms r 16 k e with
  | [] => none
  | ts =>
    let x := ts.foldl (fun (x : Cruc × BitVec 5) y =>
      let z := addTerm 0 true y.2.1 y.2.2 x.1
      (z.1, x.2 ||| z.2)) (m.run, 0)
    some { flags := x.2, micro := { m with run := x.1, rowAt := m.rowAt + ts.length, vfirst := false },
           freed := ts.foldr (fun y l => (0, y.1) :: (1, y.1) :: (2, y.1) :: l) [] }

/-- The keys of the present row of CSR, once its pointers have landed. -/
def csrRow (r : Strip) : Option (Int × Int) :=
  match landGet r 3 r.micro.ptr, landGet r 3 ((r.micro.ptr : Int) + 1) with
  | some a, some b => some (a.toInt, b.toInt)
  | _, _ => none

/-- One step of shipped reel `k`: the microwords of one vector, or of part of a row, together. -/
def shipStep (link snd : Bool) (k : Nat) (t : Slot) (r : Strip) : Option VecOut :=
  match k with
  | 4 => vecRed 4 t r
  | 5 => vecRed 5 t r
  | 6 => vecScan t r
  | 9 => vecCompress t r
  | 0x0A => vecExpand t r
  | 0x0D => match csrRow r with
    | some e => vecRow e.1 e.2 t r
    | none => none
  | 0x0E =>
    let s0 : Int := (t.w 14).toNat
    vecRow (r.micro.ptr * s0) (r.micro.ptr * s0 + s0) t r
  | _ => vecElem link snd k t r

/-! ## Microwords of laboratory reels (R206 to R212) -/

def mwNext (w : BitVec 128) : Nat := fld w 8 0
def mwNaf (w : BitVec 128) : Nat := fld w 11 9
def mwBnd (w : BitVec 128) : Bool := bit w 17
def mwVadv (w : BitVec 128) : Bool := bit w 18

/-- Does a load field (enable bit at `b`) read stream `j`, packed or plain? -/
def mwReads (w : BitVec 128) (b j : Nat) (pk : Bool) : Bool :=
  bit w b && decide (bit w (b + 1) = pk) && decide (fld w (b + 4) (b + 2) = j)

/-- The tap that a load field reads (R209). -/
def mwTap (w : BitVec 128) (b : Nat) (m : Micro) : Nat :=
  let k := fld w (b + 9) (b + 5)
  if k = 31 then fld m.lc1 4 0 else k

/-- Element numbers of the vector, active or not. -/
def laneElems (t : Slot) (r : Strip) : List Nat := rangeFrom r.micro.ptr t.width

/-- The vector that a load pipe delivers (R209), and how many packed elements it takes. `fresh` numbers the free
values of lanes that read a stream that is OFF. -/
def loadVec (fresh : Nat) (w : BitVec 128) (b : Nat) (t : Slot) (r : Strip) : Option (List Word × Nat) :=
  let j := fld w (b + 4) (b + 2)
  if j = 4 then
    (allSome ((laneElems t r).map fun i => if i < r.hi then opndTap false t r (mwTap w b r.micro) i else some 0)).map fun l => (l, 0)
  else if bit w (b + 1) then
    if r.micro.ilu.length < t.width then none
    else
      let x := ((laneElems t r).zip r.micro.ilu).foldl (fun (x : Nat × List (Option Word)) e =>
        if e.1 < r.hi ∧ e.2 ≠ 0 then
          (x.1 + 1, x.2 ++ [match t.mode j with
            | 0 => some (Config.openLane (fresh + x.1))
            | 3 => some (t.baseW j)
            | _ => landGet r (20 + j) (r.pkAt j + x.1)])
        else (x.1, x.2 ++ [some 0])) (0, [])
      (allSome x.2).map fun l => (l, x.1)
  else
    (allSome ((laneElems t r).map fun i =>
      if i < r.hi then (if t.mode j = 0 then some (Config.openLane (fresh + i)) else opnd t r j i) else some 0)).map fun l => (l, 0)

/-- The results that a microword's selectors may name (R207, R210). -/
structure Srcs where
  lda : List Word
  ldb : List Word
  fma : List Word
  ilu : List Word
  red : List Word
  spin : Option (List Word)
  deriving DecidableEq, Repr

/-- A pipe's result vector, if there is one. -/
def held (l : List Word) : Option (List Word) := if l = [] then none else some l

/-- The vector of a source code (R207). -/
def source (v : Srcs) (w : BitVec 128) (t : Slot) (r : Strip) (code : Nat) : Option (List Word) :=
  let all := fun x => List.replicate t.width x
  match code with
  | 0 => some (all 0)
  | 1 => held v.lda
  | 2 => held v.ldb
  | 3 => held v.fma
  | 4 => held v.ilu
  | 5 => held v.red
  | 6 => v.spin
  | 7 => some (all (t.scalar (t.csel (mwTap w 37 r.micro))))
  | n => some (all (t.scalar (n - 8)))

/-- Three operands of each lane. -/
def zip3 (a b c : List Word) : List (Word × Word × Word) := a.zip (b.zip c)

/-- The results of a pipe over the lanes, with the flags of the active ones. -/
def overLanes (t : Slot) (r : Strip) (l : List (Word × BitVec 5)) : List Word × BitVec 5 :=
  (l.map Prod.fst, orFlags ((((laneElems t r).zip l).filter fun x => decide (x.1 < r.hi)).map fun x => x.2.2))

/-- SCAN or SEGSUM over the active lanes in element order (R208): the running accumulator, the outputs and flags. -/
def runLanes (seg : Bool) (t : Slot) (r : Strip) (ab : List (Word × Word)) : Cruc × List Word × BitVec 5 :=
  ((laneElems t r).zip ab).foldl (fun (x : Cruc × List Word × BitVec 5) e =>
    if e.1 < r.hi then
      let y := scanStep t e.2.1 x.1
      if seg then
        (if e.2.2 ≠ 0 then ({}, x.2.1 ++ [y.2.1], x.2.2 ||| y.2.2)
         else (y.1, x.2.1 ++ [0], x.2.2 ||| (if isFp t.etype then (addTerm t.etype false e.2.1 0 x.1).2 else 0)))
      else (y.1, x.2.1 ++ [y.2.1], x.2.2 ||| y.2.2)
    else (x.1, x.2.1 ++ [0], x.2.2)) (r.micro.run, [], 0)

/-- The condition of a branch (R211), on the state after the microword's updates. -/
def condHolds (s : State) (n : Nat) (t : Slot) (r : Strip) (m : Micro) : Bool :=
  match n with
  | 0 => true
  | 1 => decide ((m.ptr - r.lo) % 64 = 0)
  | 2 => decide ((m.ptr - r.lo) % 4096 = 0)
  | 3 => decide (m.ptr ≥ r.hi)
  | 4 => decide (m.lc0 = 0)
  | 5 => decide (m.lc1 = 0)
  | 6 => r.pass2
  | 7 => !r.spliced || decide (r.pos = 0)
  | 8 => isLast t r
  | 9 => t.cru
  | 10 => t.tapmask.testBit (fld m.lc1 4 0)
  | 11 => sendLink s t r
  | _ => recvLink s t r

/-- The counter operation (R212). -/
def ctrOp (w : BitVec 128) (t : Slot) (r : Strip) (m : Micro) : Micro :=
  let imm : BitVec 16 := BitVec.ofNat 16 (fld w 36 25)
  match fld w 24 22 with
  | 1 => { m with lc0 := imm }
  | 2 => { m with lc1 := imm }
  | 3 => { m with lc0 := if m.lc0 = 0 then 0 else m.lc0 - 1 }
  | 4 => { m with lc1 := if m.lc1 = 0 then 0 else m.lc1 - 1 }
  | 5 => { m with lc0 := BitVec.ofNat 16 (if r.spliced then r.pos else 0) }
  | 6 => { m with lc1 := BitVec.ofNat 16 t.taps.length }
  | 7 => { m with lc1 := m.lc1 + 1 }
  | _ => m

/-- The next microword (R211, R213): the sequencer state with its address, and whether the program has ended. -/
def nextAddr (s : State) (w : BitVec 128) (t : Slot) (r : Strip) (m : Micro) : Option (Micro × Bool) :=
  match mwNaf w with
  | 0 => some ({ m with pc := m.pc + 1 }, false)
  | 1 => some ({ m with pc := if condHolds s (fld w 15 12) t r m ≠ bit w 16 then mwNext w else m.pc + 1 }, false)
  | 2 => some ({ m with pc := mwNext w + t.etype }, false)
  | 3 => some ({ m with pc := mwNext w + t.mode (fld w 21 19) }, false)
  | 4 => if m.stk.length < 8 then some ({ m with pc := mwNext w, stk := (m.pc + 1) :: m.stk }, false) else none
  | 5 => match m.stk with
    | a :: l => some ({ m with pc := a, stk := l }, false)
    | [] => none
  | 6 => some (m, true)
  | _ => none

/-- FMA of one microword: the pipe's result and flags; outside FP64 and paired FP32 the result is free. -/
def fmaVec (fresh : Nat) (w : BitVec 128) (v : Srcs) (t : Slot) (r : Strip) : Option (List Word × BitVec 5) :=
  let op := fld w 60 57
  if op = 0 then some (v.fma, 0)
  else match source v w t r (fld w 64 61), source v w t r (fld w 68 65), source v w t r (fld w 72 69) with
  | some a, some b, some c =>
    if isFp t.etype then some (overLanes t r ((zip3 a b c).map fun x => fmaOp t.rm t.etype op x.1 x.2.1 x.2.2))
    else some ((List.range t.width).map fun i => Config.openLane (fresh + 32 + i), 0)
  | _, _, _ => none

/-- ILU of one microword. -/
def iluVec (fresh : Nat) (w : BitVec 128) (v : Srcs) (t : Slot) (r : Strip) : Option (List Word × BitVec 5) :=
  let op := fld w 77 73
  let kind := if bit w 28 then fld (t.scalar 0) 2 0 else fld w 27 25
  if op = 0 then some (v.ilu, 0)
  else match source v w t r (fld w 81 78), source v w t r (fld w 85 82), source v w t r (fld w 89 86) with
  | some a, some b, some c =>
    some (overLanes t r ((zip3 a b c).zipIdx.map fun x => iluOp t.rm t.etype op kind (Config.openLane (fresh + 48 + x.2)) x.1.1 x.1.2.1 x.1.2.2))
  | _, _, _ => none

/-- RED of one microword: result, flags, terms of the active lanes, running accumulator. A sum or extreme of an element
type that the operation is not defined for takes free values. -/
def redVec (fresh : Nat) (w : BitVec 128) (v : Srcs) (t : Slot) (r : Strip) :
    Option (List Word × BitVec 5 × List (Nat × Word × Word) × Cruc) :=
  let op := fld w 93 90
  if op = 0 then some (v.red, 0, [], r.micro.run)
  else match source v w t r (fld w 97 94), source v w t r (fld w 101 98) with
  | some a, some b =>
    if op ≥ 12 then
      let x := runLanes (decide (op = 13)) t r (a.zip b)
      some (x.2.1, x.2.2, [], x.1)
    else
      let ok := if op ≤ 4 then isFp t.etype else if op ≤ 7 then !isFp t.etype else true
      let ab := if ok then a.zip b else (List.range t.width).map fun i => (Config.openLane (fresh + 80 + i), Config.openLane (fresh + 96 + i))
      let ts := (((laneElems t r).zip ab).zipIdx.filter fun x => decide (x.1.1 < r.hi)).map fun x => (x.2, x.1.2)
      some ((List.range t.width).map fun i => Config.openLane (fresh + 64 + i), 0, ts, r.micro.run)
  | _, _ => none

/-- STO of one microword (R209): what it stores, and how many packed elements. -/
def stoVec (w : BitVec 128) (v : Srcs) (t : Slot) (r : Strip) : Option (List (Nat × Nat × Nat × Word) × Nat) :=
  if !bit w 102 then some ([], 0)
  else
    let o := if bit w 103 then 5 else 4
    match source v w t r (fld w 107 104) with
    | none => none
    | some x =>
      let lanes := ((laneElems t r).zip (x.zip (v.ilu ++ List.replicate t.width 0))).filter fun e => decide (e.1 < r.hi)
      let sel := lanes.filter fun e => decide (e.2.2 ≠ 0)
      match fld w 109 108 with
      | 0 => if lanes.all fun e => outReady t r o e.1 then some (lanes.map fun e => (o, e.1, e.1, e.2.1), 0) else none
      | 1 => if sel.all fun e => outReady t r o e.1 then some (sel.map fun e => (o, e.1, e.1, e.2.1), 0) else none
      | _ => some (sel.zipIdx.map fun e => (o, e.1.1, r.pkAt o + e.2, e.1.2.1), sel.length)

/-- The packed elements that the load fields of a microword take: two fields that read one stream take the same ones. -/
def labTook (w : BitVec 128) (a b : Nat) (l : Tab Nat) : Tab Nat :=
  let l := pkAdd l (fld w 41 39) a
  if bit w 37 ∧ bit w 38 ∧ fld w 51 49 = fld w 41 39 then l else pkAdd l (fld w 51 49) b

/-- One microword of a laboratory reel (R206 to R212); none while it waits under R210. -/
def labStep (s : State) (c : Chain) (t : Slot) (r : Strip) : Option VecOut :=
  if r.micro.pc ≥ c.cache.length then none
  else
    let w := wordAt c t r.micro.pc
    let m := r.micro
    let fresh := s.fresh
    let usesSpin := [fld w 64 61, fld w 68 65, fld w 72 69].contains 6 && decide (fld w 60 57 ≠ 0)
      || [fld w 81 78, fld w 85 82, fld w 89 86].contains 6 && decide (fld w 77 73 ≠ 0)
      || [fld w 97 94, fld w 101 98].contains 6 && decide (fld w 93 90 ≠ 0) || (bit w 102 && decide (fld w 107 104 = 6))
    let link := recvLink s t r
    let linkVec := allSome ((laneElems t r).map fun i => if i < r.hi then opndA true t r i else some 0)
    let spin := if link then linkVec else if m.spinAt < r.spin.length then some (lget [] r.spin m.spinAt) else none
    match (if bit w 37 then loadVec fresh w 37 t r else some (m.lda, 0)), (if bit w 47 then loadVec fresh w 47 t r else some (m.ldb, 0)) with
    | some a, some b =>
      let v : Srcs := ⟨a.1, b.1, m.fma, m.ilu, m.red, spin⟩
      match fmaVec fresh w v t r with
      | none => none
      | some f =>
        let v := { v with fma := f.1 }
        match iluVec fresh w v t r with
        | none => none
        | some i =>
          let v := { v with ilu := i.1 }
          match redVec fresh w v t r with
          | none => none
          | some d =>
            let v := { v with red := d.1 }
            match stoVec w { v with ilu := if fld w 77 73 = 0 then [] else i.1 } t r with
            | none => none
            | some st =>
              let snd := match fld w 111 110 with | 1 => held v.fma | 2 => held v.ilu | 3 => held v.red | _ => some []
              match snd with
              | none => none
              | some p =>
                let m := { m with lda := a.1, ldb := b.1, fma := v.fma, ilu := v.ilu, red := v.red, run := d.2.2.2,
                                  pks := pkAdd (labTook w a.2 b.2 m.pks) (if bit w 103 then 5 else 4) st.2,
                                  spinAt := if usesSpin && !link then m.spinAt + 1 else m.spinAt,
                                  sendAt := if fld w 111 110 ≠ 0 && !isLast t r then m.sendAt + 1 else m.sendAt,
                                  ptr := if mwVadv w then m.ptr + t.width else m.ptr, vfirst := mwVadv w }
                (nextAddr s w t r (ctrOp w t r m)).map fun n =>
                  { stores := st.1, flags := f.2 ||| i.2 ||| d.2.1, terms := d.2.2.1, op := fld w 93 90,
                    send := if fld w 111 110 ≠ 0 && !isLast t r then some p else none, micro := n.1, ended := n.2, drawn := 128 }
    | _, _ => none

/-- The RED operation by which a reel reduces, 0 if it does not (R152, R164, R208). -/
def redOp (c : Chain) (t : Slot) : Nat :=
  match shipOf c t with
  | some 4 => 2
  | some 5 => sumOp t
  | some _ => 0
  | none =>
    (((List.range c.cache.length).map fun i => fld (wordAt c t i) 93 90).find? fun o => decide (1 ≤ o ∧ o ≤ 11)).getD 0

end Sys2Proof.Machine
end

