-- ==== Sys2Proof/Machine/Chains.lean ====
section
/-! DEFINITION. The strips of the chains: reel start, microwords, group commit and replay, the fold and combine of
reductions, splice channels and links (R130, R150, R151, R156 to R173, R210 to R215). -/

namespace Sys2Proof.Machine

/-! ## What a strip reads -/

/-- Does the reel read stream `j` in this pass, plain or packed? -/
def reelReads (c : Chain) (t : Slot) (r : Strip) (j : Nat) (pk : Bool) : Bool :=
  match shipOf c t with
  | some k => match k with
    | 1 => false
    | 0x09 => !pk && (decide (j = 1) || (decide (j = 0) && !firstPass t r))
    | 0x0A => if pk then decide (j = 0) && !firstPass t r else decide (j = 1)
    | 0x0C => false
    | _ => !pk && decide (t.ent.role j % 4 ≠ 0)
  | none => (List.range c.cache.length).any fun i => mwReads (wordAt c t i) 37 j pk || mwReads (wordAt c t i) 47 j pk

/-- Does the reel read taps of stream A? -/
def reelTaps (c : Chain) (t : Slot) : Bool :=
  match shipOf c t with
  | some k => decide (k = 0x0C)
  | none => (List.range c.cache.length).any fun i => mwReads (wordAt c t i) 37 4 false || mwReads (wordAt c t i) 47 4 false

/-- Is the stream read from memory? -/
def memStream (t : Slot) (j : Nat) : Bool := decide (t.mode j = 1 ∨ t.mode j = 2)

/-- The read streams of a strip (R150): plain streams 0 to 3, tap group g as 10 + g, packed streams as 20 + j. -/
def streamPlan (s : State) (c : Chain) (t : Slot) (r : Strip) : List Nat :=
  let link := recvLink s t r
  let plain := (List.range 4).filter fun j => memStream t j && reelReads c t r j false && !(link && decide (j = 0))
  let packed := (List.range 4).filter fun j => memStream t j && reelReads c t r j true
  let taps := if reelTaps c t && !link then (List.range (tapGroups t).length).map (10 + ·) else []
  let outs := [4, 5].filter fun o => decide (t.mode o = 2) && ((shipOf c t).isNone || !firstPass t r)
  let ix := (plain.filter fun j => decide (t.mode j = 2)).map t.ixs ++ (packed.filter fun j => decide (t.mode j = 2)).map fun j => 20 + t.ixs j
  (ix ++ outs.map t.ixs ++ plain ++ taps ++ packed.map (20 + ·)).eraseDups

/-- Read-region lines of each read stream of a strip (R150). -/
def regionLines (r : Strip) : Nat := 4096 / max 1 r.streams.length

/-! ## The end of a strip -/

/-- Does a port hold a tag of chain `p`'s present strip? -/
def chainTagged (s : State) (p : Nat) (r : Strip) : Bool :=
  s.ports.any fun x => x.2.tags.any fun t => decide (t.2.src = .chain p r.q r.slot r.gen)

/-- The element of the take that a strip has reached when it has ended (R138). -/
def reached (r : Strip) : Nat := min r.micro.ptr r.hi

/-- Are all stores of the strip acknowledged and all its groups committed? -/
def settled (r : Strip) : Bool := r.ended && decide (r.unacked = []) && decide (reached r ≤ r.cptr)

/-- Does the take end without its final value: aborted or faulted? -/
def failing (t : Slot) : Bool := t.aborted || t.fault.isSome || t.cap.isSome

/-- Does the strip still owe work to the combine of its take (R165)? -/
def owesCombine (c : Chain) (t : Slot) (r : Strip) : Bool :=
  if failing t then false
  else if firstPass t r then true
  else if redOp c t = 0 then false
  else if r.spliced then isLast t r && !t.stored
  else if r.pos = 0 then !t.stored
  else !t.hops.contains r.pos

/-- A strip has finished its last element; when every strip has, the slot enters ENDING (R119). Its stores may still be
outstanding. -/
def noteLast (r : Strip) (s : State) : State :=
  let t := s.slot r.q r.slot
  if t.fins.contains r.pos then s
  else
    let t := { t with fins := t.fins ++ [r.pos] }
    s.setSlot r.q r.slot { t with st := if t.st = .running ∧ t.chains.length ≤ t.fins.length then .ending else t.st }

/-- The element up to which a strip has every store acknowledged is recorded (R138). -/
def noteEnd (r : Strip) (s : State) : State :=
  let t := s.slot r.q r.slot
  if t.ends.any fun e => e.1 = r.pos then s
  else s.setSlot r.q r.slot { t with ends := t.ends ++ [(r.pos, if firstPass t r then r.lo else reached r)] }

/-- Has the strip executed its last element, its groups all committed? -/
def lastDone (t : Slot) (r : Strip) : Bool := r.ended && decide (reached r ≤ r.cptr) && (!firstPass t r || failing t)

/-- The chain is freed (R127): its flags join those of the take, and a strip that waits for a chain takes it (R130). -/
def releaseChain (p : Nat) (r : Strip) (s : State) : State :=
  let t := s.slot r.q r.slot
  let s := s.setSlot r.q r.slot { t with flags := t.flags ||| r.flags }
  placeMoved r.q (s.setChain p { s.chain p with strip := none, marver := [] })

/-- What follows when something of chain `p`'s strip has ended. -/
def finishStrip (p : Nat) (s : State) : State :=
  match (s.chain p).strip with
  | none => s
  | some r =>
    let s := if lastDone (s.slot r.q r.slot) r then noteLast r s else s
    if !settled r then s
    else
      let c := s.chain p
      let s := if firstPass (s.slot r.q r.slot) r && !failing (s.slot r.q r.slot) then s else noteEnd r s
      if owesCombine c (s.slot r.q r.slot) r || chainTagged s p r || c.marver.any MvEntry.wr then s
      else releaseChain p r s

/-- Every strip of a take looks again whether it is done, as when its take begins to fail. -/
def finishAll (q k : Nat) (s : State) : State := (takeChains s q k).foldl (fun s p => finishStrip p s) s

/-- A fault of a take, with the strips that only waited for the combine ending now (R138). -/
def faultTake (q k : Nat) (f : TFault) (s : State) : State := finishAll q k (takeFault q k f s)

/-! ## Reel start (R215) -/

/-- The words of a fill, from reel address `i`: checked, and none where a word has to be rewritten first or is
poisoned. -/
def fillFrom (q base : Nat) : Nat → Nat → State → State × List (Option (BitVec 128)) × Option Nat
  | 0, _, s => (s, [], none)
  | n + 1, i, s =>
    let r := mcCheck q (base + i) s
    if r.2 then
      let x := fillFrom q base n (i + 1) r.1
      (x.1, (r.1.quad q).fillWord (base + i) :: x.2.1, x.2.2)
    else (r.1, [], some (base + i))

/-- A chain's reel cache takes up to `n` more words; a poisoned word ends the take with 0x0C (R221). -/
def fillCache (p : Nat) (r : Strip) (n : Nat) (s : State) : State :=
  let t := s.slot r.q r.slot
  let c := s.chain p
  let x := fillFrom r.q t.ent.basew (min n (t.ent.len - c.cache.length)) c.cache.length s
  let s := x.1.setChain p { x.1.chain p with cache := c.cache ++ x.2.1 }
  match x.2.2 with
  | some w => if (s.quad r.q).mcBad.contains w then faultTake r.q r.slot ⟨0x0C, r.cptr, 0⟩ s else s
  | none => s

/-- A cached word with a check error is read again from the store, with its dailies entry (R215, R350). It waits for the store, and for
a word that has to be rewritten first; a poisoned one ends the take with 0x0C (R221). -/
def refillWord (p : Nat) (r : Strip) (i : Nat) (s : State) : State :=
  let w := (s.slot r.q r.slot).ent.basew + i
  if !awake s (domStore r.q) then addDemand (domStore r.q) s
  else
    let x := mcCheck r.q w s
    let s := x.1
    let c := s.chain p
    if x.2 then logEv 0x23 0 (pgChain p) 1 (s.setChain p { c with cache := lset c.cache i ((s.quad r.q).fillWord w), cacheBad := c.cacheBad.filter (· ≠ i) })
    else if (s.quad r.q).mcBad.contains w then faultTake r.q r.slot ⟨0x0C, r.cptr, 0⟩ s
    else s

/-- The cached word with a check error that the sequencer needs now: the present one, or any of a shipped reel. -/
def badWord (c : Chain) (t : Slot) (r : Strip) : Option Nat := c.cacheBad.find? fun i => (shipOf c t).isSome || decide (i = r.micro.pc)

/-- A strip that stops before or at a boundary microword (R137, R138, R214). -/
def stopHere (p : Nat) (r : Strip) (s : State) : State :=
  finishStrip p (s.setChain p { s.chain p with strip := some { r with ended := true } })

/-- The streams that the later chains of a spliced shipped reel use as the first chain's lines are forwarded to them: the tap groups
of a stencil, and the index streams of the outputs (R131, R170, R171). -/
def laterStreams (s : State) (t : Slot) : List Nat :=
  let outs := ([4, 5].filter fun o => decide (t.mode o = 2)).map t.ixs
  let taps := if t.ship = some 0x0C ∧ !takeCons s t then (List.range (tapGroups t).length).map (10 + ·) else []
  (outs ++ taps).eraseDups

/-- Does a strip of the take wait for a chain or a repair? The pipeline of a SPLICE take resumes as a whole (R171, R341). -/
def pipeHeld (s : State) (r : Strip) : Bool := r.spliced && s.cullet.moved.any (isMoved r.q r.slot)

/-- The strip is prepared: its read streams and start (R215). -/
def planStrip (s : State) (c : Chain) (t : Slot) (r : Strip) : Strip :=
  let m := if r.micro.pc = 0 ∧ r.micro.ptr = r.lo ∧ r.micro.vfirst then { r.micro with pc := t.ent.start } else r.micro
  { r with ready := true, micro := m, streams := if r.spliced ∧ 0 < r.pos ∧ (shipOf c t).isSome then laterStreams s t else streamPlan s c t r }

/-- Is the reel of the take in the cache of chain `p`? (R215) -/
def cacheHit (s : State) (p : Nat) (r : Strip) : Bool :=
  let t := s.slot r.q r.slot
  decide ((s.chain p).cacheId = some (t.reel, ((s.quad r.q).entry t.reel).count))

/-- `reelStart` (R215): the directory lookup, the first eight microwords on a miss, the stream parameters. It waits for
the fetch, for the microcode store, for the chain's domain, and for the strips of a pipeline that wait for a chain. -/
def execReelStart (chain : Fin 68) (s : State) : Out :=
  let p := chain.val
  match (s.chain p).strip with
  | none => .next s
  | some r =>
    let t := s.slot r.q r.slot
    if r.ready ∨ r.ended then .next s
    else if r.stop then .next (stopHere p r s)
    else if !t.fetched ∨ pipeHeld s r then .next s
    else if !awake s (domStore r.q) then .next (addDemand (domStore r.q) s)
    else if !awake s (domChain p) then .next (addDemand (domChain p) s)
    else
      let s := if cacheHit s p r then s
        else fillCache p r 8 (s.setChain p { s.chain p with cache := [], cacheBad := [], cacheId := some (t.reel, ((s.quad r.q).entry t.reel).count) })
      match (s.chain p).strip with
      | none => .next s
      | some r' =>
        if r'.stop then .next s
        else if (s.chain p).cache.length < min 8 t.ent.len then
          .next (s.setChain p { s.chain p with cacheId := none, cache := [], cacheBad := [] })
        else .next (s.setChain p { s.chain p with strip := some (planStrip s (s.chain p) t r') })

/-- `reelCacheFill` (R215): up to four more microwords arrive. -/
def execReelCacheFill (chain : Fin 68) (s : State) : Out :=
  let p := chain.val
  match (s.chain p).strip with
  | none => .next s
  | some r =>
    let t := s.slot r.q r.slot
    if !r.ready ∨ r.ended ∨ t.ent.len ≤ (s.chain p).cache.length then .next s
    else if !awake s (domStore r.q) then .next (addDemand (domStore r.q) s)
    else
      let s := fillCache p r 4 s
      match (s.chain p).strip with
      | some r' => .next (s.setChain p { s.chain p with strip := some { r' with streams := (planStrip s (s.chain p) t r').streams } })
      | none => .next s

/-! ## Landing (R151, R168, R170) -/

/-- Elements put into the read region; one that is there already stays. -/
def landAll (els : List Land) (r : Strip) : Strip :=
  { r with landed := r.landed ++ els.filter fun x => !(r.landed.any fun y => decide (y.stream = x.stream) && decide (y.key = x.key)) }

/-- The physical chain that runs position `i` of a pipeline. -/
def posChain (s : State) (t : Slot) (i : Nat) : Option Nat :=
  match t.chains[i]? with
  | some l => s.chPhys l
  | none => none

/-- The strip at a position of the take, where it stands on its chain. -/
def posStrip (s : State) (q k i : Nat) : Option (Nat × Strip) :=
  ((takeChains s q k).filterMap fun p => ((s.chain p).strip).map fun r => (p, r)).find? fun x => decide (x.2.pos = i)

/-- Elements that landed in a pipeline's chain go on to the next one (R170): those of the streams that the later chains of a
shipped reel use, and every stream of another reel. -/
def forward (r : Strip) (els : List Land) (s : State) : State :=
  if !r.spliced then s
  else match posStrip s r.q r.slot (r.pos + 1) with
    | some x =>
      let t := s.slot r.q r.slot
      let els := if t.ship.isSome then els.filter fun y => (laterStreams s t).contains y.stream else els
      if els.isEmpty then s else s.setChain x.1 { s.chain x.1 with strip := some { x.2 with fin := x.2.fin ++ els } }
    | none => s

/-- The crucible image is complete (R167, R168): the take starts from it, or ends with 0x0D. -/
def imageDone (p : Nat) (r : Strip) (s : State) : State :=
  match allSome ((List.range 80).map fun (k : Nat) => landGet r 5 k) with
  | none => s
  | some v =>
    let t := s.slot r.q r.slot
    let s := s.setChain p { s.chain p with strip := some { r with landed := r.landed.filter fun x => decide (x.stream ≠ 5) } }
    match imageRead t.etype v with
    | some c => s.setSlot r.q r.slot { t with total := c, imgWait := false }
    | none => faultTake r.q r.slot ⟨0x0D, 0, 0⟩ s

/-- Elements land in the read region of chain `p` (R151). -/
def landIn (p : Nat) (els : List Land) (s : State) : State :=
  match (s.chain p).strip with
  | none => s
  | some r =>
    let t := s.slot r.q r.slot
    let r := landAll els r
    let r := if t.ship = some 0x0D ∧ r.csr0 = none then { r with csr0 := (landGet r 3 r.from_).map BitVec.toInt } else r
    let s := forward r els (s.setChain p { s.chain p with strip := some r })
    if t.imgWait then imageDone p r s else s

/-! ## Residue and replay (R158 to R161) -/

/-- The group of the strip that starts at or before element `e`. -/
def groupOf (r : Strip) (e : Nat) : Nat := (e - r.lo) / 64

/-- The element after the last of the oldest uncommitted group. -/
def groupEnd (r : Strip) : Nat := min (r.lo + 64 * (groupOf r r.cptr + 1)) r.hi

/-- Uncommitted results are discarded (R159): terms, flags, and staged elements that no entry carries. -/
def discardGroups (r : Strip) : Strip := Strip.trim
  { r with grp := [], gflags := [], staged := r.staged.filter fun x => decide (x.elem < r.cptr),
           unacked := r.unacked.filter fun u => decide (u.elem < r.cptr) || !(r.staged.any fun x => decide (x.stream = u.stream) && decide (x.elem = u.elem)) }

/-- Do the operands of the reel leave the read region as they are used (CSR and ELL)? -/
def rowReel (t : Slot) : Bool := decide (t.ship = some 0x0D ∨ t.ship = some 0x0E)

/-- The strip goes back to the snapshot of its oldest uncommitted group (R159, R214). A row reel asks again for the operands that the
take buffer no longer holds. -/
def replayGroup (t : Slot) (r : Strip) : Strip :=
  let m := tget (fun _ => r.micro) r.snaps (groupOf r r.cptr)
  let r := { discardGroups r with micro := m, snaps := [], ended := false, retried := true }
  if rowReel t then { r with nxt := [], from_ := r.cptr, csr0 := (landGet r 3 r.cptr).map BitVec.toInt } else r

/-- Has the strip uncommitted results? -/
def uncommitted (r : Strip) : Bool := decide (r.cptr < reached r) || !r.grp.isEmpty || !r.gflags.isEmpty || !r.micro.vfirst

/-- A residue mismatch is counted in RESCNT and its window (R160, R174). -/
def countResidue (p : Nat) (s : State) : State :=
  let c := s.chain p
  if c.en then s.setChain p { c with rescnt := satInc c.rescnt, winCnt := c.winCnt + 1 } else s

/-- A residue mismatch of the oldest uncommitted group of chain `p` (R159 to R161). -/
def residue (p : Nat) (inj : Bool) (s : State) : State :=
  match (s.chain p).strip with
  | none => s
  | some r =>
    let t := s.slot r.q r.slot
    if !r.ready ∨ (!uncommitted r ∧ !(r.ended ∧ owesCombine (s.chain p) t r)) then s
    else
      let s := countResidue p s
      let c := s.chain p
      let put := fun (r : Strip) (s : State) => s.setChain p { s.chain p with strip := some r }
      if r.stop ∨ failing t then finishStrip p (put { discardGroups r with ended := true, stop := true, micro := { r.micro with ptr := r.cptr } } s)
      else if r.badGrp = some r.cptr then faultTake r.q r.slot ⟨0x0C, r.cptr, 0⟩ s
      else if r.retried then hardFault p (put { r with badGrp := some r.cptr } s) inj
      else if fld c.rescfg 7 0 ≠ 0 ∧ fld c.rescfg 7 0 ≤ c.winCnt then hardFault p s inj
      else if !uncommitted r then put { r with retried := true } s
      else
        let s := addReplay r.q r.slot (put (replayGroup t r) s)
        let c := s.chain p
        let counts := c.en && decide (c.greplay ≠ BitVec.allOnes 32)
        let s := s.setChain p { c with greplay := if c.en then satInc c.greplay else c.greplay, undo := some (s.bclk, counts, decide (t.replays < 255)) }
        logEv 0x20 0 (pgChain p) (handleOf r.q r.slot r.gen) s inj

/-- `residueMismatch` (R159). -/
def execResidueMismatch (chain : Fin 68) (s : State) : Out := .next (residue chain false s)

/-- The packed streams that read packed stream `i`, or take their index from stream `i`. -/
def pkUsers (t : Slot) (r : Strip) (i : Nat) : List Nat :=
  (List.range 4).filter fun j => r.streams.contains (20 + j) && (decide (j = i) || (decide (t.mode j = 2) && decide (t.ixs j = i)))

/-- The lowest packed element that those streams still need, for their counts in the strip. -/
def pkFrom (t : Slot) (r : Strip) (pks : Tab Nat) (i : Nat) : Nat :=
  match pkUsers t r i with
  | [] => 0
  | j :: l => l.foldl (fun m j => min m (pkOf r.bases j + pkOf pks j)) (pkOf r.bases j + pkOf pks j)

/-- Elements below what the next group needs leave the read region (R151). -/
def freeLanded (t : Slot) (r : Strip) (g : Nat) (pks : Tab Nat) : List Land :=
  r.landed.filter fun x =>
    if x.stream = 5 ∨ (t.mode 4 = 2 ∧ x.stream = t.ixs 4 ∧ x.key = 0) then true
    else if 20 ≤ x.stream then decide ((pkFrom t r pks (x.stream - 20) : Int) ≤ x.key)
    else if 10 ≤ x.stream then decide (t.stride 0 = 0) ||
      decide ((g : Int) + intMin ((lget [] (tapGroups t) (x.stream - 10)).map t.tapOff) ≤ x.key)
    else if rowReel t ∧ x.stream < 3 then true
    else decide ((g : Int) ≤ x.key)

/-- The crucible terms and flags of group `g` join the committed state (R159, R166). -/
def mergeGroup (c : Chain) (t : Slot) (g : Nat) (r : Strip) : Strip :=
  let mine := r.grp.filter fun x => decide (x.1 / 16 = g)
  let op := redOp c t
  let ln := mine.foldl (fun l x => tset crucInit (x.1 % 16) (crucAdd t.rm t.etype op (tget crucInit l (x.1 % 16)) x.2) l) r.lanes
  { r with lanes := ln, grp := r.grp.filter fun x => decide (x.1 / 16 ≠ g),
           flags := r.flags ||| tget zeroD r.gflags g, gflags := r.gflags.filter fun x => decide (x.1 ≠ g) }

/-- `groupCommit` (R156, R159): once every vector of the oldest uncommitted group has issued, the group is committed;
at a frame boundary the chain checkpoints (R130, R161). -/
def execGroupCommit (chain : Fin 68) (s : State) : Out :=
  let p := chain.val
  match (s.chain p).strip with
  | none => .next s
  | some r =>
    let c := s.chain p
    let t := s.slot r.q r.slot
    let e := if r.ended then min (groupEnd r) (reached r) else groupEnd r
    if reached r < e ∨ e ≤ r.cptr then .next (finishStrip p s)
    else
      let g := groupOf r r.cptr
      let m := tget (fun _ => r.micro) r.snaps (g + 1)
      let r' := mergeGroup c t g r
      let r' := { r' with cptr := e, retried := false, snaps := r'.snaps.filter fun x => decide (x.1 ≠ g), landed := freeLanded t r e m.pks,
                          badGrp := if r.badGrp = some r.cptr then none else r.badGrp }
      let ck : Ckpt := { micro := m, pass2 := r.pass2, lanes := r'.lanes, flags := r'.flags }
      let r' := if e % 4096 = 0 ∧ e < r.hi ∧ !r.ended then { r' with cks := r'.cks ++ [(e / 4096 + (if r.pass2 then 2 ^ 30 else 0), ck)] } else r'
      let c := if c.en then { c with elem := c.elem + BitVec.ofNat 64 (e - r.cptr) } else c
      .next (finishStrip p (s.setChain p { c with strip := some r' }))

/-! ## Microwords (R210 to R214) -/

/-- The strip that stores the take's outputs: the last chain of a pipeline, else the strip itself. -/
def storingStrip (s : State) (t : Slot) (r : Strip) : Option Strip :=
  if isLast t r then some r else (posStrip s r.q r.slot (t.chains.length - 1)).map Prod.snd

/-- Distinct staging lines that a strip holds (R150). -/
def stagedLines (r : Strip) : Nat := ((r.unacked.map Unack.line).eraseDups).length

/-- The byte offset of element `x` of output stream `o`, if its index has landed (R111). -/
def outAddr (t : Slot) (r : Strip) (o x : Nat) : Option Int :=
  if t.mode o = 1 then some (linAddr t o x)
  else if t.mode o = 2 then (landGet r (t.ixs o) x).map fun v => t.base o + 8 * ixVal t o v
  else none

end Sys2Proof.Machine
end

