-- ==== Sys2Proof/Machine/Marver.lean ====
section
/-! DEFINITION. The address generator of a chain: the items of its read streams, the entries of its marver (R111, R112,
R132 to R134, R149, R150, R191, R192). -/

namespace Sys2Proof.Machine

/-! ## The next item of a read stream -/

/-- An item of a read stream: its key, the lowest element of the take that needs it, and the stream's count after it. -/
structure Item where
  key  : Int
  elem : Nat
  next : Nat
  deriving DecidableEq, Repr

/-- The row of CSR that holds key `k`, once a row pointer above `k` has landed (R112). -/
def csrRowOf (r : Strip) (k : Int) : Option Nat :=
  let above := r.landed.filter fun x => decide (x.stream = 3) && decide (k < x.val.toInt)
  match above with
  | [] => none
  | x :: l => some (max ((l.foldl (fun m y => min m y.key) x.key) - 1).toNat r.from_)

/-- The element that is the `k`th selecting element of B from element `i` on, among those that have landed (R112). -/
def selectAt (t : Slot) (r : Strip) : Nat → Nat → Nat → Option Nat
  | 0, _, _ => none
  | f + 1, i, k =>
    if i ≥ r.hi then none
    else match opnd t r 1 i with
      | none => none
      | some b => if b = 0 then selectAt t r f (i + 1) k
          else if k = 0 then some i else selectAt t r f (i + 1) (k - 1)

/-- How many packed elements of stream `j` the present microword takes. -/
def packedWanted (c : Chain) (t : Slot) (r : Strip) (j : Nat) : Nat :=
  let w := wordAt c t r.micro.pc
  if r.micro.pc < c.cache.length ∧ (mwReads w 37 j true || mwReads w 47 j true) then
    (((laneElems t r).zip r.micro.ilu).filter fun x => decide (x.1 < r.hi) && decide (x.2 ≠ 0)).length
  else 0

/-- The next item of a tap group: the lowest element of A that a tap needs and that has not been asked for (R149). With STRIDE 0
every element is the same one, which is asked for once. -/
def tapItem (t : Slot) (r : Strip) (g n : Nat) : Option Item :=
  if t.stride 0 = 0 then (if n = 0 ∧ r.from_ < r.hi then some ⟨0, r.from_, 1⟩ else none)
  else
  let offs := (lget [] (tapGroups t) g).map t.tapOff
  let lo := intMin offs
  let x0 : Int := r.from_ + lo + n
  let cand := (offs.map fun o => max ((r.from_ : Int) + o) x0).zip offs
  let ok := cand.filter fun x => decide (x.1 ≤ (r.hi : Int) - 1 + x.2)
  match ok with
  | [] => none
  | _ =>
    let x := intMin (ok.map Prod.fst)
    let need := (offs.filter fun o => decide (r.from_ ≤ x - o ∧ x - o < r.hi)).map fun o => x - o
    some ⟨x, (intMin need).toNat, (x - (r.from_ + lo)).toNat + 1⟩

/-- The first of the items from `n` on, counted from key `b`, that the read region does not hold (R159). -/
def notHeld (r : Strip) (id : Nat) (b : Int) (n : Nat) : Nat :=
  ((rangeFrom n (r.landed.length + 1)).find? fun (i : Nat) => (landGet r id (b + (i : Int))).isNone).getD n

/-- The next item of read stream `id` of a strip, if there is one and its place is known (R111, R112). -/
def nextItem (c : Chain) (t : Slot) (r : Strip) (id : Nat) : Option Item :=
  let n := tget (fun _ => 0) r.nxt id
  let x := r.from_ + n
  if id = 5 then (if t.imgWait ∧ r.pos = 0 ∧ n < 80 then some ⟨n, 0, n + 1⟩ else none)
  else if t.imgWait then none
  else if 20 ≤ id then
    let k := pkFrom t r r.fromPks (id - 20) + n
    (if t.ship = some 0x0A then selectAt t r 4096 r.micro.ptr (k - r.pkAt 0)
     else if (pkUsers t r (id - 20)).any fun j => decide (k < r.pkAt j + packedWanted c t r j) then some r.micro.ptr
     else none).map fun e => ⟨(k : Nat), e, n + 1⟩
  else if 10 ≤ id then tapItem t r (id - 10) n
  else if t.ship = some 0x0D ∧ id = 3 then (if x ≤ r.hi then some ⟨x, max (x - 1) r.from_, n + 1⟩ else none)
  else if t.ship = some 0x0D then
    r.csr0.bind fun b =>
      let n := notHeld r id b n
      (csrRowOf r (b + n)).map fun e => ⟨b + n, e, n + 1⟩
  else if t.ship = some 0x0E then
    let s0 := (t.w 14).toNat
    let n := notHeld r id (r.from_ * s0 : Nat) n
    let k := r.from_ * s0 + n
    if k < r.hi * s0 then some ⟨k, k / s0, n + 1⟩ else none
  else if x < r.hi then some ⟨x, x, n + 1⟩ else none

/-- The stream of the descriptor that read stream `id` reads. -/
def streamOf (id : Nat) : Nat := if 20 ≤ id then id - 20 else if 10 ≤ id then 0 else id

/-- The element of the stream that a key names: ELL counts keys row by row (R112). -/
def elementOf (t : Slot) (id : Nat) (key : Int) : Int :=
  if t.ship = some 0x0E ∧ id < 3 then
    let s0 : Int := (t.w 14).toNat
    key / s0 + (key % s0) * t.ystride
  else key

/-- The byte offset of an item; none while its index has not landed (R111). -/
def itemAddr (t : Slot) (r : Strip) (id : Nat) (i : Item) : Option Int :=
  let j := streamOf id
  if t.mode j = 2 then (landGet r (if 20 ≤ id then 20 + t.ixs j else t.ixs j) i.key).map fun v => t.base j + 8 * ixVal t j v
  else some (linAddr t j (elementOf t id i.key))

/-- Bytes of an element of read stream `id`. -/
def itemSize (t : Slot) (id : Nat) : Nat := t.esize (streamOf id)

/-! ## When an item may be asked for (R132 to R134, R138, R150) -/

/-- The highest element whose store the load of an element of stream `id` waits for under a recurrence hold (R133); no store is made
of an element at or past LENGTH. -/
def holdOf (t : Slot) (id : Nat) (key : Int) : Option Nat :=
  let j := elementOf t id key
  (t.holds.filter fun h => decide (h.1 = streamOf id) && decide ((h.2.2 : Int) ≤ j) && decide (j - h.2.2 < t.len)).foldl
    (fun m h => match m with
      | some x => some (max x (j - h.2.2).toNat)
      | none => some (j - h.2.2).toNat) none

/-- Lines of read stream `id` that the strip holds or waits for (R150). -/
def streamLines (s : State) (p : Nat) (r : Strip) (id : Nat) : Nat :=
  let has := fun (e : MvEntry) => !e.wr && e.places.any fun x => decide (x.1 = id)
  let inMv := ((s.chain p).marver.filter has).map MvEntry.line
  let inTag := s.ports.flatMap fun x => (x.2.tags.filter fun t => decide (t.2.src = .chain p r.q r.slot r.gen) && has t.2.ent).map fun t => t.2.ent.line
  (((r.landed.filter fun x => decide (x.stream = id)).map Land.line) ++ inMv ++ inTag).eraseDups.length

/-- May element `e` be asked for now? Not at or past a faulted element, not past the group in which the strip stops,
and under SERIAL only after every store of the elements before it (R134, R138, R214). -/
def mayAsk (s : State) (t : Slot) (r : Strip) (e : Nat) : Bool :=
  (match t.cap with | some x => decide (e < x) | none => true) &&
  (!r.stop || decide (e < r.lo + 64 * (groupOf r r.micro.ptr + 1))) &&
  (!t.serial || match storingStrip s t r with
    | some w => decide (e ≤ w.micro.ptr) && decide (w.unacked = [])
    | none => false)

/-- Has the read region a free slot for the next line of stream `id`? (R150, R191, R197) The image is read before any stream. -/
def roomFor (s : State) (p : Nat) (r : Strip) (id : Nat) : Bool :=
  decide (id = 5) || decide (streamLines s p r id < regionLines r)

/-- The read streams that ask memory: the image first, then those of the plan; only the first chain of a pipeline reads
(R131, R168, R171). -/
def askStreams (t : Slot) (r : Strip) : List Nat :=
  if r.spliced ∧ 0 < r.pos then [] else if t.imgWait then [5] else r.streams

/-- The item that the address generator takes next: of all the streams' next items the one of the lowest element. -/
def pickItem (s : State) (p : Nat) (t : Slot) (r : Strip) : Option (Nat × Item × Int) :=
  let c := s.chain p
  (askStreams t r).foldl (fun (b : Option (Nat × Item × Int)) id =>
    match nextItem c t r id with
    | none => b
    | some i => match itemAddr t r id i with
      | none => b
      | some a =>
        if mayAsk s t r i.elem && roomFor s p r id then
          match b with
          | some x => if i.elem < x.2.1.elem then some (id, i, a) else b
          | none => some (id, i, a)
        else b) none

/-! ## Entry creation (R191, R192) -/

/-- The items of stream `id` that follow in the same line and wait for the same store, at most `n`, with the count after
them. -/
def sameLine (s : State) (c : Chain) (t : Slot) (id : Nat) (line : Nat) (hold : Option Nat) :
    Nat → Strip → List (Nat × Int × Nat) × Strip
  | 0, r => ([], r)
  | n + 1, r => match nextItem c t r id with
    | none => ([], r)
    | some i => match itemAddr t r id i with
      | none => ([], r)
      | some a =>
        if 0 ≤ a ∧ a.toNat / 64 = line ∧ a + itemSize t id ≤ 2 ^ 39 ∧ holdOf t id i.key = hold ∧ mayAsk s t r i.elem then
          let x := sameLine s c t id line hold n { r with nxt := tset (fun _ => 0) id i.next r.nxt }
          ((id, i.key, a.toNat % 64) :: x.1, x.2)
        else ([], r)

/-- A new read entry merges with an unoffered one of the same stream and line that waits for the same store (R192). -/
def mergeEntry (e : MvEntry) (id : Nat) : List MvEntry → Option (List MvEntry)
  | [] => none
  | x :: l =>
    if !x.wr ∧ !x.offered ∧ x.line = e.line ∧ x.holdTo = e.holdTo ∧ (x.places.any fun y => decide (y.1 = id)) then
      some ({ x with places := x.places ++ e.places, elem := min x.elem e.elem } :: l)
    else (mergeEntry e id l).map (x :: ·)

/-- The number of entries at which creation stalls (R191, R356). -/
def marverLimit (s : State) : Nat := if s.blk.testen then min 512 (fld s.pert.mvlim 9 0) else 512

/-- Read entries: up to `n` lines, at most `k` new entries. A lookup in a half of the table that sleeps waits, with a
demand (R188). -/
def createReads (p : Nat) : Nat → Nat → State → State
  | 0, _, s => s
  | n + 1, k, s => match (s.chain p).strip with
    | none => s
    | some r =>
      let t := s.slot r.q r.slot
      match pickItem s p t r with
      | none => s
      | some (id, i, a) =>
        if a < 0 ∨ a + itemSize t id > 2 ^ 39 then faultTake r.q r.slot ⟨0x06, i.elem, 0⟩ s
        else
          let line := a.toNat / 64
          let hold := holdOf t id i.key
          if !bstAwake s (line / 2 ^ 14) then addDemand (domBst (bstHalf (line / 2 ^ 14))) s
          else
            let c := s.chain p
            let x := sameLine s c t id line hold 16 r
            let e : MvEntry := { line := line, wr := false, lp := 0, pp := 0, places := x.1, elems := [], stamp := s.bclk, elem := i.elem }
            let e := { e with jobtag := t.jobtag, holdTo := hold }
            match mergeEntry e id c.marver with
            | some m => createReads p n k (s.setChain p { c with strip := some x.2, marver := m })
            | none =>
              if k = 0 ∨ marverLimit s ≤ c.marver.length then s
              else
                let st := steerLine line t.level t.jobtag false false s
                match st.2 with
                | .error code => faultTake r.q r.slot ⟨code, i.elem, 64 * line⟩ st.1
                | .ok pp => createReads p n (k - 1)
                    (st.1.setChain p { st.1.chain p with strip := some x.2, marver := c.marver ++ [{ e with lp := pp.1, pp := pp.2 }] })

/-- The lines that the strip's next vector may store to; `none` among them stands for one not yet known (R191). -/
def nextStoreLines (t : Slot) (r : Strip) : List (Option Nat) :=
  let at_ := fun o x => match outAddr t r o x with
    | some a => if t.mode o = 1 ∧ (t.ship = some 0x09 ∧ o = 5) then none else some (some (a.toNat / 64))
    | none => if t.mode o = 2 then some none else none
  let packed := decide (t.ship = some 0x09)
  let els := fun o => if packed ∧ o = 4 then rangeFrom (r.pkAt 4) t.width else active t r
  [4, 5].flatMap fun o => if t.mode o = 0 then [] else (els o).filterMap fun x => at_ o x

/-- Is the store line ready for its entry? (R191) -/
def lineReady (t : Slot) (r : Strip) (line : Nat) : Bool :=
  r.ended || (if t.serial ∨ t.holds ≠ [] then r.micro.vfirst
    else !((nextStoreLines t r).any fun x => match x with | some l => decide (l = line) | none => true))

/-- Is element `a` before `b` in the order of stores: by element, E before F? (R132, R133) -/
def storeBefore (a b : Staged) : Bool := decide (a.elem < b.elem) || (decide (a.elem = b.elem) && decide (a.stream ≤ b.stream))

/-- Staged elements in the order of stores. -/
def storeOrder (l : List Staged) : List Staged :=
  l.foldr (fun x r => (r.filter fun y => !storeBefore x y) ++ [x] ++ r.filter fun y => storeBefore x y) []

/-- The bytes of a line with an 8-byte element put at offset `off`. -/
def putLine (l : Line) (off : Nat) (v : Word) : Line :=
  BitVec.ofNat 512 (l.toNat - (l.toNat / 2 ^ (8 * off) % 2 ^ 64) * 2 ^ (8 * off) + v.toNat * 2 ^ (8 * off))

/-- The entry of a store line, its byte enables covering exactly its elements (R191). -/
def storeEntry (line : Nat) (els : List Staged) (t : Slot) (now : Nat) (pp : Nat × Nat) : MvEntry :=
  let d := (storeOrder els).foldl (fun d x => putLine d (x.addr % 64) x.val) (0 : Line)
  let be := els.foldl (fun (b : BitVec 64) x => b ||| BitVec.ofNat 64 (255 * 2 ^ (x.addr % 64))) 0
  { line := line, wr := true, lp := pp.1, pp := pp.2, places := [], elems := els.map fun x => (x.stream, x.elem),
    data := d, be := be, stamp := now, jobtag := t.jobtag, elem := els.foldl (fun m x => min m x.elem) ((els.map Staged.elem).headD 0) }

/-- Staged elements that the staging store no longer holds rightly are a residue mismatch of their group (R150); where the group
is committed, the chain cannot make them again but by its frame, as after a hard fault (R130). -/
def stagingError (p : Nat) (r : Strip) (els : List Staged) (s : State) : State :=
  let s := s.setChain p { s.chain p with strip := some { r with stgErr := r.stgErr.filter fun e => !(els.any fun y => decide (e = (y.stream, y.elem))) } }
  if els.all fun y => decide (r.cptr ≤ y.elem) then residue p false s else hardFault p s

/-- Store entries: up to `n` lines (R191), each with the port that its steering gave when its first element was staged. A line
that the staging store holds with an uncorrectable error is a residue mismatch of its group (R150). -/
def createStores (p : Nat) : Nat → State → State
  | 0, s => s
  | n + 1, s => match (s.chain p).strip with
    | none => s
    | some r =>
      let t := s.slot r.q r.slot
      match (storeOrder r.staged).find? fun x => lineReady t r (x.addr / 64) with
      | none => s
      | some x =>
        let line := x.addr / 64
        let els := r.staged.filter fun y => decide (y.addr / 64 = line)
        if els.any fun y => r.stgErr.contains (y.stream, y.elem) then stagingError p r els s
        else if marverLimit s ≤ (s.chain p).marver.length then s
        else match r.steered.find? fun l => decide (l.1 = line) with
        | none => s
        | some l =>
          let c := s.chain p
          let r' := { r with staged := r.staged.filter fun y => decide (y.addr / 64 ≠ line), steered := r.steered.filter fun l => decide (l.1 ≠ line) }
          createStores p n (s.setChain p { c with strip := some r', marver := c.marver ++ [storeEntry line els t s.bclk l.2] })

/-- May the address generator of the chain work? -/
def generatorOn (s : State) (p : Nat) (r : Strip) : Bool := awake s (domChain p) && r.ready && (s.slot r.q r.slot).fetched && !pipeHeld s r

/-- `marverEntryCreation` (R191): read entries for at most four lines and store entries for at most two, after the
merges. -/
def execMarverEntryCreation (chain : Fin 68) (s : State) : Out :=
  let p := chain.val
  match (s.chain p).strip with
  | none => .next s
  | some r =>
    if !generatorOn s p r then .next s
    else .next (createStores p 2 (if r.ended then s else createReads p 16 4 s))

end Sys2Proof.Machine
end

