-- ==== Sys2Proof/Machine/Microword.lean ====
section
/-! DEFINITION. The microwords of a chain, the fold and combine of reductions, splice channels and links (R130, R131,
R164, R165, R169 to R173, R210 to R214). -/

namespace Sys2Proof.Machine

/-- A value that has passed the STO check is staged, with the ports of its line (R150, R191). -/
def putStaged (e : Nat × Nat × Nat × Word) (a : Nat) (pp : Nat × Nat) (r : Strip) : Strip :=
  { r with staged := r.staged ++ [⟨e.1, e.2.1, a, e.2.2.2⟩], unacked := r.unacked ++ [⟨e.1, e.2.1, a / 64⟩],
           steered := if r.steered.any fun l => decide (l.1 = a / 64) then r.steered else r.steered ++ [(a / 64, pp.1, pp.2)] }

/-- A value staged by STO (R150), or sent on a cross-quadrant link once (R173), where it is a demand on the fabric of the
quadrant it arrives in (R294). The first element of a line is steered with it (R191); an element at or past a fault of the
take is not stored (R138). -/
def stageOne (lnk : Option Nat) (t : Slot) (x : State × Strip) (e : Nat × Nat × Nat × Word) : State × Strip :=
  let s := x.1
  let r := x.2
  match e.1, lnk with
  | 4, some c =>
    if e.2.1 < r.lo + r.sentN then (s, r)
    else (addDemand (domQuad (c / 16))
            { s with link := tset (fun _ => []) c (tget (fun _ => []) s.link c ++ [⟨e.2.2.2, r.q, r.slot, r.gen, e.2.1⟩]) s.link },
          { r with sentN := r.sentN + 1, unacked := r.unacked ++ [⟨4, e.2.1, 0⟩] })
  | _, _ => match outAddr t r e.1 e.2.2.1 with
    | none => (s, r)
    | some a =>
      if (s.slot r.q r.slot).cap.any fun c => decide (c ≤ e.2.1) then (s, r)
      else if a < 0 ∨ a + 8 > 2 ^ 39 then (takeFault r.q r.slot ⟨0x06, e.2.1, 0⟩ s, r.dropElem e.2.1)
      else match r.steered.find? fun l => decide (l.1 = a.toNat / 64) with
        | some l => (s, putStaged e a.toNat l.2 r)
        | none =>
          let st := steerLine (a.toNat / 64) t.level t.jobtag false true s
          match st.2 with
          | .error code => (takeFault r.q r.slot ⟨code, e.2.1, 64 * (a.toNat / 64)⟩ st.1, r.dropElem e.2.1)
          | .ok pp => (st.1, putStaged e a.toNat pp r)

/-- The half of the table that the STO check of a microword's values needs and that sleeps, if one does (R188, R191). -/
def steerWaits (s : State) (lnk : Option Nat) (t : Slot) (r : Strip) (l : List (Nat × Nat × Nat × Word)) : Option Nat :=
  l.findSome? fun e =>
    if e.1 = 4 ∧ lnk.isSome then none
    else match outAddr t r e.1 e.2.2.1 with
    | none => none
    | some a =>
      if a < 0 ∨ a + 8 > 2 ^ 39 ∨ r.steered.any (fun l => decide (l.1 = a.toNat / 64)) ∨ bstAwake s (a.toNat / 2 ^ 20) then none
      else some (bstHalf (a.toNat / 2 ^ 20))

/-- The link that a strip sends its E on, if it does (R173). -/
def sendsOn (s : State) (t : Slot) (r : Strip) : Option Nat := if sendLink s t r then linkPeer r.lchain else none

/-- What a vector did is put into the strip and the block: stores, terms, flags, channel P. -/
def applyVec (p : Nat) (t : Slot) (r : Strip) (v : VecOut) (s : State) : State :=
  let g := groupOf r r.micro.ptr
  let acc := v.terms.foldl (fun (x : Tab Cruc × BitVec 5) e =>
    let y := redAcc t.rm t.etype v.op e.2.1 e.2.2 (tget crucInit x.1 (16 * g + e.1))
    (tset crucInit (16 * g + e.1) y.1 x.1, x.2 ||| y.2)) (r.grp, v.flags)
  let lnk := sendsOn s t r
  let resend := decide (v.micro.sendAt ≤ r.sentN)
  let r' := { r with grp := acc.1, gflags := tset zeroD g (tget zeroD r.gflags g ||| acc.2) r.gflags, micro := v.micro,
                     landed := r.landed.filter fun x => !v.freed.contains (x.stream, x.key) }
  let x := v.stores.foldl (stageOne lnk t) (s, r')
  let s := x.1
  let r' := x.2
  let s := match v.send, posStrip s r.q r.slot (r.pos + 1) with
    | some vec, some n => if resend then s else s.setChain n.1 { s.chain n.1 with strip := some { n.2 with chan := n.2.chan ++ [vec] } }
    | _, _ => s
  let r' := if v.send.isSome ∧ !resend then { r' with sentN := r'.sentN + 1 } else r'
  let r' := { r' with stop := r'.stop || (match (s.chain p).strip with | some y => y.stop | none => false) }
  { s.setChain p { s.chain p with strip := some r' } with fresh := s.fresh + v.drawn }

/-- The present microword, or step of a shipped reel. -/
def issueOne (s : State) (c : Chain) (t : Slot) (r : Strip) : Option VecOut :=
  match shipOf c t with
  | some k => (shipStep (r.spliced && takeCons s t) (sendLink s t r) k t r).map fun v =>
      let done := decide (r.hi ≤ v.micro.ptr)
      let cnt := if done && decide (k = 0x09) && !firstPass t r && decide (r.hi = t.len)
        then [(5, r.hi - 1, 0, (BitVec.ofNat 64 (pkOf r.bases 4 + pkOf v.micro.pks 4) : Word))] else []
      { v with ended := done, stores := v.stores ++ cnt }
  | none => labStep s c t r

/-- Is the strip at a point where a boundary microword issues? (R214) -/
def atBoundary (c : Chain) (t : Slot) (r : Strip) : Bool :=
  let start := decide ((r.micro.ptr - r.lo) % 64 = 0) && r.micro.vfirst
  match shipOf c t with
  | some _ => start
  | none =>
    let w := wordAt c t r.micro.pc
    decide (r.micro.pc < c.cache.length) && ((start && mwBnd w) || decide (mwNaf w = 6))

/-- The snapshot of a boundary microword (R214), once for each group. -/
def snapshot (r : Strip) : Strip :=
  let g := groupOf r r.micro.ptr
  if (r.micro.ptr - r.lo) % 64 = 0 ∧ r.micro.vfirst ∧ !(r.snaps.any fun x => decide (x.1 = g)) then
    { r with snaps := r.snaps ++ [(g, r.micro)] }
  else r

/-- The word of the read region that the pipes read first in the present step: of those without which the step would wait, the
one of the lowest element. The index streams of the outputs go to the address generator, not to a pipe. -/
def pipeWord (s : State) (c : Chain) (t : Slot) (r : Strip) : Option Land :=
  let outIx := ([4, 5].filter fun o => decide (t.mode o = 2)).map t.ixs
  (r.landed.filter fun x => !outIx.contains x.stream && (issueOne s c t { r with landed := r.landed.filter (· ≠ x) }).isNone).foldl
    (fun b x => match b with
      | some y => if x.key < y.key ∨ (x.key = y.key ∧ x.stream < y.stream) then some x else some y
      | none => some x) none

/-- A line of the read region is requested again (R150): its words leave the region, and the line is steered and enters the marver as
any read does (R185, R191, R192). -/
def reread (p : Nat) (r : Strip) (x : Land) (s : State) : State :=
  let t := s.slot r.q r.slot
  let gone := r.landed.filter fun y => decide (y.stream = x.stream) && decide (y.line = x.line)
  let at_ := if x.stream < 5 ∧ !rowReel t then x.key.toNat else r.micro.ptr
  let e : MvEntry := { line := x.line, wr := false, lp := 0, pp := 0, places := gone.map fun y => (y.stream, y.key, y.off),
                       elems := [], stamp := s.bclk, jobtag := t.jobtag, elem := at_ }
  let c := s.chain p
  let s := s.setChain p { c with strip := some { r with landed := r.landed.filter fun y => !gone.contains y } }
  match mergeEntry e x.stream c.marver with
  | some m => s.setChain p { s.chain p with marver := m }
  | none =>
    let st := steerLine x.line t.level t.jobtag false false s
    match st.2 with
    | .error code => faultTake r.q r.slot ⟨code, at_, 64 * x.line⟩ st.1
    | .ok pp => st.1.setChain p { st.1.chain p with marver := c.marver ++ [{ e with lp := pp.1, pp := pp.2 }] }

/-- The read-region injections of R355 act on the word that a pipe is about to read: a corrected word is logged, an uncorrectable
one makes its line be requested again before any pipe reads it (R150). While the half of the table that holds the line's entry sleeps,
or the marver is full, that request waits. -/
def injectRead (p : Nat) (r : Strip) (s : State) : State × Bool :=
  let c := s.chain p
  match injDue s (pgChain p) [3, 4], pipeWord s c (s.slot r.q r.slot) r with
  | some k, some x =>
    if k = 4 ∧ !bstAwake s (x.line / 2 ^ 14) then (addDemand (domBst (bstHalf (x.line / 2 ^ 14))) s, true)
    else if k = 4 ∧ marverLimit s ≤ c.marver.length then (s, true)
    else
      let s := logEv 0x23 0 (pgChain p) 0 (injDone (pgChain p) s) true
      if k = 3 then (s, false) else (reread p r x s, true)
  | _, _ => (s, false)

/-- Is another chain's work still needed before the strip can reach its next boundary? -/
def feederRuns (s : State) (t : Slot) (r : Strip) : Bool :=
  if r.spliced && decide (0 < r.pos) then
    !r.chan.isEmpty || !r.fin.isEmpty || match posStrip s r.q r.slot (r.pos - 1) with
      | some x => !x.2.ended
      | none => false
  else recvLink s t r && !(tget (fun _ => []) s.link r.lchain).isEmpty

/-- Can nothing more arrive that a stopping strip waits for? -/
def starved (s : State) (p : Nat) (t : Slot) (r : Strip) (more : Bool) : Bool :=
  (s.chain p).marver.isEmpty && !chainTagged s p r && !more && !feederRuns s t r && decide (r.unacked = [] ∨ r.staged = [])

/-- Is the chain still filling its reel cache with the word that it needs? -/
def filling (s : State) (c : Chain) (t : Slot) (r : Strip) : Bool :=
  decide (c.cache.length ≤ r.micro.pc) && (shipOf c t).isNone &&
    !((s.quad r.q).mcBad.any fun w => decide (t.ent.basew ≤ w) && decide (w < t.ent.basew + t.ent.len))

/-- The strip's micro-program is complete (R211). -/
def endProgram (p : Nat) (s : State) : State :=
  match (s.chain p).strip with
  | some r => s.setChain p { s.chain p with strip := some { r with ended := true, micro := { r.micro with ptr := max r.micro.ptr r.hi } } }
  | none => s

/-- The residue injections of R355 act on the vector just checked. -/
def injectResidue (p : Nat) (v : VecOut) (s : State) : State :=
  if v.micro.vfirst ∧ (injDue s (pgChain p) [1, 2]).isSome then residue p true (injDone (pgChain p) s) else s

/-- One microword has issued: its effects, its END, and an injected mismatch of its vector. -/
def issueVec (p : Nat) (t : Slot) (r : Strip) (v : VecOut) (s : State) : State :=
  let s := applyVec p t r v s
  let s := if v.ended then endProgram p s else s
  finishStrip p (injectResidue p v s)

/-- `microwordIssue` (R210 to R214): one microword, or for a shipped reel the microwords of one vector together. It waits
under the conditions of R210, and a strip that stops does so at its next boundary microword. -/
def execMicrowordIssue (chain : Fin 68) (s : State) : Out :=
  let p := chain.val
  match (s.chain p).strip with
  | none => .next s
  | some r =>
    let c := s.chain p
    let t := s.slot r.q r.slot
    if r.ended then .next (finishStrip p s)
    else if r.stop ∧ (!r.ready ∨ atBoundary c t r) then .next (stopHere p r s)
    else if !r.ready ∨ t.imgWait ∨ pipeHeld s r then .next s
    else if !awake s (domChain p) then .next (addDemand (domChain p) s)
    else if 1024 < stagedLines r + 2 * t.width then .next s
    else match badWord c t r with
    | some i => .next (refillWord p r i s)
    | none => match issueOne s c t (snapshot r) with
      | none => .next (if r.stop ∧ !filling s c t r ∧ starved s p t r (pickItem s p t r).isSome then stopHere p r s else s)
      | some v => match steerWaits s (sendsOn s t r) t r v.stores with
        | some h => .next (addDemand (domBst h) s)
        | none =>
          let i := injectRead p (snapshot r) s
          .next (if i.2 then i.1 else issueVec p t (snapshot r) v i.1)

/-! ## Fold, combine, final rounding (R164 to R169) -/

/-- The key of a strip's folded crucible: a second pass has its own. -/
def partKey (t : Slot) (r : Strip) : Nat := if twoPass t ∧ r.pass2 then 64 + r.pos else r.pos

/-- The folded crucible with a key. -/
def partOf (t : Slot) (k : Nat) : Option Part := t.parts.find? fun x => decide (x.pos = k)

/-- Has the strip ended its pass with every group committed? -/
def passEnded (r : Strip) : Bool := r.ended && !r.stop && decide (reached r ≤ r.cptr)

/-- A combine step has succeeded: a later mismatch repeats its own step (R165). -/
def clearRetry (p : Nat) (s : State) : State :=
  match (s.chain p).strip with
  | some r => if r.retried then s.setChain p { s.chain p with strip := some { r with retried := false } } else s
  | none => s

/-- `laneFold` (R165, R169): the chain folds its lane crucibles into one; in the first of two passes, its strip's exact
total and count. -/
def execLaneFold (chain : Fin 68) (s : State) : Out :=
  let p := chain.val
  match (s.chain p).strip with
  | none => .next s
  | some r =>
    let c := s.chain p
    let t := s.slot r.q r.slot
    let op := redOp c t
    let due := firstPass t r || (decide (op ≠ 0) && isLast t r)
    if !passEnded r ∨ !due ∨ (partOf t (partKey t r)).isSome then .next s
    else
      let sum := r.lanes.foldl (fun a x => crucAdd t.rm t.etype op a x.2) ({} : Cruc)
      .next (clearRetry p (s.setSlot r.q r.slot { t with parts := t.parts ++ [⟨partKey t r, if firstPass t r then r.micro.run else sum, r.micro.pks⟩] }))

/-- A strip begins its second pass from the exclusive prefix of the strips before it (R169). -/
def secondPass (s : State) (c : Chain) (t : Slot) (r : Strip) : Strip :=
  let before := t.parts.filter fun x => decide (x.pos < r.pos)
  let pre := before.foldl (fun a x => crucAdd t.rm t.etype (redOp c t) a x.cr) ({} : Cruc)
  let m : Micro := { pc := t.ent.start, ptr := r.lo, run := pre }
  let ck : Ckpt := { micro := m, pass2 := true, flags := r.flags }
  let r := { r with pass2 := true, ended := false, micro := m, snaps := [], cptr := r.lo, nxt := [], landed := [], lanes := [],
                    from_ := r.lo, fromPks := [], csr0 := none, retried := false,
                    bases := before.foldl (fun (l : Tab Nat) (x : Part) => (List.range 6).foldl (fun l j => pkAdd l j (pkOf x.pks j)) l) [],
                    cks := r.cks ++ [(2 ^ 30 + r.lo / 4096, ck)] }
  { r with streams := streamPlan s c t r }

/-- `combineHop` (R165, R169): a folded crucible joins those of the chains of lower logical number; in a two-pass reel
the strip takes the exclusive prefix of its totals and begins its second pass. -/
def execCombineHop (chain : Fin 68) (s : State) : Out :=
  let p := chain.val
  match (s.chain p).strip with
  | none => .next s
  | some r =>
    let c := s.chain p
    let t := s.slot r.q r.slot
    if !passEnded r ∨ failing t then .next s
    else if firstPass t r then
      if (List.range (r.pos + 1)).all fun i => (partOf t i).isSome then
        .next (s.setChain p { c with strip := some (secondPass s c t r) })
      else .next s
    else match partOf t (partKey t r) with
      | none => .next s
      | some x =>
        if redOp c t = 0 ∨ r.spliced ∨ r.pos = 0 ∨ t.hops.contains r.pos then .next s
        else .next (finishStrip p (clearRetry p <| s.setSlot r.q r.slot
          { t with total := crucAdd t.rm t.etype (redOp c t) t.total x.cr, hops := t.hops ++ [r.pos] }))

/-- The RED operations of a laboratory reel, those that share an accumulator taken as one. -/
def redKinds (c : Chain) (t : Slot) : List Nat :=
  if (shipOf c t).isSome then []
  else ((((List.range c.cache.length).map fun i => fld (wordAt c t i) 93 90).filter fun o => decide (1 ≤ o ∧ o ≤ 11)).map
    fun o => if o = 2 then 1 else o).eraseDups

/-- The rounded result of a reduction and its flags (R164). Where a laboratory reel has accumulated by more than one operation the
spec gives no result: it is free. -/
def finalValue (s : State) (c : Chain) (t : Slot) (k : Cruc) : Word × BitVec 5 :=
  if 1 < (redKinds c t).length then (Config.openLane s.fresh, 0) else redFinal t.rm t.etype (redOp c t) k

/-- The values that a reduction stores: the rounded result to E(0), the image to F (R164, R167). -/
def finalStores (v : Word) (t : Slot) (k : Cruc) : List (Nat × Nat × Nat × Word) :=
  (4, 0, 0, v) ::
    (if t.cru then (imageOf t.etype k).zipIdx.map fun x => (5, 0, x.2, x.1) else [])

/-- `finalRounding` (R164, R165, R138): once every strip has ended without fault or abort and the combine is complete,
the result is rounded once and staged. -/
def execFinalRounding (chain : Fin 68) (s : State) : Out :=
  let p := chain.val
  match (s.chain p).strip with
  | none => .next s
  | some r =>
    let c := s.chain p
    let t := s.slot r.q r.slot
    let last := if r.spliced then isLast t r else decide (r.pos = 0)
    let all := r.spliced || (rangeFrom 1 (t.chains.length - 1)).all fun i => t.hops.contains i
    match partOf t (partKey t r) with
    | none => .next s
    | some x =>
      if firstPass t r ∨ t.st ≠ .ending ∨ failing t ∨ t.stored ∨ redOp c t = 0 ∨ !last ∨ !all then .next s
      else
        let k := crucAdd t.rm t.etype (redOp c t) t.total x.cr
        let v := finalValue s c t k
        let l := finalStores v.1 t k
        match steerWaits s (sendsOn s t r) t r l with
        | some h => .next (addDemand (domBst h) s)
        | none =>
          let s := { s.setSlot r.q r.slot { t with stored := true, flags := t.flags ||| v.2 } with fresh := s.fresh + 1 }
          let y := l.foldl (stageOne (sendsOn s t r) t) (s, { r with retried := false })
          .next (finishStrip p (y.1.setChain p { y.1.chain p with strip := some { y.2 with stop := y.2.stop || (match (y.1.chain p).strip with | some z => z.stop | none => false) } }))

/-! ## Splice channels and links (R170 to R173) -/

/-- The forwarded elements that the read region has room for, in order, and those that wait (R150, R170). -/
def takeForwarded (r : Strip) : List Land × List Land :=
  let held := fun (id : Nat) (l : List Land) => ((l.filter fun x => decide (x.stream = id)).map Land.line).eraseDups
  r.fin.foldl (fun (x : List Land × List Land) y =>
    let h := held y.stream (r.landed ++ x.1)
    if h.contains y.line || decide (h.length < regionLines r) then (x.1 ++ [y], x.2) else (x.1, x.2 ++ [y])) ([], [])

/-- `spliceVectorArrival` (R170): a vector of channel P, and the forwarded elements that the read region has room for, reach the
receiving chain, once it is prepared; it forwards those in its turn. -/
def execSpliceVectorArrival (chain : Fin 68) (s : State) : Out :=
  let p := chain.val
  match (s.chain p).strip with
  | none => .next s
  | some r =>
    if !r.ready then .next s
    else
      let f := takeForwarded r
      let r' := { r with spin := r.spin ++ r.chan.take 1, chan := r.chan.drop 1, fin := f.2 }
      .next (landIn p f.1 (s.setChain p { s.chain p with strip := some r' }))

/-- The producer's element counts as stored (R173). -/
def linkStored (e : LinkEl) (s : State) : State :=
  (takeChains s e.q e.slot).foldl (fun s p => match (s.chain p).strip with
    | some r => if r.gen = e.gen ∧ r.unacked.contains ⟨4, e.elem, 0⟩ then
        finishStrip p (s.setChain p { s.chain p with strip := some { r with unacked := r.unacked.erase ⟨4, e.elem, 0⟩ } })
      else s
    | none => s) s

/-- `linkElementArrival` (R173): the read region of the consumer chain accepts the next element of its link. -/
def execLinkElementArrival (chain : Fin 68) (s : State) : Out :=
  let p := chain.val
  match (s.chain p).strip with
  | none => .next s
  | some r =>
    let t := s.slot r.q r.slot
    match recvLink s t r, tget (fun _ => []) s.link r.lchain with
    | true, e :: l =>
      if r.lo + r.lin.length ≥ r.hi ∨ r.lin.length ≥ (r.cptr - r.lo) + 8 * regionLines r then .next s
      else
        let s := s.setChain p { s.chain p with strip := some { r with lin := r.lin ++ [e.val] } }
        .next (linkStored e { s with link := tset (fun _ => []) r.lchain l s.link })
    | _, _ => .next s

end Sys2Proof.Machine
end

