-- ==== Sys2Proof/Machine/Ports.lean ====
section
/-! DEFINITION. Offers and acceptance, responses, credits, port repair, the far-memory gateway and the hot-port monitor
(R175 to R182, R190, R192 to R203, R342). -/

namespace Sys2Proof.Machine

/-! ## Port groups -/

/-- The group of a physical port (R175). -/
def portGroup (p : Nat) : Nat := p / 16

/-- Credits with which the ports of a group start (R178, R201). -/
def initReq (g : Pgrp) : Nat := fld g.cfgLive 6 0
def initWd (g : Pgrp) : Nat := fld g.cfgLive 14 8

/-- CRDPAT holds back the acceptance of the group in this BCLK (R356). -/
def patternHolds (s : State) (g : Nat) : Bool :=
  s.blk.testen && (if g < 32 then bit s.pert.pgsel0 g else bit s.pert.pgsel1 0) && bit s.pert.crdpat ((s.bclk - s.pert.crdAt) % 32)

/-- Has the port a free tag and a request credit, and for a store a write-data credit? (R193, R194) -/
def portReady (s : State) (p : Nat) (wr : Bool) : Bool :=
  let q := s.port p
  decide (q.tags.length + q.gone.length < 384) && decide (0 < q.reqCrd) && (!wr || decide (0 < q.wdCrd))

/-- Can the port take an offer? (R194, R342) None does between the start of a warm reset and READY (R377). -/
def portTakes (s : State) (p : Nat) (wr : Bool) : Bool :=
  portReady s p wr && awake s (domPgrp (portGroup p)) && !(s.header (pgPgrp (portGroup p))).freeze && !(s.port p).fault
    && !patternHolds s (portGroup p) && s.blk.ready

/-- The lowest tag that is free: one that a warm reset abandoned is not, until its late response has come (R377). -/
def freeTag (q : Port) : Nat := ((List.range 384).find? fun t => !(q.tags.any fun x => decide (x.1 = t)) && !q.gone.contains t).getD 0

def tagInit : Nat → TagReq := fun _ =>
  { src := .gateway 0, ent := { line := 0, wr := false, lp := 0, pp := 0, places := [], elems := [] } }

/-- A request takes the lowest free tag of a port, in its acceptance order, and TAGHW rises with the tags held (R194,
R201). -/
def holdTag (p : Nat) (t : TagReq) (s : State) : State :=
  let q := s.port p
  let q := { q with tags := q.tags ++ [(freeTag q, { t with order := q.order, since := s.bclk })], order := q.order + 1 }
  let g := s.pgrp (portGroup p)
  (s.setPort p q).setPgrp (portGroup p) { g with taghw := if g.taghw.toNat < q.tags.length then BitVec.ofNat 9 q.tags.length else g.taghw }

/-- A port accepts a request (R194): a tag and credits. -/
def portAccept (p : Nat) (src : ReqSrc) (e : MvEntry) (s : State) : State :=
  let q := s.port p
  holdTag p { src := src, ent := e } (s.setPort p { q with reqCrd := q.reqCrd - 1, wdCrd := if e.wr then q.wdCrd - 1 else q.wdCrd })

/-! ## Offers (R192, R193) -/

/-- Does the entry wait for a store of its take under a recurrence hold? (R133, R192) -/
def heldEntry (s : State) (r : Strip) (e : MvEntry) : Bool :=
  match e.holdTo with
  | none => false
  | some h => match storingStrip s (s.slot r.q r.slot) r with
    | some w => decide (w.micro.ptr ≤ h) || w.unacked.any fun u => decide (u.elem ≤ h)
    | none => true

/-- Is there an older entry of the same source for the same line? -/
def youngerOf (l : List MvEntry) (e : MvEntry) : Bool :=
  match l.find? fun x => decide (x.line = e.line) with
  | some x => decide (x ≠ e)
  | none => false

/-- One pass of R193 over the entries of a source, oldest first. -/
def offerPass (s : State) (forced : Bool) (cap : Nat) (blocked : MvEntry → Bool) : List MvEntry → List MvEntry → List MvEntry
  | [], out => out
  | e :: l, out =>
    let old := decide (e.stamp + 1024 ≤ s.bclk)
    let ok := decide (out.length < cap) && (if forced then old else !old && portReady s e.pp e.wr) && !blocked e
      && !(out.any fun x => decide (x.pp = e.pp)) && !(e.wr && decide (2 ≤ (out.filter MvEntry.wr).length))
    offerPass s forced cap blocked l (if ok then out ++ [e] else out)

/-- The entries that a source offers in this BCLK (R193). An entry that waits for a store does not keep other entries of its
line back (R133, R192). -/
def offersOf (s : State) (cap : Nat) (held : MvEntry → Bool) (l : List MvEntry) : List MvEntry :=
  let free := l.filter fun e => !held e
  let blocked := fun e => held e || youngerOf free e
  offerPass s false cap blocked l (offerPass s true cap blocked l [])

/-- An offer: the rank of its source (0 the gateway, then logical chains), its request source, and its entry. -/
structure Offer where
  rank : Nat
  src  : ReqSrc
  ent  : MvEntry
  deriving DecidableEq, Repr

/-- The offers of chain `p`'s marver. -/
def chainOffers (s : State) (p : Nat) : List Offer :=
  match (s.chain p).strip with
  | none => []
  | some r => (offersOf s 4 (heldEntry s r) (s.chain p).marver).map fun e => ⟨r.lchain + 1, .chain p r.q r.slot r.gen, e⟩

/-- The gateway's offer: one request per BCLK at most (R196). -/
def gwOffers (s : State) : List Offer :=
  let es := offersOf s 1 (fun _ => false) (s.steer.gwQ.map Prod.snd)
  es.filterMap fun e => (s.steer.gwQ.find? fun x => decide (x.2 = e)).map fun x => ⟨0, x.1, e⟩

/-- Every offer of this BCLK. -/
def allOffers (s : State) : List Offer := gwOffers s ++ (s.chains.map Prod.fst).flatMap (chainOffers s)

/-- Does offer `a` go before offer `b`? (R194) -/
def offerBefore (a b : Offer) : Bool := decide (a.ent.stamp < b.ent.stamp) || (decide (a.ent.stamp = b.ent.stamp) && decide (a.rank < b.rank))

/-- The offer that port `p` accepts. -/
def acceptedOf (s : State) (offers : List Offer) (p : Nat) : Option Offer :=
  match offers.filter fun o => decide (o.ent.pp = p) && portTakes s p o.ent.wr with
  | [] => none
  | x :: l => some (l.foldl (fun b o => if offerBefore o b then o else b) x)

/-- An accepted entry leaves its source. -/
def takeOffer (o : Offer) (s : State) : State :=
  match o.src with
  | .chain p _ _ _ => s.setChain p { s.chain p with marver := (s.chain p).marver.erase o.ent }
  | src => s.setSteer { s.steer with gwQ := s.steer.gwQ.erase (src, o.ent) }

/-! ## The hot-port monitor (R200, R203) -/

/-- The count at which a port is hot; THRESH = 0 sets none. -/
def hotThreshold (h : HotMon) : Nat := (fld h.cfg 31 16 * 2 ^ fld h.cfg 4 0 + 65535) / 65536

/-- Logical port `lp` has reached the threshold, `o` being the oldest offer refused there. -/
def setHot (lp : Nat) (o : Offer) (s : State) : State :=
  let h := s.hot
  let h := { h with map := tset zeroD (lp / 32) (setBit (tget zeroD h.map (lp / 32)) (lp % 32) true) h.map, cnt := satInc h.cnt }
  if h.hot then s.setHot { h with multi := true }
  else logEv 0x35 0 pgHotmon lp (s.setHot
    { h with hot := true, lport := BitVec.ofNat 9 lp, gran := BitVec.ofNat 32 (o.ent.line / 2 ^ 14 + o.ent.jobtag.toNat * 2 ^ 24) })

/-- Counting of one logical port in this BCLK, given its offers and the one accepted. -/
def countHot (lp : Nat) (offers : List Offer) (acc : List Offer) (s : State) : State :=
  let mine := offers.filter fun o => decide (o.ent.lp = lp)
  let ref := mine.filter fun o => !acc.contains o
  match ref with
  | [] => s
  | x :: l =>
    if (mine.map Offer.rank).eraseDups.length < fld s.hot.cfg 14 8 then s
    else
      let n := tget (fun _ => 0) s.hot.counts lp + 1
      let s := s.setHot { s.hot with counts := tset (fun _ => 0) lp n s.hot.counts }
      if fld s.hot.cfg 31 16 ≠ 0 ∧ n = hotThreshold s.hot then setHot lp (l.foldl (fun b o => if offerBefore o b then o else b) x) s else s

/-- `hotWindowEnd` (R200): every count returns to zero. -/
def execHotWindowEnd (s : State) : Out := .next (s.setHot { s.hot with counts := [] })

/-! ## Uncorrectable outcomes (R182) -/

/-- The gateway's answer to a core or to the debug port. -/
def gwAnswer (src : ReqSrc) (line : Option Line) (s : State) : State :=
  match src with
  | .gateway n => match (s.core n).far with
    | some f => s.setCore n { s.core n with far := some { f with line := line, bad := line.isNone, wait := false } }
    | none => s
  | .debugPort => s.setDbg { s.dbg with line := line, bad := line.isNone }
  | .chain _ _ _ _ => s

/-- A master of the gateway is reset (R365): its requests complete, and their answers reach nobody (core number 16). -/
def forgetSrc (src : ReqSrc) (s : State) : State :=
  let s := s.setSteer { s.steer with gwQ := s.steer.gwQ.map fun x => if x.1 = src then (.gateway 16, x.2) else x }
  let mv := fun (x : Nat × TagReq) => if x.2.src = src then (x.1, { x.2 with src := .gateway 16 }) else x
  (s.ports.map Prod.fst).foldl (fun s p => s.setPort p { s.port p with tags := (s.port p).tags.map mv }) s

/-- A request has an uncorrectable outcome, after its logging: a fault of the take, or of the far access (R182). -/
def failRequest (src : ReqSrc) (e : MvEntry) (s : State) : State :=
  match src with
  | .chain p q k g =>
    let s := match (s.chain p).strip with
      | some r => if r.q = q ∧ r.slot = k ∧ r.gen = g then
          s.setChain p { s.chain p with strip := some { r with unacked := r.unacked.filter fun u => !e.elems.contains (u.stream, u.elem) } }
        else s
      | none => s
    if (s.slot q k).gen = g then faultTake q k ⟨0x0B, e.elem, 64 * e.line⟩ s else s
  | _ => gwAnswer src none s

/-- UERRCNT and the dailies of an uncorrectable outcome at a port (R182). -/
def countUerr (p tag : Nat) (inj : Bool) (s : State) : State :=
  let g := s.pgrp (portGroup p)
  logEv 0x30 1 (pgPgrp (portGroup p)) (p + tag * 2 ^ 16) (s.setPgrp (portGroup p) { g with uerr := satInc g.uerr }) inj

/-- Lines steered to a logical port that is lost end with an uncorrectable outcome (R342). -/
def failLost (s : State) : State :=
  let dead := fun (e : MvEntry) => (s.port e.pp).lost
  let inj := fun (e : MvEntry) => (s.port e.pp).lostInj
  let s1 := (s.steer.gwQ.filter fun x => dead x.2).foldl (fun s x => failRequest x.1 x.2 (countUerr x.2.pp 0 (inj x.2) s)) s
  let s1 := s1.setSteer { s1.steer with gwQ := s1.steer.gwQ.filter fun x => !dead x.2 }
  (s.chains.map Prod.fst).foldl (fun s p =>
    match (s.chain p).strip with
    | some r => ((s.chain p).marver.filter dead).foldl (fun s e => failRequest (.chain p r.q r.slot r.gen) e (countUerr e.pp 0 (inj e) s))
        (s.setChain p { s.chain p with marver := (s.chain p).marver.filter fun e => !dead e })
    | none => s) s1

/-- An offer that no port has taken: its entry stays, and no later entry merges with it (R192, R193). -/
def markOffered (o : Offer) (s : State) : State :=
  match o.src with
  | .chain p _ _ _ => s.setChain p { s.chain p with marver := (s.chain p).marver.map fun e => if e = o.ent then { e with offered := true } else e }
  | _ => s

/-- `marverOffer` (R193 to R196, R200): the offers of one BCLK, their acceptance, demands on sleeping port groups, and
the hot-port count. -/
def execMarverOffer (s : State) : Out :=
  let s := failLost s
  let offers := allOffers s
  let acc := ((offers.map fun o => o.ent.pp).eraseDups).filterMap (acceptedOf s offers)
  let s1 := acc.foldl (fun s o => portAccept o.ent.pp o.src o.ent (takeOffer o s)) s
  let s1 := (offers.filter fun o => !acc.contains o).foldl (fun s o => markOffered o s) s1
  let s1 := offers.foldl (fun x o => if awake s (domPgrp (portGroup o.ent.pp)) then x else addDemand (domPgrp (portGroup o.ent.pp)) x) s1
  .next (((offers.map fun o => o.ent.lp).eraseDups).foldl (fun s lp => countHot lp offers acc s) s1)

/-! ## The boundary (R177, R178, R182, R194) -/

/-- Can the request be sent? One that is sent again costs new credits (R182). -/
def canSend (q : Port) (t : TagReq) : Bool := !t.pay || (decide (0 < q.reqCrd) && (!t.ent.wr || decide (0 < q.wdCrd)))

/-- `requestAtBoundary` (R194): the oldest accepted request that has not been sent is presented, a store with its
write data. -/
def execRequestAtBoundary (port : Fin 528) (s : State) : Out :=
  let p := port.val
  let q := s.port p
  match q.tags.filter fun x => !x.2.sent && canSend q x.2 with
  | [] => .next s
  | x :: l =>
    let b := l.foldl (fun b y => if y.2.order < b.2.order then y else b) x
    let t := b.2
    let q := { q with tags := q.tags.map fun y => if y.1 = b.1 then (y.1, { t with sent := true, pay := false }) else y,
                      reqCrd := if t.pay then q.reqCrd - 1 else q.reqCrd,
                      wdCrd := if t.pay ∧ t.ent.wr then q.wdCrd - 1 else q.wdCrd, outTag := some b.1, outAt := some s.bclk }
    .next (s.setPort p q)

/-! ## Port repair (R180, R340, R342) -/

/-- The repair of a port starts, or waits behind one that is running (R340). -/
def queuePortRepair (p l : Nat) (inj : Bool) (s : State) : State :=
  let r : Repair := ⟨3, 0, l, p, none, inj⟩
  if repairBusy s 3 0 then s.setCullet { s.cullet with waiting := s.cullet.waiting ++ [r] }
  else s.setCullet { s.cullet with running := s.cullet.running ++ [r] }

/-- A port logic fault (R342): from now on the port accepts no offer. A spare port that faults is retired. -/
def portFault (p : Nat) (s : State) (inj : Bool := false) : State :=
  let q := s.port p
  if q.fault ∨ s.ptUnit p = 2 then s
  else
    let s := raiseFault (pgPgrp (portGroup p)) (s.setPort p { q with fault := true, faultAt := s.bclk }) inj
    match s.ptLog p with
    | some l => queuePortRepair p l inj s
    | none => retireUnit 3 p none s inj

/-- `portLogicFault` (R342). -/
def execPortLogicFault (port : Fin 528) (s : State) : Out := whenUp s <| .next (portFault port s)

/-- The next port repair that waits starts. -/
def nextPortRepair (s : State) : State :=
  match nextWaiting s 3 0 with
  | some r => (dropWaiting r s).setCullet { (dropWaiting r s).cullet with running := (dropWaiting r s).cullet.running ++ [r] }
  | none => s

/-- Entries steered to logical port `l` wait for its new physical port (R342). -/
def repoint (l u : Nat) (s : State) : State :=
  let mv := fun (e : MvEntry) => if e.lp = l then { e with pp := u } else e
  let s := s.setSteer { s.steer with gwQ := s.steer.gwQ.map fun x => (x.1, mv x.2) }
  (s.chains.map Prod.fst).foldl (fun s p => s.setChain p { s.chain p with marver := (s.chain p).marver.map mv }) s

/-- Requests in their acceptance order. -/
def byOrder (l : List (Nat × TagReq)) : List TagReq :=
  l.foldl (fun (r : List TagReq) x => (r.filter fun y => decide (y.order ≤ x.2.order)) ++ [x.2] ++ r.filter fun y => decide (x.2.order < y.order)) []

/-- Abandoned requests are sent again on port `u`, in order, under new tags (R342). -/
def resendOn (u : Nat) (ts : List TagReq) (s : State) : State :=
  ts.foldl (fun s t => holdTag u { t with pay := true, sent := false, ent := { t.ent with pp := u } } s) s

/-- `portSubstituted` (R342, steps 2 to 4): when every tag has returned, or PTMO BCLK after detection, the logical port
takes the lowest-numbered free spare, and the old port is retired; with no spare the logical port is lost. -/
def execPortSubstituted (port : Fin 528) (s : State) : Out :=
  let p := port.val
  match s.cullet.running.find? fun r => decide (r.kind = 3) && decide (r.old = p) with
  | none => .next s
  | some r =>
    let q := s.port p
    if q.tags ≠ [] ∧ s.bclk < q.faultAt + s.cullet.ptmo.toNat then .next s
    else
      let s := endRepair r s
      match freeSpare s 3 0 with
      | none =>
        let s := logEv 0x32 2 (pgPgrp (portGroup p)) r.logical (s.setPort p { q with tags := [], lost := true, lostInj := r.inj }) r.inj
        .next (nextPortRepair (q.tags.foldl (fun s x => failRequest x.2.src x.2.ent (countUerr p x.1 r.inj s)) s))
      | some u =>
        let s := setUnit 3 u 0 (s.setPt r.logical u)
        let s := resendOn u (byOrder q.tags) (s.setPort p { q with tags := [] })
        let s := logEv 0x31 1 (pgPgrp (portGroup p)) (p + u * 2 ^ 16) (repoint r.logical u s) r.inj
        .next (nextPortRepair (retireUnit 3 p (some r.logical) s r.inj))

/-- `tagTimeout` (R336, R342, R377): a tag held longer than PTMO makes a port logic fault; in a warm reset it is
abandoned. -/
def execTagTimeout (port : Fin 528) (tag : BitVec 9) (s : State) : Out :=
  let p := port.val
  let q := s.port p
  match q.tags.find? fun x => decide (x.1 = tag.toNat) with
  | none => .next s
  | some x =>
    if s.blk.warm then
      (if s.bclk < s.blk.warmAt + s.cullet.ptmo.toNat then .next s
       else .next (s.setPort p { q with tags := q.tags.filter fun y => decide (y.1 ≠ x.1), gone := q.gone ++ [x.1] }))
    else if s.bclk ≤ x.2.since + s.cullet.ptmo.toNat then .next s
    else .next (portFault p s)

/-! ## The gateway's read buffer (R196) -/

/-- A line is put into the buffer, or becomes its most recently used, of 16 lines at most. -/
def gwHold (l : Nat) (d : Line) (s : State) : State :=
  s.setSteer { s.steer with gwBuf := ((l, d) :: s.steer.gwBuf.filter fun x => decide (x.1 ≠ l)).take 16 }

/-- The enabled bytes of `new` over `old`. -/
def mergeLine (old new : Line) (be : BitVec 64) : Line :=
  (List.range 64).foldl (fun d i => if bit be i then setFld d (8 * i + 7) (8 * i) (fld new (8 * i + 7) (8 * i)) else d) old

/-- A store of the gateway updates the held copy of its line. -/
def gwUpdate (e : MvEntry) (s : State) : State :=
  s.setSteer { s.steer with gwBuf := s.steer.gwBuf.map fun x => if x.1 = e.line then (x.1, mergeLine x.2 e.data e.be) else x }

/-- May the buffer hold lines of the granule? -/
def gwHolds (s : State) (line : Nat) : Bool := s.steer.bufen && !bit (s.bstEntry (line / 2 ^ 14)) 23

/-- The answer of the gateway to a new access: it waits for the table, fails, is served from the buffer, or is queued. -/
inductive GwOut where
  | wait
  | failed
  | hit (d : Line)
  | queued
  deriving DecidableEq, Repr

/-- A main-memory access of a core or the debug port (R185, R196), of `n` bytes at `off`. -/
def gwRequest (src : ReqSrc) (lj : BitVec 2 × BitVec 8) (off n : Nat) (store : Bool) (v : Word) (s : State) : State × GwOut :=
  let line := off / 64
  if !bstAwake s (line / 2 ^ 14) then (addDemand (domBst (bstHalf (line / 2 ^ 14))) s, .wait)
  else
    let st := steerLine line lj.1 lj.2 true store s
    match st.2 with
    | .error _ => (st.1, .failed)
    | .ok pp =>
      let s := st.1
      let e : MvEntry := { line := line, wr := store, lp := pp.1, pp := pp.2, places := [], elems := [], stamp := s.bclk, jobtag := lj.2 }
      let q := fun e => s.setSteer { s.steer with gwQ := s.steer.gwQ ++ [(src, e)] }
      if store then
        (q { e with data := BitVec.ofNat 512 (v.toNat % 2 ^ (8 * n) * 2 ^ (8 * (off % 64))), be := BitVec.ofNat 64 ((2 ^ n - 1) * 2 ^ (off % 64)) }, .queued)
      else match (if s.steer.bufen then s.steer.gwBuf.find? fun x => decide (x.1 = line) else none) with
        | some x => (gwHold line x.2 s, .hit x.2)
        | none => (q e, .queued)

/-- The `n` bytes at byte `off` of a line. -/
def lineBytes (d : Line) (off n : Nat) : Word := BitVec.ofNat 64 (d.toNat / 2 ^ (8 * off) % 2 ^ (8 * n))

/-- `flush` (R196, R202): GWCTL.FLUSH; a master without permission is refused. -/
def flushWrite (s : State) : State := gwFlush s

/-! ## Responses (R178, R180, R182) -/

/-- What a response does with its request. -/
inductive RspAct where
  | done
  | resend
  | bad
  deriving DecidableEq, Repr

/-- RSP_STAT of the responses (R180). -/
def statData : Nat := 0
def statAck : Nat := 1
def statUerr : Nat := 2
def statRetry : Nat := 3

/-- Do the bits of a number, bit by bit up to `n`, hold an odd number of ones? -/
def oddOnes (n v : Nat) : Bool := xorAll ((List.range n).map v.testBit)

/-- Does RSP_TPAR make the parity over RSP_TAG, RSP_STAT and itself odd? (R177) -/
def rspParity (tag stat : Nat) (tpar : Bool) : Bool := oddOnes 12 (tag + 2 ^ 9 * stat + 2 ^ 11 * b2n tpar)

/-- Has a response of this status the beats that suit it? (R180) -/
def rspLength (stat beats : Nat) : Bool := decide (beats = if stat = statData then 2 else 1)

/-- A response arrives (R178, R180): its credit, the checks of its parity, tag, kind and length, and then `f` on the
outstanding request. Responses on a retired port, and those abandoned by a warm reset, are ignored. -/
def response (p tag stat : Nat) (h : RspHead) (suits : Bool → Bool) (f : TagReq → State → State) (s : State) : State :=
  let q := s.port p
  let held := q.tags.find? fun x => decide (x.1 = tag) && x.2.sent
  if s.ptUnit p = 2 then s
  else if held.isNone ∧ q.gone.contains tag then s.setPort p { q with gone := q.gone.erase tag }
  else if q.rspCrd = 0 then portFault p s
  else
    let s := s.setPort p { q with rspCrd := q.rspCrd - 1, rspOwe := q.rspOwe + 1 }
    if !rspParity tag stat h.tpar || !rspLength stat h.beats then portFault p s
    else match held with
      | none => portFault p s
      | some x => if suits x.2.ent.wr then f x.2 s else portFault p s

/-- The tag of a request is free again. -/
def freeTagOf (p tag : Nat) (s : State) : State :=
  s.setPort p { s.port p with tags := (s.port p).tags.filter fun x => decide (x.1 ≠ tag) }

/-- A request is sent again once, under the same tag (R182). -/
def resendTag (p tag : Nat) (s : State) : State :=
  let g := s.pgrp (portGroup p)
  let s := s.setPgrp (portGroup p) { g with crcrty := satInc g.crcrty }
  let again := fun (x : Nat × TagReq) => if x.1 = tag then (x.1, { x.2 with resent := true, pay := true, sent := false }) else x
  s.setPort p { s.port p with tags := (s.port p).tags.map again }

/-- An uncorrectable outcome of an outstanding request (R182). -/
def uncorrectable (p tag : Nat) (t : TagReq) (inj : Bool) (s : State) : State :=
  failRequest t.src t.ent (countUerr p tag inj (freeTagOf p tag s))

/-- The elements of a line that an entry serves. -/
def placeLands (t : Slot) (e : MvEntry) (d : Line) : List Land :=
  e.places.map fun x => ⟨x.1, x.2.1, lineBytes d x.2.2 (itemSize t x.1), e.line, x.2.2⟩

/-- The strip of a request, if it still runs on the chain. -/
def reqStrip (s : State) (p q k : Nat) (g : BitVec 8) : Option Strip :=
  match (s.chain p).strip with
  | some r => if r.q = q ∧ r.slot = k ∧ r.gen = g then some r else none
  | none => none

/-- A good line lands in the take buffer, or answers the gateway (R151, R196). -/
def lineLands (src : ReqSrc) (e : MvEntry) (d : Line) (s : State) : State :=
  match src with
  | .chain p q k g => match reqStrip s p q k g with
    | some _ => finishStrip p (landIn p (placeLands (s.slot q k) e d) s)
    | none => s
  | _ => gwAnswer src (some d) (if gwHolds s e.line then gwHold e.line d s else s)

/-- The bytes over which the line CRC of read data is taken (R181). -/
def crcBytes (d : Line) (ecc : BitVec 64) : List Byte := (List.range 64).map (byteOf d) ++ (List.range 8).map (byteOf ecc)

/-- A word of a DATA response after its check (R181, R182): the word, and 0 good, 1 corrected, 2 uncorrectable. -/
def rspWord (d : Line) (ecc : BitVec 64) (i : Nat) : Word × Nat :=
  let w := lineWord d i
  match eccDecode (checkByte w ^^^ byteOf ecc i) with
  | .good => (w, 0)
  | .single (some k) => (flipBit w k, 1)
  | .single none => (w, 1)
  | .double => (w, 2)

/-- The injections of R355 on a DATA response: a CRC failure, or flipped bits in word 0. -/
def injectData (p : Nat) (t : TagReq) (d : Line) (ecc : BitVec 64) (s : State) : State × Bool × Line × BitVec 64 × Bool :=
  let pg := pgPgrp (portGroup p)
  let i := s.injOf pg
  match injDue s pg [1, 2, 3] with
  | some k =>
    if i.at % 16 ≠ p % 16 ∨ (k = 1 ∧ t.resent) then (s, false, d, ecc, false)
    else
      let fl := fun (x : Line × BitVec 64) b => if b < 64 then (flipBit x.1 b, x.2) else (x.1, flipBit x.2 (b - 64))
      let y := if k = 1 then (d, ecc) else (injBits i (decide (k = 3))).foldl fl (d, ecc)
      (injDone pg s, decide (k = 1), y.1, y.2, true)
  | none => (s, false, d, ecc, false)

/-- A DATA response to an outstanding read (R182). -/
def dataRsp (p tag : Nat) (d : Line) (b : RspBits) (t : TagReq) (s : State) : State :=
  let crcOk := decide (crc32c (crcBytes d b.ecc) = b.crc)
  let x := injectData p t d b.ecc s
  let s := x.1
  if !crcOk || x.2.1 then (if t.resent then uncorrectable p tag t x.2.2.2.2 s else resendTag p tag s)
  else
    let ws := (List.range 8).map (rspWord x.2.2.1 x.2.2.2.1)
    let n := (ws.filter fun w => decide (w.2 = 1)).length
    let g := s.pgrp (portGroup p)
    let s := s.setPgrp (portGroup p) { g with corr := satAdd g.corr n }
    if ws.any fun w => decide (w.2 = 2) then uncorrectable p tag t x.2.2.2.2 s
    else
      let line : Line := ws.foldr (fun w l => (l <<< 64) ||| w.1.setWidth 512) 0
      lineLands t.src t.ent line (freeTagOf p tag s)

/-- `data` (R180, R182). -/
def execData (port : Fin 528) (tag : BitVec 9) (line : Line) (p : RspBits) (s : State) : Out := whenUp s <|
  .next (response port tag.toNat statData p.head (fun wr => !wr) (dataRsp port tag.toNat line p) s)

/-- The store of an entry is acknowledged. -/
def ackStore (src : ReqSrc) (e : MvEntry) (s : State) : State :=
  match src with
  | .chain p q k g => match reqStrip s p q k g with
    | some r =>
      let un := fun (l : List Unack) (x : Nat × Nat) => l.erase ⟨x.1, x.2, e.line⟩
      finishStrip p (s.setChain p { s.chain p with strip := some { r with unacked := e.elems.foldl un r.unacked } })
    | none => s
  | _ => gwAnswer src (some 0) (gwUpdate e s)

/-- `ack` (R180). -/
def execAck (port : Fin 528) (tag : BitVec 9) (h : RspHead) (s : State) : Out := whenUp s <|
  .next (response port tag.toNat statAck h id (fun t s => ackStore t.src t.ent (freeTagOf port tag.toNat s)) s)

/-- `uerr` (R180, R182). -/
def execUerr (port : Fin 528) (tag : BitVec 9) (h : RspHead) (s : State) : Out := whenUp s <|
  .next (response port tag.toNat statUerr h (fun _ => true) (fun t s => uncorrectable port tag.toNat t false s) s)

/-- `retry` (R182): the store is sent again once; a second RETRY is uncorrectable. -/
def execRetry (port : Fin 528) (tag : BitVec 9) (h : RspHead) (s : State) : Out := whenUp s <|
  .next (response port tag.toNat statRetry h id
    (fun t s => if t.resent then uncorrectable port tag.toNat t false s else resendTag port tag.toNat s) s)

/-- `reqCrd` (R178): a credit above the initial value is a protocol error. -/
def execReqCrd (port : Fin 528) (s : State) : Out := whenUp s <|
  let q := s.port port
  if s.ptUnit port = 2 then .next s
  else if q.reqCrd ≥ initReq (s.pgrp (portGroup port)) then .next (portFault port s)
  else .next (s.setPort port { q with reqCrd := q.reqCrd + 1 })

/-- `wdCrd` (R178). -/
def execWdCrd (port : Fin 528) (s : State) : Out := whenUp s <|
  let q := s.port port
  if s.ptUnit port = 2 then .next s
  else if q.wdCrd ≥ initWd (s.pgrp (portGroup port)) then .next (portFault port s)
  else .next (s.setPort port { q with wdCrd := q.wdCrd + 1 })

/-- `responseCreditReturn` (R178). -/
def execResponseCreditReturn (port : Fin 528) (s : State) : Out := whenUp s <|
  let q := s.port port
  if q.rspOwe = 0 then .next s else .next (s.setPort port { q with rspOwe := q.rspOwe - 1, rspCrd := q.rspCrd + 1, crdAt := some s.bclk })

end Sys2Proof.Machine
end

