-- ==== Sys2Proof/Machine/Microcode.lean ====
section
/-! DEFINITION. The commands of the stream microcode store: window writes, INSTALL with its verification, CLEAR, RELOAD,
scrubbing and rewriting (R204, R205, R216, R218 to R222, R225). -/

namespace Sys2Proof.Machine

/-! ## The window (R204, R205) -/

/-- A refused window write: CFGERR, and MCERR as R35 gives for PERR. -/
def mcRefuse (q w code : Nat) (s : State) : State :=
  let rec_ : Reg := BitVec.ofNat 32 (w + code * 2 ^ 24)
  let s := if (s.header (pgQuad q)).cfgerr then s else s.setQuad q { s.quad q with mcerr := rec_ }
  refuseWin (pgQuad q) rec_ code s

/-- Is the word inside a VALID entry's range, or in that of an entry being verified? (R205, R220) -/
def mcLocked (Q : Quad) (w : Nat) : Bool :=
  (Q.dir.any fun e => e.2.covers w) ||
  (match Q.mcRun with
   | some (1, _) =>
     let d0 := tget zeroD Q.dird 0
     decide (fld d0 12 0 ≤ w) && decide (w ≤ fld d0 12 0 + fld d0 24 16)
   | _ => false)

/-- A 32-bit or 64-bit write into a word's 32 bytes: each half written gets fresh check bytes (R204). -/
def mcPut (q w sub : Nat) (wide : Bool) (v : Word) (s : State) : State :=
  let Q := s.quad q
  if sub ≥ 16 then s
  else
    let h := sub / 8
    let old := dataHalf (Q.data w) h
    let new : Word := if wide then v else if sub % 8 = 0 then setFld old 31 0 (fld v 31 0) else setFld old 63 32 (fld v 31 0)
    let other := dataHalf (Q.data w) (1 - h)
    let word : BitVec 128 := if h = 0 then BitVec.ofNat 128 (new.toNat + other.toNat * 2 ^ 64) else BitVec.ofNat 128 (other.toNat + new.toNat * 2 ^ 64)
    let m := Q.flips w
    let keep : BitVec 145 := BitVec.ofNat 145 ((checkByte other ^^^ (checkByte (dataHalf (Q.good w) (1 - h)) ^^^ chkHalf m (1 - h))).toNat * 2 ^ (136 - 8 * h))
    let Q := Q.putWord w (some word)
    s.setQuad q { Q with mcSynd := tset zeroD w keep Q.mcSynd }

/-- A window write after the master's level is known (R205). Where the scrubber has poisoned the word in this BCLK the write stands
and the word is not poisoned; an entry that held the word at the start of the BCLK refuses the write still (R220). -/
def mcWindowWrite (machine : Bool) (q off : Nat) (wide : Bool) (v : Word) (s : State) : State :=
  let w := off / 32
  let Q := s.quad q
  let undo := Q.mcUndo.filter fun u => decide (u.1 = s.bclk ∧ u.2.1 = w)
  if !machine then mcRefuse q w 5 s
  else if mcLocked Q w || undo.any fun u => u.2.2.2 then mcRefuse q w 10 s
  else
    let s := match undo with
      | some u => s.setQuad q { Q with mcpois := u.2.2.1, mcUndo := none }
      | none => s
    mcPut q w (off % 32) wide v s

/-- A window read (R204): data, stored check bytes, zero. -/
def mcWindowRead (s : State) (q off : Nat) : Word :=
  let Q := s.quad q
  let w := off / 32
  match off % 32 / 8 with
  | 0 => dataHalf (Q.data w) 0
  | 1 => dataHalf (Q.data w) 1
  | 2 =>
    let c := fun h => (checkByte (dataHalf (Q.good w) h) ^^^ chkHalf (Q.flips w) h).toNat
    BitVec.ofNat 64 (c 0 + c 1 * 256)
  | _ => 0

/-! ## Verification (R219) -/

/-- A non-zero zero field or a reserved value of a microword (RESULT 2). -/
def mwReserved (w : BitVec 128) : Bool :=
  let sel := [fld w 64 61, fld w 68 65, fld w 72 69, fld w 81 78, fld w 85 82, fld w 89 86, fld w 97 94, fld w 101 98, fld w 107 104]
  let tapBad := fun t => decide (27 ≤ t ∧ t ≤ 30)
  decide (fld w 127 112 ≠ 0) || decide (mwNaf w = 7) || decide (13 ≤ fld w 15 12) || decide (6 ≤ fld w 21 19)
  || decide (5 ≤ fld w 41 39) || decide (5 ≤ fld w 51 49) || tapBad (fld w 46 42) || tapBad (fld w 56 52)
  || decide (13 ≤ fld w 60 57) || decide (31 ≤ fld w 77 73) || decide (14 ≤ fld w 93 90) || decide (fld w 109 108 = 3)
  || (sel.contains 7 && !(bit w 37 && decide (fld w 41 39 = 4)))
  || (decide (fld w 77 73 = 29) && !bit w 28 && decide (6 ≤ fld w 27 25))

/-- The addresses that can follow the microword at `a` (R211), its call target aside. -/
def mwTargets (w : BitVec 128) (a : Nat) : List Nat :=
  let n := mwNext w
  match mwNaf w with
  | 0 => [a + 1]
  | 1 => if fld w 15 12 = 0 then (if bit w 16 then [a + 1] else [n]) else [n, a + 1]
  | 2 => rangeFrom n 5
  | 3 => rangeFrom n 4
  | 4 => [n, a + 1]
  | _ => []

/-- A point of a program: an address and how many addresses the micro-stack holds there. -/
abbrev MwPoint := Nat × Nat

/-- One round of `mwReturns`: the addresses among `as` from which a RET of the same routine is reached, given those known. A call
goes on after it if the routine that it calls returns. -/
def mwReturnStep (Q : Quad) (base : Nat) (slow : Bool) (as known : List Nat) : List Nat :=
  as.filter fun a =>
    let w := Q.data (base + a)
    !(slow && mwVadv w) && match mwNaf w with
      | 4 => known.contains (mwNext w) && known.contains (a + 1)
      | 5 => true
      | _ => (mwTargets w a).any known.contains

/-- The addresses among `as` from which a RET of the same routine is reached, over words without VADV if `slow`: `n` rounds. -/
def mwReturns (Q : Quad) (base : Nat) (slow : Bool) (as : List Nat) : Nat → List Nat
  | 0 => []
  | n + 1 => mwReturnStep Q base slow as (mwReturns Q base slow as n)

/-- The points that follow a point: a call enters its routine, and goes on after it if the routine returns (`rets`). -/
def mwNextPoints (rets : List Nat) (w : BitVec 128) (p : MwPoint) : List MwPoint :=
  match mwNaf w with
  | 4 => (mwNext w, p.2 + 1) :: if rets.contains (mwNext w) then [(p.1 + 1, p.2)] else []
  | _ => (mwTargets w p.1).map fun a => (a, p.2)

/-- The failure that one microword at a point shows (RESULT 2, 3, 4, 6), or 0. A recursive call is met again with one address more on
the micro-stack each time, so a path of it pushes a ninth address. -/
def mwFailure (w : BitVec 128) (len : Nat) (p : MwPoint) : Nat :=
  if mwReserved w then 2
  else if (mwTargets w p.1).any fun a => decide (len ≤ a) then 3
  else if mwVadv w && !mwBnd w then 4
  else if mwNaf w = 4 ∧ 8 ≤ p.2 then 6
  else if mwNaf w = 5 ∧ p.2 = 0 then 6
  else 0

/-- The points that follow those seen and are not seen themselves, now that it is known which routines return. -/
def mwMore (Q : Quad) (base : Nat) (seen : List MwPoint) : List MwPoint :=
  let as := (seen.map Prod.fst).eraseDups
  let rets := mwReturns Q base false as (as.length + 1)
  ((seen.flatMap fun p => mwNextPoints rets (Q.data (base + p.1)) p).filter fun p => !seen.contains p).eraseDups

/-- Every point reachable from those in `todo`, each word checked as it is read; or the first failure. A reel has at most 9 × LEN points
of at most six successors each, so 64 × LEN + 2 rounds reach every one. -/
def mwWalk (q base len : Nat) : Nat → List MwPoint → List MwPoint → State → State × List MwPoint × Option (Nat × Nat)
  | 0, _, seen, s => (s, seen, none)
  | f + 1, [], seen, s => match mwMore (s.quad q) base seen with
    | [] => (s, seen, none)
    | l => mwWalk q base len f l seen s
  | f + 1, p :: todo, seen, s =>
    if seen.contains p then mwWalk q base len f todo seen s
    else
      let c := mcCheck q (base + p.1) s
      let w := (c.1.quad q).data (base + p.1)
      if !c.2 then (c.1, seen, some (7, p.1))
      else match mwFailure w len p with
        | 0 => mwWalk q base len f (mwNextPoints [] w p ++ todo) (p :: seen) c.1
        | n => (c.1, seen, some (n, p.1))

/-- The addresses that follow an address in its routine; a call goes on after it if the routine returns without VADV (`rets`). -/
def mwSlowNext (Q : Quad) (base : Nat) (rets : List Nat) (a : Nat) : List Nat :=
  let w := Q.data (base + a)
  if mwNaf w = 4 then (if rets.contains (mwNext w) then [a + 1] else []) else mwTargets w a

/-- The addresses that stay when, `n` times, those that no other follows or that follow no other are removed. -/
def mwCycle (Q : Quad) (base : Nat) (rets : List Nat) : Nat → List Nat → List Nat
  | 0, l => l
  | n + 1, l => mwCycle Q base rets n (l.filter fun a => (mwSlowNext Q base rets a).any l.contains && l.any fun b => (mwSlowNext Q base rets b).contains a)

/-- Does a role byte keep its reserved bits zero? `out` for E and F (R216). -/
def roleByteOk (r : Nat) (out : Bool) : Bool := decide (r % 4 ≠ 3) && decide (r < 64) && (!out || decide (r < 16))

/-- RESULT 1 of R219. -/
def dirBad (e : DirEnt) : Bool :=
  !(decide (fld e.d0 15 13 = 0) && decide (fld e.d0 30 25 = 0) && decide (fld e.d1 15 9 = 0) && decide (fld e.d1 23 21 = 0)
    && !bit e.d1 31 && decide (fld e.d3 31 16 = 0) && (List.range 4).all (fun j => roleByteOk (e.role j) false)
    && roleByteOk (e.role 4) true && roleByteOk (e.role 5) true && decide (e.basew + e.len ≤ 8192) && decide (e.start < e.len))

/-- The entry that DIRD0 to DIRD3 describe. -/
def Quad.described (Q : Quad) : DirEnt :=
  { d0 := tget zeroD Q.dird 0, d1 := tget zeroD Q.dird 1, d2 := tget zeroD Q.dird 2, d3 := tget zeroD Q.dird 3 }

/-- INSTALL's verification (R219): RESULT and FAILADDR. -/
def mcVerify (q k : Nat) (s : State) : State × Nat × Nat :=
  let Q := s.quad q
  let e := Q.described
  if (Q.entry k).valid then (s, 8, 0)
  else if dirBad e then (s, 1, 0)
  else
    let r := mwWalk q e.basew e.len (64 * e.len + 2) [(e.start, 0)] [] s
    match r.2.2 with
    | some f => (r.1, f.1, f.2)
    | none =>
      let Q := r.1.quad q
      let as := ((r.2.1.map Prod.fst).eraseDups).filter fun a => !mwVadv (Q.data (e.basew + a))
      match mwCycle Q e.basew (mwReturns Q e.basew true as (as.length + 1)) as.length as with
      | a :: l => (r.1, 5, l.foldl min a)
      | [] => (r.1, 0, 0)

/-! ## The commands (R218) -/

/-- Does a strip of quadrant `q`, on a chain or waiting for one, run a reel that `f` chooses? -/
def reelRuns (s : State) (q : Nat) (f : Nat → Bool) : Bool :=
  let on := fun (r : Strip) => decide (r.q = q) && (s.slot q r.slot).fetched && f (s.slot q r.slot).reel
  (s.chains.any fun c => match c.2.strip with | some r => on r | none => false) || s.cullet.moved.any fun m => on m.2

/-- VALID of entry `k` clears, for the fetches of this BCLK too (R218, R220). -/
def clearEntry (q k : Nat) (s : State) : State :=
  let Q := s.quad q
  let seen := (List.range 64).filter fun n => decide ((s.slot q n).fetchAt = some s.bclk)
  seen.foldl (fun s n => refetch q k n s) (s.setQuad q { Q with dir := tset dirInit k (Q.entry k).clear Q.dir })

/-- RELOAD asks for leave once no strip runs a library reel (R218). -/
def reloadAsk (q : Nat) (s : State) : State :=
  let Q := s.quad q
  if Q.mcLeave ∨ reelRuns s q (fun k => decide (k < 16)) then s
  else askLeave ⟨3, .reload q, fld Q.mcctl 19 16⟩ (s.setQuad q { Q with mcLeave := true })

/-- RELOAD starts (R218, R222). -/
def startReload (q : Nat) (s : State) : State :=
  let s := (List.range 16).foldl (fun s k => clearEntry q k s) s
  let Q := s.quad q
  reloadAsk q (s.setQuad q { Q with mcRun := some (3, 0), mcCmd := 3, mcLeave := false })

/-- A write of MCCMD (R218, R220): ignored while a command runs. -/
def mccmdWrite (q cmd : Nat) (s : State) : State :=
  let Q := s.quad q
  if Q.mcRun.isSome then s.setQuad q { Q with cmdlost := true }
  else
    let s := if cmd = 0 then s else addDemand (domStore q) s
    match cmd with
    | 1 => s.setQuad q { Q with mcRun := some (1, Q.diridx.toNat), mcCmd := 1 }
    | 2 => clearEntry q Q.diridx.toNat (s.setQuad q { Q with mcRun := some (2, Q.diridx.toNat), mcCmd := 2 })
    | 3 => startReload q s
    | _ => s

/-- The loaded entry: its four words into DIRD0 to DIRD3 (R225). -/
def loadDird (Q : Quad) (k : Nat) : Quad :=
  let e := Q.entry k
  { Q with dird := tset zeroD 3 e.d3 (tset zeroD 2 e.d2 (tset zeroD 1 e.d1 (tset zeroD 0 e.d0 Q.dird))) }

/-- A write of DIRIDX (R220, R225). -/
def diridxWrite (q : Nat) (v : Reg) (s : State) : State :=
  let Q := s.quad q
  if Q.mcRun.isSome then s.setQuad q { Q with cmdlost := true }
  else s.setQuad q (loadDird { Q with diridx := BitVec.ofNat 9 (fld v 8 0) } (fld v 8 0))

/-- A write of DIRDk (R220, R225); DIRD0[31] is read-only. -/
def dirdWrite (q k : Nat) (v : Reg) (s : State) : State :=
  let Q := s.quad q
  if Q.mcRun.isSome then s.setQuad q { Q with cmdlost := true }
  else
    let v := if k = 0 then setBit v 31 (bit (tget zeroD Q.dird 0) 31) else v
    s.setQuad q { Q with dird := tset zeroD k v Q.dird }

/-- `installComplete` (R218, R219). -/
def execInstallComplete (q : Fin 4) (s : State) : Out :=
  let Q := s.quad q
  match Q.mcRun with
  | some (1, k) =>
    if !awake s (domStore q) then .next (addDemand (domStore q) s)
    else
      let v := mcVerify q k s
      let Q := v.1.quad q
      let Q := { Q with mcRun := none, mcResult := BitVec.ofNat 4 v.2.1, failaddr := BitVec.ofNat 9 v.2.2 }
      if v.2.1 ≠ 0 then .next (v.1.setQuad q Q)
      else
        let e := Q.described
        let e := { e with d0 := setBit e.d0 31 true, count := (Q.entry k).count + 1, instAt := some s.bclk }
        .next (v.1.setQuad q { Q with dir := tset dirInit k e Q.dir })
  | _ => .next s

/-- `clearComplete` (R218): once no strip of the quadrant runs the cleared reel. -/
def execClearComplete (q : Fin 4) (s : State) : Out :=
  let Q := s.quad q
  match Q.mcRun with
  | some (2, k) => if reelRuns s q (fun j => decide (j = k)) then .next s else .next (s.setQuad q { Q with mcRun := none })
  | _ => .next s

/-- The library as the boot ROM image holds it (R223, R224). -/
def loadLibrary (Q : Quad) : Quad :=
  let keep := fun (w : Nat) => decide (libWords ≤ w)
  let dir := (List.range 16).foldl (fun d k => tset dirInit k { libEntry k with count := (tget dirInit d k).count + 1 } d) Q.dir
  { Q with store := Q.store.filter fun x => keep x.1, mcSynd := Q.mcSynd.filter fun x => keep x.1,
           rewrite := [], mcBad := Q.mcBad.filter keep, dir := dir }

/-- `reloadComplete` (R218): after the grant the library is rewritten and installed, and the leave is released. -/
def execReloadComplete (q : Fin 4) (s : State) : Out :=
  match (s.quad q).mcRun with
  | some (3, _) =>
    if !awake s (domStore q) then .next (addDemand (domStore q) s)
    else if s.pau.held.any fun h => decide (h.1 = .reload q.val) then
      let s := releaseLeave (.reload q.val) s
      .next (s.setQuad q { loadLibrary (s.quad q) with mcRun := none, mcLeave := false })
    else .next (reloadAsk q s)
  | _ => .next s

/-- A store leaves COLD (R222): its laboratory entries are emptied and RELOAD runs. -/
def storeFromCold (q : Nat) (s : State) : State :=
  let s := clearEntries q (fun k _ => decide (16 ≤ k)) s
  let Q := s.quad q
  let keep := fun (k : Nat) => decide (k < 16)
  startReload q (s.setQuad q { Q with dir := (Q.dir.filter fun e => keep e.1), store := [], mcSynd := [], mcBad := [], rewrite := [] })

/-- `microcodeScrub` (R221): while SCRUBEN = 1 and the store is awake, the next microword is read and checked. -/
def execMicrocodeScrub (q : Fin 4) (s : State) : Out := whenUp s <|
  let Q := s.quad q
  if bit Q.mcctl 0 && awake s (domStore q) then
    let w := Q.scrub
    let s := (mcCheck q w (s.setQuad q { Q with scrub := (w + 1) % 8192 })).1
    if (s.quad q).mcBad.contains w && !Q.mcBad.contains w then
      .next (s.setQuad q { s.quad q with mcUndo := some (s.bclk, w, Q.mcpois, Q.dir.any fun e => e.2.covers w) })
    else .next s
  else .next s

/-- `microwordRewrite` (R221): a library word with an uncorrectable error is rewritten from the boot ROM image. -/
def execMicrowordRewrite (q : Fin 4) (s : State) : Out :=
  let Q := s.quad q
  match Q.rewrite with
  | [] => .next s
  | w :: _ => .next (s.setQuad q (Q.putWord w none))

end Sys2Proof.Machine
end

