-- ==== Sys2Proof/Machine/PowerSeq.lean ====
section
/-! DEFINITION. The power sequencer and the power admission unit: state selection, wakes, forced states, the handshake
with the switch fabric, grants, and the power domain table (R289 to R312, R326, R367). -/

namespace Sys2Proof.Machine

/-! ## Busy and keep (R294, R299) -/

/-- The quadrant and entry that a handle names, and its generation (R117). -/
def handleQ (h : Nat) : Nat := h / 2 ^ 14 % 4
def handleK (h : Nat) : Nat := h / 2 ^ 8 % 64

/-- Has the take with handle `h` completed? (R120) -/
def takeDone (s : State) (h : Nat) : Bool :=
  let t := s.slot (handleQ h) (handleK h)
  decide (t.gen.toNat ≠ h % 256) || decide (t.st = .free)

/-- Is the core executing? A context held at a TWAIT or WAIT whose condition does not hold does not count, nor does a
core that issues nothing. -/
def coreBusy (s : State) (n : Nat) : Bool :=
  let c := s.core n
  c.cur.isSome && !(s.dbgcOf n).halted && !c.waitX &&
    match c.twait with
    | some h => takeDone s h
    | none => true

/-- The logical core that a member slot serves. -/
def slotCore (s : State) (d : Nat) : Option Nat := (s.mbLog (d - 68)).map (· / 3)

/-- Do the links of quadrant `q` carry data? -/
def linkBusy (s : State) (q : Nat) : Bool :=
  s.link.any fun e => !e.2.isEmpty && (decide (e.1 / 16 = q) || match linkPeer e.1 with | some l => decide (l / 16 = q) | none => false)

/-- Does a chain of quadrant `q` run a strip? -/
def quadRuns (s : State) (q : Nat) : Bool := s.chains.any fun c => decide (c.1 / 17 = q) && c.2.strip.isSome

/-- Is a reel start or cache fill of quadrant `q` in progress? -/
def storeReads (s : State) (q : Nat) : Bool :=
  s.chains.any fun c => decide (c.1 / 17 = q) && match c.2.strip with
    | some r => !r.ended && (s.slot r.q r.slot).fetched && (!r.ready || decide (c.2.cache.length < (s.slot r.q r.slot).ent.len))
    | none => false

/-- Is domain `d` busy? (R294) An access or lookup in progress stands as the demand that it makes. -/
def domBusy (s : State) (d : Nat) : Bool :=
  if d < 68 then (s.chain d).strip.isSome
  else if d < 124 then match slotCore s d with | some n => coreBusy s n | none => false
  else if d < 192 then
    let k := s.bank (d - 124)
    k.pend.isSome || k.rbusy || k.copying || s.sec.moving || (s.dom d).demand
  else if d < 225 then (rangeFrom (16 * (d - 192)) 16).any fun p => !(s.port p).tags.isEmpty
  else if d < 229 then
    let q := d - 225
    ((s.quad q).slots.any fun e => decide (e.2.st = .queued) || decide (e.2.st = .running) || decide (e.2.st = .ending))
      || quadRuns s q || linkBusy s q
  else if d < 233 then ((s.quad (d - 229)).mcRun).isSome || storeReads s (d - 229) || (s.dom d).demand
  else (s.dom d).demand

/-- KEEP of a domain (R299, R326). -/
def domKeep (s : State) (d : Nat) : Bool := (domUnit s d).any fun e => (s.dom e).keepDbg || (s.dom e).keepHalt

/-! ## Limits and known events (R291, R293, R296) -/

def minNat (l : List Nat) (d : Nat) : Nat := l.foldl min d

/-- lim of R296: the LIMIT in force. -/
def limitOf (s : State) (d : Nat) : Nat :=
  let l := minNat ((domUnit s d).map fun e => (s.domLimit e).toNat) 4
  let l := if domSpare s d then min l 2 else l
  if 225 ≤ d ∧ d < 229 ∧ ((s.quad (d - 225)).slots.any fun e => decide (e.2.st ≠ .free)) then min l 3 else l

def floorOf (s : State) (d : Nat) : Nat := minNat ((domUnit s d).map fun e => (s.domCfg e).floor.toNat) 4
def holdoffOf (s : State) (d : Nat) : Nat := minNat ((domUnit s d).map fun e => (s.domCfg e).holdoff.toNat) 31

/-- Does a cue entry name a group of the domain, or of its unit? -/
def cueNames (s : State) (d : Nat) (q1 : Word) : Bool :=
  (domUnit s d).any fun e => decide (fld q1 31 24 &&& (s.domGroups e).toNat ≠ 0)

/-- The TIME of the domain's next known event, by the cue table as it stands at the start of the BCLK (R296, R300, R308). -/
def nextEvent (s : State) (d : Nat) : Option Nat :=
  s.start.cues.foldl (fun m e =>
    if bit e.2.q1 4 && cueNames s d e.2.q1 then
      match m with
      | some t => some (min t e.2.time.toNat)
      | none => some e.2.time.toNat
    else m) none

/-- E of R296: the BCLK to the event at time `e`. A HORATIO of zero leaves it open. -/
def eventBclk (s : State) (e : Nat) : Nat :=
  if e ≤ s.mt.mtime.toNat then 0
  else if s.mt.horatio = 0 then Config.farEvent (e - s.mt.mtime.toNat)
  else (e - s.mt.mtime.toNat) * 2 ^ 32 / s.mt.horatio.toNat

/-- WL and BE of a state (R292). -/
def wakeLat (st : Nat) : Nat := match st with | 0 => 0 | 1 => 2 | 2 => 300 | 3 => 16000 | _ => 500000
def breakEven (st : Nat) : Nat := match st with | 0 | 1 => 0 | 2 => 2000 | 3 => 100000 | _ => 20000000

/-- The deepest state no deeper than `lim` that the time to the event allows; IDLE where none is. -/
def chooseState (lim guard e : Nat) : Nat :=
  match [4, 3, 2].find? fun st => decide (st ≤ lim) && decide (wakeLat st + guard ≤ e) && decide (breakEven st ≤ e) with
  | some st => st
  | none => 1

/-- May the sequencer enter states deeper than IDLE? (R297) -/
def seqOn (s : State) : Bool := s.pseq.en && !(s.header pgPseq).freeze

/-- Has any domain of the unit a demand? -/
def unitDemand (s : State) (d : Nat) : Bool := (domUnit s d).any fun e => (s.dom e).demand

/-- Is every domain of the unit awake? -/
def unitUp (s : State) (d : Nat) : Bool := (domUnit s d).all (awake s)

/-- Is no domain of the unit entering a state, waking, or waiting for leave to wake? -/
def unitStill (s : State) (d : Nat) : Bool :=
  (domUnit s d).all fun e => decide ((s.dom e).goal = none) && !(s.dom e).waking && !(s.dom e).wleave

/-- A domain and its unit enter state `st` if that is deeper than theirs (R291, R296, R297). -/
def deepen (d st : Nat) (s : State) : State :=
  if stateOf s d < st ∧ unitStill s d ∧ (st ≤ 1 ∨ seqOn s) then enterState (BitVec.ofNat 3 st) d s else s

/-- Are the conditions met under which the sequencer chooses a state: no demand, no keep vote, idle? -/
def mayChoose (s : State) (d : Nat) : Bool :=
  !unitDemand s d && !domKeep s d && !domBusy s d && !domRetired s d

/-- The end of HOLDOFF (R296): FLOOR, or the limit if it is shallower; no wake stands scheduled without a known event. -/
def holdoffEnd (d : Nat) (s : State) : State :=
  deepen d (min (floorOf s d) (limitOf s d)) (s.setDom d { s.dom d with noSel := false, wsched := false })

/-- The choice for a known event at `e` (R296): the state, and the wake that is scheduled for it. -/
def eventChoice (d e : Nat) (s : State) : State :=
  let g := s.pseq.guard.toNat
  let left := eventBclk s e
  let s := deepen d (chooseState (limitOf s d) g left) s
  if stateOf s d ≤ 1 then s.setDom d { s.dom d with wsched := false }
  else if left ≤ wakeLat (stateOf s d) + g then wakeDom d s
  else s.setDom d { s.dom d with wsched := true }

/-- One BCLK of the sequencer for one domain (R291, R294, R296, R298). -/
def sequence (d : Nat) (s : State) : State :=
  let m := s.dom d
  let up := unitUp s d
  let busy := domBusy s d
  let keep := domKeep s d
  if domRetired s d then (if m.st = 4 then s else askCold d s)
  else if unitDemand s d ∨ keep then
    (if up then onUnit (fun e s => s.setDom e { s.dom e with demand := false, wsched := false, st := if busy ∨ keep then 0 else 1, idleAt := s.bclk }) d s
     else wakeDom d s)
  else if busy then (if up then onUnit (fun e s => s.setDom e { s.dom e with st := 0, wsched := false }) d s else s)
  else
    let s := if up then onUnit (fun e s => if (s.dom e).st = 0 then s.setDom e { s.dom e with st := 1, idleAt := s.bclk } else s) d s else s
    let past := decide (2 ^ holdoffOf s d ≤ s.bclk - (s.dom d).idleAt)
    if m.noSel ∧ !(up && past) then s
    else match nextEvent s d with
      | some e => eventChoice d e (s.setDom d { s.dom d with noSel := false })
      | none => if past then holdoffEnd d s else s.setDom d { s.dom d with wsched := false }

/-- `sequencerDecision` (R296). Nothing is decided before the start-up sequence releases the domains (R310), nor while
the island is frozen (R346). -/
def execSequencerDecision (dom : Fin 235) (s : State) : Out :=
  if s.blk.started && !s.cullet.frozen then .next (sequence dom s) else .next s

/-- `holdoffExpiry` (R296): the domain has been idle for 2^HOLDOFF consecutive BCLK. -/
def execHoldoffExpiry (dom : Fin 235) (s : State) : Out :=
  if s.blk.started && mayChoose s dom && decide (nextEvent s dom = none) && !s.cullet.frozen then .next (holdoffEnd dom s) else .next s

/-- `scheduledWake` (R295, R296): the wake that stands scheduled starts. -/
def execScheduledWake (dom : Fin 235) (s : State) : Out :=
  if (s.dom dom).wsched then .next (wakeDom dom s) else .next s

/-- `demand` (R294): a demand on the domain; it wakes a domain in GLORY, LEHR or COLD. A retired unit stays in COLD. -/
def execDemand (dom : Fin 235) (s : State) : Out := whenUp s <|
  if domRetired s dom then .next s else .next (wakeDom dom (addDemand dom s))

/-- Does a scheduled wake of the domain fall in this BCLK? (R296) -/
def wakeDue (s : State) (d : Nat) : Bool :=
  (domUnit s d).any (fun e => (s.dom e).wsched) && match nextEvent s d with
    | some e => decide (eventBclk s e ≤ wakeLat (stateOf s d) + s.pseq.guard.toNat)
    | none => false

/-- A request for state `st` of domain `d`, by a DOMAIN cue or PSEQ.FORCE (R298); a wake that falls in this BCLK governs (R300). -/
def forceDomain (d st : Nat) (s : State) : State :=
  if domRetired s d then s
  else if st < stateOf s d then
    let s := onUnit (fun e s => s.setDom e { s.dom e with noSel := true, wsched := false, idleAt := s.bclk }) d s
    if stateOf s d ≤ 1 then onUnit (fun e s => s.setDom e { s.dom e with st := 0 }) d s else wakeDom d s
  else if stateOf s d < st ∧ mayChoose s d ∧ !wakeDue s d then deepen d (min st (limitOf s d)) s
  else s

/-! ## The handshake and the end of wakes (R293, R295, R367) -/

/-- The debug connection is lost, and LOST is set (R323); a command in progress goes on without it, and its result is
discarded. -/
def loseConn (s : State) : State := s.setDbg { s.dbg with conn := false, lost := true, orphan := s.dbg.cmd.isSome }

/-- Is a debug access under way that wakes a domain? It keeps the connection (R332). -/
def debugWakes (s : State) : Bool :=
  s.dbg.cmd.isSome && s.doms.any fun d => d.2.demand || d.2.waking

/-- Has the fabric acknowledged every entry under way in the unit? -/
def unitEntered (s : State) (d : Nat) : Bool :=
  (domUnit s d).all fun e => decide ((s.dom e).goal = none) || decide ((s.dom e).dack = (s.dom e).dreq)

/-- An entry under way is complete. -/
def entryEnds (d : Nat) (s : State) : State :=
  match (s.dom d).goal with
  | some g => s.setDom d { s.dom d with st := g, goal := none, goalAt := none }
  | none => s

/-- `pwrDack` (R291, R367): when the code equals the one driven, an entry is complete, for the slots of a core when all are
acknowledged; a demand that came during it wakes the domain at once (R300). When the block as a whole is then in LEHR or COLD, the debug connection is lost (R323, R332). -/
def execPwrDack (dom : Fin 235) (code : BitVec 3) (s : State) : Out := whenUp s <|
  let d := dom.val
  let s := s.setDom d { s.dom d with dack := code }
  match (s.dom d).goal with
  | some _ =>
    if unitEntered s d then
      let s := onUnit entryEnds d s
      let s := if blockAsleep s && !debugWakes s then loseConn s else s
      .next (if unitDemand s d || domKeep s d then wakeDom d s else s)
    else .next s
  | none => .next s

/-- The memory and error state of physical bank `b` cleared to words of zero (R240, R293, R318). -/
def zeroBank (b : Nat) (s : State) : State :=
  { s with mem := s.mem.filter (fun c => decide (c.1 / 262144 ≠ b)), synd := s.synd.filter fun c => decide (c.1 / 32768 ≠ b) }

/-- A fed bundle whose core is reset ends (R330): FBUSY falls. -/
def endFed (n : Nat) (s : State) : State :=
  let d := s.dbgcOf n
  if d.fbusy then s.setDbgc n { d with fbusy := false, fissue := false, fdone := true } else s

/-- A core's contexts and registers as at cold reset, the core held (R88, R293). -/
def resetCore (n : Nat) (s : State) : State :=
  ((endFed n s).setCore n {}).setBlk { s.blk with run := setBit s.blk.run n false }

/-- What leaving COLD does to the unit of a domain (R293). -/
def fromCold (d : Nat) (s : State) : State :=
  if d < 68 then (s.setChain d { ({} : Chain) with strip := (s.chain d).strip }).setInj (pgChain d) {}
  else if d < 124 then match slotCore s d with
    | some n => if (coreDoms s n).contains d then (resetCore n s).setInj (pgCore n) {} else s
    | none => s
  else if d < 192 then
    let b := d - 124
    let k := s.bank b
    (zeroBank b (s.setBank b { owner := k.owner, pend := k.pend, holost := k.holost, repair := k.repair })).setInj (pgSbank b) {}
  else if d < 225 then
    let g := d - 192
    let s := (s.setPgrp g {}).setInj (pgPgrp g) {}
    (rangeFrom (16 * g) 16).foldl (fun s p => s.setPort p { ({} : Port) with fault := (s.port p).fault, lost := (s.port p).lost, lostInj := (s.port p).lostInj }) s
  else if d < 229 then
    let q := d - 225
    let Q := s.quad q
    let Q' : Quad := { store := Q.store, mcSynd := Q.mcSynd, mcBad := Q.mcBad, dir := Q.dir, mcRun := Q.mcRun, mcLeave := Q.mcLeave,
                       scrub := Q.scrub, rewrite := Q.rewrite }
    (s.setQuad q (loadDird Q' 0)).setInj (pgQuad q) {}
  else if d < 233 then storeFromCold (d - 229) s
  else
    let h := d - 233
    s.setSteer { s.steer with bst := s.steer.bst.filter (fun e => decide (bstHalf e.1 ≠ h)),
                              synd := s.steer.synd.filter (fun e => decide (bstHalf e.1 ≠ h)),
                              gwBuf := s.steer.gwBuf.filter fun x => decide (bstHalf (x.1 / 2 ^ 14) ≠ h) }

/-- The wake of one domain ends: it is in IDLE, re-initialised if it was in COLD, and the wake's leave is released. -/
def wakeEnds (d : Nat) (s : State) : State :=
  let m := s.dom d
  if m.waking then
    let s := releaseLeave (.wake d) (s.setDom d { m with st := 1, waking := false, demand := false, idleAt := s.bclk })
    if m.st = 4 then fromCold d s else s
  else s

/-- `wakeComplete` (R291, R292, R295): once the fabric has acknowledged, the domain is in IDLE and accepts work; the slots of a
core end their wakes together. -/
def execWakeComplete (dom : Fin 235) (s : State) : Out :=
  let d := dom.val
  if (s.dom d).waking && (domUnit s d).all (fun e => !(s.dom e).wleave && (!(s.dom e).waking || decide ((s.dom e).dack = (s.dom e).dreq))) then
    .next (onUnit wakeEnds d s)
  else .next s

/-- `keepExpiry` (R326): the keep vote of a debug access ends. -/
def execKeepExpiry (dom : Fin 235) (s : State) : Out := .next (s.setDom dom { s.dom dom with keepDbg := false })

/-! ## Admission (R301 to R307) -/

/-- The request that R302 would grant: the oldest of the highest priority. -/
def headRequest (u : Pau) : Option LeaveReq :=
  match [3, 2, 1, 0].find? fun p => u.reqs.any fun r => decide (r.prio = p) with
  | some p => u.reqs.find? fun r => decide (r.prio = p)
  | none => none

/-- May a request of cost `c` be granted? (R302, R303, R305) -/
def mayGrant (s : State) (c : Nat) : Bool :=
  let u := s.pau
  !(s.header pgPau).freeze && !u.isOver && decide (heldSum u + c + u.pool.toNat ≤ budgetB u)
    && (decide (u.rampmax = 0) || decide (grSum u s.bclk + dueSum u s.mt.mtime + c ≤ u.rampmax.toNat))

/-- A domain that has its leave begins to wake. -/
def wakeStarts (d : Nat) (s : State) : State :=
  let m := s.dom d
  if m.goal = none ∧ !m.waking ∧ 3 ≤ m.st.toNat then s.setDom d { m with waking := true, dreq := 1 } else s

/-- What a granted leave starts (R124, R218, R291, R295): the slots of a core wake together, once each has its leave. -/
def granted (f : LeaveFor) (s : State) : State :=
  match f with
  | .take q k => s.setSlot q k { s.slot q k with leave := true }
  | .wake d =>
    let s := s.setDom d { s.dom d with wleave := false }
    if (domUnit s d).any fun e => (s.dom e).wleave then s else onUnit wakeStarts d s
  | .reload _ => s
  | .ended q n => releaseLeave (.ended q n) s

/-- `grant` (R302): one in a BCLK at most. -/
def execGrant (s : State) : Out :=
  match headRequest s.pau with
  | none => .next s
  | some r =>
    let c := s.classCost r.cls
    if mayGrant s c && !s.cullet.frozen && decide (s.pau.grantAt ≠ some s.bclk) then
      let u := s.pau
      let s := s.setPau { u with reqs := u.reqs.filter (fun x => decide (x.for_ ≠ r.for_)), held := u.held ++ [(r.for_, c)],
                                 ramp := u.ramp ++ [(s.bclk, c)], grantAt := some s.bclk }
      .next (granted r.for_ (updOver s))
    else .next s

/-- `leaveRelease` (R301, R304): the leave or booking of a take whose record is written, or that is aborted, is
released. -/
def execLeaveRelease (q : Fin 4) (slot : Fin 64) (s : State) : Out :=
  let t := s.slot q slot
  if t.st = .free ∨ t.aborted then .next (releaseBooking q slot (releaseLeave (.take q slot) s)) else .next s

/-- `pwrBudget` (R301): the chip's budget is sampled; values above 3,200 count as 3,200. -/
def execPwrBudget (v : BitVec 12) (s : State) : Out := whenUp s <|
  .next (updOver (s.setPau { s.pau with chip := if 3200 < v.toNat then 3200 else v }))

/-- PWR_THROTTLE (R306): a request waits. -/
def throttle (s : State) : Bool := !s.pau.reqs.isEmpty

/-! ## The power domain table (R308) -/

/-- Word d0 of entry `d`. -/
def domWord0 (s : State) (d : Nat) : Word :=
  let m := s.dom d
  BitVec.ofNat 64 (m.st.toNat + (m.limitOr d).toNat * 2 ^ 3 + m.floor.toNat * 2 ^ 6 + m.holdoff.toNat * 2 ^ 9 + m.wprio.toNat * 2 ^ 14
    + m.wclass.toNat * 2 ^ 16 + (m.groupsOr d).toNat * 2 ^ 20 + b2n (domBusy s d) * 2 ^ 28 + b2n (domKeep s d) * 2 ^ 29
    + b2n (domSpare s d && decide (d < 192)) * 2 ^ 30 + b2n (domRetired s d) * 2 ^ 31 + b2n m.wsched * 2 ^ 32 + b2n m.wleave * 2 ^ 33)

/-- Word d1 of entry `d`: NEXTEV. -/
def domWord1 (s : State) (d : Nat) : Word :=
  match nextEvent s d with
  | some t => BitVec.ofNat 64 t
  | none => BitVec.allOnes 64

/-- A 64-bit window word of the power domain table; entries 235 to 255 read as zero. -/
def domWindowRead (s : State) (off : Nat) : Word :=
  let d := off / 16
  if d ≥ 235 then 0 else if off % 16 < 8 then domWord0 s d else domWord1 s d

/-- A refused table write (R308, R35). -/
def domRefuse (d code : Nat) (s : State) : State :=
  let rec_ : Reg := BitVec.ofNat 32 (d + code * 2 ^ 24)
  let s := if (s.header pgPseq).cfgerr then s else s.setPseq { s.pseq with err := rec_ }
  refuseWin pgPseq rec_ code s

/-- Is the RW part of d0 a defined setting? -/
def domOk (v : Nat) : Bool :=
  let l := v / 2 ^ 3 % 8
  let f := v / 2 ^ 6 % 8
  let h := v / 2 ^ 9 % 32
  decide (l ≤ 4) && decide (f ≤ 4) && decide (4 ≤ h ∧ h ≤ 30) && decide (f ≤ l)

/-- A table write at level and tag `lj` (R308). -/
def domWindowWrite (lj : BitVec 2 × BitVec 8) (off : Nat) (v : Word) (s : State) : State :=
  let d := off / 16
  let x := fld v 31 0
  let low := decide (off % 16 = 0)
  if !pownOk s pgPseq lj then domRefuse d 5 s
  else if d ≥ 235 ∨ (low ∧ !domOk x) then domRefuse d 1 s
  else if low then
    s.setDom d { s.dom d with limit := if BitVec.ofNat 3 (x / 2 ^ 3) = limitD d then none else some (BitVec.ofNat 3 (x / 2 ^ 3)),
                              floor := BitVec.ofNat 3 (x / 2 ^ 6), holdoff := BitVec.ofNat 5 (x / 2 ^ 9), wprio := BitVec.ofNat 2 (x / 2 ^ 14),
                              wclass := BitVec.ofNat 4 (x / 2 ^ 16),
                              groups := if BitVec.ofNat 8 (x / 2 ^ 20) = groupsD d then none else some (BitVec.ofNat 8 (x / 2 ^ 20)) }
  else s

end Sys2Proof.Machine
end

