-- ==== Sys2Proof/Machine/Time.lean ====
section
/-! DEFINITION. Machine time, the cue engine and the timer channels (R242 to R270). -/

namespace Sys2Proof.Machine

/-! ## Timer channels (R258 to R267) -/

/-- The TIMER page of channel `c` (R258). -/
def chanPage (c : Nat) : Nat := pgTimer (c / 16)
/-- EN of CTL. -/
def Timer.en (t : Timer) : Bool := bit t.ctl 0
def Timer.setEn (t : Timer) (b : Bool) : Timer := { t with ctl := setBit t.ctl 0 b }

/-- Is any core halted by the debugger? (R266) -/
def anyHalted (s : State) : Bool := s.dbgc.any fun d => d.2.halted

/-- Is the channel frozen for debug? (R266) -/
def Timer.frozen (s : State) (t : Timer) : Bool := anyHalted s && !bit t.ctl 3

/-- The level of a gate input (R259); `gate` is GATE[7:0]. -/
def gateLevel (s : State) (gate : BitVec 8) (g : Nat) : Bool :=
  if g ≤ 4 then quadRuns s (g - 1)
  else if g = 5 then s.chains.any fun c => c.2.strip.isSome
  else if g = 6 then throttle s
  else if g ≤ 14 then bit gate (g - 7)
  else bit s.mt.windows (g - 15)

/-- Is the channel's gate open? (R259) -/
def gateOpen (s : State) (t : Timer) (gate : BitVec 8) : Bool :=
  decide (fld t.ctl 8 4 = 0) || decide (gateLevel s gate (fld t.ctl 8 4) = bit t.ctl 9)

/-- A page's commit is finished when no channel of it waits (R37), with the dailies entry of PEVT.CMTEN. -/
def timerPageDone (pg : Nat) (s : State) : State :=
  let h := s.header pg
  if h.cmtpend && !((List.range 32).any fun c => decide (chanPage c = pg) && (s.timer c).commit) then
    let s := s.setHeader pg { h with cmtpend := false }
    if bit h.pevt 1 then logEv 0x02 0 pg 0 s else s
  else s

/-- The channel takes its staged values (R37, R261). -/
def Timer.takeStaged (t : Timer) : Timer := if t.commit then { t with cmp := t.cmpStg, per := t.perStg, commit := false } else t

/-- The staged values at a wrap (R37): those that wait, or those that a DISCARD of this BCLK has withdrawn from a channel that stood at
`old` at its start; the commit takes effect first (R38). -/
def Timer.atWrap (old t : Timer) : Timer :=
  if !t.commit && old.commit then { t with cmp := old.cmpStg, per := old.perStg, cmpStg := old.cmpStg, perStg := old.perStg } else t.takeStaged

/-- One count of a channel that stood at `old` at the start of the BCLK (R258, R261, R267): a wrap is decided by the old PER, and staged
values take effect with CNT = 0. EN stays as a write of CTL in this BCLK has set it (`ctl`; R38). -/
def Timer.count (old : Timer) (ctl : Bool) (t : Timer) : Timer :=
  let wrap := decide (old.per.toNat ≤ t.cnt.toNat)
  let t : Timer := if wrap then
      { ((Timer.atWrap old t).setEn (t.en && (ctl || !bit t.ctl 2))) with cnt := 0, stat := setBit t.stat 0 true }
    else { t with cnt := t.cnt + 1 }
  if t.cnt = t.cmp then { t with stat := setBit t.stat 1 true } else t

/-- Does the source of the channel give an event in this BCLK? With SRC = 1 only an increase of MTIME does (R258). -/
def sourceOn (s : State) (t : Timer) : Bool := !bit t.ctl 1 || s.start.ticked

/-- `timerCount` (R258): one source event of the channel, with GATE[7:0] as sampled. A group start in this BCLK governs (R267). -/
def execTimerCount (ch : Fin 32) (gate : BitVec 8) (s : State) : Out := whenUp s <|
  let s := s.setBlk { s.blk with gate := gate }
  let t := s.timer ch
  let e := s.tev ch
  if t.en && !t.frozen s && gateOpen s t gate && sourceOn s t && !e.started then
    let s := s.setTev ch { e with counted := true }
    if fld t.ctl 23 16 ≤ t.presc then
      let n := Timer.count (s.oldTimer ch) e.ctl { t with presc := 0 }
      let s := s.setTimer ch n
      .next (if t.commit && !n.commit then timerPageDone (chanPage ch) s else s)
    else .next (s.setTimer ch { t with presc := t.presc + 1 })
  else .next s

/-- A count of this BCLK is undone for a group start, which governs (R267): its events, and a commit that its wrap made. -/
def uncount (c : Nat) (s : State) : State :=
  let t := s.timer c
  let o := s.oldTimer c
  if !(s.tev c).counted then s
  else
    let t := { t with stat := setBit (setBit t.stat 0 (bit t.stat 0 && bit o.stat 0)) 1 (bit t.stat 1 && bit o.stat 1) }
    let pg := chanPage c
    if o.commit && !t.commit && o.cmpStg == t.cmpStg && o.perStg == t.perStg then
      let s := s.setTimer c { t with cmp := o.cmp, per := o.per, commit := true }
      let h := s.header pg
      if h.cmtpend then s
      else
        let mine := fun (e : Nat × LogEnt) => decide (e.1 = s.bclk) && decide (fld e.2.e1 7 0 = 0x02) && decide (fld e.2.e1 23 12 = pg)
        (s.setHeader pg { h with cmtpend := true }).setRas { s.ras with queue := s.ras.queue.filter fun e => !mine e }
    else s.setTimer c t

/-- A group start of one channel (R260), by a write of software or not: a stop in this BCLK governs over it, unless both are writes,
which the crossbar serialises (R17, R267); a write of CTL stands against a cue (R38). -/
def startChannel (sw : Bool) (c : Nat) (s : State) : State :=
  let s := uncount c s
  let t := s.timer c
  let e := s.tev c
  let en := if e.stopped.any (fun w => !(sw && w)) || (e.ctl && !sw) then t.en else true
  (s.setTimer c (({ t with cnt := t.phase, presc := 0 } : Timer).setEn en)).setTev c { e with started := true }

/-- A group start (R260): ignored for channels of a frozen page. -/
def groupStart (sw : Bool) (mask : Nat) (s : State) : State :=
  (List.range 32).foldl (fun s c => if mask.testBit c && !(s.header (chanPage c)).freeze then startChannel sw c s else s) s

/-- A group stop (R260). -/
def groupStop (sw : Bool) (mask : Nat) (s : State) : State :=
  (List.range 32).foldl (fun s c => if mask.testBit c then
    (s.setTimer c ((s.timer c).setEn (if (s.tev c).ctl && !sw then (s.timer c).en else false))).setTev c { s.tev c with stopped := some sw } else s) s

/-- A capture (R263, R264), of an edge or of a cue; with one of the other kind in this BCLK one capture occurs (R267). -/
def captureNow (edge : Bool) (c : Nat) (s : State) : State :=
  let t := s.timer c
  let e := s.tev c
  if e.captured = some (!edge) then s
  else
    let pend := bit t.stat 3
    let st := setBit (setBit t.stat 2 true) 3 true
    (s.setTimer c { t with cap := t.cnt, stat := if pend then setBit st 4 true else st }).setTev c { e with captured := some edge }

/-- Captures of the channels of a mask. -/
def captureMask (mask : Nat) (s : State) : State :=
  (List.range 32).foldl (fun s c => if mask.testBit c then captureNow false c s else s) s

/-- Does EDGE of CAPCFG count the accepted change of the input? A channel of CSEL = 8 takes no input (R263). -/
def edgeCounts (cfg : Reg) (rising : Bool) : Bool :=
  decide (fld cfg 4 1 ≠ 8) && if rising then bit cfg 5 else bit cfg 6

/-- An edge of a channel: every (EPRE + 1)th captures (R263). -/
def takeEdge (c : Nat) (s : State) : State :=
  let t := s.timer c
  if fld t.capcfg 18 11 ≤ t.edges then captureNow true c (s.setTimer c { t with edges := 0 })
  else s.setTimer c { t with edges := t.edges + 1 }

/-- `capture` (R263): an accepted change of the channel's input, in the BCLK in which it may capture. -/
def execCapture (ch : Fin 32) (rising : Bool) (s : State) : Out :=
  let t := s.timer ch
  .next (if bit t.capcfg 0 && edgeCounts t.capcfg rising then takeEdge ch s else s)

/-- The BCLK after a tick that has taken MT[19:0] to zero: an edge of every channel of CSEL = 8 whose EDGE names any (R263). -/
def slateEdges (s : State) : State :=
  (List.range 32).foldl (fun s c =>
    let x := (s.timer c).capcfg
    if bit x 0 && decide (fld x 4 1 = 8) && decide (fld x 6 5 ≠ 0) then takeEdge c s else s) s

/-- A write of PERNOW_HI sets the live and the staged PER at once (R261). -/
def pernowWrite (c : Nat) (hi : Reg) (s : State) : State :=
  let t := s.timer c
  let p : Word := BitVec.ofNat 64 (t.perLo.toNat + hi.toNat * 2 ^ 32)
  s.setTimer c { t with per := p, perStg := p }

/-- The interrupt source of a channel (R265). -/
def Timer.irq (t : Timer) : Bool :=
  (bit t.stat 0 && bit t.stat 8) || (bit t.stat 1 && bit t.stat 9) || (bit t.stat 2 && bit t.stat 10) || (bit t.stat 4 && bit t.stat 11)

/-! ## Machine time (R243 to R246) -/

/-- The armed entries whose TIME is `v`. -/
def cuesAt (s : State) (v : Word) : List Nat :=
  (s.cue.tbl.filter fun e => bit e.2.q1 4 && decide (e.2.time = v)).map Prod.fst

/-- MTIME increases by a tick or by extrapolation, and reaches the TIME of some cues (R243, R250); a slate may begin (R263). -/
def tickTime (s : State) : State :=
  let v := s.mt.mtime + 1
  let s := s.setCue { s.cue with hit := cuesAt s v, hitAt := s.bclk }
  let s := s.setStart { s.start with ticked := true, slate := s.start.slate || decide (v.toNat % 2 ^ 20 = 0) }
  s.setMt { s.mt with mtime := v }

/-- A slate slip (R244). -/
def slip (s : State) : State := logEv 0x52 1 pgMtime 0 (s.setMt { s.mt with slip := true })

/-- `mtTick` (R243, R244): ignored in holdover, and in the BCLK of a load. -/
def execMtTick (slate : Bool) (s : State) : Out := whenUp s <|
  if s.mt.holdover ∨ s.start.loaded = some true then .next s
  else if s.start.loaded.isSome then .next (if slate then slip s else s)
  else
    let zero := decide ((s.mt.mtime.toNat + 1) % 2 ^ 20 = 0)
    .next (tickTime (if slate ≠ zero then slip s else s))

/-- `mtSlate` (R244): MT_SLATE without a tick that takes MT[19:0] to zero. -/
def execMtSlate (s : State) : Out := whenUp s <| if s.mt.holdover then .next s else .next (slip s)

/-- `mtLoad` (R243, R246): a load with MT_VALID = 1 ends holdover, and an increase of MTIME in its BCLK is as if it had not been; one with
MT_VALID = 0 is ignored. -/
def execMtLoad (valid : Bool) (v : Word) (s : State) : Out := whenUp s <|
  if !valid then .next (s.setMt { s.mt with validin := false })
  else
    let old := if s.start.ticked then s.mt.mtime - 1 else s.mt.mtime
    let s := s.setStart { s.start with ticked := false, slate := false, loaded := some (s.start.loaded.getD s.mt.holdover) }
    let s := if s.mt.holdover then logEv 0x51 0 pgMtime 0 s else s
    let s := s.setCue { s.cue with hit := [] }
    .next (s.setMt { s.mt with mtime := v, loadprev := old, ldevt := true, backstep := s.mt.backstep || decide (v.toNat < old.toNat),
                               holdover := false, synced := true, validin := true })

/-- `holdoverBegin` (R245): MT_VALID is sampled at 0. -/
def execHoldoverBegin (s : State) : Out := whenUp s <|
  if s.mt.holdover then .next (s.setMt { s.mt with validin := false })
  else
    .next (logEv 0x50 1 pgMtime 0 (s.setMt { s.mt with holdover := true, hoevt := true, validin := false, frac := 0 }))

/-- `holdoverIncrement` (R245): the fraction accumulator adds HORATIO up to its next carry. It never carries with a
HORATIO of zero. -/
def execHoldoverIncrement (s : State) : Out := whenUp s <|
  let h := s.mt.horatio.toNat
  if !s.mt.holdover ∨ h = 0 then .next s
  else
    let k := (2 ^ 32 - s.mt.frac.toNat + h - 1) / h
    .next (tickTime (s.setMt { s.mt with frac := BitVec.ofNat 32 (s.mt.frac.toNat + k * h) }))

/-- `mtValidRise` (R246): VALIDIN follows the input; holdover goes on. -/
def execMtValidRise (s : State) : Out := whenUp s <| .next (s.setMt { s.mt with validin := true })

/-- The time status source (R268). -/
def timeIrq (m : Mt) : Bool :=
  (m.hoevt && bit m.ctl 4) || (m.ldevt && bit m.ctl 5) || (m.slip && bit m.ctl 6) || (m.backstep && bit m.ctl 7)

/-! ## The cue table (R247 to R249) -/

def CueEnt.action (e : CueEnt) : Nat := fld e.q1 3 0
def CueEnt.armed (e : CueEnt) : Bool := bit e.q1 4
def CueEnt.hold (e : CueEnt) : Bool := bit e.q1 5
def CueEnt.skip (e : CueEnt) : Bool := bit e.q1 6
def CueEnt.arg (e : CueEnt) : Nat := fld e.q1 23 8
def CueEnt.count (e : CueEnt) : Nat := fld e.q1 39 32
/-- The interval between occurrences (R247). -/
def CueEnt.interval (e : CueEnt) : Nat := fld e.q1 63 44 * 2 ^ fld e.q1 43 40
def CueEnt.disarm (e : CueEnt) : CueEnt := { e with q1 := setBit e.q1 4 false }

/-- Is ARG defined for the ACTION? (R248) -/
def argOk (action arg : Nat) : Bool :=
  match action with
  | 0 => decide (arg = 0)
  | 2 => decide (1 ≤ arg ∧ arg ≤ 1022)
  | 3 => decide (arg % 256 ≤ 234 ∧ arg / 256 ≤ 4)
  | 4 | 5 | 6 | 7 | 8 | 9 => true
  | 0xA => decide (arg = 0)
  | 0xB | 0xC => decide (arg ≤ 7)
  | _ => false

/-- Check 4 of R249. -/
def cueOk (e : CueEnt) : Bool :=
  !bit e.q1 7 && decide (e.action ≤ 0xC) && decide (e.action ≠ 1) && argOk e.action e.arg && !(decide (0 < e.count) && decide (fld e.q1 63 44 = 0))

/-- First entry of the TCUE pool (R249). -/
def tcBase (s : State) : Nat := fld s.cue.cfgLive 11 0

/-- A refused cue table write (R249, R35). -/
def cueRefuse (i code : Nat) (s : State) : State :=
  let rec_ : Reg := BitVec.ofNat 32 (i + code * 2 ^ 24)
  let s := if (s.header pgCue).cfgerr then s else s.setCue { s.cue with err := rec_ }
  refuseWin pgCue rec_ code s

/-- A word with a window write applied: 64 bits, or the half at `off`. -/
def putHalf (old : Word) (off : Nat) (wide : Bool) (v : Word) : Word :=
  if wide then v else if off % 8 = 0 then setFld old 31 0 (fld v 31 0) else setFld old 63 32 (fld v 31 0)

/-- An entry with a window write applied. -/
def CueEnt.put (e : CueEnt) (off : Nat) (wide : Bool) (v : Word) : CueEnt :=
  if off % 16 < 8 then { e with time := putHalf e.time off wide v } else { e with q1 := putHalf e.q1 off wide v }

/-- A cue table write at level and tag `lj` (R249). A write that disarms a selected cue withdraws it (R257). -/
def cueWindowWrite (lj : BitVec 2 × BitVec 8) (off : Nat) (wide : Bool) (v : Word) (s : State) : State :=
  let i := off / 16
  let e := s.cueEnt i
  let n := e.put off wide v
  if !pownOk s pgCue lj then cueRefuse i 5 s
  else if tcBase s ≤ i ∨ (e.armed ∧ n.time ≠ e.time) then cueRefuse i 0x0A s
  else if !cueOk n then cueRefuse i 1 s
  else
    let s := s.setCueEnt i n
    if n.armed then s else s.setCue { s.cue with sel := s.cue.sel.filter fun x => decide (x.1 ≠ i) }

/-! ## Selection and firing (R250 to R254) -/

/-- Is the entry due and not selected? -/
def cueDue (s : State) (e : Nat × CueEnt) : Bool :=
  e.2.armed && decide (e.2.time.toNat ≤ s.mt.mtime.toNat) && (e.2.hold || !s.mt.holdover) && !(s.cue.sel.any fun x => decide (x.1 = e.1))

/-- A cue put in its place by ascending TIME, then index. -/
def cueInsert (e : Nat × CueEnt) : List (Nat × CueEnt) → List (Nat × CueEnt)
  | [] => [e]
  | f :: t => if e.2.time.toNat < f.2.time.toNat then e :: f :: t else f :: cueInsert e t

/-- `cueSelection` (R250): up to 16 due cues, by TIME and index; one is on time if a tick has just taken MTIME to its
TIME. -/
def execCueSelection (s : State) : Out :=
  let due := (s.cue.tbl.filter (cueDue s)).foldl (fun l e => cueInsert e l) []
  let onTime := fun (i : Nat) => s.cue.hit.contains i && decide (s.bclk ≤ s.cue.hitAt + 1)
  let new := (due.take 16).map fun e => (e.1, onTime e.1)
  .next (s.setCue { s.cue with sel := s.cue.sel ++ new, hit := [] })

/-- The effect of the action of entry `i` (R248, R254). -/
def cueAction (i action arg : Nat) (s : State) : State :=
  match action with
  | 1 =>
    let q := handleQ arg
    let k := handleK arg
    let t := s.slot q k
    if t.st = .armed ∧ t.gen.toNat = arg % 256 then
      enqueue q k (arrCue i) (addDemand (domQuad q) (bookingFires q k (s.setSlot q k { t with leave := true })))
    else s
  | 2 => pulseSource (arg % 1024) s
  | 3 => forceDomain (arg % 256) (arg / 256 % 8) s
  | 4 => groupStart false arg s
  | 5 => groupStart false (arg * 2 ^ 16) s
  | 6 => groupStop false arg s
  | 7 => groupStop false (arg * 2 ^ 16) s
  | 8 => captureMask arg s
  | 9 => captureMask (arg * 2 ^ 16) s
  | 0xA =>
    let s := s.setMt { s.mt with snapt := s.mt.mtime }
    (List.range 32).foldl (fun s c => if bit (s.timer c).capcfg 19 then captureNow false c s else s) s
  | 0xB => s.setMt { s.mt with windows := setBit s.mt.windows (arg % 8) true }
  | 0xC => s.setMt { s.mt with windows := setBit s.mt.windows (arg % 8) false }
  | _ => s

/-- Every domain of the cue's groups that is not awake is counted in LATEWAKE (R296). -/
def countLate (dmask : Nat) (s : State) : State :=
  if dmask = 0 then s
  else
    let late := (List.range 235).filter fun d => decide (dmask &&& (s.domGroups d).toNat ≠ 0) && !awake s d && !domRetired s d
    s.setPseq { s.pseq with latewake := satAdd s.pseq.latewake late.length }

/-- The entry after `m` occurrences have fired or been skipped: disarmed when no further one is left (R252, R253). -/
def CueEnt.advance (e : CueEnt) (m : Nat) : CueEnt :=
  let t : Word := BitVec.ofNat 64 (e.time.toNat + m * e.interval)
  if e.count = 255 then { e with time := t }
  else if m ≤ e.count then { e with time := t, q1 := setFld e.q1 39 32 (e.count - m) }
  else e.disarm

/-- m of R252. -/
def skipCount (e : CueEnt) (mtime : Word) : Nat :=
  if e.count = 0 then 1
  else if mtime.toNat < e.time.toNat then 1
  else (mtime.toNat - e.time.toNat) / e.interval + 1

/-- `cueFire` (R252, R253, R257): a selected cue fires, late or on time, unless it has been disarmed. -/
def execCueFire (entry : Fin 4096) (s : State) : Out :=
  let i := entry.val
  match s.cue.sel.find? fun x => decide (x.1 = i) with
  | none => .next s
  | some x =>
    let s := s.setCue { s.cue with sel := s.cue.sel.filter fun y => decide (y.1 ≠ i) }
    let e := s.cueEnt i
    if !e.armed then .next s
    else if !x.2 && e.skip then
      let m := skipCount e s.mt.mtime
      let n := if e.count = 255 then m else min m (e.count + 1)
      let s := s.setCueEnt i (e.advance m)
      .next (s.setCue { s.cue with skipcnt := satAdd s.cue.skipcnt n })
    else
      let s := if x.2 then s else s.setCue { s.cue with latecnt := satInc s.cue.latecnt }
      let s := s.setCueEnt i (e.advance 1)
      .next (cueAction i e.action e.arg (countLate (fld e.q1 31 24) s))

/-! ## Cues armed by TCUE (R255, R256) -/

/-- The pool entry that a TCUE takes now: the lowest with ARM = 0 that no TCUE holds. -/
def freeCue (s : State) : Option Nat :=
  (rangeFrom (tcBase s) (4096 - tcBase s)).find? fun i => !(s.cueEnt i).armed && !s.cue.held.contains i

/-- The entry that a TCUE of quadrant `q` arms (R255). -/
def tcueEntry (s : State) (q : Nat) (t : Word) (h : Nat) : CueEnt :=
  { time := t,
    q1 := BitVec.ofNat 64 (1 + 2 ^ 4 + b2n (bit s.cue.cfgLive 12) * 2 ^ 5 + h * 2 ^ 8 + fld s.cue.tcdmask (8 * q + 7) (8 * q) * 2 ^ 24) }

/-! ## Page values (R268 to R270) -/

def armedCount (s : State) : Nat := (s.cue.tbl.filter fun e => e.2.armed).length
def poolFree (s : State) : Nat := 4096 - tcBase s - (s.cue.tbl.filter fun e => decide (tcBase s ≤ e.1) && e.2.armed).length

/-- The consistency check of the CUE page (R269). -/
def cueCfgOk (s : State) : Bool :=
  let a := fld s.cue.cfgLive 11 0
  let b := fld s.cue.cfgStg 11 0
  !(s.cue.tbl.any fun e => e.2.armed && decide (min a b ≤ e.1 ∧ e.1 < max a b))

/-- The consistency check of a TIMER page (R261). -/
def timerPageOk (s : State) (pg : Nat) : Bool :=
  (List.range 32).all fun c => decide (chanPage c ≠ pg) || decide ((s.timer c).cmpStg.toNat ≤ (s.timer c).perStg.toNat)

end Sys2Proof.Machine
end

