-- ==== Sys2Proof/Machine/Icu.lean ====
section
/-! DEFINITION. The interrupt controller: source inputs, coalescing groups, indications, claims and ends of interrupt
(R271 to R288). -/

namespace Sys2Proof.Machine

/-! ## Source words (R273) -/

def Src.sense (x : Src) : Nat := fld x.cfg 2 0
def Src.en (x : Src) : Bool := bit x.cfg 3
def Src.fast (x : Src) : Bool := bit x.cfg 4
def Src.host (x : Src) : Bool := bit x.cfg 5
def Src.target (x : Src) : Nat := fld x.cfg 9 6
def Src.grpNo (x : Src) : Nat := fld x.cfg 15 10

/-- The configuration word of source `n` (R273). -/
def srcWord (s : State) (n : Nat) : Word :=
  let x := s.src n
  if n = 0 ∨ n ≥ 1023 then 0
  else BitVec.ofNat 64 (x.cfg.toNat + b2n x.pend * 2 ^ 32 + b2n x.active * 2 ^ 33 + b2n x.inn * 2 ^ 34 + b2n x.lost * 2 ^ 35
    + (if x.active then x.actby.toNat else 0) * 2 ^ 40)

/-! ## Inputs (R271, R272) -/

/-- The debug event condition (R334). -/
def debugIrq (s : State) : Bool :=
  (s.dbg.lost && bit s.dbg.devten 1) || (s.dbg.haltevt && bit s.dbg.devten 2) || (s.dbg.cmpevt && bit s.dbg.devten 3)

/-- The conditions that drive SVB_ATTN_N and SVB_FAULT_N (R346, R351). -/
def attnCond (s : State) : Bool := s.ras.attnp && bit s.ras.rctl 0
def faultCond (s : State) : Bool := (s.ras.faultp && bit s.ras.rctl 1) || s.cullet.frozen

/-- The fixed condition of a source (R271). -/
def fixedLevel (s : State) (n : Nat) : Bool :=
  if n < 960 then false
  else if n < 964 then (s.quad (n - 960)).fbv
  else if n = 964 then s.hot.hot
  else if n = 965 then timeIrq s.mt
  else if n = 966 then attnCond s
  else if n = 967 then s.ras.faultp && bit s.ras.rctl 1
  else if n = 968 then throttle s
  else if n = 969 then debugIrq s
  else if n < 986 then (s.core (n - 970)).tend
  else if n < 990 then (s.quad (n - 986)).lost
  else if n < 1022 then (s.timer (n - 990)).irq
  else if n = 1022 then bit s.steer.pois 31
  else false

/-- The input of a source now (R272). -/
def srcInput (s : State) (n : Nat) : Bool := fixedLevel s n || s.icu.pulses.contains n

/-! ## Groups (R279) -/

def Grp.cthr (g : Grp) : Nat := fld g.cfg 7 0
def Grp.tthr (g : Grp) : Nat := fld g.cfg 23 8
/-- A group without thresholds is always open. -/
def Grp.pass (g : Grp) : Bool := decide (g.cthr = 0) && decide (g.tthr = 0)
def Grp.isOpen (g : Grp) : Bool := g.opn || g.pass

/-- A member event: a BCLK in which a source of the group becomes pending. -/
def memberEvent (grpNo : Nat) (s : State) : State :=
  if grpNo = 0 then s
  else
    let g := s.grp (grpNo - 1)
    if g.isOpen || decide (g.evAt = some s.bclk) then s
    else s.setGrp (grpNo - 1) { g with ev := min 255 (g.ev + 1), timer := if g.ev = 0 then 0 else g.timer, evAt := some s.bclk }

/-- A source's PEND and the rest of its word are set; a rise of PEND is a member event. -/
def putSrc (n : Nat) (x : Src) (s : State) : State :=
  let rise := x.pend && !(s.src n).pend
  let s := s.setSrc n x
  if rise then memberEvent x.grpNo s else s

/-! ## Eligibility and indications (R276, R277, R285) -/

/-- Is the source eligible? -/
def eligible (s : State) (x : Src) : Bool :=
  x.pend && x.en && !x.active && (decide (x.grpNo = 0) || (s.grp (x.grpNo - 1)).isOpen)

/-- The highest-numbered eligible source that `f` accepts (R280). -/
def topSource (s : State) (f : Src → Bool) : Option Nat :=
  ((s.icu.srcs.filter fun e => eligible s e.2 && f e.2).getLast?).map Prod.fst

def forCore (n : Nat) (fast : Bool) (x : Src) : Bool := !x.host && decide (x.fast = fast) && decide (x.target = n)
def forLine (k : Nat) (x : Src) : Bool := x.host && decide (x.target = k)

/-- NREQ and FREQ of a core, and IRQ_OUT of a host line (R276). -/
def nreq (s : State) (n : Nat) : Bool := !(s.icucOf n).nmask && (topSource s (forCore n false)).isSome
def freq (s : State) (n : Nat) : Bool := !(s.icucOf n).fmask && (topSource s (forCore n true)).isSome
def irqOut (s : State) (k : Nat) : Bool := (topSource s (forLine k)).isSome

/-- An EVT bit is posted to a context of a core (R97). -/
def postEvt (n x b : Nat) (s : State) : State :=
  s.setCtx n x { s.ctx n x with evt := setBit (s.ctx n x).evt b true }

/-- The task set IRQTASK of a director (R105). -/
def irqTask (c : CoreSt) : Nat := fld c.cfgLive 7 2

/-- The indications of one core act: RAISED, the post of a rise in SCHED, the demand (R277, R285). -/
def raiseCore (n : Nat) (s : State) : State :=
  let a := nreq s n
  let f := freq s n
  let c := s.core n
  let k := s.icucOf n
  let s := if a || f then s.setIcuc n { k with nraised := k.nraised || a, fraised := k.fraised || f } else s
  let s := if a ≠ c.nreqSeen then s.setCore n { c with nreqSeen := a } else s
  let s := if a && !c.nreqSeen && decide (n % 4 = 0) && decide (c.mode = 1) then postEvt n (irqTask c) 29 s else s
  if a || f then demandCore n s else s

/-- Every indication acts after a change of the controller's state. -/
def raiseAll (s : State) : State :=
  let s := (List.range 16).foldl (fun s n => raiseCore n s) s
  let h := (List.range 8).foldl (fun h k => if irqOut s k then setBit h k true else h) s.icu.hraised
  s.setIcu { s.icu with hraised := h }

/-! ## Sampling and groups (R275, R279) -/

/-- Does the sense name this change of the input? -/
def senseEdge (sense : Nat) (old new : Bool) : Bool :=
  match sense with
  | 2 => !old && new
  | 3 => old && !new
  | 4 => decide (old ≠ new)
  | _ => false

/-- One sample of a source (R275). An edge in the BCLK of a change of SENSE is not seen (R286). -/
def sampleSrc (n : Nat) (s : State) : State :=
  let x := s.src n
  let i := srcInput s n
  if x.sense ≤ 1 then
    if x.active then s else putSrc n { x with inn := i, pend := if x.sense = 0 then i else !i } s
  else if senseEdge x.sense x.inn i && decide (x.senseAt ≠ some s.bclk) then
    if x.pend then
      let s := s.setIcu { s.icu with edgelost := satInc s.icu.edgelost }
      s.setSrc n { x with inn := i, lost := true }
    else putSrc n { x with inn := i, pend := true } s
  else s.setSrc n { x with inn := i }

/-- `sourceSample` (R275). A pulse is seen by one sample. -/
def execSourceSample (src : Fin 1024) (s : State) : Out :=
  let n := src.val
  if n = 0 ∨ n = 1023 then .next s
  else
    let s := sampleSrc n s
    .next (raiseAll (s.setIcu { s.icu with pulses := s.icu.pulses.filter (· ≠ n) }))

/-- Has the group reached a threshold? (R279) -/
def Grp.due (g : Grp) : Bool :=
  (decide (g.cthr ≠ 0) && decide (g.cthr ≤ g.ev)) || (decide (g.tthr ≠ 0) && decide (1 ≤ g.ev) && decide (16 * g.tthr ≤ g.timer))

/-- `groupOpen` (R279). -/
def execGroupOpen (g : Fin 32) (s : State) : Out :=
  let x := s.grp g
  if !x.isOpen && x.due then .next (raiseAll (s.setGrp g { x with opn := true })) else .next s

/-- Has the group a member that is pending and not in service? -/
def groupPending (s : State) (g : Nat) : Bool :=
  s.icu.srcs.any fun e => decide (e.2.grpNo = g + 1) && e.2.pend && !e.2.active

/-- `groupClose` (R279). -/
def execGroupClose (g : Fin 32) (s : State) : Out :=
  let x := s.grp g
  if x.opn && !groupPending s g then .next (raiseAll (s.setGrp g { x with opn := false, ev := 0, timer := 0 })) else .next s

/-! ## Claim and end of interrupt (R280, R281) -/

/-- The value a claim returns, given RAISED. -/
def claimValue (top : Option Nat) (raised : Bool) : Nat := match top with | some n => n | none => if raised then 1023 else 0

/-- A claimed source enters service. -/
def serve (top : Option Nat) (by_ : Nat) (s : State) : State :=
  match top with
  | some n => s.setSrc n { s.src n with pend := false, active := true, actby := BitVec.ofNat 5 by_ }
  | none => s

/-- The numbers of the claim registers: CLAIMN and CLAIMF of a core, HCLAIM of a line. -/
def regClaim (n : Nat) (fast : Bool) : Nat := 2 * n + b2n fast
def regHclaim (k : Nat) : Nat := 32 + k

/-- The state on which a claim by register `r` is evaluated: that at the start of the BCLK (R280). Two reads of one register cannot meet
in a BCLK (R286), so one that follows another sees what that left. -/
def claimView (r : Nat) (s : State) : State :=
  if s.icu.claimed.contains r then s else { s with icu := s.start.icu, icuc := s.start.icuc }

/-- The register `r` has been read in this BCLK. -/
def noteClaim (r : Nat) (s : State) : State := s.setIcu { s.icu with claimed := r :: s.icu.claimed }

/-- The source that CLAIMN or CLAIMF of a core returns; the masks do not hide it from a claim. -/
def claimCore (n : Nat) (fast peek : Bool) (s : State) : State × Nat :=
  let r := regClaim n fast
  let o := claimView r s
  let top := topSource o (forCore n fast)
  let v := claimValue top (if fast then (o.icucOf n).fraised else (o.icucOf n).nraised)
  if peek then (s, v)
  else
    let k := s.icucOf n
    let s := serve top n ((noteClaim r s).setIcuc n (if fast then { k with fraised := false } else { k with nraised := false }))
    (raiseAll s, v)

/-- A claim by host line `k`. -/
def claimLine (k : Nat) (peek : Bool) (s : State) : State × Nat :=
  let r := regHclaim k
  let o := claimView r s
  let top := topSource o (forLine k)
  let v := claimValue top (bit o.icu.hraised k)
  if peek then (s, v)
  else
    let s := noteClaim r s
    let s := serve top (16 + k) (s.setIcu { s.icu with hraised := setBit s.icu.hraised k false })
    (raiseAll s, v)

/-- A valid end of interrupt (R281): a level source is sampled again. -/
def endService (n : Nat) (s : State) : State :=
  let x := { s.src n with active := false }
  let i := srcInput s n
  raiseAll (if x.sense ≤ 1 then putSrc n { x with inn := i, pend := if x.sense = 0 then i else !i } (s.setSrc n { x with pend := false })
            else s.setSrc n x)

/-- Is the source in service for that claimer? -/
def servedBy (s : State) (n by_ : Nat) : Bool := (s.src n).active && decide ((s.src n).actby.toNat = by_)

/-- A write of EOI of core `n` naming source `v` (R281). -/
def eoiWrite (n v : Nat) (s : State) : State :=
  if servedBy s v n then endService v s else s.setIcuc n { s.icucOf n with badeoi := true }

/-- A write of HEOI (R281). -/
def heoiWrite (v k : Nat) (s : State) : State :=
  if servedBy s v (16 + k) then endService v s else s.setIcu { s.icu with hbadeoi := true }

/-! ## Configuration (R274, R279, R283, R287) -/

/-- A refused source table write (R274, R35). -/
def srcRefuse (n code : Nat) (s : State) : State :=
  let rec_ : Reg := BitVec.ofNat 32 (n + code * 2 ^ 24)
  let s := if (s.header pgIcu).cfgerr then s else s.setIcu { s.icu with srcerr := rec_ }
  refuseWin pgIcu rec_ code s

/-- Is the low half of a source word a defined setting? -/
def srcCfgOk (v : Nat) : Bool :=
  decide (v % 8 ≤ 4) && decide (v / 2 ^ 10 % 64 ≤ 32) && decide (v / 2 ^ 16 = 0) && !(v.testBit 5 && v.testBit 9)

/-- The low half written: a change of SENSE clears PEND and LOST. -/
def cfgPut (n v : Nat) (s : State) : State :=
  let x := s.src n
  let y := { x with cfg := BitVec.ofNat 16 v }
  s.setSrc n (if y.sense ≠ x.sense then { y with pend := false, lost := false, inn := srcInput s n, senseAt := some s.bclk } else y)

/-- The high half written: its W1C bits, of which one that rises in this BCLK stays (R38). -/
def w1cPut (n v : Nat) (s : State) : State :=
  let x := s.src n
  let o := tget srcInit s.start.icu.srcs n
  s.setSrc n { x with pend := x.pend && !(v.testBit 0 && o.pend), lost := x.lost && !((v.testBit 0 || v.testBit 3) && o.lost) }

/-- A source table write at level and tag `lj` (R274). -/
def srcWindowWrite (lj : BitVec 2 × BitVec 8) (off : Nat) (wide : Bool) (v : Word) (s : State) : State :=
  let n := off / 8
  let low := wide || decide (off % 8 = 0)
  let lo := fld v 31 0
  let hi := if wide then fld v 63 32 else fld v 31 0
  if !pownOk s pgIcu lj then srcRefuse n 5 s
  else if n = 0 ∨ n = 1023 ∨ (low ∧ !srcCfgOk lo) then srcRefuse n 1 s
  else
    let s := if low then cfgPut n lo s else s
    raiseAll (if wide ∨ !low then w1cPut n hi s else s)

/-- A group given new thresholds (R279): the counts keep their values. A group that was always open and now has thresholds
closes once no member is pending. -/
def Grp.recfg (x : Grp) (v : Reg) (pending : Bool) : Grp :=
  let y := { x with cfg := setFld v 31 24 0 }
  if x.pass && !y.pass then (if pending then { y with opn := true } else { y with opn := false, ev := 0, timer := 0 }) else y

/-- A write of GCFG (R279). -/
def gcfgWrite (g : Nat) (v : Reg) (s : State) : State :=
  raiseAll (s.setGrp g ((s.grp g).recfg v (groupPending s g)))

/-- A write of ICUC.CTL (R283, R288). -/
def icucWrite (n : Nat) (v : Reg) (s : State) : State :=
  raiseAll (s.setIcuc n { s.icucOf n with nmask := bit v 0, fmask := bit v 1 })

end Sys2Proof.Machine
end

