-- ==== Sys2Proof/Machine/Operands.lean ====
section
/-! DEFINITION. Bundles and operands of the Henrel cores: the boot ROM that the fetch side reads, syllables and their
legality, immediates, and the operand stack (R43 to R49, R56, R64 to R81, R224, R379). -/

namespace Sys2Proof.Machine

/-! ## Syllables (R64 to R66) -/

def sylUnit (w : Nat) : Nat := w / 2 ^ 12 % 8
def sylOp (w : Nat) : Nat := w % 2 ^ 12
def sylStop (w : Nat) : Bool := decide (w / 2 ^ 15 % 2 = 1)

/-- A syllable with the EXT syllables that extend it (R69). -/
structure Syl where
  unit : Nat
  op   : Nat
  ext  : List Nat := []
  deriving DecidableEq, Repr

/-- A syllable word without its EXT. -/
def sylWord (w : Nat) : Syl := ⟨sylUnit w, sylOp w, []⟩

/-- Attach runs of EXT to the syllable before them. -/
def attach : List Syl → Option Syl → List Syl → List Syl × Bool
  | [], none, acc => (acc, true)
  | [], some c, acc => (acc ++ [c], true)
  | y :: t, cur, acc =>
    if y.unit = 5 then
      match cur with
      | some c => attach t (some { c with ext := c.ext ++ [y.op] }) acc
      | none =>
        let r := attach t none acc
        (r.1, false)
    else match cur with
      | some c => attach t (some y) (acc ++ [c])
      | none => attach t (some y) acc

/-- The CSR numbers that CSRR may name, and those that CSRW may name (R42, R101). -/
def csrReadable (k : Nat) : Bool := decide (k ≤ 0x12) || decide (0x20 ≤ k ∧ k ≤ 0x25)
def csrWritable (k : Nat) : Bool := [0x00, 0x06, 0x07, 0x08, 0x22, 0x23].contains k

/-- The context register numbers of BANKR and BANKW (R102). -/
def bankReg (k : Nat) : Bool := decide (k ≤ 0x20) || decide (0x28 ≤ k ∧ k ≤ 0x2F)

/-- Is the mask or item word absent or defined? -/
def wordOk (e : List Nat) (f : Nat → Bool) : Bool := match e with | w :: _ => f w | [] => true

/-- Is the syllable defined by its encoding? (R65, R66, R72, R74, R77, R79 to R81, R83, R85) -/
def sylLegal (y : Syl) : Bool :=
  let o := y.op
  match y.unit with
  | 0 =>
    decide (o ≤ 0x007) || decide (0x100 ≤ o ∧ o < 0x300) || decide (0x300 ≤ o ∧ o < 0x320) || decide (0x400 ≤ o ∧ o ≤ 0x40D)
      || decide (0x500 ≤ o ∧ o ≤ 0x503) || decide (0x600 ≤ o ∧ o < 0x608) || decide (0x700 ≤ o ∧ o < 0x708) || decide (0x800 ≤ o)
  | 1 => decide (o ≤ 0x008) || decide (0x010 ≤ o ∧ o ≤ 0x014) || decide (0x100 ≤ o ∧ o ≤ 0x103) || decide (0x200 ≤ o ∧ o ≤ 0x205)
  | 2 =>
    if o < 0x400 then decide (o % 2 ^ 7 = 0)
    else if o < 0x800 then decide (o % 2 ^ 4 = 0)
    else if o < 0xC00 then true
    else
      let n := o / 2 ^ 4 % 8
      decide (o = 0xC00) || (decide (0xC80 ≤ o ∧ o ≤ 0xCF0) && decide (o % 16 = 0))
        || (decide (0xD00 ≤ o ∧ o ≤ 0xDF0) && decide (o % 16 = 0) && wordOk y.ext fun w => decide (w ≠ 0) && !w.testBit n)
        || (decide (0xE00 ≤ o ∧ o ≤ 0xEF0) && decide (o % 16 = 0) && wordOk y.ext fun w => decide (w ≠ 0))
        || decide (o = 0xF00)
  | 3 =>
    if o < 0x800 then true
    else if o < 0xA00 then wordOk y.ext fun w => decide (w < 256)
    else if o < 0xA40 then csrReadable (o % 64)
    else if 0xB00 ≤ o ∧ o < 0xB40 then csrWritable (o % 64)
    else if 0xC00 ≤ o ∧ o < 0xC40 then bankReg (o % 64)
    else if 0xD00 ≤ o ∧ o < 0xD40 then bankReg (o % 64)
    else if o = 0xE00 then wordOk y.ext fun w => decide (w < 256)
    else decide (o = 0xE40) || decide (o = 0xE80) || decide (o = 0xEC0) || decide (0xF00 ≤ o)
  | 4 => decide (o ≤ 0x006)
  | 5 => true
  | 6 => decide (o = 0x000) || decide (0x100 ≤ o ∧ o ≤ 0x107)
  | _ => false

/-- The least and greatest number of EXT syllables that a syllable accepts (R69, R73, R78, R79, R81). -/
def extRange (y : Syl) : Nat × Nat :=
  let o := y.op
  match y.unit with
  | 0 => if 0x200 ≤ o ∧ o < 0x300 then (1, 3) else if 0x800 ≤ o then (0, 3) else (0, 0)
  | 2 => if 0x800 ≤ o ∧ o < 0xC00 then (0, 3) else if 0xD00 ≤ o ∧ o < 0xF00 then (1, 1) else (0, 0)
  | 3 => if o < 0x800 then (0, 3) else if o < 0xA00 then (1, 3) else if o = 0xE00 then (1, 1) else (0, 0)
  | _ => (0, 0)

/-- A decoded bundle: its syllables by unit, its prefix, its length in bytes. -/
structure Bundle where
  s   : Option Syl := none
  x   : Option Syl := none
  m   : Option Syl := none
  c   : Option Syl := none
  v   : Option Syl := none
  pfx : Option Nat := none
  len : Nat := 0
  deriving DecidableEq, Repr

/-- The syllable of a unit. -/
def unitOf (l : List Syl) (u : Nat) : Option Syl := l.find? fun y => decide (y.unit = u)

/-- Is a list of syllables a legal bundle? (R68) `rpt` says that it is repeated. -/
def bundleLegal (ws : List Nat) (l : List Syl) (first rpt : Bool) : Bool :=
  first && [0, 1, 2, 3, 4].all (fun u => decide ((l.filter fun y => decide (y.unit = u)).length ≤ 1))
    && decide ((l.filter fun y => decide (y.unit = 6)).length ≤ 1)
    && (match l with | _ :: t => t.all fun y => decide (y.unit ≠ 6) | [] => true)
    && decide ((ws.filter fun w => decide (sylUnit w = 5)).length ≤ 3)
    && l.all (fun y => decide ((extRange y).1 ≤ y.ext.length) && decide (y.ext.length ≤ (extRange y).2))
    && !(rpt && l.any fun y => decide (y.unit = 3) || decide (y.unit = 6))

/-- Decoding of a bundle (R65 to R70): its fault code, or its syllables. -/
def decodeBundle (ws : List Nat) (rpt : Bool) : Except Nat Bundle :=
  let a := attach (ws.map sylWord) none []
  if ws.any fun w => decide (sylUnit w = 7) then .error 0x01
  else if !a.1.all sylLegal then .error 0x01
  else if !bundleLegal ws a.1 a.2 rpt then .error 0x02
  else .ok { s := unitOf a.1 0, x := unitOf a.1 1, m := unitOf a.1 2, c := unitOf a.1 3, v := unitOf a.1 4,
             pfx := (unitOf a.1 6).map Syl.op, len := 2 * ws.length }

/-- Sign extension of a `b`-bit value to a word. -/
def sext (b v : Nat) : Word := BitVec.ofInt 64 (if v % 2 ^ b < 2 ^ (b - 1) then (v % 2 ^ b : Nat) else ((v % 2 ^ b : Nat) : Int) - (2 ^ b : Nat))

/-- The immediate of a field of `b` bits with its EXT syllables (R69). -/
def immOf (b v : Nat) (ext : List Nat) : Word :=
  sext (b + 12 * ext.length) (v % 2 ^ b + 2 ^ b * ext.foldr (fun e n => e + 4096 * n) 0)

/-! ## Fetch (R46, R67) -/

/-- The bundles of the boot ROM that the spec describes (R224, R379): the boot stub, and the WAIT loops of the vectors.
The rest of the code region is free. -/
def romSyl (o : Nat) : Nat :=
  if o < 0x18 then
    lget 0 [0x8100, 0xA180, 0x8000, 0x0001, 0xB206, 0x3802, 0xD000, 0xBB22, 0xBE40, 0x8002, 0xBEC0, 0xB1F5] (o / 2)
  else if 0x200 ≤ o ∧ o < 0x440 ∧ o % 32 = 0 then 0xBEC0
  else if 0x200 ≤ o ∧ o < 0x440 ∧ o % 32 = 2 then 0xB1FF
  else (Config.romByte o).toNat + 256 * (Config.romByte (o + 1)).toNat

/-- What reading one syllable gives: it, a fault with its address, or a wait. -/
inductive FetchOut where
  | syl (w : Nat)
  | fault (code : Nat)
  | wait
  deriving DecidableEq, Repr

/-- Does logical core `n` own physical bank `b`? (R228) -/
def coreOwns (s : State) (n b : Nat) : Bool := decide ((ownerOf s b).toNat = n)

/-- A syllable read by core `n` at level and tag `lj` (R46, R229, R234, R315). -/
def fetchSyl (n : Nat) (lj : BitVec 2 × BitVec 8) (a : Nat) (s : State) : State × FetchOut :=
  if a < 0x1000000 then
    match spIndex s a with
    | none => (s, .fault 0x07)
    | some w =>
      let b := w / 32768
      if !spOk s w lj then (countPriv s, .fault 0x0A)
      else if !bankOpen s b (coreOwns s n b) then (addDemand (domBank b) s, .wait)
      else
        let r := spRead (addDemand (domBank b) s) w
        if r.2.2 then (r.1, .fault 0x0C) else (r.1, .syl (fld r.2.1 63 0 / 2 ^ (8 * (a % 8)) % 2 ^ 16))
  else if 0x20000000 ≤ a ∧ a < 0x20010000 then (s, .syl (romSyl (a - 0x20000000)))
  else (s, .fault 0x07)

/-- The syllables of a bundle at `a`, at most `k` of them (R67). -/
def fetchBundle (n : Nat) (lj : BitVec 2 × BitVec 8) : Nat → Nat → State → State × Except (Option (Nat × Nat)) (List Nat)
  | 0, _, s => (s, .error (some (0x02, 0)))
  | k + 1, a, s =>
    let r := fetchSyl n lj a s
    match r.2 with
    | .wait => (r.1, .error none)
    | .fault c => (r.1, .error (some (c, a)))
    | .syl w =>
      if sylStop w then (r.1, .ok [w])
      else
        let t := fetchBundle n lj k (a + 2) r.1
        match t.2 with
        | .ok ws => (t.1, .ok (w :: ws))
        | .error e => (t.1, .error e)

/-! ## The operand stack (R44, R45, R49) -/

/-- A value on the operand stack: its bits, the data that will land in it, and whether it depends on a far load of the
bundle. -/
structure Cell where
  v    : Word
  mark : Option Mark := none
  dep  : Bool := false
  deriving DecidableEq, Repr

/-- A context at work in a bundle: `dep` lists the operand cells that depend on the bundle's far load. -/
structure Work where
  c   : Ctx
  dep : List Nat := []
  deriving DecidableEq, Repr

/-- Cells that are spilled (R45). -/
def Ctx.spilled (c : Ctx) : Nat := (c.osp.toNat - c.osbase.toNat) / 8
/-- Capacity of the operand stack (R44). -/
def Ctx.capacity (c : Ctx) : Nat := 32 + (c.oslimit.toNat - c.osbase.toNat) / 8
def Ctx.resident (c : Ctx) : Nat := c.depth.toNat - c.spilled

/-- Do DEPTH, OSP and the bounds agree? (R103) -/
def Ctx.consistent (c : Ctx) : Bool :=
  decide (c.osbase.toNat ≤ c.osp.toNat) && decide (c.osp.toNat ≤ max c.oslimit.toNat c.osbase.toNat) && decide (c.spilled ≤ c.depth.toNat)
    && decide (c.depth.toNat - c.spilled ≤ 32) && decide (c.osp.toNat % 8 = c.osbase.toNat % 8)

/-- The content of operand cell `p`. -/
def Ctx.cell (c : Ctx) (p : Nat) : Word := tget zeroD c.cells (p % 32)

/-- A cell pushed. DEPTH has 16 bits, and a push at 0xFFFF wraps it to 0 (DESIGN CHOICE, assumption 140). -/
def Work.push (w : Work) (x : Cell) : Work :=
  let p := w.c.depth.toNat
  { c := { w.c with depth := w.c.depth + 1, cells := tset zeroD (p % 32) x.v w.c.cells,
                    marks := match x.mark with | some m => w.c.marks ++ [{ m with cell := p }] | none => w.c.marks },
    dep := if x.dep then p :: w.dep else w.dep }

/-- A cell popped; a pending value that is popped loses its mark with it. -/
def Work.pop (w : Work) : Work × Cell :=
  let p := w.c.depth.toNat - 1
  let m := w.c.marks.find? fun m => decide (m.cell = p)
  ({ c := { w.c with depth := w.c.depth - 1, marks := w.c.marks.filter fun m => decide (m.cell ≠ p) },
     dep := w.dep.filter fun q => decide (q ≠ p) },
   ⟨w.c.cell p, m, w.dep.contains p⟩)

/-- `k` cells popped, the deepest first in the answer. -/
def Work.popN : Nat → Work → Work × List Cell
  | 0, w => (w, [])
  | k + 1, w =>
    let r := w.pop
    let t := Work.popN k r.1
    (t.1, t.2 ++ [r.2])

def Work.pushAll (l : List Cell) (w : Work) : Work := l.foldl Work.push w

/-- A plain value that depends on the far load if `d`. -/
def plain (v : Word) (d : Bool := false) : Cell := ⟨v, none, d⟩

/-- A pending near load pushed: the cell keeps its stale content (R49). -/
def Work.pushPending (w : Work) (d : Word) : Work :=
  let p := w.c.depth.toNat
  { w with c := { w.c with depth := w.c.depth + 1, marks := w.c.marks ++ [⟨p, d, false⟩] } }

/-- The data of a mark lands (R49). -/
def Ctx.landMark (c : Ctx) (m : Mark) : Ctx :=
  { c with cells := tset zeroD (m.cell % 32) m.data c.cells, marks := c.marks.filter fun k => decide (k ≠ m) }

/-- Every pending near load lands. -/
def Ctx.landAll (c : Ctx) : Ctx := c.marks.foldl Ctx.landMark c

/-- Those that land before the next bundle land, and the others will before the one after it. -/
def Ctx.landDue (c : Ctx) : Ctx :=
  let c := (c.marks.filter Mark.late).foldl Ctx.landMark c
  { c with marks := c.marks.map fun m => { m with late := true } }

/-- What the operand stack says of a syllable that pops `p` cells and then pushes `u` (R44, R45). -/
inductive StackOut where
  | ok
  | fault (code : Nat)
  | need (want : BitVec 2)
  deriving DecidableEq, Repr

def stackCheck (c : Ctx) (p u : Nat) : StackOut :=
  let d := c.depth.toNat
  if d < p then .fault 0x04
  else if c.capacity < d - p + u then .fault 0x03
  else if d - p < c.spilled then .need 2
  else if 32 < d - p + u - c.spilled then .need 1
  else .ok

end Sys2Proof.Machine
end

