-- ==== Sys2Proof/Machine/Contexts.lean ====
section
/-! DEFINITION. Contexts of a core: the units that complete into them, boundaries, fault entry, ended contexts and their
save, and the spill engine (R45, R49, R52, R53, R60, R62, R87 to R100). -/

namespace Sys2Proof.Machine

/-! ## Contexts and registers (R87, R41) -/

/-- Does core `n` have context `k`? (R87) -/
def ctxExists (n k : Nat) : Bool := decide (k = 0x40) || decide (k < (if n % 4 = 0 then 64 else 2))

/-- Has BLK.RUN released core `n`? (R379) -/
def released (s : State) (n : Nat) : Bool := bit s.blk.run n

/-- FLAGS of a context as it reads (R43): MBUSY, DBUSY and RSV of the executing context follow the units. -/
def liveFlags (c : CoreSt) (x : Nat) (f : Word) : Word :=
  if c.cur = some x then
    let m := match c.mul with | some m => decide (m.ctx = x) | none => false
    let d := match c.div with | some m => decide (m.ctx = x) | none => false
    let r := match c.lock with | some l => l.held | none => false
    setBit (setBit (setBit f 10 m) 11 d) 13 r
  else f

/-- FLAGS of context `x`. -/
def flagsOf (c : CoreSt) (x : Nat) : Word := liveFlags c x (c.ctx x).flags

/-- CTXLVL of a context (R42). -/
def Ctx.lvl (c : Ctx) : Word := BitVec.ofNat 64 (c.level.toNat + c.tag.toNat * 2 ^ 8)

/-- DBGOK of context `x` of core `n` (R335). -/
def dbgOk (s : State) (n x : Nat) : Bool := bit (tget zeroD (s.dbgcOf n).dbgok (x / 32)) (x % 32)

/-- Is the context open to the debugger under the level table of R324? -/
def debugCtxOk (s : State) (n x : Nat) : Bool :=
  !s.sec.lcField || decide ((s.ctx n x).level = 1) || (decide ((s.ctx n x).level = 2) && dbgOk s n x)

/-! ## Completion of a multiply, a divide and near loads -/

/-- The product of a multiply, high and low half (R52). -/
def mulResult (m : MulDiv) : Word × Word :=
  let p : Int := if m.signed then m.n.toInt * m.t.toInt else (m.n.toNat * m.t.toNat : Nat)
  (BitVec.ofInt 64 (p / 2 ^ 64), BitVec.ofInt 64 p)

/-- Quotient, remainder and whether the divisor was zero (R53). -/
def divResult (m : MulDiv) : Word × Word × Bool :=
  if m.t = 0 then (BitVec.allOnes 64, m.n, true)
  else if m.signed then (BitVec.ofInt 64 (m.n.toInt.tdiv m.t.toInt), BitVec.ofInt 64 (m.n.toInt.tmod m.t.toInt), false)
  else (BitVec.ofNat 64 (m.n.toNat / m.t.toNat), BitVec.ofNat 64 (m.n.toNat % m.t.toNat), false)

/-- The multiply in progress writes PHI and PLO. -/
def CoreSt.endMul (c : CoreSt) : CoreSt :=
  match c.mul with
  | none => c
  | some m => { c.setCtx m.ctx { c.ctx m.ctx with phi := (mulResult m).1, plo := (mulResult m).2 } with mul := none }

/-- The divide in progress writes QUO, REM and IDZ. -/
def CoreSt.endDiv (c : CoreSt) : CoreSt :=
  match c.div with
  | none => c
  | some m =>
    let r := divResult m
    let x := c.ctx m.ctx
    { c.setCtx m.ctx { x with quo := r.1, rem := r.2.1, flags := if r.2.2 then setBit x.flags 9 true else x.flags } with div := none }

/-- A fed bundle finishes once its interlocks have ended, its near loads have delivered, and what its MWAIT waits for
has completed (R330). -/
def fedSettle (n : Nat) (s : State) : State :=
  let d := s.dbgcOf n
  let c := s.core n
  let open_ := d.fissue || c.far.isSome || c.tcue.isSome || (c.ctxs.any fun y => !y.2.marks.isEmpty)
    || (c.mwait && (c.mul.isSome || c.div.isSome))
  if d.fbusy && !open_ then (s.setDbgc n { d with fbusy := false, fdone := true }).setCore n { c with mwait := false } else s

/-- `multiplyComplete` (R52). -/
def execMultiplyComplete (core : Fin 16) (s : State) : Out := .next (fedSettle core (s.setCore core (s.core core).endMul))

/-- `divideComplete` (R53). -/
def execDivideComplete (core : Fin 16) (s : State) : Out := .next (fedSettle core (s.setCore core (s.core core).endDiv))

/-- The context whose near loads are pending: the executing one, or that of a fed bundle. -/
def landCtx (c : CoreSt) : Option Nat :=
  match c.cur with
  | some x => if (c.ctx x).marks.isEmpty then (c.ctxs.find? fun y => !y.2.marks.isEmpty).map Prod.fst else some x
  | none => (c.ctxs.find? fun y => !y.2.marks.isEmpty).map Prod.fst

/-- `nearLoadLanding` (R49): the oldest pending near load of the core lands. -/
def execNearLoadLanding (core : Fin 16) (s : State) : Out :=
  match landCtx (s.core core) with
  | none => .next s
  | some x =>
    let c := s.ctx core x
    match c.marks with
    | [] => .next s
    | m :: _ => .next (fedSettle core (s.setCtx core x (c.landMark m)))

/-- The marks of a context all land before its next bundle. -/
def Ctx.late (c : Ctx) : Ctx := { c with marks := c.marks.map fun m => { m with late := true } }

/-! ## Boundaries (R59, R62, R285) -/

/-- Does the core's boundary allow an interrupt, a switch or a pause? (R62) -/
def boundaryOk (s : State) (n : Nat) : Bool :=
  let c := s.core n
  c.lock.isNone && c.far.isNone && c.tcue.isNone && c.saving.isNone &&
    match c.cur with
    | some x => (c.ctx x).marks.isEmpty && c.mul.isNone && c.div.isNone
    | none => true

/-- May the core act at all? It is released, awake, not paused and not halted, no lifecycle move runs, and the island has
a majority (R285, R318, R328, R346, R379). -/
def coreRuns (s : State) (n : Nat) : Bool :=
  released s n && coreAwake s n && !(s.core n).pause && !(s.dbgcOf n).halted && !s.sec.moving && !s.cullet.frozen

/-- Does a halt that takes effect at the next allowed boundary stand before the core? (R329, R331) -/
def haltDue (s : State) (n : Nat) : Bool := decide ((s.dbgcOf n).pend = some 3) || decide ((s.dbgcOf n).pend = some 4)

/-- The condition of a WAIT in context `x` (R84). -/
def waitCond (s : State) (n x : Nat) : Bool := nreq s n || freq s n || decide ((s.ctx n x).evt ≠ 0)

/-- The slot that a live handle names to a context of core `n`; none for a completed handle (R120). A value that is no 16-bit
handle is treated as a completed handle (DESIGN CHOICE, assumption 141). -/
def liveSlot (s : State) (n : Nat) (lj : BitVec 2 × BitVec 8) (h : Nat) : Option Nat :=
  let k := handleK h
  let t := s.slot (n / 4) k
  if 2 ^ 16 ≤ h ∨ handleQ h ≠ n / 4 ∨ takeDone s h ∨ (lj.1 = 2 ∧ (t.level ≠ lj.1 ∨ t.tag ≠ lj.2)) then none else some k

/-! ## Fault entry (R60, R92, R93) -/

/-- The address of the fault vector (R93). -/
def faultVector (c : CoreSt) (code : Nat) : Addr := c.fvbase + BitVec.ofNat 48 (0x20 * code)

/-- FLAGS after a fault entry: IE, RPT, LMACT and LMPROG clear (R93). -/
def entryFlags (f : Word) : Word := setFld (setBit (setBit (setBit f 31 false) 12 false) 14 false) 21 16 0

/-- The frame that a fault pushes (R89, R93). Slots 2 to 7 hold 0 (DESIGN CHOICE, assumption 142). -/
def faultFrame (fpc : Addr) (flags : Word) (rc : BitVec 32) : Frame :=
  { hdr := BitVec.ofNat 64 (fpc.toNat + 2 ^ 56), slots := tset zeroD 1 (rc.setWidth 64) (tset zeroD 0 flags []) }

/-- A bundle of context `x` has issued or faulted: a step ends, and its halt is pending (R329), and the bundle after a RESUME has
passed its break comparators. -/
def stepEnd (n x : Nat) (s : State) : State :=
  let d := s.dbgcOf n
  let d := { d with skipBrk := d.skipBrk && decide (d.ctx.toNat ≠ x) }
  s.setDbgc n (if d.stepping then { d with stepping := false, pend := if d.pend = some 4 then some 4 else some 3 } else d)

/-- A fault of the bundle at `fpc` in the executing context `x` (R60, R93): near loads, the multiply and the divide are
delivered, a reservation closes, and the handler is entered; a fault at RSDEPTH 64 ends the context (R92). -/
def faultEntry (n x code : Nat) (addr : Word) (fpc : Addr) (s : State) : State :=
  let c := (s.core n).endMul.endDiv
  let k := (c.ctx x).landAll
  let f := setBit (flagsOf c x) 13 false
  let c := { c with lock := none, far := none, tcue := none, twait := none, waitX := false, want := 0, mwait := false }
  stepEnd n x <| if 64 ≤ k.rsdepth.toNat then
    s.setCore n { c.setCtx x { k with flags := f, fcause := 0x05, faddr := 0, fpc := fpc } with saving := some x }
  else
    let d := k.rsdepth.toNat
    s.setCore n (c.setCtx x
      { k with flags := entryFlags f, fcause := BitVec.ofNat 8 code, faddr := addr, fpc := fpc, rc := 0,
               frames := tset frameInit d (faultFrame fpc f k.rc) k.frames, rsdepth := k.rsdepth + 1,
               guard := decide (60 < d + 1), pc := faultVector c code })

/-! ## Ended contexts (R100) -/

/-- The words of the save area before its frame slots: (byte offset, value). -/
def saveWords (c : CoreSt) (x : Nat) : List (Nat × Word) :=
  let k := c.ctx x
  let a := (List.range 8).map fun i => tget zeroD k.a i
  let h := [k.pc.setWidth 64] ++ a ++ [k.lc, k.rc.setWidth 64, k.phi, k.plo, k.quo, k.rem, flagsOf c x, k.osbase.setWidth 64,
    k.oslimit.setWidth 64, k.osp.setWidth 64, k.depth.setWidth 64, k.lvl, k.fcause.setWidth 64, k.faddr, k.fpc.setWidth 64,
    k.rsdepth.setWidth 64] ++ List.replicate 7 0
  h.zipIdx.map (fun y => (8 * y.2, y.1))
    ++ (List.range (min 32 k.resident)).map (fun i => (0x100 + 8 * i, k.cell (k.depth.toNat - 1 - i)))
    ++ (List.range k.rsdepth.toNat).map fun f => (0x200 + 8 * f, (tget frameInit k.frames f).hdr)

/-- Does slot `i` of a frame hold a value that the spec gives: a saved register of a CALL frame, or FLAGS or RC of a FAULT
frame? -/
def slotNamed (f : Frame) (i : Nat) : Bool :=
  match fld f.hdr 57 56 with
  | 0 => bit f.hdr (48 + i)
  | 1 => decide (i < 2)
  | _ => false

/-- Words of the save area written from its base word, by the core's own access. -/
def saveAt (n w : Nat) (l : List (Nat × Word)) (s : State) : State :=
  l.foldl (fun s y => spWriteBreak s (w + y.1 / 8) y.2 255 (some n)) s

/-- The frame slots of the save area; a slot that no mask names takes a free value. -/
def saveSlots (n w : Nat) (k : Ctx) (s : State) : State :=
  (List.range (8 * k.rsdepth.toNat)).foldl (fun s j =>
    let f := tget frameInit k.frames (j / 8)
    if slotNamed f (j % 8) then saveAt n w [(0x400 + 8 * j, tget zeroD f.slots (j % 8))] s
    else
      let d := drawFresh s
      saveAt n w [(0x400 + 8 * j, Config.frameSlot d.2)] d.1) s

/-- The physical word index of a save area that can be written, or none (R100). -/
def saveBase (s : State) (n : Nat) (a : Addr) : Option Nat :=
  if a = 0 ∨ a.toNat % 8192 ≠ 0 then none
  else match spIndex s a.toNat with
    | some w => if coreOwns s n (w / 32768) then some w else none
    | none => none

/-- EVT bit 30 of the task set that the quadrant's director names in FLTTASK (R97, R100). -/
def postEnded (n x : Nat) (s : State) : State :=
  let d := n / 4 * 4
  let t := fld (s.core d).cfgLive 13 8
  let st := (s.ctx d t).state
  if st = 0 ∨ st = 4 ∨ (d = n ∧ t = x) then s else postEvt d t 30 s

/-- Is context `x` one that an interrupt enters? (R95) -/
def entryCtx (c : CoreSt) (x : Nat) : Bool := decide (x = 0x40) || (decide (x = 1) && decide (c.mode = 0))

/-- What executes after context `x` of core `n` has ended (R100): the context that the bottom IRQ frame names, or none
until the scheduler or a request acts. -/
def afterEnd (c : CoreSt) (x : Nat) : Option Nat :=
  let f := (tget frameInit (c.ctx x).frames 0).hdr
  let y := fld f 6 0
  if entryCtx c x ∧ fld f 57 56 = 2 ∧ (c.ctx y).state = 2 then some y else none

/-- `contextSaveComplete` (R100): the save is written or fails, and the context has ended. It waits while its bank
does not serve the core. -/
def execContextSaveComplete (core : Fin 16) (s : State) : Out :=
  let n := core.val
  match (s.core n).saving with
  | none => .next s
  | some x =>
    let k := s.ctx n x
    let b := saveBase s n k.savea
    if b.any fun w => !bankOpen s (w / 32768) true then
      .next (match b with | some w => addDemand (domBank (w / 32768)) s | none => s)
    else
      let s := match b with
        | some w => saveSlots n w k (saveAt n w (saveWords (s.core n) x) (addDemand (domBank (w / 32768)) s))
        | none => s.setCore n { s.core n with savefail := true }
      let c := s.core n
      let nest := if entryCtx c x then c.nest - 1 else c.nest
      let c := { c.setCtx x { c.ctx x with state := 4 } with saving := none, tend := true, nest := nest, cur := afterEnd c x }
      .next (postEnded n x (logEv 0x15 1 (pgCore n) (x + n * 2 ^ 8) (s.setCore n c)))

/-! ## The spill engine (R45) -/

/-- May the engine of core `n` reach the word at core address `a`? The core owns its bank and the context is permitted
(R229, R315). -/
def spillWord (s : State) (n : Nat) (lj : BitVec 2 × BitVec 8) (a : Nat) : Option Nat :=
  match spIndex s a with
  | some w => if coreOwns s n (w / 32768) && spOk s w lj then some w else none
  | none => none

/-- One cell spilled: the deepest resident cell goes to OSP. -/
def spillOne (n w : Nat) (c : Ctx) (s : State) : State × Ctx :=
  (spWriteBreak s w (c.cell c.spilled) 255 (some n), { c with osp := c.osp + 8 })

/-- May the engine spill: the deepest resident cell is not pending and the region has room? -/
def maySpill (c : Ctx) : Bool :=
  decide (0 < c.resident) && !(c.marks.any fun m => decide (m.cell = c.spilled)) && decide (c.osp.toNat + 8 ≤ c.oslimit.toNat)

/-- A fault of a fed bundle (R330): it is not entered; FSTAT records it. -/
def fedFault (n code : Nat) (s : State) : State :=
  let c := s.core n
  let s := s.setCore n { c with far := none, tcue := none, want := 0 }
  fedSettle n (s.setDbgc n { s.dbgcOf n with ffault := true, fcause := BitVec.ofNat 8 code, fissue := false })

/-- Is the halted core able to execute a fed bundle? -/
def feedRuns (s : State) (n : Nat) : Bool :=
  (s.dbgcOf n).halted && (s.dbgcOf n).fissue && coreAwake s n && !s.sec.moving && !s.cullet.frozen

/-- The context whose stack the spill engine serves. -/
def spillCtx (s : State) (n : Nat) : Option Nat :=
  if feedRuns s n then some (s.dbgcOf n).fctx.toNat else if coreRuns s n && (s.core n).saving.isNone then (s.core n).cur else none

/-- `spillEngineMove` (R45): one cell spilled or filled. A fill that reads an uncorrectable word raises its fault at the
bundle at PC (R61); while a far access or a TCUE of the bundle at PC has not been answered the engine leaves such a word for
later, as that bundle did not need it. -/
def execSpillEngineMove (core : Fin 16) (s : State) : Out :=
  let n := core.val
  let k := s.core n
  match spillCtx s n with
  | none => .next s
  | some x =>
    let c := k.ctx x
    if !c.consistent then .next s
    else if k.want ≠ 2 ∧ (24 < c.resident ∨ k.want = 1) ∧ maySpill c then
      match spillWord s n (c.level, c.tag) c.osp.toNat with
      | none => .next s
      | some w =>
        if !bankOpen s (w / 32768) true then .next (addDemand (domBank (w / 32768)) s)
        else
          let r := spillOne n w c (addDemand (domBank (w / 32768)) s)
          .next (r.1.setCtx n x r.2)
    else if k.want ≠ 1 ∧ (c.resident < 8 ∨ k.want = 2) ∧ 0 < c.spilled ∧ c.resident < 32 then
      match spillWord s n (c.level, c.tag) (c.osp.toNat - 8) with
      | none => .next s
      | some w =>
        if !bankOpen s (w / 32768) true then .next (addDemand (domBank (w / 32768)) s)
        else if (k.far.isSome || k.tcue.isSome) && decide ((spPeek s w).2 = .double) then .next s
        else
          let r := spRead (addDemand (domBank (w / 32768)) s) w
          if r.2.2 then .next (if feedRuns s n then fedFault n 0x0C r.1 else faultEntry n x 0x0C ((c.osp - 8).setWidth 64) c.pc r.1)
          else .next (r.1.setCtx n x { c with osp := c.osp - 8, cells := tset zeroD ((c.spilled - 1) % 32) r.2.1 c.cells })
    else .next s

end Sys2Proof.Machine
end

