-- ==== Sys2Proof/Machine/Permit.lean ====
section
/-! DEFINITION. Who may use the control space: the pages and table windows, their owners, and the privilege check of an
access at a control-space offset (R25, R29, R30, R34, R205, R314 to R316, R324). -/

namespace Sys2Proof.Machine

/-- The pages of R29. -/
inductive PageId where
  | blk | core (n : Nat) | chain (p : Nat) | quad (q : Nat) | pgrp (g : Nat) | sbank (b : Nat) | icu | icuc (n : Nat) | mtime
  | cue | timer (p : Nat) | pau | pseq | sec | dbg | dbgc (n : Nat) | ras | cullet | pert | fuse | steer | hotmon
  deriving DecidableEq, Repr

/-- The page of a page number; `none` is unmapped (R29). -/
def pageOf (g : Nat) : Option PageId :=
  if g = 0 then some .blk
  else if g < 0x011 then some (.core (g - 1))
  else if 0x020 ≤ g ∧ g < 0x064 then some (.chain (g - 0x020))
  else if 0x070 ≤ g ∧ g < 0x074 then some (.quad (g - 0x070))
  else if 0x080 ≤ g ∧ g < 0x0A1 then some (.pgrp (g - 0x080))
  else if 0x0B0 ≤ g ∧ g < 0x0F4 then some (.sbank (g - 0x0B0))
  else if g = 0x100 then some .icu
  else if 0x101 ≤ g ∧ g < 0x111 then some (.icuc (g - 0x101))
  else if g = 0x120 then some .mtime
  else if g = 0x121 then some .cue
  else if g = 0x122 ∨ g = 0x123 then some (.timer (g - 0x122))
  else if g = 0x130 then some .pau
  else if g = 0x131 then some .pseq
  else if g = 0x140 then some .sec
  else if g = 0x141 then some .dbg
  else if 0x142 ≤ g ∧ g < 0x152 then some (.dbgc (g - 0x142))
  else if g = 0x160 then some .ras
  else if g = 0x161 then some .cullet
  else if g = 0x162 then some .pert
  else if g = 0x163 then some .fuse
  else if g = 0x170 then some .steer
  else if g = 0x171 then some .hotmon
  else none

/-- An access on the control crossbar: level and job tag, whether the debug port makes it (the owners of the DBG and DBGC
pages do not bind it), whether it peeks (R33, R365), and the byte enables of a control-port beat. -/
structure Acc where
  lj   : BitVec 2 × BitVec 8
  dbg  : Bool := false
  peek : Bool := false
  be   : Nat := 15
  deriving DecidableEq, Repr

/-- May the writer set POWN to `v`? (R316) -/
def pownWriteOk (s : State) (g : Nat) (lj : BitVec 2 × BitVec 8) (v : Reg) : Bool :=
  let lvl := fun (x : Nat) => decide (x = 1 ∨ x = 2)
  decide (lj.1 = 0) || (decide (lj.1 = 1) && lvl (s.header g).level.toNat && lvl (fld v 1 0))

/-- The registers that only MACHINE may write, whatever POWN holds (R225, R239, R316, R352, R357, R382). -/
def machineOnly (k : PageId) (off : Nat) : Bool :=
  match k with
  | .sec => true
  | .cullet => decide (0x400 ≤ off)
  | .quad _ => decide (off = 0x480 ∨ off = 0x488 ∨ (0x48C ≤ off ∧ off < 0x4A0))
  | .sbank _ => decide (off = 0x424)
  | .blk => decide (off = 0x410)
  | .fuse => decide (off = 0x404)
  | _ => false

/-- Is the requester permitted on the page's register? (R314, R316, R324) -/
def mayTouch (s : State) (a : Acc) (g : Nat) (k : PageId) : Bool :=
  pownOk s g a.lj || (a.dbg && (match k with | .dbg => true | .dbgc _ => true | _ => false))

/-- Check 1 of R34 for a write. -/
def mayWrite (s : State) (a : Acc) (g : Nat) (k : PageId) (off : Nat) (v : Reg) : Bool :=
  mayTouch s a g k && (!machineOnly k off || decide (a.lj.1 = 0)) && (decide (off / 4 ≠ 3) || pownWriteOk s g a.lj v)

/-- The table windows. -/
inductive Win where
  | bst | cue | src | dom | store (q : Nat)
  deriving DecidableEq, Repr

/-- The window of a control-space offset, with the offset in it. -/
def winOf (o : Nat) : Option (Win × Nat) :=
  if 0x1000000 ≤ o ∧ o < 0x1200000 then some (.bst, o - 0x1000000)
  else if 0x1200000 ≤ o ∧ o < 0x1210000 then some (.cue, o - 0x1200000)
  else if 0x1210000 ≤ o ∧ o < 0x1212000 then some (.src, o - 0x1210000)
  else if 0x1220000 ≤ o ∧ o < 0x1221000 then some (.dom, o - 0x1220000)
  else if 0x1400000 ≤ o ∧ o < 0x1500000 then some (.store ((o - 0x1400000) / 0x40000), (o - 0x1400000) % 0x40000)
  else none

/-- Does the window's owner permit the requester? Reads of the microcode store are open to every level (R205, R314). -/
def winOk (s : State) (a : Acc) (wr : Bool) : Win → Bool
  | .bst => bstOk s a.lj
  | .cue => pownOk s pgCue a.lj
  | .src => pownOk s pgIcu a.lj
  | .dom => pownOk s pgPseq a.lj
  | .store _ => !wr || decide (a.lj.1 = 0)

/-- Is the requester permitted on what stands at control-space offset `o`? (R70, R315) A write is of `wr`. An offset that
names no page and no window has no owner. -/
def csPermit (s : State) (a : Acc) (o : Nat) (wr : Option Reg) : Bool :=
  if o < 0x1000000 then
    match pageOf (o / 0x1000) with
    | none => true
    | some k => match wr with
      | some v => mayWrite s a (o / 0x1000) k (o % 0x1000) v
      | none => decide (o % 0x1000 < 0x18) || mayTouch s a (o / 0x1000) k
  else match winOf o with
  | some w => winOk s a wr.isSome w.1
  | none => true

end Sys2Proof.Machine
end

