-- ==== Sys2Proof/Machine/Syllables.lean ====
section
/-! DEFINITION. What the syllables of a bundle do, in the canonical order M, S, X, V, C and then the prefix, as a function
of the state before the bundle (R39, R44, R47 to R58, R60, R70 to R86, R90 to R96, R101 to R103, R118 to R121). -/

namespace Sys2Proof.Machine

/-- An M-unit access, for the watch comparators (R331). -/
structure Access where
  addr : Nat
  size : Nat
  ld   : Bool
  st   : Bool
  deriving DecidableEq, Repr

/-- What a bundle is evaluated in: core, context, its address, the state before it, whether it was fed (R330), the
bundle, the answer of its far access once performed, whether a TCUE arms now, whether a wait counts as met, and whether only
the condition of a wait is looked up, so that nothing of the bundle waits for a bank, for the fabric or for room. -/
structure BEnv where
  n    : Nat
  x    : Nat
  at_  : Addr
  s0   : State
  fed  : Bool := false
  b    : Bundle
  far  : Option Word := none
  arm  : Bool := false
  post : Bool := false
  look : Bool := false

/-- A bundle under way: the state but for the executing context, that context at work, a transfer of control, whether the
next bundle comes later than the next BCLK, the accesses made, the far access and the TCUE that it asks for, the context
that resumes after RETI, whether STC acted, and whether MWAIT holds the next bundle. -/
structure Run where
  s     : State
  w     : Work
  jump  : Option Addr := none
  slow  : Bool := false
  acc   : List Access := []
  far   : Option FarAcc := none
  tcue  : Option (Nat × Word) := none
  back  : Option (Option Nat) := none
  stc   : Bool := false
  mwait : Bool := false

/-- What evaluating syllables gives: they acted, a fault with its state, code and FADDR, a stall, or a wait whose
condition does not hold, with the handle of a TWAIT (R84). -/
inductive Ev where
  | ok (r : Run)
  | fault (code : Nat) (addr : Word) (s : State)
  | stall (s : State)
  | held (h : Option Nat)

def Ev.bind (e : Ev) (f : Run → Ev) : Ev :=
  match e with
  | .ok r => f r
  | .fault c a s => .fault c a s
  | .stall s => .stall s
  | .held h => .held h

/-- Level and job tag of the executing context (R313). -/
def Run.lj (r : Run) : BitVec 2 × BitVec 8 := (r.w.c.level, r.w.c.tag)

def BEnv.pc (e : BEnv) : Word := e.at_.setWidth 64

/-! ## Debug comparators (R331, R335) -/

def State.cmp (s : State) (n k : Nat) : Cmp := tget cmpInit (s.dbgcOf n).cmps k
def Cmp.kind (c : Cmp) : Nat := fld c.cfg 2 0
def Cmp.mask (c : Cmp) : Nat := fld c.cfg 21 16
def Cmp.addr (c : Cmp) : Nat := c.lo.toNat + 2 ^ 32 * fld c.hi 15 0

/-- May the comparator match in context `x`? -/
def Cmp.inCtx (c : Cmp) (x : Nat) : Bool := !bit c.cfg 22 || decide (fld c.cfg 30 24 = x)

/-- Does a break comparator match a bundle at `a`? -/
def Cmp.breaks (c : Cmp) (a : Nat) : Bool := decide (c.kind = 1) && decide (a / 2 ^ c.mask = c.addr / 2 ^ c.mask)

/-- Does a watch comparator match an access? -/
def Cmp.watches (c : Cmp) (y : Access) : Bool :=
  let b := c.addr / 2 ^ c.mask * 2 ^ c.mask
  ((decide (c.kind = 2) && y.ld) || (decide (c.kind = 3) && y.st) || (decide (c.kind = 4) && (y.ld || y.st)))
    && decide (y.addr < b + 2 ^ c.mask) && decide (b < y.addr + y.size)

/-- The comparators of core `n` that match in context `x`, lowest first. -/
def cmpHits (s : State) (n x : Nat) (f : Cmp → Bool) : List Nat :=
  if !debugCtxOk s n x then []
  else (List.range 8).filter fun k => (s.cmp n k).inCtx x && f (s.cmp n k)

/-- Every match sets MATCHED, and CMPEVT with ACTION event. -/
def cmpMark (n : Nat) (hits : List Nat) (s : State) : State :=
  let d := s.dbgcOf n
  let set := fun (t : Tab Cmp) k => tset cmpInit k { tget cmpInit t k with cfg := setBit (tget cmpInit t k).cfg 31 true } t
  let s := s.setDbgc n { d with cmps := hits.foldl set d.cmps }
  if hits.any fun k => bit (s.cmp n k).cfg 3 then s.setDbg { s.dbg with cmpevt := true } else s

/-- The lowest match with ACTION halt. -/
def cmpHalt (s : State) (n : Nat) (hits : List Nat) : Option Nat := hits.find? fun k => !bit (s.cmp n k).cfg 3

/-- A comparator's halt is pending: CAUSE will record it, and CMPN the lowest at one boundary. -/
def pendCmp (n k : Nat) (s : State) : State :=
  let d := s.dbgcOf n
  let k := if d.pend = some 4 then min k d.pcmpn.toNat else k
  s.setDbgc n { d with pend := some 4, pcmpn := BitVec.ofNat 3 k, byDbg := d.byDbg || d.pend.isNone }

/-- The watch comparators after the accesses of a bundle. -/
def watch (e : BEnv) (acc : List Access) (s : State) : State :=
  if e.fed then s
  else
    let hits := cmpHits s e.n e.x fun c => acc.any c.watches
    let s := cmpMark e.n hits s
    match cmpHalt s e.n hits with
    | some k => pendCmp e.n k s
    | none => s

/-! ## The operand stack (R44, R45) -/

/-- The bundle's S syllable is a PICK: the cell it reads may have to be spilled for its push. -/
def BEnv.picks (e : BEnv) : Bool := match e.b.s with | some y => decide (0x300 ≤ y.op ∧ y.op < 0x320) | none => false

/-- A stall for the spill engine, or the fault of a region that the engine may not reach (R229, R315). A push of a PICK
bundle spills the deepest cell, which has been read, in the same step. -/
def spillNeed (e : BEnv) (want : BitVec 2) (r : Run) (k : Run → Ev) : Ev :=
  let c := r.w.c
  let a := if want = 2 then c.osp.toNat - 8 else c.osp.toNat
  match spIndex e.s0 a with
  | none => .fault 0x07 (c.osp.setWidth 64) e.s0
  | some w =>
    if !spOk e.s0 w r.lj then .fault 0x0A (c.osp.setWidth 64) (countPriv e.s0)
    else if !coreOwns e.s0 e.n (w / 32768) then .fault 0x07 (c.osp.setWidth 64) e.s0
    else if want = 1 ∧ e.picks ∧ maySpill c ∧ bankOpen e.s0 (w / 32768) true then
      let y := spillOne e.n w c (addDemand (domBank (w / 32768)) r.s)
      k { r with s := y.1, w := { r.w with c := y.2 } }
    else if want = 1 ∧ e.look then k r
    else .stall (e.s0.setCore e.n { e.s0.core e.n with want := want })

/-- The stack check of a syllable that pops `p` and pushes `u` cells. -/
def stackNeed (e : BEnv) (p u : Nat) (r : Run) (k : Run → Ev) : Ev :=
  match stackCheck r.w.c p u with
  | .ok => k r
  | .fault c => .fault c (if c = 3 then r.w.c.osp.setWidth 64 else 0) e.s0
  | .need w => spillNeed e w r k

def Run.push (r : Run) (x : Cell) : Run := { r with w := r.w.push x }
def Run.setCtx (r : Run) (c : Ctx) : Run := { r with w := { r.w with c := c } }

/-- Address register An. -/
def Ctx.getA (c : Ctx) (i : Nat) : Word := tget zeroD c.a i
def Ctx.setA (c : Ctx) (i : Nat) (v : Word) : Ctx := { c with a := tset zeroD i v c.a }

/-! ## M unit (R46 to R51, R57, R58, R77 to R80) -/

def mStore (o : Nat) : Bool := o.testBit 9
def mSize (o : Nat) : Nat := 2 ^ (o / 2 ^ 7 % 4)
def mReg (o : Nat) : Nat := o / 16 % 8
/-- Is the syllable STC, LDM, STM or FENCE? (R79) -/
def mStc (o : Nat) : Bool := decide (0xC00 ≤ o ∧ o < 0xD00)
def mLdm (o : Nat) : Bool := decide (0xD00 ≤ o ∧ o < 0xE00)
def mStm (o : Nat) : Bool := decide (0xE00 ≤ o ∧ o < 0xF00)
def mFence (o : Nat) : Bool := decide (0xF00 ≤ o)
/-- Is the address popped from the stack? -/
def mPopsAddr (o : Nat) : Bool := decide (o < 0x400) || decide (o = 0xC00)

/-- The address of an M syllable, T being the top cell (R47, R79). -/
def mAddr (y : Syl) (c : Ctx) (t : Word) : Word :=
  if mPopsAddr y.op then t
  else if 0x800 ≤ y.op ∧ y.op < 0xC00 then c.getA (mReg y.op) + BitVec.ofNat 64 (mSize y.op) * immOf 4 (y.op % 16) y.ext
  else c.getA (mReg y.op)

/-- The class of a core address (R46). -/
inductive Area where
  | near
  | atomic
  | control
  | rom
  | main
  | unmapped
  deriving DecidableEq, Repr

def areaOf (a : Nat) : Area :=
  if a < 0x1000000 then .near
  else if a < 0x5000000 then .atomic
  else if 0x10000000 ≤ a ∧ a < 0x12000000 then .control
  else if 0x20000000 ≤ a ∧ a < 0x20010000 then .rom
  else if 0x8000000000 ≤ a ∧ a < 0x10000000000 then .main
  else .unmapped

/-- The checks of a near access in the order of R70, then the wait for its bank: the physical word it reaches. -/
def nearWord (e : BEnv) (a sz : Nat) (r : Run) (k : Nat → Ev) : Ev :=
  let w := spIndex e.s0 a
  let fa : Word := BitVec.ofNat 64 a
  if w.any fun w => !spOk e.s0 w r.lj then .fault 0x0A fa (countPriv e.s0)
  else if a % sz ≠ 0 then .fault 0x06 fa e.s0
  else match w with
    | none => .fault 0x07 fa e.s0
    | some w =>
      if e.look || bankOpen e.s0 (w / 32768) (coreOwns e.s0 e.n (w / 32768)) then k w
      else .stall (addDemand (domBank (w / 32768)) e.s0)

/-- The fault that a far access meets before it is made (R26, R46, R47, R70, R84, R233), with its state. A misaligned or narrow
access to control space is not made, so its privilege is judged here, before the two. -/
def farFault (e : BEnv) (a sz : Nat) (store : Bool) (v : Word) (r : Run) : Option (Nat × State) :=
  let al := decide (a % sz ≠ 0)
  let o := match areaOf a with
    | .atomic =>
      let w := spIndex e.s0 (a % 0x1000000)
      if w.any fun w => !spOk e.s0 w r.lj then some (0x0A, countPriv e.s0)
      else if al then some (0x06, e.s0)
      else if sz ≠ 8 ∨ w.isNone then some (0x07, e.s0)
      else none
    | .control =>
      if (al || decide (sz < 4)) && !csPermit e.s0 { lj := r.lj } ((a - 0x10000000) / 4 * 4) (if store then some (v.setWidth 32) else none)
      then some (0x0A, countPriv e.s0)
      else if al then some (0x06, e.s0) else if sz < 4 then some (0x08, e.s0) else none
    | .rom => if al then some (0x06, e.s0) else if store then some (0x07, e.s0) else none
    | .main => if al then some (0x06, e.s0) else none
    | _ => if al then some (0x06, e.s0) else some (0x07, e.s0)
  match o with
  | some f => some f
  | none => if !store && decide (e.b.v.map Syl.op = some 1) then some (0x02, e.s0) else none

/-- The first near load of a locked sequence reserves its word (R57). -/
def reserve (n w : Nat) (s : State) : State :=
  let c := s.core n
  match c.lock with
  | some l => if l.resv.isNone then s.setCore n { c with lock := some { l with resv := some w, held := true } } else s
  | none => s

/-- A near load or store of `sz` bytes at `a` (R49, R50). -/
def nearAccess (e : BEnv) (a sz : Nat) (store : Bool) (v : Word) (r : Run) : Ev :=
  nearWord e a sz r fun w =>
    let r := { r with s := addDemand (domBank (w / 32768)) r.s, acc := r.acc ++ [(⟨a, sz, !store, store⟩ : Access)] }
    if store then
      .ok { r with s := spWriteBreak r.s w (v <<< (8 * (a % 8))) ((2 ^ sz - 1) * 2 ^ (a % 8)) (some e.n) }
    else
      let d := spRead r.s w
      if d.2.2 then .fault 0x0C (BitVec.ofNat 64 a) d.1
      else
        let x : Word := BitVec.ofNat 64 (d.2.1.toNat / 2 ^ (8 * (a % 8)) % 2 ^ (8 * sz))
        .ok { r with s := if e.fed then d.1 else reserve e.n w d.1, w := r.w.pushPending x }

/-- A far access (R51): sent after every check of the bundle, or, once performed, its answer. Its address is the one
that the bundle formed when it issued, whatever has landed on the stack since. -/
def farAccess (e : BEnv) (a sz : Nat) (store : Bool) (v : Word) (r : Run) : Ev :=
  let note := fun (a : Nat) (r : Run) =>
    let rw := decide (areaOf a = .atomic)
    { r with slow := true, acc := r.acc ++ [(⟨a, sz, !store || rw, store || rw⟩ : Access)] }
  match e.far with
  | some d =>
    let at_ := match (e.s0.core e.n).far with | some f => f.addr | none => a
    .ok (if store then note at_ r else (note at_ r).push (plain d))
  | none => match farFault e a sz store v r with
    | some f => .fault f.1 (if f.1 = 2 then e.pc else BitVec.ofNat 64 a) f.2
    | none =>
      let r := note a r
      let r := { r with far := some { addr := a, size := sz, store := store, data := v, fed := e.fed, ctx := e.x } }
      .ok (if store then r else r.push (plain 0 true))

/-- LD and ST (R47, R78). -/
def mLoadStore (e : BEnv) (y : Syl) (r : Run) : Ev :=
  let o := y.op
  let st := mStore o
  let sz := mSize o
  stackNeed e (b2n (mPopsAddr o) + b2n st) (b2n !st) r fun r =>
    let p := if mPopsAddr o then r.w.pop else (r.w, plain 0)
    let a := mAddr y p.1.c p.2.v
    let q := if st then p.1.pop else (p.1, plain 0)
    let c := q.1.c
    let c := if 0x400 ≤ o ∧ o < 0x800 then c.setA (mReg o) (a + BitVec.ofNat 64 sz) else c
    let r := { r with w := { q.1 with c := c } }
    if areaOf a.toNat = .near ∧ e.far.isNone then nearAccess e a.toNat sz st q.2.v r else farAccess e a.toNat sz st q.2.v r

/-- STC (R58, R79). -/
def mStcExec (e : BEnv) (y : Syl) (r : Run) : Ev :=
  stackNeed e (1 + b2n (mPopsAddr y.op)) 1 r fun r =>
    let p := if mPopsAddr y.op then r.w.pop else (r.w, plain 0)
    let a := (mAddr y p.1.c p.2.v).toNat
    let q := p.1.pop
    if areaOf a ≠ .near then .fault (if a % 8 ≠ 0 then 0x06 else 0x07) (BitVec.ofNat 64 a) e.s0
    else nearWord e a 8 r fun w =>
      let r := { r with s := addDemand (domBank (w / 32768)) r.s }
      let c := r.s.core e.n
      let good := match c.lock with | some l => l.held && decide (l.resv = some w) | none => false
      let s := if good then spWriteBreak r.s w q.2.v 255 (some e.n) else r.s
      let s := s.setCore e.n { s.core e.n with lock := none }
      .ok ({ r with s := s, w := q.1, stc := true, acc := r.acc ++ [(⟨a, 8, false, true⟩ : Access)] }.push (plain (b2w good)))

/-- The items of LDM and STM (R80): A registers, ascending, then stack cells. -/
def lmRegs (m : Nat) : List Nat := (List.range 8).filter m.testBit
def lmCells (m : Nat) : Nat := m / 256 % 16
def lmTotal (m : Nat) : Nat := (lmRegs m).length + lmCells m
/-- Items already moved (R60): LMPROG while LMACT = 1. -/
def lmDone (c : Ctx) : Nat := if bit c.flags 14 then fld c.flags 21 16 else 0

/-- A fault after `j` items have moved sets LMACT and LMPROG; before the first it leaves them (R60). The items moved meet the
watch comparators (R331). -/
def lmFault (e : BEnv) (code a j : Nat) (r : Run) (s : State) : Ev :=
  let c := r.w.c
  let c := { c with flags := setFld (setBit c.flags 14 true) 21 16 j }
  .fault code (BitVec.ofNat 64 a) (if j = 0 then s else watch e r.acc (s.setCtx e.n e.x c))

/-- Items `j` to `t` − 1 of a block move from base `a`; `cs` are the stack cells of an STM. -/
def lmMove (e : BEnv) (ld : Bool) (regs : List Nat) (cs : List Word) (a t : Nat) : Nat → Nat → Run → Ev
  | 0, _, r => .ok r
  | f + 1, j, r =>
    if t ≤ j then .ok r
    else match spIndex r.s (a + 8 * j) with
    | none => lmFault e 0x07 (a + 8 * j) j r r.s
    | some w =>
      if !spOk r.s w r.lj then lmFault e 0x0A (a + 8 * j) j r (countPriv r.s)
      else
        let r := { r with s := addDemand (domBank (w / 32768)) r.s }
        let acc := r.acc ++ [(⟨a + 8 * j, 8, ld, !ld⟩ : Access)]
        if ld then
          let d := spRead r.s w
          if d.2.2 then lmFault e 0x0C (a + 8 * j) j r d.1
          else
            let r := { r with s := d.1, acc := acc }
            lmMove e ld regs cs a t f (j + 1)
              (if j < regs.length then r.setCtx (r.w.c.setA (lget 0 regs j) d.2.1) else r.push (plain d.2.1))
        else
          let v := if j < regs.length then r.w.c.getA (lget 0 regs j) else lget 0 cs (j - regs.length)
          lmMove e ld regs cs a t f (j + 1) { r with s := spWriteBreak r.s w v 255 (some e.n), acc := acc }

/-- The banks that the items left to move reach, one of which does not serve the core. -/
def lmWait (e : BEnv) (a j t : Nat) : Option Nat :=
  ((rangeFrom j (t - j)).filterMap fun i => (spIndex e.s0 (a + 8 * i)).map (· / 32768)).find? fun b => !bankOpen e.s0 b (coreOwns e.s0 e.n b)

/-- LDM and STM (R80, R60). The range, its alignment and the permission of its first word are checked before any item
moves, that of each later word as it is reached. FADDR of a range that is misaligned or leaves scratchpad is the base An (DESIGN
CHOICE, assumption 137). -/
def mBlock (e : BEnv) (y : Syl) (r : Run) : Ev :=
  let m := lget 0 y.ext 0
  let ld := mLdm y.op
  let regs := lmRegs m
  let t := lmTotal m
  let j := lmDone r.w.c
  let left := t - max j regs.length
  stackNeed e (if ld then 0 else left) (if ld then left else 0) r fun r =>
    let a := (r.w.c.getA (mReg y.op)).toNat
    let fa : Word := BitVec.ofNat 64 a
    if (spIndex e.s0 (a + 8 * j)).any fun w => !spOk e.s0 w r.lj then .fault 0x0A (BitVec.ofNat 64 (a + 8 * j)) (countPriv e.s0)
    else if a % 8 ≠ 0 then .fault 0x06 fa e.s0
    else if (List.range t).any fun i => (spIndex e.s0 (a + 8 * i)).isNone then .fault 0x07 fa e.s0
    else match (if e.look then none else lmWait e a j t) with
    | some b => .stall (addDemand (domBank b) e.s0)
    | none =>
      let k := min (lmCells m) r.w.c.depth.toNat
      let cs := (List.range (lmCells m)).map fun i => r.w.c.cell (r.w.c.depth.toNat - lmCells m + i)
      (lmMove e ld regs cs a t t j r).bind fun r =>
        let w := if ld then r.w else (r.w.popN k).1
        let c := w.c
        let c := { c with flags := setFld (setBit c.flags 14 false) 21 16 0 }
        let c := if y.op.testBit 7 then c.setA (mReg y.op) (BitVec.ofNat 64 (a + 8 * t)) else c
        .ok { r with w := { w with c := c }, slow := true }

/-- The M syllable of a bundle. -/
def mExec (e : BEnv) (r : Run) : Ev :=
  match e.b.m with
  | none => .ok r
  | some y =>
    if y.op < 0xC00 then mLoadStore e y r
    else if mStc y.op then mStcExec e y r
    else if mFence y.op then .ok { r with slow := true }
    else mBlock e y r

/-! ## S unit (R73) -/

/-- The binary operations 0x404 to 0x40D. -/
def sBinary (o : Nat) (n t : Word) : Word :=
  let k := t.toNat % 64
  match o with
  | 0x404 => n &&& t
  | 0x405 => n ||| t
  | 0x406 => n ^^^ t
  | 0x407 => n <<< k
  | 0x408 => n >>> k
  | 0x409 => n.sshiftRight k
  | 0x40A => n.rotateLeft k
  | 0x40B => b2w (decide (n = t))
  | 0x40C => b2w (decide (n.toInt < t.toInt))
  | _ => b2w (decide (n.toNat < t.toNat))

/-- ADD, ADC, SUB and SBC with C and V (0x400 to 0x403). -/
def sArith (o : Nat) (f n t : Word) : Word × Bool × Bool :=
  match o with
  | 0x400 => addFlags n t false
  | 0x401 => addFlags n t (bit f 0)
  | 0x402 => subFlags n t false
  | _ => subFlags n t (bit f 0)

/-- Operand cells popped, deepest first, and those pushed. -/
def sMove (o : Nat) : Nat × (List Cell → List Cell) :=
  let c := fun (l : List Cell) (i : Nat) => lget (plain 0) l i
  let copy := fun (x : Cell) => { x with mark := none }
  match o with
  | 0x001 => (1, fun l => [c l 0, copy (c l 0)])
  | 0x002 => (1, fun _ => [])
  | 0x003 => (2, fun l => [c l 1, c l 0])
  | 0x004 => (2, fun l => [c l 0, c l 1, copy (c l 0)])
  | 0x005 => (3, fun l => [c l 2, c l 0, c l 1])
  | 0x006 => (2, fun l => [c l 1])
  | 0x007 => (3, fun l =>
      let f := c l 2
      [plain (if f.v ≠ 0 then (c l 0).v else (c l 1).v) (f.dep || (c l 0).dep || (c l 1).dep)])
  | _ => (0, fun _ => [])

/-- How many cells the movers push. -/
def sPushes (o : Nat) : Nat := lget 0 [0, 2, 0, 2, 3, 3, 1, 1] o

/-- The unary operations 0x500 to 0x503, with FLAGS. -/
def sUnary (o : Nat) (f a : Word) : Word × Word :=
  match o with
  | 0x500 => (~~~a, f)
  | 0x501 => (0 - a, setCV f (decide (a ≠ 0)) (decide (a = 0x8000000000000000)))
  | 0x502 => (BitVec.ofNat 64 (64 - bitLen a.toNat), f)
  | _ => (BitVec.ofNat 64 ((List.range 64).filter (bit a)).length, f)

/-- The S syllable of a bundle. -/
def sExec (e : BEnv) (r : Run) : Ev :=
  match e.b.s with
  | none => .ok r
  | some y =>
    let o := y.op
    if o < 0x100 then
      let m := sMove o
      stackNeed e m.1 (sPushes o) r fun r =>
        let p := r.w.popN m.1
        .ok { r with w := p.1.pushAll (m.2 p.2) }
    else if o < 0x200 then stackNeed e 0 1 r fun r => .ok (r.push (plain (sext 8 o)))
    else if o < 0x300 then stackNeed e 0 1 r fun r => .ok (r.push (plain (immOf 8 (o % 256) y.ext)))
    else if o < 0x400 then
      stackNeed e (o % 32 + 1) (o % 32 + 2) r fun r =>
        let p := r.w.c.depth.toNat - 1 - o % 32
        .ok (r.push (plain (r.w.c.cell p) (r.w.dep.contains p)))
    else if o < 0x500 then
      stackNeed e 2 1 r fun r =>
        let p := r.w.popN 2
        let n := lget (plain 0) p.2 0
        let t := lget (plain 0) p.2 1
        let c := p.1.c
        if o < 0x404 then
          let x := sArith o c.flags n.v t.v
          .ok ({ r with w := { p.1 with c := { c with flags := setCV c.flags x.2.1 x.2.2 } } }.push (plain x.1 (n.dep || t.dep)))
        else .ok ({ r with w := p.1 }.push (plain (sBinary o n.v t.v) (n.dep || t.dep)))
    else if o < 0x600 then
      stackNeed e 1 1 r fun r =>
        let p := r.w.pop
        let x := sUnary o p.1.c.flags p.2.v
        .ok ({ r with w := { p.1 with c := { p.1.c with flags := x.2 } } }.push (plain x.1 p.2.dep))
    else if o < 0x700 then
      stackNeed e 1 0 r fun r =>
        let p := r.w.pop
        .ok { r with w := { p.1 with c := p.1.c.setA (o % 8) p.2.v } }
    else if o < 0x800 then stackNeed e 0 1 r fun r => .ok (r.push (plain (r.w.c.getA (o % 8))))
    else
      let i := o / 256 % 8
      .ok (r.setCtx (r.w.c.setA i (r.w.c.getA i + immOf 8 (o % 256) y.ext)))

/-! ## X unit (R52 to R55, R75, R76) -/

/-- A multiply or divide starts, or the bundle waits for its unit (R54). -/
def xStart (e : BEnv) (o : Nat) (r : Run) : Ev :=
  let mul := decide (o < 2)
  stackNeed e 2 0 r fun r =>
    let c := r.s.core e.n
    if (if mul then c.mul else c.div).isSome then .stall e.s0
    else
      let p := r.w.popN 2
      let m : MulDiv := { signed := decide (o % 2 = 0), n := (lget (plain 0) p.2 0).v, t := (lget (plain 0) p.2 1).v, ctx := e.x }
      .ok { r with w := p.1, s := r.s.setCore e.n (if mul then { c with mul := some m } else { c with div := some m }) }

/-- Scalar floating point: operands popped, and the result with its sticky flags (R55, R75, R76). -/
def fpExec (rm o : Nat) (a b c : Nat) : Nat × BitVec 5 :=
  if o = 0x010 then f64.add rm false a b
  else if o = 0x011 then f64.add rm true a b
  else if o = 0x012 then f64.mul rm a b
  else if o = 0x013 then f64.fma rm false false a b c
  else if o = 0x014 then f64.sqrt rm a
  else if o < 0x200 then
    let r := f64.cmp (o % 4) a b
    (b2n r.1, r.2)
  else
    let r := fcvt rm (o % 8) (BitVec.ofNat 64 a)
    (r.1.toNat, r.2)

def fpPops (o : Nat) : Nat := if o = 0x013 then 3 else if o = 0x014 ∨ 0x200 ≤ o then 1 else 2

/-- The X syllable of a bundle. -/
def xExec (e : BEnv) (r : Run) : Ev :=
  match e.b.x with
  | none => .ok r
  | some y =>
    let o := y.op
    if o < 4 then xStart e o r
    else if o < 8 then
      stackNeed e 0 1 r fun r =>
        let c := r.w.c
        .ok (r.push (plain (if o = 4 then c.phi else if o = 5 then c.plo else if o = 6 then c.quo else c.rem)))
    else if o = 8 then .ok { r with mwait := true }
    else
      stackNeed e (fpPops o) 1 r fun r =>
        let p := r.w.popN (fpPops o)
        let v := fun (i : Nat) => (lget (plain 0) p.2 i).v.toNat
        let x := fpExec (fld p.1.c.flags 8 7) o (v 0) (v 1) (v 2)
        let w := { p.1 with c := { p.1.c with flags := orSticky p.1.c.flags x.2 } }
        .ok ({ r with w := w, slow := true }.push (plain (BitVec.ofNat 64 x.1) (p.2.any Cell.dep)))

/-! ## V unit (R83, R84, R117 to R121, R137) -/

/-- Free, queued, and admitted slots of a take queue (R83, R120). -/
def queueCounts (s : State) (q : Nat) : Nat × Nat × Nat :=
  let l := (s.quad q).slots.map Prod.snd
  (64 - (l.filter fun t => decide (t.st ≠ .free)).length, (l.filter fun t => decide (t.st = .queued)).length,
   (l.filter fun t => decide (t.st = .running) || decide (t.st = .ending)).length)

/-- TQSTAT (R83). -/
def tqstat (s : State) (q : Nat) : Word :=
  let k := queueCounts s q
  BitVec.ofNat 64 (k.1 + k.2.1 * 2 ^ 8 + k.2.2 * 2 ^ 16)

/-- The lowest FREE slot (R118). -/
def freeSlot (s : State) (q : Nat) : Option Nat := (List.range 64).find? fun k => decide ((s.slot q k).st = .free)

/-- A slot allocated to a take of the executing context (R117, R118). -/
def allocSlot (e : BEnv) (lj : BitVec 2 × BitVec 8) (k a : Nat) (byTake : Bool) (s : State) : State :=
  let q := e.n / 4
  s.setSlot q k { st := .armed, gen := genNext (s.slot q k).gen, core := e.n, ctx := e.x, byTake := byTake, level := lj.1, tag := lj.2, desc := a }

/-- The handle of the take in slot `k`. -/
def slotHandle (s : State) (q k : Nat) : Word := BitVec.ofNat 64 (handleOf q k (s.slot q k).gen)

/-- The descriptor address of TAKE and TCUE (R83): 128-byte aligned, in scratchpad. An address that depends on the far
load of the bundle is checked once the load has been made. -/
def descCheck (e : BEnv) (c : Cell) (k : Ev) : Ev :=
  if c.dep then k
  else if c.v.toNat % 128 ≠ 0 then .fault 0x06 c.v e.s0
  else if (spIndex e.s0 c.v.toNat).isNone then .fault 0x07 c.v e.s0
  else k

/-- TAKE (R118, R119, R121). -/
def takeExec (e : BEnv) (r : Run) : Ev :=
  stackNeed e 1 1 r fun r =>
    let p := r.w.pop
    let q := e.n / 4
    descCheck e p.2 <| match freeSlot r.s q with
      | none => .ok ({ r with w := p.1, slow := true }.push (plain (BitVec.allOnes 64) p.2.dep))
      | some k =>
        let s := enqueue q k (arrTake e.n) (allocSlot e r.lj k p.2.v.toNat true r.s)
        .ok ({ r with w := p.1, slow := true, s := s }.push (plain (slotHandle s q k) p.2.dep))

/-- TCUE (R83, R121): refused at issue, or its slot is ARMED and its cue entry held from now. While the rest of the bundle
is only being checked the handle is not known. Its header reads are near loads, and checked as such. -/
def tcueExec (e : BEnv) (r : Run) : Ev :=
  stackNeed e 2 1 r fun r =>
    let p := r.w.popN 2
    let a := lget (plain 0) p.2 0
    let t := lget (plain 0) p.2 1
    if !a.dep && (spIndex e.s0 a.v.toNat).any fun w => !spOk e.s0 w r.lj then .fault 0x0A a.v (countPriv e.s0)
    else descCheck e a <|
      let r := { r with w := p.1, slow := true }
      if !e.arm then .ok ({ r with tcue := some (a.v.toNat, t.v) }.push (plain 0 true))
      else match freeSlot r.s (e.n / 4), freeCue r.s with
        | some k, some i =>
          if t.v.toNat ≤ r.s.mt.mtime.toNat then .ok (r.push (plain (BitVec.allOnes 64)))
          else
            let s := allocSlot e r.lj k a.v.toNat false r.s
            let s := s.setSlot (e.n / 4) k { s.slot (e.n / 4) k with cued := true }
            let s := s.setCue { s.cue with held := s.cue.held ++ [i] }
            let pend : TcuePend := { slot := k, entry := i, time := t.v, ctx := e.x, fed := e.fed, saved := e.s0.ctx e.n e.x }
            .ok { r with s := s.setCore e.n { s.core e.n with tcue := some pend } }
        | _, _ => .ok (r.push (plain (BitVec.allOnes 64)))

/-- TFENCE (R83): the context's takes so far are fenced off; fences that hold nothing any more are dropped. -/
def tfence (n x : Nat) (s : State) : State :=
  let Q := s.quad (n / 4)
  let live := fun (f : Nat × Nat × Nat) => Q.slots.any fun y => y.2.byTake && decide (y.2.core = f.1) && decide (y.2.ctx = f.2.1)
    && decide (y.2.seq ≤ f.2.2) && decide (y.2.seq ≠ 0) && decide (y.2.st ≠ .free) && decide (y.2.st ≠ .armed)
  s.setQuad (n / 4) { Q with fences := (Q.fences ++ [(n, x, Q.seq)]).filter live }

/-- The V syllable of a bundle: a demand on the quadrant's fabric, for which it waits while that is not awake (R294). -/
def vExec (e : BEnv) (r : Run) : Ev :=
  match e.b.v with
  | none => .ok r
  | some y =>
    let q := e.n / 4
    let r := { r with s := addDemand (domQuad q) r.s }
    if !e.look && !awake e.s0 (domQuad q) then .stall (addDemand (domQuad q) e.s0)
    else match y.op with
    | 0 => takeExec e r
    | 1 => stackNeed e 1 0 r fun r =>
        let p := r.w.pop
        if !e.post && (liveSlot r.s e.n r.lj p.2.v.toNat).isSome then .held (some p.2.v.toNat) else .ok { r with w := p.1 }
    | 2 => stackNeed e 1 1 r fun r =>
        let p := r.w.pop
        let live := (liveSlot r.s e.n r.lj p.2.v.toNat).isSome
        .ok ({ r with w := p.1, slow := true }.push (plain (b2w !live) p.2.dep))
    | 3 => stackNeed e 1 1 r fun r =>
        let p := r.w.pop
        let x := match liveSlot r.s e.n r.lj p.2.v.toNat with
          | some k => abortTake q k r.s
          | none => (r.s, false)
        .ok ({ r with w := p.1, slow := true, s := x.1 }.push (plain (b2w x.2) p.2.dep))
    | 4 => tcueExec e r
    | 5 => .ok { r with s := tfence e.n e.x r.s }
    | _ => stackNeed e 0 1 r fun r => .ok ({ r with slow := true }.push (plain (tqstat r.s q)))

/-! ## C unit (R42, R71, R81, R82, R90 to R96, R101 to R103) -/

/-- CSR `k` as CSRR pushes it (R42, R101). -/
def csrValue (e : BEnv) (k : Nat) (r : Run) : Word :=
  let c := r.w.c
  let z := fun {n : Nat} (v : BitVec n) => v.setWidth 64
  match k with
  | 0x00 => c.lc
  | 0x01 => z c.rc
  | 0x02 => c.phi
  | 0x03 => c.plo
  | 0x04 => c.quo
  | 0x05 => c.rem
  | 0x06 => liveFlags { r.s.core e.n with cur := some e.x } e.x c.flags
  | 0x07 => z c.osbase
  | 0x08 => z c.oslimit
  | 0x09 => z c.osp
  | 0x0A => z c.depth
  | 0x0B => e.pc
  | 0x0C => z c.fcause
  | 0x0D => c.faddr
  | 0x0E => z c.fpc
  | 0x0F => BitVec.ofNat 64 r.s.bclk
  | 0x10 => r.s.mt.mtime
  | 0x11 => BitVec.ofNat 64 (e.n + e.n / 4 * 2 ^ 4 + (if e.n % 4 = 0 then 2 ^ 6 else 0))
  | 0x12 => c.lvl
  | 0x20 => z c.rsdepth
  | 0x21 => b2w c.guard
  | 0x22 => if c.rsdepth = 0 then 0 else (tget frameInit c.frames (c.rsdepth.toNat - 1)).hdr
  | 0x23 => z (r.s.core e.n).bankwin
  | 0x24 => BitVec.ofNat 64 e.x
  | _ => z c.evt

/-- The fields of FLAGS that CSRW writes (R43). -/
def flagsRw : Word := 0x800003FF

/-- A write of OSBASE or OSLIMIT (R42, R44). -/
def csrwBounds (e : BEnv) (k : Nat) (v : Cell) (r : Run) : Ev :=
  let c := r.w.c
  let lo := if k = 7 then v.v.toNat else c.osbase.toNat
  let hi := if k = 7 then c.oslimit.toNat else v.v.toNat
  if c.osp ≠ c.osbase then .fault 0x03 (c.osp.setWidth 64) e.s0
  else if c.level = 2 then .fault 0x0A 0 e.s0
  else if !v.dep && decide (v.v.toNat % 8 ≠ 0) then .fault 0x06 v.v e.s0
  else if !v.dep && (decide (0x1000000 < v.v.toNat) || decide (hi < lo)) then .fault 0x07 v.v e.s0
  else if k = 7 then .ok (r.setCtx { c with osbase := v.v.setWidth 48, osp := v.v.setWidth 48 })
  else .ok (r.setCtx { c with oslimit := v.v.setWidth 48 })

/-- CSRW of CSR `k` (R42, R101). BANKWIN takes bits [6:0] and ignores the others (DESIGN CHOICE, assumption 145). -/
def csrwExec (e : BEnv) (k : Nat) (v : Cell) (r : Run) : Ev :=
  let c := r.w.c
  match k with
  | 0x00 => .ok (r.setCtx { c with lc := v.v })
  | 0x06 => .ok (r.setCtx { c with flags := (c.flags &&& ~~~flagsRw) ||| (v.v &&& flagsRw) })
  | 0x22 =>
    let f := tget frameInit c.frames (c.rsdepth.toNat - 1)
    if c.rsdepth = 0 ∨ 2 ≤ fld f.hdr 57 56 then .ok r
    else .ok (r.setCtx { c with frames := tset frameInit (c.rsdepth.toNat - 1) { f with hdr := setFld f.hdr 47 0 (fld v.v 47 0) } c.frames })
  | 0x23 =>
    if c.level = 2 then .fault 0x0A 0 e.s0
    else if !v.dep && !ctxExists e.n (fld v.v 6 0) then .fault 0x01 e.pc e.s0
    else .ok { r with s := r.s.setCore e.n { r.s.core e.n with bankwin := BitVec.ofNat 7 (fld v.v 6 0) } }
  | _ => csrwBounds e k v r

/-- Register `k` of a context as BANKR reads it (R102). -/
def bankRead (s : State) (n y k : Nat) : Word :=
  let c := s.ctx n y
  let z := fun {n : Nat} (v : BitVec n) => v.setWidth 64
  let f := tget frameInit c.frames c.rssel.toNat
  match k with
  | 0x00 => z c.pc
  | 0x09 => c.lc
  | 0x0A => z c.rc
  | 0x0B => c.phi
  | 0x0C => c.plo
  | 0x0D => c.quo
  | 0x0E => c.rem
  | 0x0F => flagsOf (s.core n) y
  | 0x10 => z c.osbase
  | 0x11 => z c.oslimit
  | 0x12 => z c.osp
  | 0x13 => z c.depth
  | 0x14 => c.lvl
  | 0x15 => BitVec.ofNat 64 (c.state.toNat + c.prio.toNat * 2 ^ 4)
  | 0x16 => z c.savea
  | 0x17 => z c.rsdepth
  | 0x18 => z c.rssel
  | 0x19 => f.hdr
  | 0x1A => z c.ossel
  | 0x1B => c.cell (c.depth.toNat + 31 - c.ossel.toNat)
  | 0x1C => z c.fcause
  | 0x1D => c.faddr
  | 0x1E => z c.fpc
  | 0x1F => z c.evt
  | 0x20 => c.waith
  | _ => if k ≤ 8 then c.getA (k - 1) else tget zeroD f.slots (k - 0x28)

/-- Register `k` of a context written by BANKW (R102, R103). SAVEA keeps 48 bits (DESIGN CHOICE, assumption 146). -/
def bankWrite (k : Nat) (v : Word) (c : Ctx) : Ctx :=
  let t := fun (m : Nat) => v.toNat % 2 ^ m
  let f := tget frameInit c.frames c.rssel.toNat
  match k with
  | 0x00 => { c with pc := BitVec.ofNat 48 (t 48 / 2 * 2) }
  | 0x09 => { c with lc := v }
  | 0x0A => { c with rc := BitVec.ofNat 32 (t 32) }
  | 0x0B => { c with phi := v }
  | 0x0C => { c with plo := v }
  | 0x0D => { c with quo := v }
  | 0x0E => { c with rem := v }
  | 0x0F => { c with flags := v &&& 0x803F7FFF }
  | 0x10 => { c with osbase := v.setWidth 48, restored := true }
  | 0x11 => { c with oslimit := v.setWidth 48, restored := true }
  | 0x12 => { c with osp := v.setWidth 48, restored := true }
  | 0x13 => { c with depth := v.setWidth 16, restored := true }
  | 0x14 => { c with level := BitVec.ofNat 2 (fld v 1 0), tag := BitVec.ofNat 8 (fld v 15 8) }
  | 0x15 => { c with prio := BitVec.ofNat 2 (fld v 5 4), state := if c.state = 2 then 2 else BitVec.ofNat 3 (fld v 2 0) }
  | 0x16 => { c with savea := v.setWidth 48 }
  | 0x17 => { c with rsdepth := BitVec.ofNat 7 (min (t 7) 64), guard := decide (60 < t 7) }
  | 0x18 => { c with rssel := BitVec.ofNat 6 (t 6) }
  | 0x19 => { c with frames := tset frameInit c.rssel.toNat { f with hdr := v &&& 0x03FFFFFFFFFFFFFF } c.frames }
  | 0x1A => { c with ossel := BitVec.ofNat 5 (t 5) }
  | 0x1B => { c with cells := tset zeroD ((c.depth.toNat + 31 - c.ossel.toNat) % 32) v c.cells }
  | 0x1C => { c with fcause := BitVec.ofNat 8 (t 8) }
  | 0x1D => { c with faddr := v }
  | 0x1E => { c with fpc := v.setWidth 48 }
  | 0x1F => { c with evt := BitVec.ofNat 32 (t 32) &&& 0x6FFFFFFF }
  | 0x20 => c
  | _ => if k ≤ 8 then c.setA (k - 1) v
         else { c with frames := tset frameInit c.rssel.toNat { f with slots := tset zeroD (k - 0x28) v f.slots } c.frames }

/-- BANKR and BANKW (R102, R103). -/
def bankExec (e : BEnv) (wr : Bool) (k : Nat) (r : Run) : Ev :=
  stackNeed e (b2n wr) (b2n !wr) r fun r =>
    let c := r.w.c
    let y := (r.s.core e.n).bankwin.toNat
    let o := r.s.ctx e.n y
    let p := if wr then r.w.pop else (r.w, plain 0)
    let v := p.2
    if c.level = 2 ∨ y = e.x ∨ o.level.toNat < c.level.toNat then .fault 0x0A 0 e.s0
    else if !wr then .ok ({ r with slow := true }.push (plain (bankRead r.s e.n y k)))
    else if k = 0x14 ∧ !v.dep ∧ fld v.v 1 0 < c.level.toNat then .fault 0x0A 0 e.s0
    else if k = 0x15 ∧ !v.dep ∧ 2 ≤ fld v.v 2 0 then .fault 0x01 e.pc e.s0
    else .ok { r with w := p.1, slow := true, s := r.s.setCtx e.n y (bankWrite k v.v o) }

/-- The address after the bundle. -/
def BEnv.next (e : BEnv) : Addr := e.at_ + BitVec.ofNat 48 e.b.len

/-- A transfer of control (R40, R82). -/
def Run.goto (r : Run) (a : Addr) : Run := { r with jump := some a, slow := true }

/-- The target of a relative branch (R71). -/
def branchTo (e : BEnv) (d : Word) : Addr := e.at_ + (d <<< 1).setWidth 48

/-- CALL and CALLI (R90, R92): the frame pushed and the jump, or the return-stack overflow. -/
def callExec (e : BEnv) (mask : Nat) (target : Addr) (r : Run) : Ev :=
  let c := r.w.c
  let d := c.rsdepth.toNat
  if 64 ≤ d ∨ (60 ≤ d ∧ !c.guard) then .fault 0x05 0 e.s0
  else
    let f := tget frameInit c.frames d
    let sl := (List.range 8).foldl (fun l i => if mask.testBit i then tset zeroD i (c.getA i) l else l) f.slots
    let f : Frame := { hdr := BitVec.ofNat 64 (e.next.toNat + mask % 256 * 2 ^ 48), slots := sl }
    .ok ((r.setCtx { c with frames := tset frameInit d f c.frames, rsdepth := c.rsdepth + 1 }).goto target)

/-- A frame popped; GUARD clears at 60 or below (R92). -/
def Ctx.popFrame (c : Ctx) : Ctx := { c with rsdepth := c.rsdepth - 1, guard := c.guard && decide (60 < c.rsdepth.toNat - 1) }

/-- RET (R90, R91). -/
def retExec (e : BEnv) (r : Run) : Ev :=
  let c := r.w.c
  let f := tget frameInit c.frames (c.rsdepth.toNat - 1)
  if c.rsdepth = 0 ∨ fld f.hdr 57 56 ≠ 0 then .fault 0x01 e.pc e.s0
  else if bit f.hdr 0 then .fault 0x06 (BitVec.ofNat 64 (fld f.hdr 47 0)) e.s0
  else
    let c := (List.range 8).foldl (fun c i => if bit f.hdr (48 + i) then c.setA i (tget zeroD f.slots i) else c) c.popFrame
    .ok ((r.setCtx c).goto (BitVec.ofNat 48 (fld f.hdr 47 0)))

/-- IE, RPT, LMACT and LMPROG, which RETI restores from a FAULT frame (R94). -/
def flagsBack : Word := 0x803F5000

/-- RETI (R91, R94, R96). An IRQ frame that names a context not in RUN leaves the core without an executing context (DESIGN
CHOICE, assumption 143). -/
def retiExec (e : BEnv) (r : Run) : Ev :=
  let c := r.w.c
  let f := tget frameInit c.frames (c.rsdepth.toNat - 1)
  if c.rsdepth = 0 ∨ fld f.hdr 57 56 = 0 then .fault 0x01 e.pc e.s0
  else if fld f.hdr 57 56 = 1 then
    if bit f.hdr 0 then .fault 0x06 (BitVec.ofNat 64 (fld f.hdr 47 0)) e.s0
    else
      let fl := (c.flags &&& ~~~flagsBack) ||| (tget zeroD f.slots 0 &&& flagsBack)
      .ok ((r.setCtx { c.popFrame with flags := fl, rc := (tget zeroD f.slots 1).setWidth 32 }).goto (BitVec.ofNat 48 (fld f.hdr 47 0)))
  else
    let y := fld f.hdr 6 0
    let back := if ctxExists e.n y && decide ((r.s.ctx e.n y).state = 2) then some y else none
    .ok { r.setCtx { c.popFrame with state := 1 } with back := some back, slow := true }

/-- CALLI (R46, R71, R82): an odd target faults with 0x06, and one with a bit above bit 47 with 0x07, at the CALLI; a target
that depends on the far load is checked once the load has been made. The return-stack overflow is found before both (DESIGN
CHOICE, assumption 138). -/
def calliExec (e : BEnv) (mask : Nat) (r : Run) : Ev :=
  stackNeed e 1 0 r fun r =>
    let p := r.w.pop
    if !p.2.dep && (bit p.2.v 0 || decide (2 ^ 48 ≤ p.2.v.toNat)) then
      (callExec e mask 0 { r with w := p.1 }).bind fun _ => .fault (if bit p.2.v 0 then 0x06 else 0x07) p.2.v e.s0
    else callExec e mask (p.2.v.setWidth 48) { r with w := p.1 }

/-- The C syllable of a bundle. -/
def cExec (e : BEnv) (r : Run) : Ev :=
  match e.b.c with
  | none => .ok r
  | some y =>
    let o := y.op
    let d := branchTo e (immOf 9 (o % 512) y.ext)
    if o < 0x200 then .ok (r.goto d)
    else if o < 0x600 then
      stackNeed e 1 0 r fun r =>
        let p := r.w.pop
        let r := { r with w := p.1 }
        .ok (if decide (p.2.v = 0) = decide (o < 0x400) then r.goto d else r)
    else if o < 0x800 then
      let l := r.w.c.lc
      if l = 0 then .ok r
      else
        let r := r.setCtx { r.w.c with lc := l - 1 }
        .ok (if l = 1 then r else r.goto d)
    else if o < 0xA00 then callExec e (lget 0 y.ext 0) (branchTo e (immOf 9 (o % 512) (y.ext.drop 1))) r
    else if o < 0xB00 then
      stackNeed e 0 1 r fun r =>
        let r' := r.push (plain (csrValue e (o % 64) r))
        .ok (if o % 64 = 0x25 then r'.setCtx { r'.w.c with evt := 0 } else r')
    else if o < 0xC00 then
      stackNeed e 1 0 r fun r =>
        let p := r.w.pop
        csrwExec e (o % 64) p.2 { r with w := p.1 }
    else if o < 0xD00 then bankExec e false (o % 64) r
    else if o < 0xE00 then bankExec e true (o % 64) r
    else if o = 0xE00 then calliExec e (lget 0 y.ext 0) r
    else if o = 0xE40 then retExec e r
    else if o = 0xE80 then retiExec e r
    else if o = 0xEC0 then
      if e.post || nreq r.s e.n || freq r.s e.n || decide (r.w.c.evt ≠ 0) then .ok r else .held none
    else .fault 0x0D (BitVec.ofNat 64 (o % 256)) e.s0

/-! ## The bundle (R39, R57, R70) -/

/-- Does the bundle break a rule of a locked sequence? (R57) An address in T that is spilled is judged once the engine has
filled it (R45). -/
def lockBad (e : BEnv) (c : Ctx) : Bool :=
  let m := e.b.m.map Syl.op
  let own := fun (a : Nat) => match spIndex e.s0 a with | some w => coreOwns e.s0 e.n (w / 32768) | none => false
  e.b.v.isSome || decide (e.b.pfx = some 0)
    || (match e.b.x with | some y => [2, 3, 0x14].contains y.op | none => false)
    || (e.b.c.isSome && !(match m with | some o => mStc o | none => false))
    || (match e.b.m with
      | some y =>
        (decide (y.op < 0xC00) && mStore y.op) || decide (0xD00 ≤ y.op)
          || ((!mPopsAddr y.op || decide (0 < c.resident)) && !own (mAddr y c (c.cell (c.depth.toNat + 31))).toNat)
      | none => false)

/-- The syllables M, S, X and V in canonical order. -/
def evalFront (e : BEnv) (r : Run) : Ev := (((mExec e r).bind (sExec e)).bind (xExec e)).bind (vExec e)

/-- Every syllable in canonical order. -/
def evalAll (e : BEnv) (r : Run) : Ev := (evalFront e r).bind (cExec e)

/-- The state in which a bundle starts: a LOCK opens its sequence (R57). -/
def startRun (e : BEnv) : Run :=
  let c := e.s0.core e.n
  let s := match e.b.pfx with
    | some p => if p = 0 then e.s0 else e.s0.setCore e.n { c with lock := some { left := p % 8 + 1, resv := none, held := false } }
    | none => e.s0
  { s := s, w := { c := c.ctx e.x } }

/-! ## The bundle at a boundary (R84) -/

/-- Does a bundle hold TWAIT or WAIT? -/
def waits (b : Bundle) : Bool := decide (b.v.map Syl.op = some 1) || decide (b.c.map Syl.op = some 0xEC0)

/-- What stands at the boundary of context `x`: a TWAIT or WAIT held, with the handle of a TWAIT; one that issues first;
or any other bundle. The condition is looked up whatever else the bundle waits for; one that cannot be read, or whose handle
stands in a spilled cell, is no bundle whose condition holds. -/
inductive Before where
  | held (h : Option Nat)
  | first
  | other
  deriving DecidableEq, Repr

def beforeBundle (s : State) (n x : Nat) : Before :=
  let c := s.ctx n x
  match (fetchBundle n (c.level, c.tag) 9 c.pc.toNat s).2 with
  | .error _ => .other
  | .ok ws => match decodeBundle ws (bit c.flags 12) with
    | .error _ => .other
    | .ok b =>
      if !waits b then .other
      else
        let e : BEnv := { n := n, x := x, at_ := c.pc, s0 := s, b := b, look := true }
        match evalAll e (startRun e) with
        | .held h => .held h
        | .stall _ => .other
        | _ => .first

/-- Does a TWAIT or WAIT whose condition holds stand at the boundary of core `n`? It issues before any entry, switch or pause
(R84). -/
def waitFirst (s : State) (n : Nat) : Bool :=
  match (s.core n).cur with
  | some x => decide (beforeBundle s n x = .first)
  | none => false

end Sys2Proof.Machine
end

