-- ==== Sys2Proof/Machine/Repair.lean ====
section
/-! DEFINITION. In-service repair of core members and banks, retirement on command, the always-on island, the dailies
ring, and injections that act when armed (R63, R338 to R359). -/

namespace Sys2Proof.Machine

/-! ## Core members (R63, R343, R347, R383) -/

/-- A far access whose core is reset (R365): the crossbar completes it as presented, and the answer reaches nobody. -/
def dropFar (n : Nat) (s : State) : State :=
  match (s.core n).far with
  | none => s
  | some f =>
    let c := s.ctx n f.ctx
    let o : Owed := { lj := (c.level, c.tag), who := 2 + n, addr := f.addr, size := f.size, wr := if f.store then some f.data else none }
    let owe := fun (o : Owed) => s.setBlk { s.blk with owed := s.blk.owed ++ [o] }
    if f.got.isSome then s
    else match areaOf f.addr with
    | .atomic => owe { o with space := 1 }
    | .control => owe { o with addr := f.addr - 0x10000000 }
    | .main =>
      if f.wait && !f.bad then owe { o with space := 2, addr := f.addr - 0x8000000000 } else forgetSrc (.gateway n) s
    | _ => s

/-- A TCUE whose arming is not decided gives back its slot and its entry. -/
def dropTcue (n : Nat) (s : State) : State :=
  match (s.core n).tcue with
  | none => s
  | some t =>
    let s := s.setSlot (n / 4) t.slot { gen := (s.slot (n / 4) t.slot).gen }
    s.setCue { s.cue with held := s.cue.held.filter (· ≠ t.entry) }

/-- The resynchronisation of a member of core `n`, if one runs. -/
def resyncOf (s : State) (n : Nat) : Option Repair :=
  s.cullet.running.find? fun r => decide (r.kind = 2) && decide (r.logical / 3 = n)

/-- The keep vote of a halted core on the domain of slot `m` (R299): a slot has it while it serves the core. -/
def keepSlot (m : Nat) (on : Bool) (s : State) : State :=
  if (s.dom (domSlot m)).keepHalt = on then s else s.setDom (domSlot m) { s.dom (domSlot m) with keepHalt := on }

/-- A member repair starts (R343): the lower-numbered free spare slot is assigned and wakes; with none the core runs on
without the member. -/
def startMember (r : Repair) (s : State) : State :=
  match freeSpare s 2 r.scope with
  | none => s
  | some u =>
    let s := setUnit 2 u 0 (s.setMb r.logical (some u))
    let s := s.setCullet { s.cullet with running := s.cullet.running ++ [{ r with spare := some u }] }
    let s := keepSlot u (s.dbgcOf (r.logical / 3)).halted s
    wakeDom (domSlot u) (addDemand (domSlot u) s)

/-- The member repairs that wait in a quadrant start, until one runs (R340). -/
def nextMember (q : Nat) (s : State) : State :=
  (s.cullet.waiting.filter fun r => decide (r.kind = 2) && decide (r.scope = q)).foldl
    (fun s r => if repairBusy s 2 q then s else startMember r (dropWaiting r s)) s

/-- A core without a majority is stopped (R343): held, with its page at the state of a core leaving COLD. -/
def stopCore (n : Nat) (inj : Bool) (s : State) : State :=
  let s := logEv 0x14 2 (pgCore n) n (raiseFault (pgCore n) s inj) inj
  let s := (resetCore n (dropFar n (dropTcue n s))).setInj (pgCore n) {}
  match resyncOf s n with
  | some r => nextMember r.scope (endRepair r s)
  | none => s

/-- The slot `m` of member `k` of core `n` is retired and repaired (R343). -/
def memberRepair (n k m : Nat) (inj : Bool) (s : State) : State :=
  let s := retireUnit 2 m (some (3 * n + k)) (keepSlot m false (s.setMb (3 * n + k) none)) inj
  let r : Repair := ⟨2, n / 4, 3 * n + k, m, none, inj⟩
  if repairBusy s 2 (n / 4) then s.setCullet { s.cullet with waiting := s.cullet.waiting ++ [r] } else startMember r s

/-- Member `bad` of core `n` disagrees with the others, or (`none`) no two agree (R343, R347). A member that is being
resynchronised has no vote. -/
def mismatch (n : Nat) (bad : Option Nat) (inj : Bool) (s : State) : State :=
  match bad with
  | none => stopCore n inj s
  | some k => match (voters s n).find? fun v => decide (v.1 = k) with
    | none => s
    | some v =>
      if (voters s n).length = 3 then memberRepair n k v.2 inj (logEv 0x12 1 (pgCore n) (v.2 + n * 2 ^ 8) s inj)
      else stopCore n inj s

/-- `memberMismatch` (R343): at a bundle of a released core. -/
def execMemberMismatch (core : Fin 16) (bad : Option (Fin 3)) (s : State) : Out :=
  if released s core && !s.cullet.frozen then .next (mismatch core (bad.map Fin.val) false s) else .next s

/-- `resynchronisationPause` (R62, R63, R84). -/
def execResynchronisationPause (core : Fin 16) (s : State) : Out :=
  if (resyncOf s core).isSome && boundaryOk s core && !waitFirst s core then .next (s.setCore core { s.core core with pause := true }) else .next s

/-- `resynchronisationEnded` (R63, R343): once the new slot is awake. -/
def execResynchronisationEnded (core : Fin 16) (s : State) : Out :=
  match resyncOf s core with
  | none => .next s
  | some r => match r.spare with
    | none => .next s
    | some u =>
      if !(s.core core).pause then .next s
      else if !awake s (domSlot u) then .next (addDemand (domSlot u) s)
      else
        let s := endRepair r (s.setCore core { s.core core with pause := false })
        .next (nextMember r.scope (logEv 0x13 0 (pgCore core) u s r.inj))

/-! ## Banks (R344) -/

/-- A bank repair starts: the spare wakes and the copy begins; with no spare the bank stays in service. -/
def startBank (r : Repair) (s : State) : State :=
  match freeSpare s 1 r.scope with
  | none => logEv 0x41 1 (pgSbank r.old) (2 ^ 31) s r.inj
  | some u =>
    let s := s.setCullet { s.cullet with running := s.cullet.running ++ [{ r with spare := some u }] }
    let s := s.setBank r.old { s.bank r.old with copying := true }
    wakeDom (domBank u) (addDemand (domBank u) (s.setBank u { s.bank u with copying := true }))

/-- The bank repairs that wait in a quadrant start, until one runs (R340). -/
def nextBank (q : Nat) (s : State) : State :=
  (s.cullet.waiting.filter fun r => decide (r.kind = 1) && decide (r.scope = q)).foldl
    (fun s r => if repairBusy s 1 q then s else startBank r (dropWaiting r s)) s

/-- Bank `b` is to be repaired: its repair starts, or waits. -/
def bankFault (b : Nat) (inj : Bool) (s : State) : State :=
  match s.bkLog b with
  | none => retireUnit 1 b none s inj
  | some l =>
    let s := raiseFault (pgSbank b) s inj
    let r : Repair := ⟨1, b / 17, l, b, none, inj⟩
    if repairBusy s 1 r.scope then s.setCullet { s.cullet with waiting := s.cullet.waiting ++ [r] } else startBank r s

/-- Have the errors of a bank's window reached a threshold? (R344) -/
def bankBad (s : State) (b : Nat) : Bool :=
  let u := fld s.cullet.bkcfg 7 0
  let c := fld s.cullet.bkcfg 15 8
  (decide (u ≠ 0) && decide (u ≤ (s.bank b).winU)) || (decide (c ≠ 0) && decide (c ≤ (s.bank b).winC))

/-- A spare bank that reaches a threshold is retired; a migration toward it is abandoned, and the old bank stays in
service with its FAULT (R339, R347). -/
def spareBankFault (u : Nat) (inj : Bool) (s : State) : State :=
  let s := raiseFault (pgSbank u) s inj
  match s.cullet.running.find? fun r => decide (r.kind = 1) && decide (r.spare = some u) with
  | none => retireUnit 1 u none s inj
  | some r =>
    let s := s.setBank r.old { s.bank r.old with copying := false }
    let s := s.setBank u { s.bank u with copying := false }
    nextBank r.scope (retireUnit 1 u none (endRepair r s) inj)

/-- `bankMigration` (R344, R347): a threshold is reached in a bank that has no repair already, or in a spare. -/
def execBankMigration (bank : Fin 68) (s : State) : Out := whenUp s <|
  if !bankBad s bank then .next s
  else if s.bkUnit bank = 1 then .next (spareBankFault bank (s.bank bank).winInj s)
  else if (s.bkLog bank).isSome && !repairOf s 1 bank then .next (bankFault bank (s.bank bank).winInj s)
  else .next s

/-- The words of bank `b` copied to bank `u` (R344): each word with an error is read under R234; one that is
uncorrectable stays so. -/
def copyBank (b u : Nat) (s : State) : State :=
  let ws := (s.synd.map Prod.fst).filter fun w => decide (w / 32768 = b)
  let s := ws.foldl (fun s w => (spRead s w).1) s
  let fixed := ws.foldl (fun s w => match (spPeek s w).2 with | .double => s | _ => spWrite s w (spPeek s w).1) s
  let s := { s with mem := s.mem.filter (fun c => decide (c.1 / 262144 ≠ u)), synd := s.synd.filter fun c => decide (c.1 / 32768 ≠ u) }
  let mem := (fixed.mem.filter fun c => decide (c.1 / 262144 = b)).foldl (fun m c => tset zeroD (u * 262144 + c.1 % 262144) c.2 m) s.mem
  let synd := (fixed.synd.filter fun c => decide (c.1 / 32768 = b)).foldl (fun m c => tset zeroD (u * 32768 + c.1 % 32768) c.2 m) s.synd
  { s with mem := mem, synd := synd }

/-- `bankMigrated` (R344, step 5): once both banks are awake, the logical bank moves with its owner and POWN, and the old
bank is retired and takes the owner code of its quadrant's director (R228). -/
def execBankMigrated (bank : Fin 68) (s : State) : Out :=
  let b := bank.val
  match s.cullet.running.find? fun r => decide (r.kind = 1) && decide (r.old = b) with
  | none => .next s
  | some r => match r.spare with
    | none => .next s
    | some u =>
      if !awake s (domBank u) then .next (addDemand (domBank u) s)
      else if !awake s (domBank b) then .next (addDemand (domBank b) s)
      else
        let s := copyBank b u s
        let k := s.bank b
        let s := s.setBank b { k with copying := false, owner := none, pend := none }
        let s := s.setBank u { s.bank u with owner := k.owner, pend := k.pend, holost := k.holost, copying := false }
        let h := s.header (pgSbank b)
        let s := s.setHeader (pgSbank u) { s.header (pgSbank u) with level := h.level, tag := h.tag }
        let move := fun (l : LockSeq) => { l with resv := l.resv.map fun w => if w / 32768 = b then u * 32768 + w % 32768 else w }
        let s := (List.range 16).foldl (fun s n => match (s.core n).lock with
          | some l => s.setCore n { s.core n with lock := some (move l) }
          | none => s) s
        let s := endRepair r (setUnit 1 u 0 (s.setBk r.logical (some u)))
        let s := logEv 0x41 1 (pgSbank b) u s r.inj
        .next (nextBank r.scope (retireUnit 1 b (some r.logical) s r.inj))

/-- `bkcfgWindowEnd` (R344): the counts of the bank's window start again. -/
def execBkcfgWindowEnd (bank : Fin 68) (s : State) : Out :=
  .next (s.setBank bank { s.bank bank with winC := 0, winU := 0, winInj := false })

/-- `rescfgWindowEnd` (R160): the count of the chain's window starts again. -/
def execRescfgWindowEnd (chain : Fin 68) (s : State) : Out := .next (s.setChain chain { s.chain chain with winCnt := 0 })

/-! ## Retirement on command (R339, R357) -/

/-- A unit of a kind is retired: an active one is repaired as if it had faulted, a spare leaves the cullet. -/
def retireCommand (kind u : Nat) (s : State) : State :=
  if unitSt s kind u = 1 then retireUnit kind u none s
  else match kind with
    | 0 => hardFault u s
    | 1 => bankFault u false s
    | 2 => match s.mbLog u with
      | none => retireUnit 2 u none s
      | some i =>
        let n := i / 3
        let few := decide ((voters s n).length < 3)
        let s := memberRepair n (i % 3) u false s
        if few then stopCore n false s else s
    | _ => portFault u s

/-- The check of a retirement (R34, R357): the code of its refusal. -/
def retireRefused (s : State) (kind u : Nat) : Bool := decide (unitSt s kind u = 2) || repairOf s kind u

/-- The page whose FAULT a unit returned to the cullet clears; a member slot has none. -/
def unretClear (kind u : Nat) (s : State) : State :=
  match kind with
  | 0 => clearFault (pgChain u) s
  | 1 => clearFault (pgSbank u) s
  | 2 => s
  | _ =>
    let s := s.setPort u { s.port u with fault := false, lost := false, faultAt := 0 }
    if (rangeFrom (16 * portGroup u) 16).any fun p => (s.port p).fault then s else clearFault (pgPgrp (portGroup u)) s

/-- A retired unit returns to the cullet as a free spare and leaves COLD (R339). -/
def unretCommand (kind u : Nat) (s : State) : State :=
  let s := unretClear kind u (setUnit kind u 1 s)
  match unitDom kind u with
  | some d => wakeDom d s
  | none => s

/-- RETCMD (R357): the code of a refusal, or the state after it. -/
def retcmd (v : Reg) (s : State) : Except Nat State :=
  let kind := fld v 1 0
  let u := fld v 25 16
  if unitCount kind ≤ u then .error 1
  else if bit v 2 then (if unitSt s kind u = 2 then .ok (unretCommand kind u s) else .error 10)
  else if retireRefused s kind u then .error 8
  else .ok (retireCommand kind u s)

/-! ## The always-on island (R19, R346) -/

/-- The outputs that the state decides, the block supplied and past cold reset (R245, R306, R346, R351, R366, R367, R373):
an open-drain line is high impedance while a reset input is low. -/
def livePins (s : State) : Pins :=
  let b := s.blk
  let on := b.started && !b.warmLow
  { irq := BitVec.ofNat 8 ((List.range 8).foldr (fun k a => b2n (irqOut s k) + 2 * a) 0), cpReady := b.cpReady, cpErr := b.cpErr,
    cpRdata := b.cpRdata, hxRdy := b.ready && b.hx.isNone, hxDone := b.hxDone, hxDrop := b.hxDrop, hxRvalid := b.hxRvalid,
    hxRdata := b.hxRdata, hxRerr := b.hxRerr, throttle := throttle s, fuseReq := false, fuseProg := s.sec.prog, fuseAddr := 0, svcDo := if b.svcDone then some (b.svcStat, b.svcData) else none, tdo := s.dbg.tdo,
    faultLow := on && faultCond s, attnLow := on && attnCond s, timeLow := on && s.mt.holdover && bit s.mt.ctl 0,
    dreq := (List.range 235).map fun d => if b.started then (s.dom d).dreq else if bit b.park 3 then 1 else 4 }

/-- `islandCopyFault` (R346): the first is masked and its copy reloaded; another copy's before the reload ends leaves no
majority. -/
def execIslandCopyFault (copy : Fin 3) (s : State) : Out := whenUp s <|
  if s.cullet.frozen then .next s
  else match s.cullet.isl with
    | none => .next (logEv 0x10 1 0 copy (s.setCullet { s.cullet with isl := some copy }))
    | some c => if c = copy then .next s else .next (s.setCullet { s.cullet with held := livePins s, frozen := true })

/-- `islandReloadEnd` (R19, R346). -/
def execIslandReloadEnd (s : State) : Out :=
  if s.cullet.frozen then .next s else .next (s.setCullet { s.cullet with isl := none })

/-! ## The dailies (R348 to R351) -/

/-- Unread entries. -/
def rasUnread (r : Ras) : Nat := (r.wridx - r.rdidx).toNat

/-- ATTNP or FAULTP for an entry's severity (R351). -/
def rasMark (e : LogEnt) (r : Ras) : Ras :=
  { r with attnp := r.attnp || decide (fld e.e1 9 8 = 1), faultp := r.faultp || decide (fld e.e1 9 8 = 2) }

/-- An entry written at WRIDX; with 1,023 unread the oldest is overwritten (R348). -/
def rasWrite (e : LogEnt) (r : Ras) : Ras :=
  let full := decide (rasUnread r = 1023)
  let r := { r with ring := tset logInit r.wridx.toNat e r.ring, wridx := r.wridx + 1 }
  if full then { r with rdidx := r.rdidx + 1, lostcnt := satInc r.lostcnt, ovf := true } else r

/-- `dailiesEntryWrite` (R348, R349, R351): the log queue writes its oldest entry. -/
def execDailiesEntryWrite (s : State) : Out :=
  match s.ras.queue with
  | [] => .next s
  | e :: rest => .next (s.setRas (rasMark e.2 (rasWrite e.2 { s.ras with queue := rest })))

/-! ## Injections that act when armed (R352 to R355) -/

/-- The injected bits of scratchpad word `w` flip; the mark of an injection stays while the word has an error. -/
def injectWord (w : Nat) (bits : List Nat) (s : State) : State :=
  let s := bits.foldl (fun s i => flipStored w i s) s
  let e := (tget zeroD s.synd w).setWidth 8
  { s with synd := tset zeroD w (if e = 0 then 0 else e.setWidth 9 ||| 0x100) s.synd }

/-- The injected bits of data half 0 of microword `w` flip. -/
def injectMicro (q w : Nat) (bits : List Nat) (s : State) : State :=
  let Q := s.quad q
  let at_ := fun i => if i < 64 then i else 128 + (i - 64)
  let m := bits.foldl (fun (m : BitVec 144) i => flipBit m (at_ i)) (Q.flips w)
  s.setQuad q { Q with mcSynd := tset zeroD w (if m = 0 then 0 else m.setWidth 145 ||| BitVec.ofNat 145 (2 ^ 144)) Q.mcSynd }

/-- The injected bits of steering entry `g` flip. -/
def injectSteer (g : Nat) (bits : List Nat) (s : State) : State :=
  let t := s.steer
  let m := bits.foldl (fun (m : BitVec 39) i => flipBit m i) ((tget zeroD t.synd g).setWidth 39)
  s.setSteer { t with synd := tset zeroD g (if m = 0 then 0 else m.setWidth 40 ||| 0x8000000000) t.synd }

/-- The injections of a page that act without a further event: errors put into memory words, and a protocol error. -/
def injectNow (pg : Nat) (s : State) : State :=
  let i := s.injOf pg
  if 0x0B0 ≤ pg ∧ pg < 0x0F4 then
    (if (injDue s pg [1, 2]).isSome then injDone pg (injectWord ((pg - 0x0B0) * 32768 + i.at) (injBits i (decide (i.kind = 2))) s) else s)
  else if 0x080 ≤ pg ∧ pg < 0x0A1 then
    (if (injDue s pg [4]).isSome then injDone pg (portFault (16 * (pg - 0x080) + i.at) s true) else s)
  else if 0x070 ≤ pg ∧ pg < 0x074 then
    (if (injDue s pg [1, 2]).isSome then injDone pg (injectMicro (pg - 0x070) i.at (injBits i (decide (i.kind = 2))) s) else s)
  else if pg = pgSteer then
    (if (injDue s pg [1, 2]).isSome then injDone pg (injectSteer i.at (injBits i (decide (i.kind = 2))) s) else s)
  else s

/-- The kinds that R355 defines for a page, with the number of positions of each. -/
def injKinds (pg : Nat) : List (Nat × Nat) :=
  if 0x020 ≤ pg ∧ pg < 0x064 then [(1, 16), (2, 16), (3, 1), (4, 1)]
  else if 0x001 ≤ pg ∧ pg < 0x011 then [(1, 1), (2, 1), (3, 1)]
  else if 0x0B0 ≤ pg ∧ pg < 0x0F4 then [(1, 32768), (2, 32768)]
  else if 0x080 ≤ pg ∧ pg < 0x0A1 then [(1, 16), (2, 16), (3, 16), (4, 16)]
  else if 0x070 ≤ pg ∧ pg < 0x074 then [(1, 8192), (2, 8192)]
  else if pg = pgSteer then [(1, 524288), (2, 524288)]
  else []

/-- The greatest BIT of a kind: 71, and for a steering entry its last stored bit. -/
def injBitMax (pg k : Nat) : Nat := if pg = pgSteer then 39 - k else 71

/-- Are KIND, BIT and POS defined together? (R354) -/
def injOk (pg : Nat) (i : Inj) : Bool :=
  decide (i.kind = 0) || (injKinds pg).any fun k => decide (k.1 = i.kind) && decide (i.at < k.2) && decide (i.bitPos ≤ injBitMax pg i.kind)

/-- `injctl` after its checks (R354): the fields are written, and ARM is set by a 1. -/
def injWrite (pg : Nat) (v : Reg) (s : State) : State :=
  let i := s.injOf pg
  let c : Reg := (v &&& 0xFF2F) ||| (if bit v 4 || i.armed then 0x10 else 0)
  injectNow pg (s.setInj pg { i with ctl := c })

/-- The test regions return to reset and every injection is disarmed (R352). -/
def testOff (s : State) : State := { s with inj := [], pert := {} }

end Sys2Proof.Machine
end

