-- ==== Sys2Proof/Machine/Bundle.lean ====
section
/-! DEFINITION. Issuing a bundle: comparators, evaluation, the far access or the TCUE that it waits for, and its end with
the prefixes REP and LOCK (R39, R40, R51, R56 to R60, R84, R121, R329 to R331). -/

namespace Sys2Proof.Machine

/-! ## The end of a bundle -/

/-- A fault of the bundle: entered, or recorded in FSTAT. -/
def bundleFault (e : BEnv) (code : Nat) (addr : Word) (s : State) : State :=
  if e.fed then fedFault e.n code s else faultEntry e.n e.x code addr e.at_ s

/-- The locked sequence after one of its bundles (R57). -/
def lockNext (l : Option LockSeq) : Option LockSeq :=
  match l with
  | some l => if l.left ≤ 1 then none else some { l with left := l.left - 1 }
  | none => none

/-- The core after a bundle: its interlocks are over, and after RETI of an IRQ frame the named context executes. -/
def coreAfter (e : BEnv) (r : Run) (k : CoreSt) : CoreSt :=
  let k := { k with far := none, tcue := none, twait := none, waitX := false, want := 0, mwait := r.mwait }
  let k := if e.fed then k else { k with lock := lockNext k.lock }
  match r.back with
  | some y => { k with cur := if k.cur = some e.x then y else k.cur, nest := k.nest - 1 }
  | none => k

/-- What the debugger sees of a bundle that has issued: watches, and the end of a step. -/
def debugAfter (e : BEnv) (r : Run) (s : State) : State :=
  if e.fed then fedSettle e.n (s.setDbgc e.n { s.dbgcOf e.n with fissue := false })
  else
    stepEnd e.n e.x (watch e r.acc s)

/-- The context after a bundle: the repeat counts down, the PC moves on, and REP latches its count (R56). -/
def ctxAfter (e : BEnv) (r : Run) : Ctx :=
  let rpt := !e.fed && bit (e.s0.ctx e.n e.x).flags 12
  let c := if r.slow || r.jump.isSome then r.w.c.late else r.w.c
  let c := if rpt then
      (if c.rc.toNat ≤ 1 then { c with rc := 0, rep1 := false, flags := setBit c.flags 12 false, pc := e.next }
       else { c with rc := c.rc - 1, rep1 := false })
    else { c with pc := r.jump.getD (if e.fed then e.at_ else e.next) }
  if e.b.pfx = some 0 then
    let k : BitVec 32 := c.lc.setWidth 32
    { c with rc := k, rep1 := decide (k ≠ 0), flags := setBit c.flags 12 (decide (k ≠ 0)) }
  else c

/-- The bundle ends: its effects stand. A REP whose count is zero skips the next bundle, which is still read (R56); while
it cannot be read the REP bundle waits. -/
def commitBundle (e : BEnv) (r : Run) : State :=
  let c := ctxAfter e r
  let s := debugAfter e r ((r.s.setCtx e.n e.x c).setCore e.n (coreAfter e r ((r.s.setCtx e.n e.x c).core e.n)))
  if e.b.pfx = some 0 ∧ c.rc = 0 then
    let c := c.late
    let f := fetchBundle e.n (c.level, c.tag) 9 c.pc.toNat s
    match f.2 with
    | .ok ws => f.1.setCtx e.n e.x { c with pc := c.pc + BitVec.ofNat 48 (2 * ws.length) }
    | .error none => (fetchBundle e.n (c.level, c.tag) 9 c.pc.toNat e.s0).1
    | .error (some y) => faultEntry e.n e.x y.1 (if y.1 = 2 then c.pc.setWidth 64 else BitVec.ofNat 64 y.2) c.pc (f.1.setCtx e.n e.x c)
  else s

/-- A far access is sent (R51): one to main memory goes to the gateway, or waits for the steering table. -/
def sendFar (e : BEnv) (ws : List Nat) (f : FarAcc) : State :=
  let s := e.s0
  let lj := ((s.ctx e.n e.x).level, (s.ctx e.n e.x).tag)
  let put := fun (f : FarAcc) (s : State) =>
    (s.setCore e.n { s.core e.n with far := some { f with ws := ws }, twait := none, waitX := false })
  if areaOf f.addr = .main then
    let g := gwRequest (.gateway e.n) lj (f.addr - 0x8000000000) f.size f.store f.data s
    match g.2 with
    | .wait => put { f with wait := true } g.1
    | .failed => put { f with bad := true } g.1
    | .hit d => put { f with line := some d } g.1
    | .queued => put f g.1
  else put f s

/-- What the near stores of a bundle replace: a full word with its syndrome, or the enabled bytes of the corrected word. -/
def storesBefore (s : State) (acc : List Access) : List (Nat × Word × BitVec 9 × Nat) :=
  acc.filterMap fun y =>
    if !y.st || decide (areaOf y.addr ≠ .near) then none
    else (spIndex s y.addr).map fun w =>
      let be := (2 ^ y.size - 1) * 2 ^ (y.addr % 8)
      (w, if be = 255 then rawWord s w else (spPeek s w).1, tget zeroD s.synd w, be)

/-- Is a reservation of core `n` open? -/
def lockHeld (s : State) (n : Nat) : Bool := match (s.core n).lock with | some l => l.held | none => false

/-- Near stores taken back, the last first, with the reservations that they broke (R60). -/
def undoStores (t : TcuePend) (s : State) : State :=
  let s := t.undo.reverse.foldl (fun s (y : Nat × Word × BitVec 9 × Nat) =>
    { s with mem := putBytes s.mem y.1 y.2.1 y.2.2.2,
             synd := if y.2.2.2 = 255 then tset zeroD y.1 y.2.2.1 s.synd else s.synd }) s
  t.broke.foldl (fun s n => match (s.core n).lock with
    | some l => if l.resv.isSome then s.setCore n { s.core n with lock := some { l with held := true } } else s
    | none => s) s

/-- The V syllable was a TCUE that is not refused at issue: the bundle's M, S, X and V syllables have acted, and the rest
waits for the decision (R121). -/
def tcuePending (e : BEnv) (ws : List Nat) (r : Run) (t : TcuePend) : State :=
  let s := r.s.setCtx e.n e.x r.w.c.late
  let k := s.core e.n
  let broke := (List.range 16).filter fun n => lockHeld e.s0 n && !lockHeld r.s n
  let t := { t with ws := ws, undo := storesBefore e.s0 r.acc, broke := broke }
  watch e r.acc (s.setCore e.n { k with far := none, tcue := some t, twait := none, waitX := false, want := 0 })

/-- A bundle after its evaluation. -/
def settleBundle (e : BEnv) (ws : List Nat) : Ev → State
  | .ok r => match r.far with
    | some f => sendFar e ws f
    | none => commitBundle e r
  | .fault c a s => bundleFault e c a s
  | .stall s => s
  | .held h =>
    if e.fed then fedSettle e.n (e.s0.setDbgc e.n { e.s0.dbgcOf e.n with fwait := true, fissue := false })
    else e.s0.setCore e.n { e.s0.core e.n with twait := h, waitX := h.isNone }

/-- A bundle that holds a TCUE and has passed every check: its slot is armed, or it is refused at issue. -/
def armBundle (e : BEnv) (ws : List Nat) : State :=
  match evalFront { e with arm := true } (startRun e) with
  | .ok r => match (r.s.core e.n).tcue with
    | some t => tcuePending e ws r t
    | none => settleBundle e ws (cExec e r)
  | ev => settleBundle e ws ev

/-- One evaluation of a decoded bundle, and what follows from it. -/
def runBundle (e : BEnv) (ws : List Nat) : State :=
  match evalAll e (startRun e) with
  | .ok r => if r.far.isNone && r.tcue.isSome then armBundle e ws else settleBundle e ws (.ok r)
  | ev => settleBundle e ws ev

/-! ## Issue -/

/-- The unconditional checks of a decoded bundle outside its syllables: the rules of a locked sequence and the
consistency of a restored stack (R57, R70, R103). The fault of R103 stands between steps 5 and 6 of R70 (DESIGN CHOICE,
assumption 139). -/
def issueChecks (e : BEnv) (ws : List Nat) : State :=
  let k := e.s0.core e.n
  let c := k.ctx e.x
  if !e.fed && (k.lock.isSome || e.b.pfx.any fun p => decide (p ≠ 0)) && lockBad e c then bundleFault e 0x0B e.pc e.s0
  else if c.restored && !c.consistent then
    bundleFault e 0x03 (c.osp.setWidth 64) (e.s0.setCtx e.n e.x { c with restored := false })
  else if c.restored then
    let s := e.s0.setCtx e.n e.x { c with restored := false }
    runBundle { e with s0 := s } ws
  else runBundle e ws

/-- The bundle at the PC of context `x` is read, decoded and evaluated. -/
def issueAt (n x : Nat) (s : State) : State :=
  let c := (s.ctx n x).landDue
  let s := (s.setCtx n x c).setCore n { (s.setCtx n x c).core n with want := 0 }
  let f := fetchBundle n (c.level, c.tag) 9 c.pc.toNat s
  match f.2 with
  | .error none => f.1
  | .error (some y) => faultEntry n x y.1 (if y.1 = 2 then c.pc.setWidth 64 else BitVec.ofNat 64 y.2) c.pc f.1
  | .ok ws => match decodeBundle ws (bit c.flags 12) with
    | .error k => faultEntry n x k (c.pc.setWidth 64) c.pc f.1
    | .ok b => issueChecks { n := n, x := x, at_ := c.pc, s0 := f.1, b := b } ws

/-- The syllables of the fed bundle, up to its STOP (R67, R330). -/
def feedWords (d : Dbgc) : Except Nat (List Nat) :=
  let ws := (List.range 9).map fun i => fld (tget zeroD d.feed (i / 2)) (16 * (i % 2) + 15) (16 * (i % 2))
  match ws.findIdx? sylStop with
  | some i => .ok (ws.take (i + 1))
  | none => .error 2

/-- A fed bundle is decoded and evaluated in its context (R330). -/
def issueFed (n : Nat) (s : State) : State :=
  let d := s.dbgcOf n
  let x := d.fctx.toNat
  let c := (s.ctx n x).landDue
  let s := s.setCtx n x c
  match feedWords d with
  | .error k => fedFault n k s
  | .ok ws => match decodeBundle ws false with
    | .error k => fedFault n k s
    | .ok b =>
      if b.pfx.isSome then fedFault n 2 s
      else issueChecks { n := n, x := x, at_ := c.pc, s0 := s, fed := true, b := b } ws

/-- The break comparators before the bundle of context `x`: the state with their marks, and whether the bundle is kept
from issuing (R331). Inside a locked sequence it issues, and the halt follows the sequence. -/
def breakStop (n x : Nat) (s : State) : State × Bool :=
  let c := s.ctx n x
  let d := s.dbgcOf n
  let skip := (d.skipBrk && decide (d.ctx.toNat = x)) || (bit c.flags 12 && !c.rep1)
  let hits := if skip then [] else cmpHits s n x fun k => k.breaks c.pc.toNat
  let s := cmpMark n hits s
  match cmpHalt s n hits with
  | some k => (pendCmp n k s, (s.core n).lock.isNone)
  | none => (s, false)

/-- The core can take its next bundle: nothing of the last is outstanding, no halt after a step or a match is due, and no
MWAIT holds it. -/
def bundleReady (s : State) (n : Nat) : Bool :=
  let k := s.core n
  let m := fun (u : Option MulDiv) => match u with | some u => decide (k.cur = some u.ctx) | none => false
  coreRuns s n && k.saving.isNone && k.far.isNone && k.tcue.isNone && !(haltDue s n && k.lock.isNone) && !(k.mwait && (m k.mul || m k.div))

/-- A member that an injection makes disagree at this bundle (R355). -/
def injectMember (n : Nat) (s : State) : State :=
  match injDue s (pgCore n) [1, 2, 3] with
  | some k => mismatch n (some (k - 1)) true (injDone (pgCore n) s)
  | none => s

/-- `bundleIssue` (R39, R40): the core issues its next bundle, or evaluates it again. On a halted core it is the fed
bundle that still waits to issue (R330). -/
def execBundleIssue (core : Fin 16) (s : State) : Out :=
  let n := core.val
  if feedRuns s n then .next (issueFed n s)
  else if !bundleReady s n then .next s
  else
    let s := injectMember n s
    match (s.core n).cur with
    | none => .next s
    | some x =>
      let b := breakStop n x s
      if b.2 then .next b.1 else .next (issueAt n x b.1)

/-! ## The decision of a TCUE (R121, R255, R304) -/

/-- The undecided TCUE gives back its slot and its cue entry; no record is written. -/
def freeTcue (q : Nat) (t : TcuePend) (s : State) : State :=
  let s := s.setCue { s.cue with held := s.cue.held.filter (· ≠ t.entry) }
  s.setSlot q t.slot { gen := (s.slot q t.slot).gen }

/-- The context before the bundle, but for what has happened to it since: posted events, and a multiply or divide of an
earlier bundle that has completed. -/
def undoCtx (b : Bundle) (old now : Ctx) : Ctx :=
  let o := b.x.map Syl.op
  let mine := fun (k : Nat) => decide (o = some k) || decide (o = some (k + 1))
  let c := { old.landAll with evt := now.evt, prio := now.prio }
  let c := if mine 0 then c else { c with phi := now.phi, plo := now.plo }
  if mine 2 then c else { c with quo := now.quo, rem := now.rem, flags := setBit c.flags 9 (bit now.flags 9) }

/-- A fault after a TCUE was armed: nothing of the bundle stands (R60). -/
def undoTcue (e : BEnv) (t : TcuePend) (code : Nat) (addr : Word) (s : State) : State :=
  let s := undoStores t (freeTcue (e.n / 4) t s)
  let k := s.core e.n
  let o := e.b.x.map Syl.op
  let k := if o = some 0 ∨ o = some 1 then { k with mul := none } else k
  let k := if o = some 2 ∨ o = some 3 then { k with div := none } else k
  let k := k.setCtx e.x (undoCtx e.b t.saved (k.ctx e.x))
  bundleFault e code addr (s.setCore e.n { k with tcue := none })

/-- The rest of the bundle once the handle `h` is known. -/
def tcueRest (e : BEnv) (t : TcuePend) (h : Word) (s : State) : State :=
  let e := { e with s0 := s, post := true }
  let r : Run := { s := s, w := { c := s.ctx e.n e.x }, slow := true, mwait := decide (e.b.x.map Syl.op = some 8) }
  match cExec e (r.push (plain h)) with
  | .ok r => commitBundle e r
  | .fault c a s => undoTcue e t c a s
  | _ => s

/-- The header words of an undecided TCUE, read as near loads: wait, an uncorrectable word, or both words. -/
def tcueHeader (n a : Nat) (s : State) : State × Except (Option Nat) (Word × Word) :=
  match spIndex s a with
  | none => (s, .error (some a))
  | some w =>
    if !bankOpen s (w / 32768) (coreOwns s n (w / 32768)) then (addDemand (domBank (w / 32768)) s, .error none)
    else
      let x := spRead (addDemand (domBank (w / 32768)) s) w
      let y := spRead x.1 (w + 1)
      if x.2.2 then (x.1, .error (some a)) else if y.2.2 then (y.1, .error (some (a + 8))) else (y.1, .ok (x.2.1, y.2.1))

/-- The arming with its booking: the handle, or all ones. A slot that has been aborted since keeps its handle. -/
def decideTcue (n : Nat) (t : TcuePend) (h : Word × Word) (s : State) : State × Word :=
  let q := n / 4
  let k := s.slot q t.slot
  let hd := handleOf q t.slot k.gen
  if k.st ≠ .armed then (s.setCue { s.cue with held := s.cue.held.filter (· ≠ t.entry) }, BitVec.ofNat 64 hd)
  else
    let b := book q t.slot (fld h.1 27 24) t.time s
    if b.2 then
      let s := b.1.setSlot q t.slot { b.1.slot q t.slot with w0 := some h.1, w1 := some h.2 }
      let s := s.setCue { s.cue with held := s.cue.held.filter (· ≠ t.entry) }
      (s.setCueEnt t.entry (tcueEntry s q t.time hd), BitVec.ofNat 64 hd)
    else (freeTcue q t b.1, BitVec.allOnes 64)

/-- `tcueArmingDecision` (R121): the header is read, the booking decides, and the bundle goes on. -/
def execTcueArmingDecision (core : Fin 16) (s : State) : Out :=
  let n := core.val
  match (s.core n).tcue with
  | none => .next s
  | some t => match decodeBundle t.ws false with
    | .error _ => .next s
    | .ok b =>
      let e : BEnv := { n := n, x := t.ctx, at_ := (s.ctx n t.ctx).pc, s0 := s, fed := t.fed, b := b }
      match t.got with
      | some h => .next (tcueRest e t h s)
      | none =>
        let h := tcueHeader n (s.slot (n / 4) t.slot).desc s
        match h.2 with
        | .error none => .next h.1
        | .error (some a) => .next (undoTcue e t 0x0C (BitVec.ofNat 64 a) h.1)
        | .ok w =>
          let d := decideTcue n t w h.1
          let s := d.1.setCore n { d.1.core n with tcue := some { t with got := some d.2 } }
          .next (tcueRest e t d.2 s)

end Sys2Proof.Machine
end

