-- ==== Sys2Proof/Machine/Switch.lean ====
section
/-! DEFINITION. Interrupt entry, the hardware scheduler, changes of SWMODE, and halts taking effect (R62, R84, R95 to
R99, R326 to R329, R332). -/

namespace Sys2Proof.Machine

/-- May a pending halt take effect at this boundary? A forced halt does not wait for the end of a locked sequence; an idle
or held core halts at once; a resynchronisation pause ends first; in FIELD the executing context must be permitted. -/
def haltAllowed (s : State) (n : Nat) : Bool :=
  let d := s.dbgcOf n
  let k := s.core n
  let free := boundaryOk s n || (d.force && boundaryOk (s.setCore n { k with lock := none }) n)
  coreAwake s n && !k.pause && !s.cullet.frozen && free &&
    match k.cur with
    | some x => !released s n || debugCtxOk s n x || !d.byDbg
    | none => true

/-- May an entry or a switch be taken before the next bundle of the core? Not before a stepped bundle without STEPIRQ, nor
where a halt is due or may take effect (R332). -/
def boundaryFree (s : State) (n : Nat) : Bool :=
  coreRuns s n && boundaryOk s n && !haltDue s n && !((s.dbgcOf n).pend.isSome && haltAllowed s n) && !((s.dbgcOf n).stepping && !(s.dbgcOf n).stepirq)

/-! ## Interrupt entry (R95) -/

/-- The context that a request enters, if its class enters one on this core. -/
def entryTarget (s : State) (n : Nat) (fast : Bool) : Option Nat :=
  if fast then some 0x40 else if (s.core n).mode = 0 then some 0x01 else none

/-- Is a request of the class pending, and its target READY and above the executing context, which has IE = 1? -/
def entryDue (s : State) (n : Nat) (fast : Bool) : Bool :=
  (if fast then freq s n else nreq s n) &&
  match entryTarget s n fast with
  | none => false
  | some t => decide ((s.ctx n t).state = 1) && match (s.core n).cur with
    | none => true
    | some x => bit (s.ctx n x).flags 31 && (if fast then decide (x ≠ 0x40) else decide (x = 0))
        && decide (beforeBundle s n x ≠ .first)

/-- The target of an entry: its stacks are emptied, and an IRQ frame names the interrupted context. The slots of an IRQ frame hold
0 (DESIGN CHOICE, assumption 142). -/
def enterCtx (c : Ctx) (from_ : Nat) (pc : Addr) : Ctx :=
  let f := setBit (setBit (setBit (setBit c.flags 31 false) 12 false) 14 false) 13 false
  { c with state := 2, rsdepth := 1, guard := false, depth := 0, osp := c.osbase, marks := [], rc := 0, rep1 := false,
           flags := f, pc := pc, frames := tset frameInit 0 { hdr := BitVec.ofNat 64 (from_ + 2 ^ 57) } c.frames }

/-- The entry of a class (R95, R96). -/
def enterIrq (n t : Nat) (fast : Bool) (s : State) : State :=
  let k := s.core n
  let from_ := match k.cur with | some x => x | none => 0x7F
  let pc := if fast then k.ivbase + 0x20 else k.ivbase
  let k := k.setCtx t (enterCtx (k.ctx t) from_ pc)
  s.setCore n { k with cur := some t, nest := k.nest + 1, twait := none, waitX := false, want := 0, mwait := false }

/-- `interruptEntry` (R95): a request of the class is taken. Of two that could be taken the fast one is. -/
def execInterruptEntry (core : Fin 16) (fast : Bool) (s : State) : Out :=
  let n := core.val
  match entryTarget s n fast with
  | none => .next s
  | some t => if boundaryFree s n && entryDue s n fast && (fast || !entryDue s n true) then .next (enterIrq n t fast s) else .next s

/-! ## The hardware scheduler (R97, R98) -/

/-- The task sets of a director, 0 to 63. -/
def taskSets : List Nat := List.range 64

/-- Does the wait of a task set in WAIT hold now? (R84, R98) WAITH names the handle of a TWAIT that is unmet; such a task wakes on
its take alone, and its bundle is then evaluated again (DESIGN CHOICE, assumption 144). -/
def taskWakes (s : State) (n t : Nat) : Bool :=
  let c := s.ctx n t
  if c.waith ≠ 0 then (liveSlot s n (c.level, c.tag) c.waith.toNat).isNone else waitCond s n t

/-- The executing task set goes to WAIT before a TWAIT or WAIT that does not hold. -/
def schedWait (n : Nat) (s : State) : State :=
  match (s.core n).cur with
  | none => s
  | some x => match beforeBundle s n x with
    | .held h =>
      let w : Word := match h with | some h => BitVec.ofNat 64 h | none => 0
      s.setCtx n x { s.ctx n x with state := 3, waith := w }
    | _ => s

/-- Every task set in WAIT whose condition holds becomes READY. -/
def schedWake (n : Nat) (s : State) : State :=
  taskSets.foldl (fun s t => if (s.ctx n t).state = 3 ∧ taskWakes s n t then s.setCtx n t { s.ctx n t with state := 1 } else s) s

/-- The task sets READY at a priority. -/
def readyAt (s : State) (n p : Nat) : List Nat :=
  taskSets.filter fun t => decide ((s.ctx n t).state = 1) && decide ((s.ctx n t).prio.toNat = p)

/-- The task set that a priority gives next: the lowest above the last one switched out, else the lowest. -/
def nextTask (s : State) (n p : Nat) : Option Nat :=
  let l := readyAt s n p
  match l.find? fun t => decide (tget lastInit (s.core n).last p < t) with
  | some t => some t
  | none => l.head?

/-- The executing task set is switched out: `last` of its priority names it, and it is READY if it was RUN. -/
def switchOut (n : Nat) (s : State) : State :=
  match (s.core n).cur with
  | none => s
  | some x =>
    let c := s.ctx n x
    let s := s.setCtx n x (if c.state = 2 then { c with state := 1 } else c)
    let k := s.core n
    s.setCore n { k with last := tset lastInit c.prio.toNat x k.last, cur := none, twait := none, waitX := false, want := 0, mwait := false }

/-- The scheduler's choice (R98). -/
def schedule (n : Nat) (s : State) : State :=
  let s := schedWake n (schedWait n s)
  let cur := match (s.core n).cur with | some x => if (s.ctx n x).state = 2 then some x else none | none => none
  let best := [3, 2, 1, 0].find? fun p => !(readyAt s n p).isEmpty || cur.any fun x => decide ((s.ctx n x).prio.toNat = p)
  match best with
  | none => switchOut n s
  | some p =>
    if cur.any fun x => decide ((s.ctx n x).prio.toNat = p) then s
    else match nextTask s n p with
    | none => s
    | some t =>
      let s := switchOut n s
      let s := s.setCtx n t { s.ctx n t with state := 2 }
      s.setCore n { s.core n with cur := some t }

/-- Context 0x00 that software has made READY resumes on an idle core in ENTRY mode (R95). -/
def resumeIdle (n : Nat) (s : State) : State :=
  if (s.core n).cur = none ∧ (s.ctx n 0).state = 1 then
    (s.setCtx n 0 { s.ctx n 0 with state := 2 }).setCore n { (s.setCtx n 0 { s.ctx n 0 with state := 2 }).core n with cur := some 0 }
  else s

/-- `taskSwitch` (R95, R97, R98): one boundary of the scheduler; in ENTRY mode, that of an idle core. -/
def execTaskSwitch (core : Fin 16) (s : State) : Out :=
  let n := core.val
  if !boundaryFree s n then .next s
  else if (s.core n).mode = 0 then .next (resumeIdle n s)
  else if (s.core n).cur = some 0x40 then .next s
  else if waitFirst s n then .next s
  else .next (schedule n s)

/-! ## SWMODE (R99) -/

/-- Task set 0 takes over as the background context (R99). -/
def toEntry (n : Nat) (s : State) : State :=
  let s := match (s.core n).cur with
    | some x => if x = 0 then s else switchOut n s
    | none => s
  let c := s.ctx n 0
  let run := decide (c.state = 1) || decide (c.state = 2) || decide (c.state = 3)
  let s := if run then s.setCtx n 0 { c with state := 2 } else s
  s.setCore n { s.core n with mode := 0, cur := if run then some 0 else none }

/-- `swmodeChange` (R99): the live SWMODE takes effect at an allowed boundary with NEST = 0. -/
def execSwmodeChange (core : Fin 16) (s : State) : Out :=
  let n := core.val
  let m := BitVec.ofNat 2 (fld (s.core n).cfgLive 1 0)
  if m = (s.core n).mode ∨ !boundaryOk s n ∨ (s.core n).nest ≠ 0 ∨ waitFirst s n ∨ (s.dbgcOf n).halted ∨ s.cullet.frozen then .next s
  else if m = 1 then .next (s.setCore n { s.core n with mode := 1 })
  else .next (toEntry n s)

/-! ## Halts (R326 to R329, R332) -/

/-- A halt takes effect (R327): HSTAT, HALTEVT and the keep votes; a forced one breaks a reservation (R58). -/
def takeHalt (n : Nat) (cause : BitVec 3) (s : State) : State :=
  let k := s.core n
  let brk := match k.lock with | some l => l.held | none => false
  let k := { k with lock := k.lock.map fun l => { l with held := false }, twait := none, waitX := false }
  let s := s.setCore n k
  let d := s.dbgcOf n
  let ctx : BitVec 7 := if released s n then (match k.cur with | some x => BitVec.ofNat 7 x | none => 0x7F) else 0x7F
  let d := { d with halted := true, pend := none, force := false, cause := cause, ctx := ctx, lockbrk := d.lockbrk || brk }
  let s := s.setDbgc n { d with stepping := false, cmpn := if cause = 4 then d.pcmpn else 0 }
  let s := s.setDbg { s.dbg with haltevt := true }
  (slotDoms s n).foldl (fun s e => s.setDom e { s.dom e with keepHalt := true }) s

/-- `haltTakesEffect` (R327, R332): at an allowed boundary, before any entry or switch that is due. -/
def execHaltTakesEffect (core : Fin 16) (s : State) : Out :=
  let n := core.val
  match (s.dbgcOf n).pend with
  | some c =>
    if (s.dbgcOf n).halted then .next s
    else if haltAllowed s n then .next (takeHalt n c s)
    else if coreAwake s n then .next s
    else .next (demandCore n s)
  | none => .next s

end Sys2Proof.Machine
end

