-- ==== Sys2Proof/Machine/Pages.lean ====
section
/-! DEFINITION. The register pages: which page a number names, its header, its governing domains, and what a read of each
register returns (R25 to R33, and the register tables of every chapter). -/

namespace Sys2Proof.Machine

/-- TYPE code and INST of a page (R29). -/
def PageId.ident : PageId → Nat × Nat
  | .blk => (0x01, 0) | .core n => (0x02, n) | .chain p => (0x03, p) | .quad q => (0x04, q) | .pgrp g => (0x05, g)
  | .sbank b => (0x06, b) | .icu => (0x07, 0) | .icuc n => (0x08, n) | .mtime => (0x09, 0) | .cue => (0x0A, 0)
  | .timer p => (0x0B, p) | .pau => (0x0C, 0) | .pseq => (0x0D, 0) | .sec => (0x0E, 0) | .dbg => (0x0F, 0)
  | .dbgc n => (0x10, n) | .ras => (0x11, 0) | .cullet => (0x12, 0) | .pert => (0x13, 0) | .fuse => (0x14, 0)
  | .steer => (0x15, 0) | .hotmon => (0x16, 0)

/-- The domains that govern a page (R28). -/
def pageDoms (s : State) : PageId → List Nat
  | .core n => coreDoms s n
  | .chain p => [domChain p]
  | .quad q => [domQuad q]
  | .pgrp g => [domPgrp g]
  | .sbank b => [domBank b]
  | _ => []

/-- Is the page's unit in GLORY, LEHR or COLD? (R27) -/
def pageAsleep (s : State) (k : PageId) : Bool := (pageDoms s k).any fun d => decide (2 ≤ (s.dom d).st.toNat)

/-- Is a unit's page RETIRED? -/
def pageRetired (s : State) : PageId → Bool
  | .chain p => decide (s.chUnit p = 2)
  | .sbank b => decide (s.bkUnit b = 2)
  | _ => false

/-- PSTAT.BUSY of a page: a strip runs on a chain, a port of the group holds a tag, a handover, refresh or migration of a
bank runs, a timer channel has EN = 1; no other page has an operation in progress (R31, R174, R201, R237, R260). -/
def pageBusy (s : State) : PageId → Bool
  | .chain p => (s.chain p).strip.isSome
  | .pgrp g => (rangeFrom (16 * g) 16).any fun p => !(s.port p).tags.isEmpty
  | .sbank b => (s.bank b).pend.isSome || (s.bank b).rbusy || (s.bank b).copying
  | .timer p => (rangeFrom (16 * p) 16).any fun c => (s.timer c).en
  | _ => false

/-- PSTAT (R31). -/
def pstat (s : State) (g : Nat) (k : PageId) : Reg :=
  let h := s.header g
  let pw := match pageDoms s k with | d :: _ => (s.dom d).st.toNat | [] => 0
  BitVec.ofNat 32 (b2n h.cfgerr + b2n h.cmtpend * 2 + b2n (pageBusy s k) * 4 + b2n h.fault * 8 + b2n (pageRetired s k) * 16 + pw * 2 ^ 8)

/-- A header register (R31). -/
def headerRead (s : State) (g : Nat) (k : PageId) (off : Nat) : Reg :=
  let h := s.header g
  match off / 4 with
  | 0 => BitVec.ofNat 32 (k.ident.1 * 2 ^ 24 + k.ident.2 * 2 ^ 8 + 0xA0)
  | 1 => pstat s g k
  | 2 => BitVec.ofNat 32 (b2n h.freeze * 4)
  | 3 => BitVec.ofNat 32 (h.level.toNat + h.tag.toNat * 2 ^ 8)
  | 4 => h.perr
  | 5 => h.pevt.setWidth 32
  | _ => 0

/-- What a register read answers: the state after it and the value. -/
abbrev Rd := State × Reg

/-- A read of an RC field: `clear` is its side effect, which a peek does not have (R33). -/
def rcRead (peek : Bool) (v : Reg) (s clear : State) : Rd := (if peek then s else clear, v)

/-- Four 8-bit fields of a map register, from entry 4k on; an entry that nothing serves reads `no`. -/
def packMap (f : Nat → Option Nat) (no k : Nat) : Reg :=
  let v := fun j => (f (4 * k + j)).getD no
  BitVec.ofNat 32 (v 0 + v 1 * 2 ^ 8 + v 2 * 2 ^ 16 + v 3 * 2 ^ 24)

/-- A mask built from a predicate on bit numbers. -/
def maskOf (n : Nat) (f : Nat → Bool) : Nat := (List.range n).foldr (fun i a => b2n (f i) + 2 * a) 0

/-- Low and high halves of a 64-bit value. -/
def lo32w (w : Word) : Reg := BitVec.ofNat 32 (fld w 31 0)
def hi32w (w : Word) : Reg := BitVec.ofNat 32 (fld w 63 32)

/-- BLK registers (R381). -/
def readBlk (s : State) (off : Nat) : Reg :=
  let b := s.blk
  match off with
  | 0x400 => BitVec.ofNat 32 (b2n b.ready + b2n b.fuseok * 2 + b2n b.fuseerr * 4 + b2n b.bstdone * 8 + b2n b.spzdone * 16
      + b2n b.libdone * 32 + b.rstcause.toNat * 2 ^ 8)
  | 0x404 => b.run.setWidth 32
  | 0x408 => BitVec.ofNat 32 (fld b.bootv 31 0)
  | 0x40C => BitVec.ofNat 32 (fld b.bootv 47 32)
  | 0x410 => b2w b.testen
  | 0x414 => 0x5B01
  | 0x418 => b.park.setWidth 32
  | _ => 0

/-- CORE registers (R105). -/
def readCore (s : State) (n off : Nat) : Reg :=
  let c := s.core n
  match off with
  | 0x400 => c.cfgLive
  | 0x404 => BitVec.ofNat 32 (c.cur.getD 0x7F + b2n c.cur.isNone * 2 ^ 7 + c.nest * 2 ^ 8 + b2n c.tend * 2 ^ 16 + b2n c.savefail * 2 ^ 17)
  | 0x408 => BitVec.ofNat 32 (fld c.fvbase 31 0)
  | 0x40C => BitVec.ofNat 32 (fld c.fvbase 47 32)
  | 0x410 => BitVec.ofNat 32 (fld c.ivbase 31 0)
  | 0x414 => BitVec.ofNat 32 (fld c.ivbase 47 32)
  | 0x800 => c.cfgStg
  | _ => 0

/-- CSTAT of a chain (R174). -/
def cstat (s : State) (p : Nat) : Reg :=
  let l := (s.chLog p).getD 0x7F
  match (s.chain p).strip with
  | none => BitVec.ofNat 32 (l * 2 ^ 8)
  | some r =>
    let t := s.slot r.q r.slot
    let linked := sendLink s t r || recvLink s t r
    BitVec.ofNat 32 (1 + b2n r.spliced * 2 + b2n linked * 4 + l * 2 ^ 8 + handleOf r.q r.slot r.gen * 2 ^ 16)

/-- CHAIN registers (R174). -/
def readChain (peek : Bool) (s : State) (p off : Nat) : Rd :=
  let c := s.chain p
  match off with
  | 0x400 => (s, b2w c.en)
  | 0x404 => (s, cstat s p)
  | 0x408 => rcRead peek c.rescnt s (s.setChain p { c with rescnt := 0, winCnt := 0 })
  | 0x40C => rcRead peek c.greplay s (s.setChain p { c with greplay := 0 })
  | 0x410 => (s.setChain p { c with elemHi := hi32w c.elem }, lo32w c.elem)
  | 0x414 => (s, c.elemHi)
  | 0x418 => (s, c.rescfg)
  | 0x440 => (s, c.srLive)
  | 0x444 => (s, c.swLive)
  | 0x840 => (s, c.srStg)
  | 0x844 => (s, c.swStg)
  | _ => (s, 0)

/-- QSTAT of a quadrant (R145). -/
def qstat (s : State) (q : Nat) : Reg :=
  let n := fun f => ((List.range 64).filter fun k => f (s.slot q k).st).length
  let Q := s.quad q
  BitVec.ofNat 32 (n (fun x => decide (x = .free)) + n (fun x => decide (x = .queued)) * 2 ^ 8
    + n (fun x => decide (x = .running) || decide (x = .ending)) * 2 ^ 16 + b2n Q.fbovr * 2 ^ 23
    + n (fun x => decide (x = .armed)) * 2 ^ 24 + b2n Q.fbv * 2 ^ 31)

/-- QUAD registers (R145, R225). -/
def readQuad (peek : Bool) (s : State) (q off : Nat) : Rd :=
  let Q := s.quad q
  match off with
  | 0x400 => (s, qstat s q)
  | 0x404 => (s, Q.qcfgLive)
  | 0x408 => rcRead peek Q.tkdone s (s.setQuad q { Q with tkdone := 0 })
  | 0x40C => rcRead peek Q.tkfault s (s.setQuad q { Q with tkfault := 0 })
  | 0x480 => (s, Q.mcctl)
  | 0x484 => (s, BitVec.ofNat 32 (b2n Q.mcRun.isSome + Q.mcCmd.toNat * 2 + Q.mcResult.toNat * 2 ^ 4 + b2n Q.cmdlost * 2 ^ 8
      + b2n Q.lost * 2 ^ 9 + Q.failaddr.toNat * 2 ^ 16))
  | 0x48C => (s, Q.diridx.setWidth 32)
  | 0x4A0 => (s, Q.mcerr)
  | 0x4A4 => rcRead peek Q.mccorr s (s.setQuad q { Q with mccorr := 0 })
  | 0x4A8 => rcRead peek Q.mcuerr s (s.setQuad q { Q with mcuerr := 0 })
  | 0x4AC => (s, Q.mcpois)
  | 0x804 => (s, Q.qcfgStg)
  | _ =>
    if 0x420 ≤ off ∧ off < 0x440 then (s, tget zeroD Q.fbrec ((off - 0x420) / 4))
    else if 0x490 ≤ off ∧ off < 0x4A0 then (s, tget zeroD Q.dird ((off - 0x490) / 4))
    else (s, 0)

/-- PGRP registers (R201). -/
def readPgrp (peek : Bool) (s : State) (g off : Nat) : Rd :=
  let k := s.pgrp g
  match off with
  | 0x400 => (s, k.cfgLive)
  | 0x404 => (s, BitVec.ofNat 32 (maskOf 16 (fun i => (s.port (16 * g + i)).fault)
      + maskOf 16 (fun i => (s.ptLog (16 * g + i)).isSome) * 2 ^ 16))
  | 0x408 => rcRead peek k.corr s (s.setPgrp g { k with corr := 0 })
  | 0x40C => rcRead peek k.crcrty s (s.setPgrp g { k with crcrty := 0 })
  | 0x410 => rcRead peek k.uerr s (s.setPgrp g { k with uerr := 0 })
  | 0x414 => rcRead peek (k.taghw.setWidth 32) s (s.setPgrp g { k with taghw := 0 })
  | 0x800 => (s, k.cfgStg)
  | _ => (s, 0)

/-- SBANK registers (R241). -/
def readSbank (peek : Bool) (s : State) (b off : Nat) : Rd :=
  let k := s.bank b
  match off with
  | 0x400 => (s, BitVec.ofNat 32 ((ownerOf s b).toNat + b2n k.pend.isSome * 2 ^ 8 + b2n k.holost * 2 ^ 9 + ((s.bkLog b).getD 0x7F) * 2 ^ 16))
  | 0x408 => (s, k.acfg)
  | 0x40C => rcRead peek k.corr s (s.setBank b { k with corr := 0 })
  | 0x410 => rcRead peek k.uerr s (s.setBank b { k with uerr := 0 })
  | 0x414 => (s, k.uerraddr)
  | 0x418 => rcRead peek k.hxdrop s (s.setBank b { k with hxdrop := 0 })
  | 0x420 => (s, k.repsel)
  | 0x424 => (s, (tget zeroD k.repair (4 * fld k.repsel 6 0 + fld k.repsel 9 8)).setWidth 32)
  | 0x428 => (s, if k.rbusy then 2 else 0)
  | _ => (s, 0)

/-- ICU registers (R287). -/
def readIcu (peek : Bool) (s : State) (off : Nat) : Rd :=
  match off with
  | 0x404 => (s, BitVec.ofNat 32 (maskOf 8 (irqOut s) + s.icu.hraised.toNat * 2 ^ 8 + b2n s.icu.hbadeoi * 2 ^ 16))
  | 0x40C => (s, s.icu.srcerr)
  | 0x410 => rcRead peek s.icu.edgelost s (s.setIcu { s.icu with edgelost := 0 })
  | 0x414 => (s, BitVec.ofNat 32 (maskOf 32 fun g => (s.grp g).opn))
  | _ =>
    if 0x440 ≤ off ∧ off < 0x460 then
      let r := claimLine ((off - 0x440) / 4) peek s
      (r.1, BitVec.ofNat 32 r.2)
    else if 0x480 ≤ off ∧ off < 0x500 then (s, (s.grp ((off - 0x480) / 4)).cfg)
    else (s, 0)

/-- ICUC registers (R288). -/
def readIcuc (peek : Bool) (s : State) (n off : Nat) : Rd :=
  let k := s.icucOf n
  match off with
  | 0x400 => (s, BitVec.ofNat 32 (b2n k.nmask + b2n k.fmask * 2))
  | 0x404 => (s, BitVec.ofNat 32 (b2n (nreq s n) + b2n (freq s n) * 2 + b2n k.nraised * 4 + b2n k.fraised * 8 + b2n k.badeoi * 16))
  | 0x408 => let r := claimCore n false peek s; (r.1, BitVec.ofNat 32 r.2)
  | 0x40C => let r := claimCore n true peek s; (r.1, BitVec.ofNat 32 r.2)
  | _ => (s, 0)

/-- MTIME registers; a read of a low half latches the high half (R262, R268). -/
def readMtime (s : State) (off : Nat) : Rd :=
  let m := s.mt
  match off with
  | 0x400 => (s.setMt { m with mtimeHi := hi32w m.mtime }, lo32w m.mtime)
  | 0x404 => (s, m.mtimeHi)
  | 0x408 => (s, BitVec.ofNat 32 (b2n m.synced + b2n m.holdover * 2 + b2n m.validin * 4 + b2n m.hoevt * 2 ^ 8 + b2n m.ldevt * 2 ^ 9
      + b2n m.slip * 2 ^ 10 + b2n m.backstep * 2 ^ 11))
  | 0x40C => (s, m.ctl)
  | 0x410 => (s, m.horatio)
  | 0x414 => (s.setMt { m with prevHi := hi32w m.loadprev }, lo32w m.loadprev)
  | 0x418 => (s, m.prevHi)
  | 0x41C => (s.setMt { m with snapHi := hi32w m.snapt }, lo32w m.snapt)
  | 0x420 => (s, m.snapHi)
  | 0x42C => (s, m.windows.setWidth 32)
  | _ => (s, 0)

/-- CUE registers (R269). -/
def readCue (peek : Bool) (s : State) (off : Nat) : Rd :=
  let c := s.cue
  match off with
  | 0x400 => (s, c.cfgLive)
  | 0x404 => (s, c.tcdmask)
  | 0x408 => (s, BitVec.ofNat 32 (armedCount s + poolFree s * 2 ^ 16))
  | 0x40C => rcRead peek c.latecnt s (s.setCue { c with latecnt := 0 })
  | 0x410 => rcRead peek c.skipcnt s (s.setCue { c with skipcnt := 0 })
  | 0x414 => (s, c.err)
  | 0x800 => (s, c.cfgStg)
  | _ => (s, 0)

/-- STAT of a timer channel with its computed RUN bit (R270). -/
def timerStat (s : State) (t : Timer) : Reg := setBit t.stat 5 (t.en && !t.frozen s && gateOpen s t s.blk.gate)

/-- The live registers of channel `c`, at offset `o` from its base (R262, R264, R270). -/
def readChannel (peek : Bool) (s : State) (c o : Nat) : Rd :=
  let t := s.timer c
  match o with
  | 0x00 => (s, t.ctl)
  | 0x04 => (s, t.capcfg)
  | 0x08 => (s.setTimer c { t with cntHi := hi32w t.cnt }, lo32w t.cnt)
  | 0x0C => (s, t.cntHi)
  | 0x10 => (s, lo32w t.cmp)
  | 0x14 => (s, hi32w t.cmp)
  | 0x18 => (s, lo32w t.per)
  | 0x1C => (s, hi32w t.per)
  | 0x20 => (s.setTimer c { t with capHi := hi32w t.cap, stat := if peek then t.stat else setBit t.stat 3 false }, lo32w t.cap)
  | 0x24 => (s, t.capHi)
  | 0x28 => (s, lo32w t.phase)
  | 0x2C => (s, hi32w t.phase)
  | 0x38 => (s, timerStat s t)
  | _ => (s, 0)

/-- TIMER registers (R270). -/
def readTimer (peek : Bool) (s : State) (p off : Nat) : Rd :=
  if off < 0x800 then readChannel peek s (16 * p + (off - 0x400) / 0x40) (off % 0x40)
  else if off < 0xC00 then
    let t := s.timer (16 * p + (off - 0x800) / 0x40)
    match off % 0x40 with
    | 0x10 => (s, lo32w t.cmpStg)
    | 0x14 => (s, hi32w t.cmpStg)
    | 0x18 => (s, lo32w t.perStg)
    | 0x1C => (s, hi32w t.perStg)
    | _ => (s, 0)
  else (s, 0)

/-- PAU registers (R311). -/
def readPau (peek : Bool) (s : State) (off : Nat) : Rd :=
  let u := s.pau
  match off with
  | 0x400 => (s, BitVec.ofNat 32 (u.cap.toNat + (min u.chip.toNat 3200) * 2 ^ 16))
  | 0x404 => (s, BitVec.ofNat 32 (budgetB u + (min 4095 (heldSum u)) * 2 ^ 16 + b2n u.isOver * 2 ^ 31))
  | 0x408 => (s, BitVec.ofNat 32 (u.pool.toNat + (min 4095 (bookedSum u)) * 2 ^ 16))
  | 0x40C => (s, BitVec.ofNat 32 (u.rampmax.toNat + (min 4095 (grSum u s.bclk)) * 2 ^ 16))
  | 0x410 =>
    let w := fun p => min 255 ((u.reqs.filter fun r => decide (r.prio = p)).length)
    (s, BitVec.ofNat 32 (w 0 + w 1 * 2 ^ 8 + w 2 * 2 ^ 16 + w 3 * 2 ^ 24))
  | 0x414 => rcRead peek u.thrcnt s (s.setPau { u with thrcnt := 0 })
  | 0x418 => rcRead peek u.refcnt s (s.setPau { u with refcnt := 0 })
  | _ => if 0x440 ≤ off ∧ off < 0x480 then (s, (tget costD u.cost ((off - 0x440) / 4)).setWidth 32) else (s, 0)

/-- PSEQ registers (R312). -/
def readPseq (peek : Bool) (s : State) (off : Nat) : Rd :=
  let u := s.pseq
  match off with
  | 0x400 => (s, BitVec.ofNat 32 (b2n u.en + u.guard.toNat * 2 ^ 16))
  | 0x408 => rcRead peek u.wakecnt s (s.setPseq { u with wakecnt := 0 })
  | 0x40C => rcRead peek u.latewake s (s.setPseq { u with latewake := 0 })
  | 0x410 => (s, u.err)
  | _ => (s, 0)

/-- SEC registers (R333). -/
def readSec (peek : Bool) (s : State) (off : Nat) : Rd :=
  let u := s.sec
  match off with
  | 0x400 => (s, BitVec.ofNat 32 (b2n u.lcField + b2n u.moving * 2 + b2n u.movefail * 4))
  | 0x408 => (s, u.cplvl)
  | 0x40C => (s, u.jdbg)
  | 0x410 => rcRead peek u.privcnt s (s.setSec { u with privcnt := 0 })
  | _ => (s, 0)

/-- DBG registers (R334). -/
def readDbg (s : State) (off : Nat) : Reg :=
  let u := s.dbg
  match off with
  | 0x400 => BitVec.ofNat 32 (b2n u.conn + b2n u.lost * 2 + b2n u.haltevt * 4 + b2n u.cmpevt * 8
      + maskOf 16 (fun n => (s.dbgcOf n).halted) * 2 ^ 16)
  | 0x404 => u.devten
  | 0x408 => u.dcfg
  | _ => 0

/-- DBGC registers (R335). -/
def readDbgc (s : State) (n off : Nat) : Reg :=
  let d := s.dbgcOf n
  match off with
  | 0x400 => BitVec.ofNat 32 (b2n d.stepirq * 2 ^ 4 + d.fctx.toNat * 2 ^ 8)
  | 0x404 => BitVec.ofNat 32 (b2n d.halted + b2n d.pend.isSome * 2 + b2n (d.pend.isSome && !coreAwake s n) * 4 + d.cause.toNat * 2 ^ 3
      + d.cmpn.toNat * 2 ^ 6 + d.ctx.toNat * 2 ^ 9 + b2n d.lockbrk * 2 ^ 16)
  | 0x420 => BitVec.ofNat 32 (b2n d.fbusy + b2n d.fdone * 2 + b2n d.ffault * 4 + b2n d.fwait * 8 + d.fcause.toNat * 2 ^ 8)
  | _ =>
    if 0x408 ≤ off ∧ off < 0x41C then tget zeroD d.feed ((off - 0x408) / 4)
    else if 0x424 ≤ off ∧ off < 0x430 then tget zeroD d.dbgok ((off - 0x424) / 4)
    else if 0x440 ≤ off ∧ off < 0x4C0 then
      let c := s.cmp n ((off - 0x440) / 0x10)
      match off % 0x10 with
      | 0 => c.lo
      | 4 => c.hi
      | 8 => c.cfg
      | _ => 0
    else 0

/-- Word `k` of a dailies entry (R349). -/
def logWord (e : LogEnt) (k : Nat) : Reg :=
  match k with
  | 0 => lo32w e.time
  | 1 => hi32w e.time
  | 2 => lo32w e.e1
  | _ => hi32w e.e1

/-- RAS registers; a read of DENT0 latches the whole entry, a peek too (R358). -/
def readRas (peek : Bool) (s : State) (off : Nat) : Rd :=
  let r := s.ras
  match off with
  | 0x400 => (s, BitVec.ofNat 32 (b2n r.attnp + b2n r.faultp * 2 + b2n r.ovf * 4))
  | 0x404 => (s, r.rctl.setWidth 32)
  | 0x408 => (s, r.wridx.setWidth 32)
  | 0x40C => (s, r.rdidx.setWidth 32)
  | 0x410 => (s, r.dsel.setWidth 32)
  | 0x414 =>
    let e := tget logInit r.ring r.dsel.toNat
    (s.setRas { r with latch := e }, logWord e 0)
  | 0x418 => (s, logWord r.latch 1)
  | 0x41C => (s, logWord r.latch 2)
  | 0x420 => (s, logWord r.latch 3)
  | 0x424 => rcRead peek r.lostcnt s (s.setRas { r with lostcnt := 0 })
  | _ => (s, 0)

/-- Is unit `u` of a kind a free spare? -/
def isFree (s : State) (kind u : Nat) : Bool := decide (unitSt s kind u = 1) && !spareTaken s kind u

/-- SPARE of the CULLET page (R357). -/
def spareReg (s : State) : Reg :=
  let n := fun kind lo k => ((rangeFrom lo k).filter (isFree s kind)).length
  BitVec.ofNat 32 (maskOf 4 (fun q => decide (0 < n 0 (17 * q) 17)) + maskOf 4 (fun q => decide (0 < n 1 (17 * q) 17)) * 2 ^ 4
    + (n 2 0 14 + n 2 14 14 * 4 + n 2 28 14 * 16 + n 2 42 14 * 64) * 2 ^ 8 + n 3 0 528 * 2 ^ 16)

/-- MBMAP of core `n` (R357). -/
def mbmapReg (s : State) (n : Nat) : Reg :=
  let v := fun k => (s.mbSlot (3 * n + k)).getD 0x3F
  let rs := (List.range 3).any fun k => resyncing s (3 * n + k)
  BitVec.ofNat 32 (v 0 + v 1 * 2 ^ 8 + v 2 * 2 ^ 16 + b2n rs * 2 ^ 31)

/-- RSTAT of the CULLET page (R340, R357): row repairs run one per half. -/
def rstatReg (s : State) : Reg :=
  let rows := fun h => (s.steer.rowDue.filter fun r => decide (rowHalf r = h)).length
  let busy := !s.cullet.running.isEmpty || !s.steer.rowDue.isEmpty
  BitVec.ofNat 32 (b2n busy + (min 255 (s.cullet.waiting.length + (rows 0 - 1) + (rows 1 - 1))) * 2 ^ 8)

/-- CULLET registers (R357). -/
def readCullet (s : State) (off : Nat) : Reg :=
  match off with
  | 0x4C0 => spareReg s
  | 0x4C4 => BitVec.ofNat 32 (s.steer.spare0 + s.steer.spare1 * 2 ^ 8)
  | 0x4CC => rstatReg s
  | 0x4D0 => s.cullet.ptmo.setWidth 32
  | 0x4D4 => s.cullet.bkcfg
  | _ =>
    if 0x400 ≤ off ∧ off < 0x440 then packMap s.chPhys 0x7F ((off - 0x400) / 4)
    else if 0x440 ≤ off ∧ off < 0x480 then packMap s.bkPhys 0x7F ((off - 0x440) / 4)
    else if 0x480 ≤ off ∧ off < 0x4C0 then mbmapReg s ((off - 0x480) / 4)
    else 0

/-- PERT registers (R359). -/
def readPert (s : State) (off : Nat) : Reg :=
  let t := s.pert
  match off with
  | 0xC10 => t.seed
  | 0xC14 => t.pgsel0
  | 0xC18 => t.pgsel1
  | 0xC1C => t.pdly
  | 0xC20 => t.crdpat
  | 0xC24 => t.mvlim
  | 0xC28 => t.cuedly
  | 0xC2C => t.irqdly
  | _ => 0

/-- FUSE registers (R382). -/
def readFuse (s : State) (off : Nat) : Reg :=
  let f := s.fuse
  match off with
  | 0x400 => BitVec.ofNat 32 (b2n f.loaded + b2n f.sigok * 2 + b2n f.crcok * 4 + b2n f.mapok * 8 + b2n s.sec.prog * 16)
  | 0x404 => f.fsel.setWidth 32
  | 0x408 => tget zeroD f.words f.fsel.toNat
  | 0x40C => f.fcrc
  | _ => 0

/-- STEER registers (R202). -/
def readSteer (peek : Bool) (s : State) (off : Nat) : Rd :=
  let t := s.steer
  match off with
  | 0x400 => (s, t.bstctl)
  | 0x404 => rcRead peek t.corr s (s.setSteer { t with corr := 0 })
  | 0x408 => rcRead peek t.uerr s (s.setSteer { t with uerr := 0 })
  | 0x40C => (s, t.pois)
  | 0x410 => (s, t.err)
  | 0x414 => (s, t.mapsel.setWidth 32)
  | 0x418 => (s, BitVec.ofNat 32 (s.ptPhys t.mapsel.toNat))
  | 0x41C => (s, b2w t.bufen)
  | _ => (s, 0)

/-- HOTMON registers (R203). -/
def readHotmon (peek : Bool) (s : State) (off : Nat) : Rd :=
  let h := s.hot
  match off with
  | 0x400 => (s, h.cfg)
  | 0x404 => (s, BitVec.ofNat 32 (b2n h.hot + b2n h.multi * 2 + h.lport.toNat * 2 ^ 16))
  | 0x408 => (s, h.gran)
  | 0x40C => rcRead peek h.cnt s (s.setHot { h with cnt := 0 })
  | _ => if 0x440 ≤ off ∧ off < 0x480 then (s, tget zeroD h.map ((off - 0x440) / 4)) else (s, 0)

/-- The live and staged registers of a page. -/
def readBody (peek : Bool) (k : PageId) (off : Nat) (s : State) : Rd :=
  match k with
  | .blk => (s, readBlk s off)
  | .core n => (s, readCore s n off)
  | .chain p => readChain peek s p off
  | .quad q => readQuad peek s q off
  | .pgrp g => readPgrp peek s g off
  | .sbank b => readSbank peek s b off
  | .icu => readIcu peek s off
  | .icuc n => readIcuc peek s n off
  | .mtime => readMtime s off
  | .cue => readCue peek s off
  | .timer p => readTimer peek s p off
  | .pau => readPau peek s off
  | .pseq => readPseq peek s off
  | .sec => readSec peek s off
  | .dbg => (s, readDbg s off)
  | .dbgc n => (s, readDbgc s n off)
  | .ras => readRas peek s off
  | .cullet => (s, readCullet s off)
  | .pert => (s, readPert s off)
  | .fuse => (s, readFuse s off)
  | .steer => readSteer peek s off
  | .hotmon => readHotmon peek s off

/-- The injection registers (R354). -/
def readInj (peek : Bool) (g off : Nat) (s : State) : Option Rd :=
  let i := s.injOf g
  match off with
  | 0xC00 => some (s, i.ctl)
  | 0xC04 => some (s, i.pos)
  | 0xC08 => some (rcRead peek i.cnt s (s.setInj g { i with cnt := 0 }))
  | _ => none

/-- One 32-bit register of page `g`, after the checks of the access. -/
def readReg (peek : Bool) (g : Nat) (k : PageId) (off : Nat) (s : State) : Rd :=
  if off < 0x18 then (s, headerRead s g k off)
  else if off < 0x400 then (s, 0)
  else match readInj peek g off s with
    | some r => r
    | none => readBody peek k off s

end Sys2Proof.Machine
end

