-- ==== Sys2Proof/Machine/DebugOps.lean ====
section
/-! DEFINITION. What the registers of the DBG, DBGC and SEC pages and BLK.RUN start: halts, resumes, steps, fed bundles,
the lifecycle move and the release of cores (R318, R327 to R332, R379). -/

namespace Sys2Proof.Machine

/-! ## Halts (R327 to R329) -/

/-- A halt request of a core (R325, R327): a comparator's or a step's pending halt stands, a forced one takes over from an
unforced one and waives the locked sequence whatever CAUSE records (R327, R332), and a sleeping core is asked to wake. -/
def haltReq (n : Nat) (cause : BitVec 3) (byDbg : Bool) (s : State) : State :=
  let d := s.dbgcOf n
  if d.halted then s
  else
    let c := match d.pend with
      | some x => if x = 4 then 4 else if cause = 2 then 2 else x
      | none => cause
    let s := s.setDbgc n { d with pend := some c, force := d.force || decide (cause = 2), byDbg := if d.pend.isSome then d.byDbg && byDbg else byDbg }
    if coreAwake s n then s else demandCore n s

/-- The halt of a core ends (R329): its keep votes end, and its next bundle in the halted context meets no break. -/
def unhalt (n : Nat) (s : State) : State :=
  let s := s.setDbgc n { s.dbgcOf n with halted := false, skipBrk := true }
  (slotDoms s n).foldl (fun s d => s.setDom d { s.dom d with keepHalt := false }) s

/-- RESUME (R329). -/
def resumeCore (n : Nat) (s : State) : State := if (s.dbgcOf n).halted then unhalt n s else s

/-- STEP (R329): one bundle issues; a core halted in no context halts again without one. -/
def stepCore (n : Nat) (s : State) : State :=
  if !(s.dbgcOf n).halted then s
  else
    let s := unhalt n s
    let d := s.dbgcOf n
    if d.ctx = 0x7F ∨ (s.core n).cur = none then s.setDbgc n { d with pend := some 3, byDbg := false }
    else s.setDbgc n { d with stepping := true }

/-- CANCEL (R329). -/
def cancelHalt (n : Nat) (s : State) : State :=
  let d := s.dbgcOf n
  s.setDbgc n { d with pend := none, force := false, byDbg := false }

/-- FEEDGO (R330): on a halted core without a fed bundle outstanding, the bundle of FEED0 to FEED4 issues. -/
def feedGo (n : Nat) (s : State) : State :=
  let d := s.dbgcOf n
  if d.halted ∧ !d.fbusy then
    let s := s.setDbgc n { d with fbusy := true, fissue := true, fcause := 0 }
    if feedRuns s n then issueFed n s else s
  else s

/-- One action on each core of a mask. -/
def onCores (mask : Nat) (f : Nat → State → State) (s : State) : State :=
  (List.range 16).foldl (fun s n => if mask.testBit n then f n s else s) s

/-- A write of HCTL after its checks (R335): the fields, then the actions in ascending bit order. -/
def hctlWrite (n : Nat) (byDbg : Bool) (v : Reg) (s : State) : State :=
  let s := s.setDbgc n { s.dbgcOf n with stepirq := bit v 4, fctx := BitVec.ofNat 7 (fld v 14 8) }
  let s := if bit v 0 then haltReq n 1 byDbg s else s
  let s := if bit v 1 then haltReq n 2 byDbg s else s
  let s := if bit v 2 then resumeCore n s else s
  let s := if bit v 3 then stepCore n s else s
  if bit v 5 then cancelHalt n s else s

/-! ## The lifecycle move (R318) -/

/-- May the move start? -/
def moveOk (s : State) : Bool :=
  !s.sec.lcField && decide (s.blk.run = 0) && (List.range 4).all fun q => (s.quad q).slots.all fun k => decide (k.2.st = .free)

/-- A core's halt is released and its comparators are cleared (R318, step 1). -/
def moveCore (n : Nat) (s : State) : State :=
  let s := resumeCore n s
  let d := s.dbgcOf n
  s.setDbgc n { d with pend := none, force := false, skipBrk := false, cmps := d.cmps.map fun c => (c.1, { c.2 with cfg := 0 }) }

/-- The banks that the move wakes and wipes: all but retired ones, which are held in COLD (R291). -/
def wipeBanks (s : State) : List Nat := (List.range 68).filter fun b => decide (s.bkUnit b ≠ 2)

/-- The move starts: the connection is lost, halts are released, and every bank is asked to wake (R318, steps 1 and 2). -/
def startMove (s : State) : State :=
  let s := loseConn (s.setSec { s.sec with moving := true })
  let s := (List.range 16).foldl (fun s n => moveCore n s) s
  (wipeBanks s).foldl (fun s b => if awake s (domBank b) then s else addDemand (domBank b) s) s

/-- A core's contexts as at cold reset, the core held (R88, R375): what it has in progress is lost. -/
def holdCore (n : Nat) (s : State) : State :=
  let c := s.core n
  (endFed n s).setCore n { savefail := c.savefail, tend := c.tend, cfgLive := c.cfgLive, cfgStg := c.cfgStg, mode := c.mode,
                           fvbase := c.fvbase, ivbase := c.ivbase, bankwin := c.bankwin, nreqSeen := c.nreqSeen }

/-- A core's contexts and DBGOK bits return to cold reset (R318, step 3). -/
def wipeCore (n : Nat) (s : State) : State :=
  let s := holdCore n s
  s.setDbgc n { s.dbgcOf n with dbgok := [] }

/-- `wipeComplete` (R318, steps 2 to 4): once every bank is awake, its words are zero, the contexts are cleared, and the
fuse is to be programmed. -/
def execWipeComplete (s : State) : Out :=
  if !s.sec.moving || s.sec.prog then .next s
  else
    let asleep := (wipeBanks s).filter fun b => !awake s (domBank b)
    if !asleep.isEmpty then .next (asleep.foldl (fun s b => addDemand (domBank b) s) s)
    else
      let s := { s with mem := [], synd := [] }
      let s := (List.range 16).foldl (fun s n => wipeCore n s) s
      .next (s.setSec { s.sec with prog := true })

/-- The fuse block has answered (R318, R370, R382): an acknowledgement makes LC FIELD and sets bit 16 of shadow word 0; a
failure or no answer sets MOVEFAIL, with dailies code 0x70 (R350). -/
def endMove (a : FuseAnswer) (s : State) : State :=
  let s := s.setSec { s.sec with prog := false, moving := false }
  match a with
  | .ack =>
    let f := s.fuse
    let w := setBit (tget zeroD f.words 0) 16 true
    (s.setSec { s.sec with lcField := true }).setFuse { f with words := tset zeroD 0 w f.words }
  | _ => logEv 0x70 2 pgSec 0 (s.setSec { s.sec with movefail := true })

/-! ## Release of cores (R379, R383) -/

/-- A core is released: context 0x00 runs at MACHINE level from BOOTV; a halted core stays halted, in that context (R332). -/
def releaseCore (n : Nat) (s : State) : State :=
  if released s n ∨ (voters s n).length < 2 then s
  else
    let c := s.core n
    let k := { c.ctx 0 with state := 2, level := 0, tag := 0, pc := s.blk.bootv }
    let s := s.setCore n { c.setCtx 0 k with cur := some 0 }
    let s := s.setBlk { s.blk with run := setBit s.blk.run n true }
    let d := s.dbgcOf n
    let s := if d.halted then s.setDbgc n { d with ctx := 0 } else s
    demandCore n s

/-- A write of BLK.RUN after its checks (R379). -/
def runWrite (v : Reg) (s : State) : State := onCores (fld v 15 0) releaseCore s

end Sys2Proof.Machine
end

