-- ==== Sys2Proof/Machine/PageWrites.lean ====
section
/-! DEFINITION. What a write of each register does once the page's owner admits it: the defined encodings (R34, check 7),
the pages' own refusals, and the effect (the register tables of every chapter). The answer is the refusal code or the state
after. -/

namespace Sys2Proof.Machine

/-- What a register write answers. -/
abbrev Wr := Except Nat State

/-- A write with a condition on its encoding (R34, check 7). -/
def enc (ok : Bool) (s : State) : Wr := if ok then .ok s else .error 0x01

/-- A half of an address register written. -/
def putLo (a : Addr) (v : Reg) (low : Nat) : Addr := setFld a 31 low (fld v 31 low)
def putHi (a : Addr) (v : Reg) : Addr := setFld a 47 32 (fld v 15 0)

/-- A VALID flag in bit 31 with type W1C. -/
def validW1c (cur v : Reg) : Reg := if bit v 31 then setBit cur 31 false else cur

/-- BLK (R352, R379, R381). -/
def writeBlk (off : Nat) (v : Reg) (s : State) : Wr :=
  let b := s.blk
  match off with
  | 0x404 => if !b.ready || s.sec.moving then .error 0x0A else .ok (runWrite v s)
  | 0x408 => .ok (s.setBlk { b with bootv := putLo b.bootv v 1 })
  | 0x40C => .ok (s.setBlk { b with bootv := putHi b.bootv v })
  | 0x410 =>
    let s' := s.setBlk { b with testen := bit v 0 }
    .ok (if b.testen && !bit v 0 then testOff s' else s')
  | _ => .ok s

/-- CORE (R105); every write is refused during a lifecycle move (R318). -/
def writeCore (n off : Nat) (v : Reg) (s : State) : Wr :=
  let c := s.core n
  if s.sec.moving then .error 0x0A
  else match off with
  | 0x404 => .ok (s.setCore n { c with tend := w1c c.tend v 16, savefail := w1c c.savefail v 17 })
  | 0x408 => .ok (s.setCore n { c with fvbase := putLo c.fvbase v 9 })
  | 0x40C => .ok (s.setCore n { c with fvbase := putHi c.fvbase v })
  | 0x410 => .ok (s.setCore n { c with ivbase := putLo c.ivbase v 9 })
  | 0x414 => .ok (s.setCore n { c with ivbase := putHi c.ivbase v })
  | 0x418 => if ctxExists n (fld v 6 0) ∧ fld v 12 8 < 28 then .ok (demandCore n (postEvt n (fld v 6 0) (fld v 12 8) s)) else .error 0x01
  | 0x800 => if fld v 1 0 < 2 then .ok (s.setCore n { c with cfgStg := v &&& 0x3FFF }) else .error 0x01
  | _ => .ok s

/-- CHAIN (R160, R174). -/
def writeChain (p off : Nat) (v : Reg) (s : State) : Wr :=
  let c := s.chain p
  match off with
  | 0x400 => .ok (s.setChain p { c with en := bit v 0 })
  | 0x418 => enc (decide (10 ≤ fld v 15 8 ∧ fld v 15 8 ≤ 40)) (s.setChain p { c with rescfg := v &&& 0xFFFF })
  | 0x840 => enc (decide (fld v 1 0 < 2 ∧ fld v 3 2 < 2)) (s.setChain p { c with srStg := v &&& 0xF })
  | 0x844 => enc (decide (fld v 4 0 = 4 ∨ fld v 4 0 = 8 ∨ fld v 4 0 = 16)) (s.setChain p { c with swStg := v &&& 0x1F })
  | _ => .ok s

/-- QUAD (R145, R220, R225). -/
def writeQuad (q off : Nat) (v : Reg) (s : State) : Wr :=
  let Q := s.quad q
  match off with
  | 0x400 => .ok (s.setQuad q { Q with fbovr := w1c Q.fbovr v 23, fbv := w1c Q.fbv v 31 })
  | 0x480 => enc (decide (4 ≤ fld v 12 8 ∧ fld v 12 8 ≤ 20)) (s.setQuad q { Q with mcctl := v &&& 0x000F1F01 })
  | 0x484 => .ok (s.setQuad q { Q with cmdlost := w1c Q.cmdlost v 8, lost := w1c Q.lost v 9 })
  | 0x488 => .ok (mccmdWrite q (fld v 1 0) s)
  | 0x48C => .ok (diridxWrite q v s)
  | 0x4AC => .ok (s.setQuad q { Q with mcpois := validW1c Q.mcpois v })
  | 0x804 => enc (decide (12 ≤ fld v 4 0 ∧ fld v 4 0 ≤ 30)) (s.setQuad q { Q with qcfgStg := v &&& 0x1F })
  | _ => if 0x490 ≤ off ∧ off < 0x4A0 then .ok (dirdWrite q ((off - 0x490) / 4) v s) else .ok s

/-- PGRP (R201). -/
def writePgrp (g off : Nat) (v : Reg) (s : State) : Wr :=
  let ok := fun x => decide (16 ≤ x ∧ x ≤ 64)
  match off with
  | 0x800 => enc (ok (fld v 6 0) && ok (fld v 14 8)) (s.setPgrp g { s.pgrp g with cfgStg := v &&& 0x7F7F })
  | _ => .ok s

/-- Is an owner code defined? (R228) -/
def ownerOk (c : Nat) : Bool := decide (c ≤ 0x15)

/-- SBANK (R231, R236 to R241). -/
def writeSbank (b off : Nat) (v : Reg) (s : State) : Wr :=
  let k := s.bank b
  match off with
  | 0x400 => .ok (s.setBank b { k with holost := w1c k.holost v 9 })
  | 0x404 => if ownerOk (fld v 7 0) then .ok (ownreqWrite b v s) else .error 0x01
  | 0x408 => enc (decide (fld v 7 0 ≠ 0) && decide (4 ≤ fld v 16 12 ∧ fld v 16 12 ≤ 20)) (s.setBank b { k with acfg := v &&& 0x1F1FF })
  | 0x414 => .ok (s.setBank b { k with uerraddr := validW1c k.uerraddr v })
  | 0x420 => enc (decide (fld v 6 0 < 72)) (s.setBank b { k with repsel := v &&& 0x37F })
  | 0x424 => .ok (repentWrite b v s)
  | 0x428 => .ok (if bit v 0 then refreshWrite b s else s)
  | _ => .ok s

/-- Is a source number one that software may name? (R287, R288) -/
def srcOk (v : Reg) : Bool := decide (fld v 9 0 ≠ 0) && decide (fld v 9 0 ≠ 1023)

/-- ICU (R272, R279, R281, R287). -/
def writeIcu (off : Nat) (v : Reg) (s : State) : Wr :=
  match off with
  | 0x400 => if srcOk v then .ok (pulseSource (fld v 9 0) s) else .error 0x01
  | 0x404 => .ok (s.setIcu { s.icu with hbadeoi := w1c s.icu.hbadeoi v 16 })
  | 0x408 => if srcOk v then .ok (heoiWrite (fld v 9 0) (fld v 18 16) s) else .error 0x01
  | _ => if 0x480 ≤ off ∧ off < 0x500 then .ok (gcfgWrite ((off - 0x480) / 4) v s) else .ok s

/-- ICUC (R281, R283, R288). -/
def writeIcuc (n off : Nat) (v : Reg) (s : State) : Wr :=
  match off with
  | 0x400 => .ok (icucWrite n v s)
  | 0x404 => .ok (s.setIcuc n { s.icucOf n with badeoi := w1c (s.icucOf n).badeoi v 4 })
  | 0x410 => if srcOk v then .ok (eoiWrite n (fld v 9 0) s) else .error 0x01
  | _ => .ok s

/-- MTIME (R260, R268). -/
def writeMtime (off : Nat) (v : Reg) (s : State) : Wr :=
  let m := s.mt
  match off with
  | 0x408 => .ok (s.setMt { m with hoevt := w1c m.hoevt v 8, ldevt := w1c m.ldevt v 9, slip := w1c m.slip v 10, backstep := w1c m.backstep v 11 })
  | 0x40C => .ok (s.setMt { m with ctl := v &&& 0xF1 })
  | 0x410 => .ok (s.setMt { m with horatio := v })
  | 0x424 => .ok (groupStart true v.toNat s)
  | 0x428 => .ok (groupStop true v.toNat s)
  | _ => .ok s

/-- CUE (R269). -/
def writeCue (off : Nat) (v : Reg) (s : State) : Wr :=
  match off with
  | 0x404 => .ok (s.setCue { s.cue with tcdmask := v })
  | 0x800 => .ok (s.setCue { s.cue with cfgStg := v &&& 0x1FFF })
  | _ => .ok s

/-- A half of a 64-bit value written. -/
def putHalf32 (w : Word) (hi : Bool) (v : Reg) : Word := if hi then setFld w 63 32 v.toNat else setFld w 31 0 v.toNat

/-- CTL of a channel (R258 to R260, R270): EN does not rise while the page is frozen. -/
def ctlWrite (c : Nat) (v : Reg) (s : State) : State :=
  let t := s.timer c
  let x := v &&& 0x00FF03FF
  (s.setTimer c { t with ctl := if (s.header (chanPage c)).freeze && !t.en then setBit x 0 false else x }).setTev c { s.tev c with ctl := true }

/-- CAPCFG of a channel (R263): edges count from the BCLK in which CAPEN became 1. -/
def capcfgWrite (c : Nat) (v : Reg) (s : State) : State :=
  let t := s.timer c
  s.setTimer c { t with capcfg := v &&& 0xFFFFF, edges := if bit v 0 && !bit t.capcfg 0 then 0 else t.edges }

/-- STAT of a channel (R270). -/
def statWrite (c : Nat) (v : Reg) (s : State) : State :=
  let t := s.timer c
  let keep := t.stat &&& (0x1F &&& ~~~(v &&& 0x17))
  s.setTimer c { t with stat := keep ||| (v &&& 0xF00) }

/-- The live registers of channel `c` at offset `o` from its base (R261, R262, R270). -/
def writeChannel (g c o : Nat) (v : Reg) (s : State) : Wr :=
  let t := s.timer c
  match o with
  | 0x00 => enc (decide (fld v 8 4 < 23)) (ctlWrite c v s)
  | 0x04 => enc (decide (fld v 4 1 < 9)) (capcfgWrite c v s)
  | 0x08 => if t.en then .error 0x0A else .ok (s.setTimer c { t with cnt := putHalf32 t.cnt false v })
  | 0x0C => if t.en then .error 0x0A else .ok (s.setTimer c { t with cnt := putHalf32 t.cnt true v })
  | 0x28 => .ok (s.setTimer c { t with phase := putHalf32 t.phase false v })
  | 0x2C => .ok (s.setTimer c { t with phase := putHalf32 t.phase true v })
  | 0x30 => .ok (s.setTimer c { t with perLo := v })
  | 0x34 => if (s.header g).cmtpend then .error 0x03 else .ok (pernowWrite c v s)
  | 0x38 => .ok (statWrite c v s)
  | _ => .ok s

/-- TIMER (R270). -/
def writeTimer (g p off : Nat) (v : Reg) (s : State) : Wr :=
  if off < 0x800 then writeChannel g (16 * p + (off - 0x400) / 0x40) (off % 0x40) v s
  else if off < 0xC00 then
    let c := 16 * p + (off - 0x800) / 0x40
    let t := s.timer c
    match off % 0x40 with
    | 0x10 => .ok (s.setTimer c { t with cmpStg := putHalf32 t.cmpStg false v })
    | 0x14 => .ok (s.setTimer c { t with cmpStg := putHalf32 t.cmpStg true v })
    | 0x18 => .ok (s.setTimer c { t with perStg := putHalf32 t.perStg false v })
    | 0x1C => .ok (s.setTimer c { t with perStg := putHalf32 t.perStg true v })
    | _ => .ok s
  else .ok s

/-- PAU (R301, R305, R311). -/
def writePau (off : Nat) (v : Reg) (s : State) : Wr :=
  let u := s.pau
  let ok := decide (fld v 11 0 ≤ 3200)
  let x : BitVec 12 := BitVec.ofNat 12 (fld v 11 0)
  match off with
  | 0x400 => enc ok (updOver (s.setPau { u with cap := x }))
  | 0x408 => enc ok (s.setPau { u with pool := x })
  | 0x40C => .ok (s.setPau { u with rampmax := x })
  | _ =>
    if 0x440 ≤ off ∧ off < 0x480 then enc ok (s.setPau { u with cost := tset costD ((off - 0x440) / 4) x u.cost }) else .ok s

/-- PSEQ (R298, R312). -/
def writePseq (off : Nat) (v : Reg) (s : State) : Wr :=
  match off with
  | 0x400 => .ok (s.setPseq { s.pseq with en := bit v 0, guard := BitVec.ofNat 16 (fld v 31 16) })
  | 0x404 => if fld v 7 0 < 235 ∧ fld v 10 8 < 5 then .ok (forceDomain (fld v 7 0) (fld v 10 8) s) else .error 0x01
  | _ => .ok s

/-- SEC (R318, R333). -/
def writeSec (off : Nat) (v : Reg) (s : State) : Wr :=
  let u := s.sec
  match off with
  | 0x400 => .ok (s.setSec { u with movefail := w1c u.movefail v 2 })
  | 0x404 =>
    if fld v 15 0 ≠ 0x7E1D then .error 0x01
    else if u.moving then .ok s
    else if moveOk s then .ok (startMove s) else .error 0x0A
  | 0x408 => enc (decide (fld v 1 0 < 3)) (s.setSec { u with cplvl := v &&& 0xFF03 })
  | 0x40C => .ok (s.setSec { u with jdbg := v &&& 0x1FF })
  | _ => .ok s

/-- DBG (R327, R329, R334). -/
def writeDbg (byDbg : Bool) (off : Nat) (v : Reg) (s : State) : Wr :=
  let u := s.dbg
  match off with
  | 0x400 => .ok (s.setDbg { u with lost := w1c u.lost v 1, haltevt := w1c u.haltevt v 2, cmpevt := w1c u.cmpevt v 3 })
  | 0x404 => .ok (s.setDbg { u with devten := v &&& 0xE })
  | 0x408 => enc (decide (fld v 4 0 = 0 ∨ (4 ≤ fld v 4 0 ∧ fld v 4 0 ≤ 24))) (s.setDbg { u with dcfg := v &&& 0x1F })
  | 0x40C => .ok (onCores (fld v 15 0) (fun n s => haltReq n 5 byDbg s) s)
  | 0x410 => .ok (onCores (fld v 15 0) resumeCore s)
  | _ => .ok s

/-- The DBGOK bits that register `k` of core `n` holds: those of contexts that exist (R335). -/
def dbgokMask (n k : Nat) : Reg := BitVec.ofNat 32 (maskOf 32 fun j => ctxExists n (32 * k + j))

/-- CFG of a comparator (R335). -/
def cmpCfg (old v : Reg) : Reg := (v &&& 0x7F7F000F) ||| (if bit old 31 && !bit v 31 then 0x80000000 else 0)

/-- DBGC (R327 to R331, R335). -/
def writeDbgc (byDbg : Bool) (n off : Nat) (v : Reg) (s : State) : Wr :=
  let d := s.dbgcOf n
  match off with
  | 0x400 => if ctxExists n (fld v 14 8) then .ok (hctlWrite n byDbg v s) else .error 0x01
  | 0x404 => .ok (s.setDbgc n { d with lockbrk := w1c d.lockbrk v 16 })
  | 0x41C => .ok (if bit v 0 then feedGo n s else s)
  | 0x420 => .ok (s.setDbgc n { d with fdone := w1c d.fdone v 1, ffault := w1c d.ffault v 2, fwait := w1c d.fwait v 3 })
  | _ =>
    if 0x408 ≤ off ∧ off < 0x41C then
      .ok (s.setDbgc n { d with feed := tset zeroD ((off - 0x408) / 4) (if off = 0x418 then v &&& 0xFFFF else v) d.feed })
    else if 0x424 ≤ off ∧ off < 0x430 then
      .ok (s.setDbgc n { d with dbgok := tset zeroD ((off - 0x424) / 4) (v &&& dbgokMask n ((off - 0x424) / 4)) d.dbgok })
    else if 0x440 ≤ off ∧ off < 0x4C0 then
      let j := (off - 0x440) / 0x10
      let c := s.cmp n j
      let put := fun (x : Cmp) => s.setDbgc n { d with cmps := tset cmpInit j x d.cmps }
      match off % 0x10 with
      | 0 => .ok (put { c with lo := v })
      | 4 => .ok (put { c with hi := v &&& 0xFFFF })
      | 8 => enc (decide (fld v 2 0 < 5) && decide (fld v 21 16 < 48)) (put { c with cfg := cmpCfg c.cfg v })
      | _ => .ok s
    else .ok s

/-- RAS (R348, R358). -/
def writeRas (off : Nat) (v : Reg) (s : State) : Wr :=
  let r := s.ras
  match off with
  | 0x400 => .ok (s.setRas { r with attnp := w1c r.attnp v 0, faultp := w1c r.faultp v 1, ovf := w1c r.ovf v 2 })
  | 0x404 => .ok (s.setRas { r with rctl := BitVec.ofNat 3 (fld v 2 0) })
  | 0x40C => .ok (s.setRas { r with rdidx := BitVec.ofNat 10 (fld v 9 0) })
  | 0x410 => .ok (s.setRas { r with dsel := BitVec.ofNat 10 (fld v 9 0) })
  | _ => .ok s

/-- CULLET (R339, R357). -/
def writeCullet (off : Nat) (v : Reg) (s : State) : Wr :=
  let c := s.cullet
  match off with
  | 0x4C8 => retcmd v s
  | 0x4D0 => enc (decide (1024 ≤ fld v 15 0 ∧ fld v 15 0 ≤ 16384)) (s.setCullet { c with ptmo := BitVec.ofNat 16 (fld v 15 0) })
  | 0x4D4 => enc (decide (10 ≤ fld v 20 16)) (s.setCullet { c with bkcfg := v &&& 0x1FFFFF })
  | _ => .ok s

/-- PERT (R356, R359). -/
def writePert (off : Nat) (v : Reg) (s : State) : Wr :=
  let t := s.pert
  match off with
  | 0xC10 => enc (decide (v ≠ 0)) (s.setPert { t with seed := v, lfsr := v })
  | 0xC14 => .ok (s.setPert { t with pgsel0 := v })
  | 0xC18 => .ok (s.setPert { t with pgsel1 := v &&& 1 })
  | 0xC1C => .ok (s.setPert { t with pdly := v &&& 0xFFFFF })
  | 0xC20 => enc (decide (v ≠ 0xFFFFFFFF)) (s.setPert { t with crdpat := v, crdAt := s.bclk })
  | 0xC24 => enc (decide (1 ≤ fld v 9 0 ∧ fld v 9 0 ≤ 512)) (s.setPert { t with mvlim := v &&& 0x3FF })
  | 0xC28 => .ok (s.setPert { t with cuedly := v &&& 0xFFFF })
  | 0xC2C => .ok (s.setPert { t with irqdly := v })
  | _ => .ok s

/-- FUSE (R382). -/
def writeFuse (off : Nat) (v : Reg) (s : State) : Wr :=
  match off with
  | 0x404 => .ok (s.setFuse { s.fuse with fsel := BitVec.ofNat 13 (fld v 12 0) })
  | _ => .ok s

/-- STEER (R196, R202). -/
def writeSteer (off : Nat) (v : Reg) (s : State) : Wr :=
  let t := s.steer
  match off with
  | 0x400 => enc (decide (4 ≤ fld v 12 8 ∧ fld v 12 8 ≤ 20)) (s.setSteer { t with bstctl := v &&& 0x1F01 })
  | 0x40C => .ok (s.setSteer { t with pois := validW1c t.pois v })
  | 0x414 => .ok (s.setSteer { t with mapsel := BitVec.ofNat 9 (fld v 8 0) })
  | 0x41C =>
    let s := s.setSteer { t with bufen := bit v 0 }
    .ok (if bit v 1 then flushWrite s else s)
  | _ => .ok s

/-- HOTMON (R200, R203): a write of HMCFG restarts the window. -/
def writeHotmon (off : Nat) (v : Reg) (s : State) : Wr :=
  let h := s.hot
  match off with
  | 0x400 =>
    enc (decide (10 ≤ fld v 4 0 ∧ fld v 4 0 ≤ 30) && decide (2 ≤ fld v 14 8 ∧ fld v 14 8 ≤ 65))
      (s.setHot { h with cfg := v &&& 0xFFFF7F1F, counts := [] })
  | 0x404 => .ok (s.setHot { h with hot := w1c h.hot v 0, multi := w1c h.multi v 1 })
  | _ =>
    if 0x440 ≤ off ∧ off < 0x480 then
      let k := (off - 0x440) / 4
      .ok (s.setHot { h with map := tset zeroD k (tget zeroD h.map k &&& ~~~v) h.map })
    else .ok s

/-- The injection registers of page `g` (R354). -/
def writeInj (g off : Nat) (v : Reg) (s : State) : Wr :=
  let i := s.injOf g
  match off with
  | 0xC00 => enc (injOk g { i with ctl := v }) (injWrite g v s)
  | 0xC04 => enc (injOk g { i with pos := v &&& 0x7FFFF }) (s.setInj g { i with pos := v &&& 0x7FFFF })
  | _ => .ok s

/-- The flags of a register that a write of 1 clears (R33). -/
def w1cMask (k : PageId) (off : Nat) : Reg :=
  match k, off with
  | .core _, 0x404 => 0x00030000
  | .quad _, 0x400 => 0x80800000
  | .quad _, 0x484 => 0x00000300
  | .quad _, 0x4AC => 0x80000000
  | .sbank _, 0x400 => 0x00000200
  | .sbank _, 0x414 => 0x80000000
  | .icu, 0x404 => 0x00010000
  | .icuc _, 0x404 => 0x00000010
  | .mtime, 0x408 => 0x00000F00
  | .sec, 0x400 => 0x00000004
  | .dbg, 0x400 => 0x0000000E
  | .dbgc _, 0x404 => 0x00010000
  | .dbgc _, 0x420 => 0x0000000E
  | .ras, 0x400 => 0x00000007
  | .steer, 0x40C => 0x80000000
  | .hotmon, 0x404 => 0x00000003
  | .timer _, o => if 0x400 ≤ o ∧ o < 0x800 ∧ o % 0x40 = 0x38 then 0x17 else 0
  | .dbgc _, o => if 0x440 ≤ o ∧ o < 0x4C0 ∧ o % 0x10 = 8 then 0x80000000 else 0
  | .hotmon, o => if 0x440 ≤ o ∧ o < 0x480 then 0xFFFFFFFF else 0
  | _, _ => 0

/-- A write to flags that a write of 1 clears: a flag that the hardware has set in this BCLK stays 1, so only those that stood at its
start are cleared (R38). -/
def keepSet (g : Nat) (k : PageId) (off : Nat) (v : Reg) (s : State) : Reg :=
  let m := w1cMask k off
  if m = 0 then v else v &&& ~~~(m &&& ~~~(readReg true g k off s.atStart).2)

/-- The live, staged and test registers of a page. -/
def writeBody (byDbg : Bool) (g : Nat) (k : PageId) (off : Nat) (v : Reg) (s : State) : Wr :=
  if 0xC00 ≤ off ∧ off < 0xC0C then writeInj g off v s
  else match k with
  | .blk => writeBlk off v s
  | .core n => writeCore n off v s
  | .chain p => writeChain p off v s
  | .quad q => writeQuad q off v s
  | .pgrp n => writePgrp n off v s
  | .sbank b => writeSbank b off v s
  | .icu => writeIcu off v s
  | .icuc n => writeIcuc n off v s
  | .mtime => writeMtime off v s
  | .cue => writeCue off v s
  | .timer p => writeTimer g p off v s
  | .pau => writePau off v s
  | .pseq => writePseq off v s
  | .sec => writeSec off v s
  | .dbg => writeDbg byDbg off v s
  | .dbgc n => writeDbgc byDbg n off v s
  | .ras => writeRas off v s
  | .cullet => writeCullet off v s
  | .pert => writePert off v s
  | .fuse => writeFuse off v s
  | .steer => writeSteer off v s
  | .hotmon => writeHotmon off v s

end Sys2Proof.Machine
end

