-- ==== Sys2Proof/Machine/Access.lean ====
section
/-! DEFINITION. Accesses to the control space: power, the checks of R34 in their order, the header, staging and commits,
and the table windows (R25 to R38, R314 to R316). -/

namespace Sys2Proof.Machine

/-- How an access ends: it waits for a domain, it gets an error response, the requester is not permitted, a write is refused
by another check, or it is done. -/
inductive CsOut where
  | wait (s : State)
  | error
  | denied (s : State)
  | refused (s : State)
  | ok (s : State) (v : Word)
  deriving DecidableEq, Repr

/-! ## Commit (R36, R37) -/

/-- The consistency check of a page's staged set. -/
def commitOk (s : State) (g : Nat) : PageId → Bool
  | .core n => decide (n % 4 = 0) || decide ((s.core n).cfgStg = 0)
  | .chain p => !decide (fld (s.chain p).swStg 4 0 = 16) || decide (fld (s.chain p).srStg 3 0 = 0)
  | .pgrp k => (s.header g).freeze && !pageBusy s (.pgrp k) && (rangeFrom (16 * k) 16).all fun p =>
      decide ((s.port p).reqCrd = initReq (s.pgrp k)) && decide ((s.port p).wdCrd = initWd (s.pgrp k))
  | .cue => cueCfgOk s
  | .timer _ => timerPageOk s g
  | _ => true

/-- An accepted commit: CMTPEND, and for a TIMER page the channels that differ. -/
def commitStart (g : Nat) (k : PageId) (s : State) : State :=
  let s := s.setHeader g { s.header g with cmtpend := true, cmtAt := s.bclk }
  match k with
  | .timer p => (rangeFrom (16 * p) 16).foldl (fun s c =>
      let t := s.timer c
      s.setTimer c { t with commit := decide (t.cmpStg ≠ t.cmp) || decide (t.perStg ≠ t.per) }) s
  | _ => s

/-- The staged values of a page take force at its commit point; a PGRP page's credit counts with them (R179). -/
def takeStaged (k : PageId) (s : State) : State :=
  match k with
  | .core n => s.setCore n { s.core n with cfgLive := (s.core n).cfgStg }
  | .quad q => s.setQuad q { s.quad q with qcfgLive := (s.quad q).qcfgStg }
  | .cue => s.setCue { s.cue with cfgLive := s.cue.cfgStg }
  | .pgrp n =>
    let s := s.setPgrp n { s.pgrp n with cfgLive := (s.pgrp n).cfgStg }
    (rangeFrom (16 * n) 16).foldl (fun s p =>
      s.setPort p { s.port p with reqCrd := initReq (s.pgrp n), wdCrd := initWd (s.pgrp n) }) s
  | _ => s

/-- CMTPEND clears, with the dailies entry of PEVT.CMTEN (R31, R36). -/
def commitDone (g : Nat) (s : State) : State :=
  let h := s.header g
  let s := s.setHeader g { h with cmtpend := false }
  if bit h.pevt 1 then logEv 0x02 0 g 0 s else s

/-- The second BCLK after an accepted commit (R37): the page's commit point, unless it is a CHAIN page; on a TIMER page the
channels that stand still take their values, and the others wait for their wraps. -/
def commitPointAt (g : Nat) (k : PageId) (s : State) : State :=
  if !(s.header g).cmtpend then s
  else match k with
  | .chain _ => s
  | .timer p =>
    let s := (rangeFrom (16 * p) 16).foldl (fun s c => if (s.timer c).en then s else s.setTimer c (s.timer c).takeStaged) s
    timerPageDone g s
  | _ => commitDone g (takeStaged k s)

/-- DISCARD (R31): the staged registers are reloaded, and a pending commit is cancelled. In the BCLK of the commit point the commit
takes effect first; that of a chain comes with an admission (R37, R38). -/
def discardPage (g : Nat) (k : PageId) (s : State) : State :=
  let s := if (s.header g).cmtpend && decide (s.bclk = (s.header g).cmtAt + 2) then commitPointAt g k s else s
  let s := match k with
    | .chain p => if (s.header g).cmtpend then
        s.setStart { s.start with discs := tset (fun _ => none) p (some ((s.chain p).srStg, (s.chain p).swStg)) s.start.discs } else s
    | _ => s
  let s := s.setHeader g { s.header g with cmtpend := false }
  match k with
  | .core n => s.setCore n { s.core n with cfgStg := (s.core n).cfgLive }
  | .chain p => s.setChain p { s.chain p with srStg := (s.chain p).srLive, swStg := (s.chain p).swLive }
  | .quad q => s.setQuad q { s.quad q with qcfgStg := (s.quad q).qcfgLive }
  | .pgrp n => s.setPgrp n { s.pgrp n with cfgStg := (s.pgrp n).cfgLive }
  | .cue => s.setCue { s.cue with cfgStg := s.cue.cfgLive }
  | .timer p => (rangeFrom (16 * p) 16).foldl (fun s c =>
      let t := s.timer c
      s.setTimer c { t with cmpStg := t.cmp, perStg := t.per, commit := false }) s
  | _ => s

/-! ## The header (R31, R34, R316) -/

/-- May a unit be asked to retire through its page? (R339): an active or spare chain or bank without a repair. -/
def retireOk (s : State) : PageId → Bool
  | .chain p => !retireRefused s 0 p
  | .sbank b => !retireRefused s 1 b
  | _ => false

/-- RETIRE_REQ (R339). -/
def retirePageUnit (k : PageId) (s : State) : State :=
  match k with
  | .chain p => retireCommand 0 p s
  | .sbank b => retireCommand 1 b s
  | _ => s

/-- PCTL.FREEZE of a page (R31). A chain that is no longer frozen is free for a strip that waits (R130). -/
def pageFreeze (g : Nat) (k : PageId) (on : Bool) (s : State) : State :=
  let u := s.setHeader g { s.header g with freeze := on }
  match k with
  | .chain p => if on || !(s.header g).freeze then u else placeWaiting (p / 17) u
  | _ => u

/-- A write of PCTL after check 1 (R31, R34). The consistency check meets the page as it stands before the write. -/
def pctlWrite (g : Nat) (k : PageId) (v : Reg) (s : State) : Wr :=
  let h := s.header g
  if bit v 0 && (bit v 1 || h.cmtpend) then .error 0x04
  else if bit v 3 && !retireOk s k then .error 0x08
  else if bit v 0 && !commitOk s g k then .error 0x02
  else
    let s := pageFreeze g k (bit v 2) s
    let s := if bit v 0 then commitStart g k s else s
    let s := if bit v 1 then discardPage g k s else s
    .ok (if bit v 3 then retirePageUnit k s else s)

/-- A table window's record of its first refused write (R30, R35). -/
def setWinErr (g : Nat) (rec : Reg) (s : State) : State :=
  if g = pgCue then s.setCue { s.cue with err := rec }
  else if g = pgIcu then s.setIcu { s.icu with srcerr := rec }
  else if g = pgPseq then s.setPseq { s.pseq with err := rec }
  else if g = pgSteer then s.setSteer { s.steer with err := rec }
  else match (List.range 4).find? fun q => decide (pgQuad q = g) with
    | some q => s.setQuad q { s.quad q with mcerr := rec }
    | none => s

/-- A write of 1 to CFGERR (R31). With a refusal in the same BCLK it stays 1, and PERR, or the window's record, takes the new refusal
(R38). -/
def clearCfgerr (g : Nat) (s : State) : State :=
  let h := s.header g
  match tget (fun _ => none) s.start.refs g with
  | some (false, x) => s.setHeader g { h with perr := x }
  | some (true, x) => setWinErr g x s
  | none => s.setHeader g { h with cfgerr := false }

/-- A header register written, after its owner's check. -/
def headerWrite (g : Nat) (k : PageId) (off : Nat) (v : Reg) (s : State) : Wr :=
  let h := s.header g
  match off / 4 with
  | 1 => .ok (if bit v 0 then clearCfgerr g s else s)
  | 2 => pctlWrite g k v s
  | 3 => if fld v 1 0 = 3 then .error 0x01
         else .ok (s.setHeader g { h with level := BitVec.ofNat 2 (fld v 1 0), tag := BitVec.ofNat 8 (fld v 15 8) })
  | 5 => .ok (s.setHeader g { h with pevt := BitVec.ofNat 4 (fld v 3 0) })
  | _ => .ok s

/-! ## Registers -/

/-- Is the offset a defined staged register? -/
def stagedReg (k : PageId) (off : Nat) : Bool :=
  match k with
  | .core _ => decide (off = 0x800)
  | .chain _ => decide (off = 0x840 ∨ off = 0x844)
  | .quad _ => decide (off = 0x804)
  | .pgrp _ => decide (off = 0x800)
  | .cue => decide (off = 0x800)
  | .timer _ => decide (0x800 ≤ off ∧ off < 0xC00) && decide (0x10 ≤ off % 0x40 ∧ off % 0x40 < 0x20)
  | _ => false

/-- The registers of a QUAD page that also reach the microcode store (R28). -/
def storeReg (k : PageId) (off : Nat) : Option Nat :=
  match k with
  | .quad q => if off = 0x488 ∨ (0x48C ≤ off ∧ off < 0x4A0) then some q else none
  | _ => none

/-- Does the access wait for the microcode store to wake? -/
def storeWait (s : State) (k : PageId) (off : Nat) : Option Nat :=
  match storeReg k off with
  | some q => if awake s (domStore q) then none else some (domStore q)
  | none => none

/-- A register write after the requester's permission and power: the other checks of R34 in their order, then the effect. -/
def regChecked (a : Acc) (g : Nat) (k : PageId) (off : Nat) (v : Reg) (s : State) : Wr :=
  if 0xC00 ≤ off ∧ !s.blk.testen then .error 0x09
  else if a.be ≠ 15 then .error 0x06
  else if stagedReg k off && (s.header g).cmtpend then .error 0x03
  else if off < 0x18 then headerWrite g k off v s
  else if off < 0x400 then .ok s
  else writeBody a.dbg g k off (keepSet g k off v s) s

/-- Writes to CORE pages are refused during a lifecycle move, the header too (R318). -/
def moveHold (s : State) (k : PageId) : Bool := s.sec.moving && match k with | .core _ => true | _ => false

/-- A 32-bit register write of page `g` (R26, R27, R34, R35). A beat without byte enables writes nothing. The requester's
permission comes before the error response of an asleep unit (R70; of the other masters R27 and R315 leave no other
order). -/
def regWrite (a : Acc) (g : Nat) (k : PageId) (off : Nat) (v : Reg) (s : State) : CsOut :=
  if a.be = 0 then (if 0x400 ≤ off ∧ pageAsleep s k then .error else .ok s 0)
  else if !mayWrite s a g k off v then .denied (refuse g off 5 s)
  else if 0x400 ≤ off ∧ pageAsleep s k then .error
  else match storeWait s k off with
  | some d => .wait (addDemand d s)
  | none =>
    match (if moveHold s k then .error 0x0A else regChecked a g k off v s) with
    | .ok s' => .ok s' 0
    | .error c => .refused (refuse g off c s)

/-- A 32-bit register read of page `g` (R27, R314, R315). -/
def regRead (a : Acc) (g : Nat) (k : PageId) (off : Nat) (s : State) : CsOut :=
  if 0x18 ≤ off ∧ !mayTouch s a g k then .denied (countPriv s)
  else if 0x400 ≤ off ∧ pageAsleep s k then .error
  else match storeWait s k off with
  | some d => .wait (addDemand d s)
  | none =>
    let r := readReg a.peek g k off s
    .ok r.1 (r.2.setWidth 64)

/-! ## Table windows (R30) -/

/-- The domain that an access to a window at offset `o` needs awake (R188, R205). -/
def winDom (w : Win) (o : Nat) : Option Nat :=
  match w with
  | .bst => some (domBst (bstHalf (o / 4)))
  | .store q => some (domStore q)
  | _ => none

/-- The entry index that a refusal records. -/
def winRefuse (w : Win) (o code : Nat) (s : State) : State :=
  match w with
  | .bst => bstRefuse (o / 4) code s
  | .cue => cueRefuse (o / 16) code s
  | .src => srcRefuse (o / 8) code s
  | .dom => domRefuse (o / 16) code s
  | .store q => mcRefuse q (o / 32) code s

/-- A window write in its own chapter. -/
def winWrite (w : Win) (lj : BitVec 2 × BitVec 8) (o : Nat) (wide : Bool) (v : Word) (s : State) : State :=
  match w with
  | .bst => bstWrite lj o wide v s
  | .cue => cueWindowWrite lj o wide v s
  | .src => srcWindowWrite lj o wide v s
  | .dom => domWindowWrite lj o v s
  | .store q => mcWindowWrite (decide (lj.1 = 0)) q o wide v s

/-- The 64-bit word of a window at the 8-byte offset that holds `o`. -/
def winWord (s : State) (w : Win) (o : Nat) : Word :=
  let o := o / 8 * 8
  match w with
  | .bst => BitVec.ofNat 64 ((s.bstEntry (o / 4)).toNat + (s.bstEntry (o / 4 + 1)).toNat * 2 ^ 32)
  | .cue => let e := s.cueEnt (o / 16); if o % 16 = 0 then e.time else e.q1
  | .src => srcWord s (o / 8)
  | .dom => domWindowRead s o
  | .store q => mcWindowRead s q o

/-- The page whose CFGERR a window's refusals set (R30). -/
def winPage : Win → Nat
  | .bst => pgSteer
  | .cue => pgCue
  | .src => pgIcu
  | .dom => pgPseq
  | .store q => pgQuad q

/-- Does the window's chapter refuse the write? -/
def winRefused (w : Win) (lj : BitVec 2 × BitVec 8) (o : Nat) (wide : Bool) (v : Word) (s : State) : Bool :=
  let g := winPage w
  ((winWrite w lj o wide v (s.setHeader g { s.header g with cfgerr := false })).header g).cfgerr

/-- A window access is a demand on the store or half it reaches (R294). -/
def winTouch (w : Win) (o : Nat) (s : State) : State :=
  match winDom w o with
  | some d => addDemand d s
  | none => s

/-- A window access waits until the store or half it reaches is awake (R188, R205). -/
def winReach (w : Win) (o : Nat) (s : State) (k : State → CsOut) : CsOut :=
  if (winDom w o).all (awake s) then k (winTouch w o s) else .wait (winTouch w o s)

/-- A write to a table window. -/
def winPut (a : Acc) (w : Win) (o : Nat) (wide : Bool) (v : Word) (s : State) : CsOut :=
  if a.be = 0 then .ok s 0
  else winReach w o s fun s =>
    if !winOk s a true w then .denied (winWrite w a.lj o wide v s)
    else if a.be ≠ 15 then .refused (winRefuse w o 6 s)
    else if winRefused w a.lj o wide v s then .refused (winWrite w a.lj o wide v s)
    else .ok (winWrite w a.lj o wide v s) 0

/-- The checks that a window read makes: those of the steering entries it returns (R187). -/
def winCheck (w : Win) (o : Nat) (wide : Bool) (s : State) : State :=
  match w with
  | .bst => let s := bstCheck (o / 4) s
            if wide then bstCheck (o / 4 + 1) s else s
  | _ => s

/-- A read of a table window. -/
def winGet (a : Acc) (w : Win) (o : Nat) (wide : Bool) (s : State) : CsOut :=
  winReach w o s fun s =>
    if !winOk s a false w then .denied (countPriv s)
    else
      let s := winCheck w o wide s
      let x := winWord s w o
      .ok s (if wide then x else BitVec.ofNat 64 (if o % 8 = 0 then fld x 31 0 else fld x 63 32))

/-! ## The control space (R25 to R27) -/

/-- An access that is not aligned to its size is none that the control space accepts (R26, R30); it ends with an error response. -/
def csAligned (o : Nat) (wide : Bool) : Bool := decide (o % (if wide then 8 else 4) = 0)

/-- One 32-bit access to a register page, at a control-space offset below 0x100_0000. -/
def pageAccess (a : Acc) (o : Nat) (wr : Option Reg) (s : State) : CsOut :=
  match pageOf (o / 0x1000) with
  | none => .error
  | some k => match wr with
    | some v => regWrite a (o / 0x1000) k (o % 0x1000) v s
    | none => regRead a (o / 0x1000) k (o % 0x1000) s

/-- A read at control-space offset `o`, of 64 bits if `wide`; a 64-bit page read reads the lower register first, and each of
its two accesses is made and checked on its own (R26). -/
def csRead (a : Acc) (o : Nat) (wide : Bool) (s : State) : CsOut :=
  if !csAligned o wide then .error
  else if o < 0x1000000 then
    let r := pageAccess a o none s
    if !wide then r
    else
      let hi := fun s1 => pageAccess a (o + 4) none s1
      match r with
      | .ok s1 v => match hi s1 with
        | .ok s2 u => .ok s2 (v ||| (u <<< 32))
        | r => r
      | .denied s1 => match hi s1 with
        | .ok s2 _ => .denied s2
        | r => r
      | r => r
  else match winOf o with
  | some (w, i) => winGet a w i wide s
  | none => .error

/-- A write at control-space offset `o`; a 64-bit page write writes the lower register first, each checked on its own (R26). -/
def csWrite (a : Acc) (o : Nat) (wide : Bool) (v : Word) (s : State) : CsOut :=
  if !csAligned o wide then .error
  else if o < 0x1000000 then
    let r := pageAccess a o (some (lo32w v)) s
    if !wide then r
    else
      let hi := fun s1 => pageAccess a (o + 4) (some (hi32w v)) s1
      match r with
      | .ok s1 _ => hi s1
      | .refused s1 => match hi s1 with
        | .ok s2 _ => .refused s2
        | r => r
      | .denied s1 => match hi s1 with
        | .ok s2 _ => .denied s2
        | .refused s2 => .denied s2
        | r => r
      | r => r
  else match winOf o with
  | some (w, i) => winPut a w i wide v s
  | none => .error

end Sys2Proof.Machine
end

