-- ==== Sys2Proof/Machine/Crossbar.lean ====
section
/-! DEFINITION. Accesses over the control crossbar to scratchpad, its atomic alias windows and boot ROM, and the far
accesses of the cores as their targets perform them (R16, R51, R60, R224, R233, R234). -/

namespace Sys2Proof.Machine

/-! ## Alias windows (R233) -/

/-- The word that an alias access writes: `k` is the window, 1 to 4, `v` the old word, `x` the stored value of a store. -/
def aliasNew (k : Nat) (v : Word) (x : Option Word) : Word :=
  match k, x with
  | 1, some x => v + x
  | 1, none => v + 1
  | 2, some x => x
  | 2, none => 0
  | 3, some x => v ||| x
  | 3, none => v ||| 1
  | _, some x => v &&& ~~~x
  | _, none => v &&& ~~~1

/-- How an access to scratchpad, an alias window or boot ROM ends. -/
inductive SpOut where
  | wait (s : State)
  | unmapped
  | denied (s : State)
  | uncorrectable (s : State)
  | ok (s : State) (v : Word)
  deriving DecidableEq, Repr

/-- A word that the requester may reach, once its bank serves port B (R230, R237, R314). The service port does not wait for
a frozen bank. The access is a demand on the bank (R294). -/
def spReach (lj : BitVec 2 × BitVec 8) (service : Bool) (a : Nat) (s : State) (k : State → Nat → SpOut) : SpOut :=
  match spIndex s a with
  | none => .unmapped
  | some w =>
    let b := w / 32768
    let s' := if service then s.setHeader (pgSbank b) { s.header (pgSbank b) with freeze := false } else s
    if !spOk s w lj then .denied (countPriv s)
    else if !bankOpen s' b false then .wait (addDemand (domBank b) s)
    else k (addDemand (domBank b) s) w

/-- An alias access: one indivisible read-modify-write; an uncorrectable word is left as it is. -/
def aliasAccess (lj : BitVec 2 × BitVec 8) (a : Nat) (x : Option Word) (s : State) : SpOut :=
  spReach lj false (a % 0x1000000) s fun s w =>
    let r := spRead s w
    if r.2.2 then .uncorrectable r.1
    else .ok (spWriteBreak r.1 w (aliasNew (a / 0x1000000) r.2.1 x) 255 none) r.2.1

/-- A read of `n` bytes at the scratchpad address `a` over port B; an alias address reads its word without change. -/
def spGet (lj : BitVec 2 × BitVec 8) (service : Bool) (a n : Nat) (s : State) : SpOut :=
  spReach lj service (a % 0x1000000) s fun s w =>
    let r := spRead s w
    if r.2.2 then .uncorrectable r.1
    else .ok r.1 (BitVec.ofNat 64 (r.2.1.toNat / 2 ^ (8 * (a % 8)) % 2 ^ (8 * n)))

/-- A write of `n` bytes at the scratchpad address `a` over port B. -/
def spPut (lj : BitVec 2 × BitVec 8) (service : Bool) (a n : Nat) (v : Word) (s : State) : SpOut :=
  spReach lj service a s fun s w =>
    .ok (spWriteBreak s w (v <<< (8 * (a % 8))) ((2 ^ n - 1) * 2 ^ (a % 8)) none) 0

/-- `n` bytes of boot ROM at offset `o`, as data reads return them (R224). -/
def romData (o n : Nat) : Word := BitVec.ofNat 64 ((List.range n).foldr (fun i a => (Config.romByte (o + i)).toNat + 256 * a) 0)

/-! ## Far accesses of the cores (R51) -/

/-- What the target of a far access answers: not yet, a fault, or the value. -/
inductive FarOut where
  | wait (s : State)
  | fault (code : Nat) (s : State)
  | ok (s : State) (v : Word)
  deriving DecidableEq, Repr

def FarOut.ofSp : SpOut → State → FarOut
  | .wait s, _ => .wait s
  | .unmapped, s => .fault 0x07 s
  | .denied s, _ => .fault 0x0A s
  | .uncorrectable s, _ => .fault 0x0C s
  | .ok s v, _ => .ok s v

def FarOut.ofCs : CsOut → State → FarOut
  | .wait s, _ => .wait s
  | .error, s => .fault 0x08 s
  | .denied s, _ => .fault 0x0A s
  | .refused s, _ => .ok s 0
  | .ok s v, _ => .ok s v

/-- The gateway's part: a request that waits for the steering table is made again; a failed access faults (R185, R196). -/
def farMain (n : Nat) (lj : BitVec 2 × BitVec 8) (f : FarAcc) (s : State) : FarOut :=
  let off := f.addr - 0x8000000000
  let put := fun (f : FarAcc) (s : State) => s.setCore n { s.core n with far := some f }
  if f.bad then .fault 0x09 s
  else match f.line with
  | some d => .ok s (if f.store then 0 else lineBytes d (off % 64) f.size)
  | none =>
    if !f.wait then .wait s
    else
      let g := gwRequest (.gateway n) lj off f.size f.store f.data s
      match g.2 with
      | .wait => .wait g.1
      | .failed => .fault 0x09 g.1
      | .hit d => .ok g.1 (lineBytes d (off % 64) f.size)
      | .queued => .wait (put { f with wait := false } g.1)

/-- The target of core `n`'s far access performs it. -/
def farPerform (n : Nat) (f : FarAcc) (s : State) : FarOut :=
  let c := s.ctx n f.ctx
  let lj := (c.level, c.tag)
  match areaOf f.addr with
  | .atomic => FarOut.ofSp (aliasAccess lj f.addr (if f.store then some f.data else none) s) s
  | .control =>
    let o := f.addr - 0x10000000
    let wide := decide (f.size = 8)
    FarOut.ofCs (if f.store then csWrite { lj := lj } o wide f.data s else csRead { lj := lj } o wide s) s
  | .rom => .ok s (romData (f.addr - 0x20000000) f.size)
  | .main => farMain n lj f s
  | _ => .fault 0x07 s

/-- The rest of the bundle, after the far access has given `v` (R60). -/
def farRest (n : Nat) (f : FarAcc) (v : Word) (s : State) : State :=
  let s := s.setCtx n f.ctx (s.ctx n f.ctx).landDue
  let s := s.setCore n { s.core n with far := some { f with got := some v } }
  let c := s.ctx n f.ctx
  match decodeBundle f.ws (!f.fed && bit c.flags 12) with
  | .error _ => s
  | .ok b => runBundle { n := n, x := f.ctx, at_ := c.pc, s0 := s, fed := f.fed, b := b, far := some v, post := true } f.ws

/-- A far access that fails raises its fault at the bundle that issued it (R51, R61). -/
def farFails (n : Nat) (f : FarAcc) (code : Nat) (s : State) : State :=
  if f.fed then fedFault n code s else faultEntry n f.ctx code (BitVec.ofNat 64 f.addr) (s.ctx n f.ctx).pc s

/-- `farAccessResponse` (R51, R60): the access is performed at its target, and its answer lets the bundle go on; an access
already performed lets a bundle that stalled go on. An access that stops its own core abandons the bundle. -/
def execFarAccessResponse (core : Fin 16) (s : State) : Out :=
  let n := core.val
  match (s.core n).far with
  | none => .next s
  | some f => match f.got with
    | some v => .next (farRest n f v s)
    | none => match farPerform n f s with
      | .wait s => .next s
      | .fault c s => .next (if (s.core n).far.isSome then farFails n f c s else s)
      | .ok s v => .next (if (s.core n).far.isSome then farRest n f v s else s)

end Sys2Proof.Machine
end

