-- ==== Sys2Proof/Machine/DebugPort.lean ====
section
/-! DEFINITION. The debug port: its segment, its commands, and the access matrix (R319 to R326). -/

namespace Sys2Proof.Machine

/-! ## The access matrix (R324, R325) -/

/-- A debug access: space, address, size, and the data of a write. -/
structure DbgAcc where
  space : Nat
  addr  : Nat
  wide  : Bool
  wr    : Option Word := none
  deriving DecidableEq, Repr

/-- The tag of a debug port that JDBG lets reach a job (R324). -/
def jdbgTag (s : State) : Option (BitVec 8) := if bit s.sec.jdbg 8 then some (BitVec.ofNat 8 (fld s.sec.jdbg 7 0)) else none

/-- Is a target of the level and tag allowed by the level table? (R324) -/
def levelOk (s : State) (lvl : BitVec 2) (tag : BitVec 8) : Bool :=
  !s.sec.lcField || decide (lvl = 1) || (decide (lvl = 2) && decide (jdbgTag s = some tag))

/-- Is the context permitted to the debug port? (R324) -/
def ctxAllowed (s : State) (n x : Nat) : Bool := debugCtxOk s n x

/-- The 32-bit writes of a debug write, as (offset, value). -/
def halves (o : Nat) (wide : Bool) (v : Word) : List (Nat × Reg) := if wide then [(o, lo32w v), (o + 4, hi32w v)] else [(o, lo32w v)]

/-- The context that STEP acts in: the halted one, if any. -/
def stepAllowed (s : State) (n : Nat) : Bool :=
  let x := (s.dbgcOf n).ctx
  decide (x = 0x7F) || ctxAllowed s n x.toNat

/-- Is one 32-bit register write of the debug port refused by the table in FIELD? The SEC page, POWN, DBGOK and
RETIRE_REQ in every cell; STEP and FEEDGO by their context; other registers by the page's owner. -/
def writeRefused (s : State) (g : Nat) (k : PageId) (o : Nat) (v : Reg) : Bool :=
  let owner := !levelOk s (s.header g).level (s.header g).tag
  match k with
  | .sec => true
  | .dbg => decide (o = 0x00C) || (decide (o = 0x008) && bit v 3)
  | .dbgc n => decide (o = 0x00C) || (decide (o = 0x008) && bit v 3) || decide (0x424 ≤ o ∧ o < 0x430)
      || (decide (o = 0x400) && bit v 3 && !stepAllowed s n)
      || (decide (o = 0x41C) && bit v 0 && !ctxAllowed s n (s.dbgcOf n).fctx.toNat)
  | _ => decide (o = 0x00C) || (decide (o = 0x008) && bit v 3) || owner

/-- Is one 32-bit register read refused? Header reads are allowed in every cell. -/
def readRefused (s : State) (g : Nat) (k : PageId) (o : Nat) : Bool :=
  match k with
  | .dbg => false
  | .dbgc _ => false
  | _ => decide (0x18 ≤ o) && !levelOk s (s.header g).level (s.header g).tag

/-- The owner of a table window (R314): the microcode stores and their reels are MACHINE's (R318). -/
def winOwner (s : State) (w : Win) : BitVec 2 × BitVec 8 :=
  let own := fun g => ((s.header g).level, (s.header g).tag)
  match w with
  | .bst => own pgSteer
  | .cue => own pgCue
  | .src => own pgIcu
  | .dom => own pgPseq
  | .store _ => (0, 0)

/-- Does the level table refuse the access? (R324) In FIELD main memory is reached under the steering checks at HOST. -/
def matrixRefuses (s : State) (a : DbgAcc) : Bool :=
  if !s.sec.lcField then false
  else match a.space with
  | 0 =>
    if a.addr < 0x1000000 then match pageOf (a.addr / 0x1000) with
      | none => false
      | some k => match a.wr with
        | some v => (halves a.addr a.wide v).any fun h => writeRefused s (a.addr / 0x1000) k (h.1 % 0x1000) h.2
        | none => (halves a.addr a.wide 0).any fun h => readRefused s (a.addr / 0x1000) k (h.1 % 0x1000)
    else match winOf a.addr with
      | none => false
      | some (w, _) => !levelOk s (winOwner s w).1 (winOwner s w).2
  | 1 => match spIndex s (a.addr % 0x1000000) with
    | none => false
    | some w => let h := s.header (pgSbank (w / 32768)); !levelOk s h.level h.tag
  | 2 =>
    let g := a.addr / 2 ^ 20
    bstAwake s g && decide (steerCheck (s.bstEntry g) (masterLvl s .debug).1 (masterLvl s .debug).2 true a.wr.isSome = some 0x07)
  | _ => false

/-- Does DADDR name an access that can be made? (R320) -/
def daddrOk (v : BitVec 48) : Bool :=
  let a := fld v 38 0
  let sp := fld v 40 39
  let sz := if bit v 41 then 8 else 4
  decide (fld v 47 43 = 0) && decide (a % sz = 0) &&
    match sp with
    | 0 => decide (a < 0x2000000)
    | 1 => decide (a < 0x5000000)
    | 2 => true
    | _ => decide (a < 0x10000)

/-- The access that a command names by DADDR and DDATA as they stood when it started. -/
def dbgAccess (c : DbgCmd) : DbgAcc :=
  { space := fld c.daddr 40 39, addr := fld c.daddr 38 0, wide := bit c.daddr 41, wr := if c.wr then some c.data else none }

/-- The domains that a debug access reaches (R326). -/
def dbgDoms (s : State) (a : DbgAcc) : List Nat :=
  match a.space with
  | 0 =>
    if a.addr < 0x1000000 then match pageOf (a.addr / 0x1000) with
      | some k =>
        let o := a.addr % 0x1000
        if o < 0x400 then [] else pageDoms s k ++ (match storeReg k o with | some q => [domStore q] | none => [])
      | none => []
    else match winOf a.addr with
      | some (w, i) => (winDom w i).toList
      | none => []
  | 1 => match spIndex s (a.addr % 0x1000000) with
    | some w => [domBank (w / 32768)]
    | none => []
  | 2 =>
    let e := s.bstEntry (a.addr / 2 ^ 20)
    [domBst (bstHalf (a.addr / 2 ^ 20)), domPgrp (s.ptPhys (steerPort e (a.addr / 64)) / 16)]
  | _ => []

/-- The keep votes after an access (R326). -/
def keepVotes (ds : List Nat) (s : State) : State :=
  if fld s.dbg.dcfg 4 0 = 0 then s else ds.foldl (fun s d => s.setDom d { s.dom d with keepDbg := true }) s

/-! ## The access -/

/-- How a debug access goes: it waits, or it ends with a result code, the data of a read and the domains that it reached. -/
inductive DbgOut where
  | wait (s : State)
  | done (s : State) (result : BitVec 3) (v : Word) (ds : List Nat)
  deriving DecidableEq, Repr

/-- An access of the control space; `ds` are the domains of its target. -/
def DbgOut.ofCs (ds : List Nat) : CsOut → State → DbgOut
  | .wait s, _ => .wait s
  | .error, s => .done s 1 0 []
  | .denied s, _ => .done s 0 0 ds
  | .refused s, _ => .done s 0 0 ds
  | .ok s v, _ => .done s 0 v ds

/-- An access of scratchpad; one that meets an uncorrectable word has reached its bank (R326). -/
def DbgOut.ofSp (ds : List Nat) : SpOut → State → DbgOut
  | .wait s, _ => .wait s
  | .unmapped, s => .done s 1 0 []
  | .denied s, _ => .done s 2 0 []
  | .uncorrectable s, _ => .done s 1 0 ds
  | .ok s v, _ => .done s 0 v ds

/-- Page offsets of 0x400 or above of a unit in GLORY wait for its wake; in LEHR or COLD they end with ERROR (R325). -/
def pageDeferred (s : State) (a : DbgAcc) : Option Nat :=
  if a.addr < 0x1000000 ∧ 0x400 ≤ a.addr % 0x1000 then match pageOf (a.addr / 0x1000) with
    | some k => if (pageDoms s k).any fun d => decide (2 < (s.dom d).st.toNat) then none
        else (pageDoms s k).find? fun d => decide ((s.dom d).st = 2)
    | none => none
  else none

/-- The access to main memory, once the gateway has answered (R194, R196). One that steering refuses, or that the read buffer
serves, has reached only the table. -/
def dbgMain (a : DbgAcc) (s : State) : DbgOut :=
  let n := if a.wide then 8 else 4
  let half := [domBst (bstHalf (a.addr / 2 ^ 20))]
  if s.dbg.bad then .done s 1 0 (dbgDoms s a)
  else match s.dbg.line with
  | some d => .done s 0 (if a.wr.isSome then 0 else lineBytes d (a.addr % 64) n) (dbgDoms s a)
  | none =>
    if s.dbg.asked then .wait s
    else
      let g := gwRequest .debugPort (masterLvl s .debug) a.addr n a.wr.isSome (a.wr.getD 0) s
      match g.2 with
      | .wait => .wait g.1
      | .failed => .done g.1 1 0 half
      | .hit d => .done g.1 0 (lineBytes d (a.addr % 64) n) half
      | .queued => .wait (g.1.setDbg { g.1.dbg with asked := true })

/-- A debug access that the matrix allows is made (R325). -/
def dbgPerform (a : DbgAcc) (s : State) : DbgOut :=
  let lj := masterLvl s .debug
  let acc : Acc := { lj := lj, dbg := true, peek := true }
  match a.space with
  | 0 => match pageDeferred s a with
    | some d => .wait (addDemand d s)
    | none => DbgOut.ofCs (dbgDoms s a) (match a.wr with | some v => csWrite acc a.addr a.wide v s | none => csRead acc a.addr a.wide s) s
  | 1 =>
    let n := if a.wide then 8 else 4
    if 0x1000000 ≤ a.addr ∧ !a.wide then .done s 1 0 []
    else match a.wr with
      | none => DbgOut.ofSp (dbgDoms s a) (spGet lj false a.addr n s) s
      | some v => DbgOut.ofSp (dbgDoms s a) (if a.addr < 0x1000000 then spPut lj false a.addr n v s else aliasAccess lj a.addr (some v) s) s
  | 2 => dbgMain a s
  | _ => if a.wr.isSome then .done s 1 0 [] else .done s 0 (romData a.addr (if a.wide then 8 else 4)) []

/-- DADDR after command `c` (R320): with AINC its ADDR increases by the access size, unless DADDR has been loaded while the
command ran (DESIGN CHOICE, assumption 147). -/
def daddrAfter (u : Dbg) (c : DbgCmd) : BitVec 48 :=
  if bit c.daddr 42 ∧ u.daddr = c.daddr then setFld u.daddr 38 0 (fld u.daddr 38 0 + (if bit c.daddr 41 then 8 else 4)) else u.daddr

/-- A command ends: its result, the data of a read, AINC (R320, R321); one whose connection was lost leaves none (R323). -/
def dbgEnd (c : DbgCmd) (result : BitVec 3) (v : Word) (s : State) : State :=
  let u := s.dbg
  let u' : Dbg := { u with cmd := none, defer := false, line := none, bad := false, asked := false, orphan := false }
  s.setDbg (if u.orphan then u' else { u' with result := result, rdata := if c.wr then u.rdata else v, daddr := daddrAfter u c })

/-- `debugCommandComplete` (R320 to R326): the running command is decided by its address, the level table and the power
table, in this order; one whose target sleeps waits, and DEFER shows it. -/
def execDebugCommandComplete (s : State) : Out :=
  match s.dbg.cmd with
  | none => .next s
  | some c =>
    let a := dbgAccess c
    if !daddrOk c.daddr then .next (dbgEnd c 1 0 s)
    else if !s.dbg.asked && matrixRefuses s a then .next (dbgEnd c 2 0 (countPriv s))
    else match dbgPerform a s with
      | .wait s => .next (s.setDbg { s.dbg with defer := (dbgDoms s a).any fun d => !awake s d })
      | .done t r v ds => .next (dbgEnd c r v (keepVotes ds t))

/-! ## The segment (R319, R321, R323) -/

/-- The status byte that DCMD captures (R321). -/
def dcmdStatus (s : State) : BitVec 8 :=
  BitVec.ofNat 8 (b2n s.dbg.cmd.isSome + s.dbg.result.toNat * 2 + b2n s.dbg.defer * 16)

/-- An instruction loaded into the segment (R319): Capture-IR shows 0b000001, and an undefined one selects BYPASS; the scan of
its data register shows `v`. -/
def Dbg.scan (u : Dbg) (code : BitVec 6) (v : Word) : Dbg :=
  { u with ir := if 1 ≤ code.toNat ∧ code.toNat ≤ 5 then code else 0x3F, irOut := 0b000001, tdo := v }

/-- DCMD (R321): its capture shows the status; it starts a command, which without a connection ends at once, and which is
ignored while another runs. -/
def dcmd (wr : Bool) (s : State) : State :=
  let u := s.dbg.scan 0x05 ((dcmdStatus s).setWidth 64)
  if u.cmd.isSome then s.setDbg { u with result := 4 }
  else if !u.conn then s.setDbg { u with result := 3 }
  else s.setDbg { u with cmd := some ⟨wr, u.daddr, u.ddata⟩, result := 0 }

/-- `read` (R321). -/
def execRead (s : State) : Out := whenUp s <| .next (dcmd false s)

/-- `write` (R321). -/
def execWrite (s : State) : Out := whenUp s <| .next (dcmd true s)

/-- `blkid` (R319): part 0x5B01, revision 0xA0. -/
def execBlkid (s : State) : Out := whenUp s <| .next (s.setDbg (s.dbg.scan 0x01 0x5B0100A0))

/-- CONN and LOST as the CONNECT register captures them. -/
def connWord (u : Dbg) : Word := BitVec.ofNat 64 (b2n u.conn + b2n u.lost * 2)

/-- `connect` (R319, R323): Capture-DR shows CONN and LOST; 0xC3 connects. -/
def execConnect (v : BitVec 8) (s : State) : Out := whenUp s <|
  .next (s.setDbg { s.dbg.scan 0x02 (connWord s.dbg) with conn := s.dbg.conn || decide (v = 0xC3) })

/-- `daddr` (R319, R320). -/
def execDaddr (v : BitVec 48) (s : State) : Out := whenUp s <|
  .next (s.setDbg { s.dbg.scan 0x03 (s.dbg.daddr.setWidth 64) with daddr := v })

/-- `ddata` (R319): the data of the last READ out, write data in. -/
def execDdata (v : Word) (s : State) : Out := whenUp s <| .next (s.setDbg { s.dbg.scan 0x04 s.dbg.rdata with ddata := v })

/-- `bypass` (R319): the code of BYPASS. An undefined code is scanned like it, and selects BYPASS. -/
def execBypass (s : State) : Out := whenUp s <| .next (s.setDbg (s.dbg.scan 0x3F 0))

/-- `testLogicReset` (R319, R323): BYPASS is selected and the connection is lost. -/
def execTestLogicReset (s : State) : Out := whenUp s <|
  let s := loseConn s
  .next (s.setDbg { s.dbg with ir := 0x3F })

end Sys2Proof.Machine
end

