-- ==== Sys2Proof/Machine/Rows.lean ====
section
/-! DEFINITION. The commands that are one access to the control space: each names its register or window, its master makes
the access, and the answer goes to that master (R16, R26 to R38, R313 to R315, R324, R363, R371). -/

namespace Sys2Proof.Machine

/-! ## Masters -/

/-- Does an access of a master still wait at its target, its master not waiting for it? -/
def masterOwes (who : Nat) (s : State) : Bool := s.blk.owed.any fun x => decide (x.who = who)

/-- Has the master no transaction outstanding? (R17) A core has none while no far access of it, abandoned ones included, waits; the
control port none between bursts. -/
def masterFree (s : State) : Master → Bool
  | .core n => (s.core n).far.isNone && !masterOwes (2 + n) s
  | .debug => s.dbg.cmd.isNone
  | .hostPort => s.blk.cp.isNone && !masterOwes 0 s
  | .service => !masterOwes 1 s
  | _ => true

/-- An access of the debug port made for a command of the table: that of a DCMD (R321 to R325). It needs the connection, is an
overrun while another command runs, and the matrix decides it; one that waits stays the running command, which
DEBUG_COMMAND_COMPLETE ends. -/
def debugMakes (a : DbgAcc) (s : State) : State :=
  if s.dbg.cmd.isSome then s.setDbg { s.dbg with result := 4 }
  else if !s.dbg.conn then s.setDbg { s.dbg with result := 3 }
  else if matrixRefuses s a then (countPriv s).setDbg { s.dbg with result := 2 }
  else match dbgPerform a s with
    | .wait t =>
      let at_ : BitVec 48 := BitVec.ofNat 48 (a.addr + a.space * 2 ^ 39 + b2n a.wide * 2 ^ 41)
      t.setDbg { t.dbg with cmd := some ⟨a.wr.isSome, at_, a.wr.getD 0⟩, result := 0, defer := (dbgDoms t a).any fun d => !awake t d }
    | .done t r v ds =>
      let t := t.setDbg { t.dbg with result := r, defer := false, rdata := if a.wr.isSome then t.dbg.rdata else v }
      keepVotes ds t

/-- Before READY the control port serves only the BLK page, from the start of the fuse read on (R378). -/
def hostServed (s : State) (o : Nat) : Bool := s.blk.started && (s.blk.ready || decide (o < 0x1000))

/-- An access of a port of the boundary ends with a status (R371: 0 OK, 1 error response, 2 refused) and data, or waits. -/
abbrev Ended := State × Option (BitVec 2 × Word)

def Ended.ofCs (r : CsOut) (s : State) : Ended :=
  match r with
  | .wait t => (t, none)
  | .error => (s, some (1, 0))
  | .denied t => (t, some (2, 0))
  | .refused t => (t, some (2, 0))
  | .ok t v => (t, some (0, v))

def Ended.ofSp (r : SpOut) (s : State) : Ended :=
  match r with
  | .wait t => (t, none)
  | .unmapped => (s, some (1, 0))
  | .denied t => (t, some (2, 0))
  | .uncorrectable t => (t, some (1, 0))
  | .ok t v => (t, some (0, v))

/-- An access to main memory whose answer reaches nobody: done once the gateway has taken it (core number 16). -/
def gatewayAccess (o : Owed) (s : State) : Ended :=
  let g := gwRequest (.gateway 16) o.lj o.addr o.size o.wr.isSome (o.wr.getD 0) s
  match g.2 with
  | .wait => (g.1, none)
  | _ => (g.1, some (0, 0))

/-- An access that the crossbar owes, at its target. Neither port is served before READY, but for the control port on the BLK
page; a scratchpad address of the service port has 24 bits. -/
def boundaryAccess (o : Owed) (s : State) : Ended :=
  if !(if o.who = 0 then hostServed s o.addr else if o.who = 1 then s.blk.ready else true) then (s, none)
  else match o.space with
  | 0 =>
    let a : Acc := { lj := o.lj, peek := o.peek, be := o.be }
    let wide := decide (o.size = 8)
    (match o.wr with
     | some v => .ofCs (csWrite a o.addr wide v s) s
     | none => .ofCs (csRead a o.addr wide s) s)
  | 1 =>
    if o.who ≠ 1 then .ofSp (aliasAccess o.lj o.addr o.wr s) s
    else if 0x1000000 ≤ o.addr then (s, some (1, 0))
    else (match o.wr with
      | some v => .ofSp (spPut o.lj true o.addr 8 v s) s
      | none => .ofSp (spGet o.lj true o.addr 8 s) s)
  | _ => gatewayAccess o s

/-- The answer of a beat at the control port (R27, R363). -/
def hostAnswer (r : Ended) : State :=
  match r.2 with
  | none => r.1.setBlk { r.1.blk with cpReady := false }
  | some a => r.1.setBlk { r.1.blk with cpReady := true, cpErr := decide (a.1 = 1), cpRdata := lo32w a.2 }

/-- The status and data of an access at the service port (R371). -/
def svcAnswer (st : BitVec 2) (v : Word) (s : State) : State := s.setBlk { s.blk with svcDone := true, svcStat := st, svcData := v }

/-- The service port is reset (R365): no answer returns. -/
def dropFrame (s : State) : State :=
  s.setBlk { s.blk with svcDone := false, owed := s.blk.owed.map fun o => { o with ans := false } }

/-- A frame of the service port has been received: the access is made, and one that waits, at its target or behind an access
that an earlier frame abandoned, is owed (R365, R371). -/
def svcAccess (space addr : Nat) (wr : Option Word) (s : State) : State :=
  let o : Owed := { lj := (0, 0), who := 1, space := space, addr := addr, wr := wr, ans := true }
  if !s.blk.started then s
  else if masterOwes 1 s then
    let s := dropFrame s
    s.setBlk { s.blk with owed := s.blk.owed ++ [o] }
  else match boundaryAccess o s with
    | (t, none) => t.setBlk { t.blk with svcDone := false, owed := t.blk.owed ++ [o] }
    | (t, some a) => svcAnswer a.1 a.2 t

/-- The state that a core's register access leaves. -/
def csState (r : CsOut) (s : State) : State :=
  match r with
  | .wait t => t
  | .error => s
  | .denied t => t
  | .refused t => t
  | .ok t _ => t

/-- The width of a master's access: the control port and the service port make 32-bit accesses only (R363, R371). -/
def masterWide (m : Master) (wide : Bool) : Bool :=
  match m with
  | .core _ => wide
  | .debug => wide
  | _ => false

/-- A control-space access of a master at offset `o`, of 64 bits if `wide`: a write of a value, or a read. A core without an
executing context, a descriptor fetcher and host exchange make none. -/
def makes (m : Master) (o : Nat) (wide : Bool) (wr : Option Word) (s : State) : State :=
  let acc : Acc := { lj := masterLvl s m }
  let wide := masterWide m wide
  let go := fun (_ : Unit) => match wr with | some v => csWrite acc o wide v s | none => csRead acc o wide s
  match m with
  | .core n => if (s.core n).cur.isSome && masterFree s m then csState (go ()) s else s
  | .debug => debugMakes { space := 0, addr := o, wide := wide, wr := wr } s
  | .hostPort => if hostServed s o && masterFree s m then hostAnswer (.ofCs (go ()) s) else s
  | .service => svcAccess 0 o wr s
  | _ => s

/-- A 32-bit register write of page `g`. -/
def writes (m : Master) (g off : Nat) (v : Reg) (s : State) : State := makes m (g * 0x1000 + off) false (some (v.setWidth 64)) s

/-- A 32-bit register read of page `g`. -/
def reads (m : Master) (g off : Nat) (s : State) : State := makes m (g * 0x1000 + off) false none s

/-! ## Cores, microcode, scratchpad -/

/-- `mbox` (R105). -/
def execMbox (m : Master) (core : Fin 16) (v : Reg) (s : State) : Out := .next (writes m (pgCore core) 0x418 v s)

/-- `install` (R218). -/
def execInstall (m : Master) (q : Fin 4) (s : State) : Out := .next (writes m (pgQuad q) 0x488 1 s)

/-- `clear` (R218). -/
def execClear (m : Master) (q : Fin 4) (s : State) : Out := .next (writes m (pgQuad q) 0x488 2 s)

/-- `reload` (R218). -/
def execReload (m : Master) (q : Fin 4) (s : State) : Out := .next (writes m (pgQuad q) 0x488 3 s)

/-- `diridx` (R220, R225). -/
def execDiridx (m : Master) (q : Fin 4) (v : Reg) (s : State) : Out := .next (writes m (pgQuad q) 0x48C v s)

/-- `microcodeWindowWrite` (R204, R205). -/
def execMicrocodeWindowWrite (m : Master) (q : Fin 4) (off : BitVec 18) (wide : Bool) (v : Word) (s : State) : Out :=
  .next (makes m (0x1400000 + q * 0x40000 + off.toNat) wide (some v) s)

/-- `ownreq` (R236). -/
def execOwnreq (m : Master) (bank : Fin 68) (v : Reg) (s : State) : Out := .next (writes m (pgSbank bank) 0x404 v s)

/-- `repent` (R238, R239). -/
def execRepent (m : Master) (bank : Fin 68) (v : Reg) (s : State) : Out := .next (writes m (pgSbank bank) 0x424 v s)

/-- `refresh` (R239). -/
def execRefresh (m : Master) (bank : Fin 68) (s : State) : Out := .next (writes m (pgSbank bank) 0x428 1 s)

/-! ## Cues and timers -/

/-- `cueTableWrite` (R249). -/
def execCueTableWrite (m : Master) (off : BitVec 16) (wide : Bool) (v : Word) (s : State) : Out :=
  .next (makes m (0x1200000 + off.toNat) wide (some v) s)

/-- `tgstart` (R260). -/
def execTgstart (m : Master) (v : Reg) (s : State) : Out := .next (writes m pgMtime 0x424 v s)

/-- `tgstop` (R260). -/
def execTgstop (m : Master) (v : Reg) (s : State) : Out := .next (writes m pgMtime 0x428 v s)

/-- The offset of register +`o` of channel `c` in its page (R270). -/
def chanOff (c o : Nat) : Nat := 0x400 + 0x40 * (c % 16) + o

/-- `pernowLo` (R261). -/
def execPernowLo (m : Master) (ch : Fin 32) (v : Reg) (s : State) : Out := .next (writes m (chanPage ch) (chanOff ch 0x30) v s)

/-- `pernowHi` (R261). -/
def execPernowHi (m : Master) (ch : Fin 32) (v : Reg) (s : State) : Out := .next (writes m (chanPage ch) (chanOff ch 0x34) v s)

/-- `cntWrite` (R262). -/
def execCntWrite (m : Master) (ch : Fin 32) (hi : Bool) (v : Reg) (s : State) : Out :=
  .next (writes m (chanPage ch) (chanOff ch (if hi then 0x0C else 0x08)) v s)

/-- `capLoRead` (R264). -/
def execCapLoRead (m : Master) (ch : Fin 32) (s : State) : Out := .next (reads m (chanPage ch) (chanOff ch 0x20) s)

/-! ## Interrupts -/

/-- `claimn` (R280). -/
def execClaimn (m : Master) (core : Fin 16) (s : State) : Out := .next (reads m (pgIcuc core) 0x408 s)

/-- `claimf` (R280). -/
def execClaimf (m : Master) (core : Fin 16) (s : State) : Out := .next (reads m (pgIcuc core) 0x40C s)

/-- `hclaim` (R280). -/
def execHclaim (m : Master) (line : Fin 8) (s : State) : Out := .next (reads m pgIcu (0x440 + 4 * line) s)

/-- `eoi` (R281). -/
def execEoi (m : Master) (core : Fin 16) (v : Reg) (s : State) : Out := .next (writes m (pgIcuc core) 0x410 v s)

/-- `heoi` (R281). -/
def execHeoi (m : Master) (v : Reg) (s : State) : Out := .next (writes m pgIcu 0x408 v s)

/-- `swset` (R272, R287). -/
def execSwset (m : Master) (v : Reg) (s : State) : Out := .next (writes m pgIcu 0x400 v s)

/-- `sourceTableWrite` (R274). -/
def execSourceTableWrite (m : Master) (off : BitVec 13) (wide : Bool) (v : Word) (s : State) : Out :=
  .next (makes m (0x1210000 + off.toNat) wide (some v) s)

/-- `gcfg` (R279). -/
def execGcfg (m : Master) (g : Fin 32) (v : Reg) (s : State) : Out := .next (writes m pgIcu (0x480 + 4 * g) v s)

/-- `icucCtl` (R283). -/
def execIcucCtl (m : Master) (core : Fin 16) (v : Reg) (s : State) : Out := .next (writes m (pgIcuc core) 0x400 v s)

/-! ## Power -/

/-- `pseqForce` (R298). -/
def execPseqForce (m : Master) (v : Reg) (s : State) : Out := .next (writes m pgPseq 0x404 v s)

/-- `powerDomainTableWrite` (R308). -/
def execPowerDomainTableWrite (m : Master) (off : BitVec 12) (wide : Bool) (v : Word) (s : State) : Out :=
  .next (makes m (0x1220000 + off.toNat) wide (some v) s)

/-! ## Security and debug -/

/-- `lccmd` (R318). -/
def execLccmd (m : Master) (v : Reg) (s : State) : Out := .next (writes m pgSec 0x404 v s)

/-- A write of HCTL that sets one action bit and leaves STEPIRQ and FCTX. -/
def hctlBit (m : Master) (n i : Nat) (s : State) : State := writes m (pgDbgc n) 0x400 (readDbgc s n 0x400 ||| BitVec.ofNat 32 (2 ^ i)) s

/-- `halt` (R327). -/
def execHalt (m : Master) (core : Fin 16) (s : State) : Out := .next (hctlBit m core 0 s)

/-- `forcedHalt` (R327). -/
def execForcedHalt (m : Master) (core : Fin 16) (s : State) : Out := .next (hctlBit m core 1 s)

/-- `haltall` (R327). -/
def execHaltall (m : Master) (v : Reg) (s : State) : Out := .next (writes m pgDbg 0x40C v s)

/-- `resume` (R329). -/
def execResume (m : Master) (core : Fin 16) (s : State) : Out := .next (hctlBit m core 2 s)

/-- `resumeall` (R329). -/
def execResumeall (m : Master) (v : Reg) (s : State) : Out := .next (writes m pgDbg 0x410 v s)

/-- `step` (R329). -/
def execStep (m : Master) (core : Fin 16) (s : State) : Out := .next (hctlBit m core 3 s)

/-- `cancel` (R329). -/
def execCancel (m : Master) (core : Fin 16) (s : State) : Out := .next (hctlBit m core 5 s)

/-- `feedgo` (R330). -/
def execFeedgo (m : Master) (core : Fin 16) (s : State) : Out := .next (writes m (pgDbgc core) 0x41C 1 s)

/-! ## Steering, repair, test -/

/-- `bankSteeringTableWrite` (R186, R188). -/
def execBankSteeringTableWrite (m : Master) (off : BitVec 21) (wide : Bool) (v : Word) (s : State) : Out :=
  .next (makes m (0x1000000 + off.toNat) wide (some v) s)

/-- `flush` (R196, R202): BUFEN keeps its value. -/
def execFlush (m : Master) (s : State) : Out := .next (writes m pgSteer 0x41C (2 ||| b2w s.steer.bufen) s)

/-- `hmcfg` (R203). -/
def execHmcfg (m : Master) (v : Reg) (s : State) : Out := .next (writes m pgHotmon 0x400 v s)

/-- `retire` (R339): RETCMD with UNRET = 0. -/
def execRetire (m : Master) (v : Reg) (s : State) : Out := .next (writes m pgCullet 0x4C8 (setBit v 2 false) s)

/-- `unret` (R339): RETCMD with UNRET = 1. -/
def execUnret (m : Master) (v : Reg) (s : State) : Out := .next (writes m pgCullet 0x4C8 (setBit v 2 true) s)

/-- PCTL of a page with FREEZE as it stands and one action bit set. -/
def pctlBit (m : Master) (g i : Nat) (s : State) : State :=
  writes m g 0x008 (BitVec.ofNat 32 (b2n (s.header g).freeze * 4 + 2 ^ i)) s

/-- `retireReq` (R339). -/
def execRetireReq (m : Master) (page : BitVec 12) (s : State) : Out := .next (pctlBit m page.toNat 3 s)

/-- `rdidx` (R348). -/
def execRdidx (m : Master) (v : Reg) (s : State) : Out := .next (writes m pgRas 0x40C v s)

/-- `dent0Read` (R358). -/
def execDent0Read (m : Master) (s : State) : Out := .next (reads m pgRas 0x414 s)

/-- `injctl` (R354). -/
def execInjctl (m : Master) (page : BitVec 12) (v : Reg) (s : State) : Out := .next (writes m page.toNat 0xC00 v s)

/-- `testen` (R352). -/
def execTesten (m : Master) (v : Reg) (s : State) : Out := .next (writes m 0 0x410 v s)

/-- `seed` (R356). -/
def execSeed (m : Master) (v : Reg) (s : State) : Out := .next (writes m pgPert 0xC10 v s)

/-! ## Pages -/

/-- `commit` (R36). -/
def execCommit (m : Master) (page : BitVec 12) (s : State) : Out := .next (pctlBit m page.toNat 0 s)

/-- `commitPoint` (R37). -/
def execCommitPoint (page : BitVec 12) (s : State) : Out :=
  match pageOf page.toNat with
  | some k => .next (commitPointAt page.toNat k s)
  | none => .next s

/-- `discard` (R36). -/
def execDiscard (m : Master) (page : BitVec 12) (s : State) : Out := .next (pctlBit m page.toNat 1 s)

/-- `freeze` (R31). -/
def execFreeze (m : Master) (page : BitVec 12) (on : Bool) (s : State) : Out :=
  .next (writes m page.toNat 0x008 (if on then 4 else 0) s)

/-- `registerWrite` (R34): a 32-bit write at an offset of the register pages. -/
def execRegisterWrite (m : Master) (off : BitVec 24) (v : Reg) (s : State) : Out :=
  .next (makes m off.toNat false (some (v.setWidth 64)) s)

/-- `counterRead` (R33): a 32-bit read; a counter of type RC returns its value and clears. -/
def execCounterRead (m : Master) (off : BitVec 24) (s : State) : Out := .next (makes m off.toNat false none s)

/-- `lowHalfRead` (R262): a 32-bit read; a low half latches its high half. -/
def execLowHalfRead (m : Master) (off : BitVec 24) (s : State) : Out := .next (makes m off.toNat false none s)

/-- `run` (R379). -/
def execRun (m : Master) (v : Reg) (s : State) : Out := .next (writes m 0 0x404 v s)

end Sys2Proof.Machine
end

