-- ==== Sys2Proof/Machine/Boundary.lean ====
section
/-! DEFINITION. The boundary of the block: the control port's bursts, the service port, the two resets, the start-up
sequence, and the outputs (R360 to R383). -/

namespace Sys2Proof.Machine

/-! ## The control port (R363 to R365) -/

/-- `controlPortBeat` (R363, R378): one beat of the burst in progress, or of a new one of CP_LEN + 1 beats. A beat that waits
at its target stands as it was presented. -/
def execControlPortBeat (wr : Bool) (addr : BitVec 23) (len : BitVec 4) (wdata : Reg) (be : BitVec 4) (s : State) : Out :=
  if !s.blk.started then .next s
  else
    let t : Bool × Nat × Nat := s.blk.cp.getD (wr, 4 * addr.toNat, len.toNat + 1)
    let p : Reg × BitVec 4 := s.blk.cpBeat.getD (wdata, be)
    let o : Owed := { lj := masterLvl s .hostPort, who := 0, addr := t.2.1, wr := if t.1 then some (p.1.setWidth 64) else none,
                      be := if t.1 then p.2.toNat else 15 }
    if masterOwes 0 s then .next (s.setBlk { s.blk with cp := some t, cpReady := false })
    else
      let r := boundaryAccess o s
      let u := hostAnswer r
      let rest : Option (Bool × Nat × Nat) := if t.2.2 ≤ 1 then none else some (t.1, t.2.1 + 4, t.2.2 - 1)
      .next (u.setBlk { u.blk with cp := if r.2.isSome then rest else some t, cpBeat := if r.2.isSome then none else some p })

/-- The beats of an abandoned burst that the crossbar still makes: the waiting beat as it was presented, and the later read
beats with the peek attribute. The later write beats write nothing (R365). -/
def abandonedBeats (s : State) : List Owed :=
  match s.blk.cp with
  | none => []
  | some t =>
    let lj := masterLvl s .hostPort
    let now : List Owed := match s.blk.cpBeat with
      | some p => [{ lj := lj, who := 0, addr := t.2.1, wr := if t.1 then some (p.1.setWidth 64) else none,
                     be := if t.1 then p.2.toNat else 15 }]
      | none => []
    let k := now.length
    now ++ (if t.1 then [] else (rangeFrom k (t.2.2 - k)).map fun i => { lj := lj, who := 0, addr := t.2.1 + 4 * i, peek := true })

/-- The accesses owed to their targets are made, each master's in order (R365). -/
def retryOwed (s : State) : State :=
  let f := fun (r : State × List Owed) (o : Owed) =>
    if r.2.any fun x => decide (x.who = o.who) then (r.1, r.2 ++ [o])
    else match boundaryAccess o r.1 with
      | (t, none) => (t, r.2 ++ [o])
      | (t, some a) => (if o.ans then svcAnswer a.1 a.2 t else t, r.2)
  let r := s.blk.owed.foldl f (s, [])
  r.1.setBlk { r.1.blk with owed := r.2 }

/-- The control port is reset (R364, R365): its burst is abandoned. -/
def dropBurst (s : State) : State :=
  s.setBlk { s.blk with cp := none, cpBeat := none, cpReady := false, cpErr := false, owed := s.blk.owed ++ abandonedBeats s }

/-- `cpSelFall` (R364). -/
def execCpSelFall (s : State) : Out := if s.blk.started then .next (retryOwed (dropBurst s)) else .next s

/-! ## The service port (R371) -/

/-- `controlSpaceRead` (R371): command 0x01, with offset [24:2]. -/
def execControlSpaceRead (addr : BitVec 24) (s : State) : Out := .next (svcAccess 0 (4 * addr.toNat) none s)

/-- `controlSpaceWrite` (R371): command 0x02. -/
def execControlSpaceWrite (addr : BitVec 24) (v : Reg) (s : State) : Out :=
  .next (svcAccess 0 (4 * addr.toNat) (some (v.setWidth 64)) s)

/-- `scratchpadRead` (R371): command 0x03, with address [23:3]. -/
def execScratchpadRead (addr : BitVec 24) (s : State) : Out := .next (svcAccess 1 (8 * addr.toNat) none s)

/-- `scratchpadWrite` (R371): command 0x04. -/
def execScratchpadWrite (addr : BitVec 24) (v : Word) (s : State) : Out := .next (svcAccess 1 (8 * addr.toNat) (some v) s)

/-- `undefinedCommand` (R371): no access is made, and the status is 0b11. -/
def execUndefinedCommand (cmd : BitVec 8) (s : State) : Out :=
  if s.blk.started && !(decide (1 ≤ cmd.toNat) && decide (cmd.toNat ≤ 4)) then 
    .next (svcAnswer 3 0 (if masterOwes 1 s then dropFrame s else s))
  else .next s

/-- `svcSelNRise` (R365). -/
def execSvcSelNRise (s : State) : Out := .next (dropFrame s)

/-! ## Cold reset and supply (R360, R361, R375, R376) -/

/-- The state that loses everything but the queue of commands, the static straps and the count of free values drawn. -/
def lostState (s : State) : State := { pending := s.pending, fresh := s.fresh, blk := { park := s.blk.park } }

/-- `coldReset` (R323, R375, R376): the block waits for its start-up sequence, and the debug connection is lost
(assumption 148). -/
def execColdReset (s : State) : Out := .next { lostState s with dbg := { lost := true } }

/-- `islandUnpowered` (R361): the island and everything that it supplies are lost, and the outputs park. -/
def execIslandUnpowered (s : State) : Out :=
  let t := lostState s
  .next (t.setBlk { t.blk with powered := false })

/-! ## The fuse map (R368, R369, R383) -/

/-- The two bits of unit `u` in the fuse words from word `w` on. -/
def fuseUnit (f : Nat → Reg) (w u : Nat) : BitVec 2 := BitVec.ofNat 2 (fld (f (w + u / 16)) (2 * (u % 16) + 1) (2 * (u % 16)))

def fuseChain (f : Nat → Reg) (p : Nat) : BitVec 2 := fuseUnit f 1 p
def fuseBank (f : Nat → Reg) (b : Nat) : BitVec 2 := fuseUnit f 1 (68 + b)
def fuseSlot (f : Nat → Reg) (m : Nat) : BitVec 2 := fuseUnit f 1 (136 + m)
def fusePort (f : Nat → Reg) (p : Nat) : BitVec 2 := fuseUnit f 0x00D p

/-- The bytes over which word 0x1FFF holds the CRC: words 0x0000 to 0x1FFE, lowest byte first, with bit 16 of word 0 as 0. -/
def fuseBytes (f : Nat → Reg) : List Byte :=
  (List.range 0x1FFF).flatMap fun i =>
    let w := if i = 0 then setBit (f 0) 16 false else f i
    (List.range 4).map (byteOf w)

/-- How many of `l` have state `x`. -/
def countState (g : Nat → BitVec 2) (x : BitVec 2) (l : List Nat) : Nat := (l.filter fun u => decide (g u = x)).length

/-- MAPOK (R369, R382): no invalid state, one spare chain and bank and at most 12 active slots in each quadrant, and 512
active ports. -/
def fuseMapOk (f : Nat → Reg) : Bool :=
  ((List.range 68).all fun u => decide (fuseChain f u ≠ 3) && decide (fuseBank f u ≠ 3))
    && ((List.range 56).all fun u => decide (fuseSlot f u ≠ 3)) && ((List.range 528).all fun u => decide (fusePort f u ≠ 3))
    && ((List.range 4).all fun q => decide (countState (fuseChain f) 1 (rangeFrom (17 * q) 17) = 1)
        && decide (countState (fuseBank f) 1 (rangeFrom (17 * q) 17) = 1) && decide (countState (fuseSlot f) 0 (rangeFrom (14 * q) 14) ≤ 12))
    && decide (countState (fusePort f) 0 (List.range 528) = 512)

/-- The units of `l` with state `x`, in ascending order. -/
def unitsOf (g : Nat → BitVec 2) (x : BitVec 2) (l : List Nat) : List Nat := l.filter fun u => decide (g u = x)

/-- The unit states that the fuse map gives. -/
def takeUnits (f : Nat → Reg) (s : State) : State :=
  let s := (List.range 68).foldl (fun s u => setUnit 1 u (fuseBank f u) (setUnit 0 u (fuseChain f u) s)) s
  let s := (List.range 56).foldl (fun s u => setUnit 2 u (fuseSlot f u) s) s
  (List.range 528).foldl (fun s u => setUnit 3 u (fusePort f u) s) s

/-- The maps of one quadrant (R383): chains and banks in ascending order; members on the active slots, then on spare slots,
which are then no longer free. -/
def mapQuadrant (s : State) (q : Nat) : State :=
  let ch := unitsOf s.chUnit 0 (rangeFrom (17 * q) 17)
  let bk := unitsOf s.bkUnit 0 (rangeFrom (17 * q) 17)
  let act := unitsOf s.slUnit 0 (rangeFrom (14 * q) 14)
  let sl := act ++ unitsOf s.slUnit 1 (rangeFrom (14 * q) 14)
  let s := (List.range 16).foldl (fun s i => (s.setCh (16 * q + i) ch[i]?).setBk (16 * q + i) bk[i]?) s
  let s := (List.range 12).foldl (fun s i => s.setMb (12 * q + i) sl[i]?) s
  ((sl.take 12).drop act.length).foldl (fun s m => setUnit 2 m 0 s) s

/-- Logical port p takes the pth active port (R190). -/
def mapPorts (s : State) : State :=
  let l := unitsOf s.ptUnit 0 (List.range 528)
  (List.range 512).foldl (fun s p => s.setPt p (l[p]?.getD p)) s

/-- The repair entries of the fuse map, each marked FUSED (R239, R368). -/
def takeRepairs (f : Nat → Reg) (s : State) : State :=
  (List.range 68).foldl (fun s b =>
    let t := (List.range 288).foldl (fun t i =>
      let k := 288 * b + i
      let e : BitVec 8 := BitVec.ofNat 8 (fld (f (0x040 + k / 4)) (8 * (k % 4) + 6) (8 * (k % 4)))
      tset zeroD i (e ||| 0x80) t) []
    s.setBank b { s.bank b with repair := t }) s

/-- The fuse shadow load (R368, R369, R378, R382). -/
def loadFuses (words : List (Nat × Reg)) (s : State) : State :=
  let t := words.foldl (fun t w => if w.1 < 8192 then tset zeroD w.1 w.2 t else t) []
  let f := tget zeroD t
  let sig := decide (fld (f 0) 15 0 = 0xA05B)
  let crc := crc32c (fuseBytes f)
  let crcOk := decide (crc = f 0x1FFF)
  let map := fuseMapOk f
  let ok := sig && crcOk && map
  let s := s.setFuse { words := t, loaded := true, sigok := sig, crcok := crcOk, mapok := map, fsel := 0, fcrc := crc }
  let s := s.setBlk { s.blk with fuseok := ok, fuseerr := !ok }
  let s := s.setSec { s.sec with lcField := !ok || bit (f 0) 16 }
  let s := if ok then takeRepairs f (takeUnits f s) else s
  mapPorts ((List.range 4).foldl mapQuadrant s)

/-- Retired units are asked for COLD (R310, R367, R378); the fabric has acknowledged that every domain is supplied. -/
def retireDomains (s : State) : State :=
  (List.range 192).foldl (fun s d => if domRetired s d then askCold d s else s) s

/-- A core with fewer than two members cannot run (R383). -/
def shortCores (s : State) : State :=
  (List.range 16).foldl (fun s n =>
    if (voters s n).length < 2 then s.setHeader (pgCore n) { s.header (pgCore n) with fault := true } else s) s

/-- The library is loaded into a store and its entries are installed; DIRD shows entry 0 (R223, R225). -/
def startStore (s : State) (q : Nat) : State := s.setQuad q (loadDird (loadLibrary (s.quad q)) 0)

/-- `startUp` (R378): the sequence that follows the release of cold reset, from its BCLK 0 to READY, with the fuse words as
the fuse block gives them and the park straps (bits 0 to 3: BP, CP, HX, PWR). -/
def execStartUp (fuses : List (Nat × Reg)) (straps : BitVec 4) (s : State) : Out :=
  if !s.blk.powered || s.blk.started then .next s
  else
    let s := s.setBlk { s.blk with park := straps, started := true }
    let s := shortCores (retireDomains (loadFuses fuses s))
    let s := (List.range 4).foldl startStore s
    let s := s.setBlk { s.blk with bstdone := true, spzdone := true, libdone := true, ready := true, rstcause := 1 }
    .next { s with start := s.snap }

/-! ## Warm reset (R365, R375, R377, R380) -/

/-- The armed TAKE cues are disarmed (R375). -/
def disarmTakes (s : State) : State :=
  let es := s.cue.tbl.filter fun e => e.2.armed && decide (e.2.action = 1)
  let s := es.foldl (fun s e => s.setCueEnt e.1 e.2.disarm) s
  s.setCue { s.cue with sel := s.cue.sel.filter fun x => !(es.any fun e => decide (e.1 = x.1)), held := [] }

/-- A core stops, and its far access is completed without it (R365, R377). -/
def stopIssue (s : State) (n : Nat) : State :=
  let s := dropFar n (dropTcue n s)
  endFed n (s.setCore n { s.core n with far := none, tcue := none, lock := none })

/-- A quadrant's take queue is emptied; every slot keeps its GEN (R117, R375). -/
def emptyQueue (s : State) (q : Nat) : State :=
  let Q := s.quad q
  s.setQuad q { Q with slots := Q.slots.foldl (fun t k => tset slotInit k.1 { gen := k.2.gen } t) [], fences := [], mcLeave := false }

/-- A chain and its marver are emptied (R375). -/
def emptyChain (s : State) (p : Nat) : State := s.setChain p { s.chain p with strip := none, marver := [], cacheId := none, cache := [] }

/-- Leave that a warm reset keeps: that of a wake already started (R375). -/
def wakeLeave (s : State) (h : LeaveFor × Nat) : Bool := match h.1 with | .wake d => (s.dom d).waking | _ => false

/-- Leaves are released, and queues and bookings are emptied, but for wakes already started (R375). A wake that waited for
leave asks again. -/
def emptyLeaves (s : State) : State :=
  let u := s.pau
  let s := s.setPau { u with reqs := [], held := u.held.filter (wakeLeave s), bookings := [] }
  updOver ((s.doms.map Prod.fst).foldl (fun s d => s.setDom d { s.dom d with wleave := false }) s)

/-- BCLK 0 of a warm reset (R377): READY falls, the cores stop, the masters are reset, and takes, chains and marvers
are emptied; the requests that hold tags go on, and the gateway's wait until READY. -/
def startWarm (s : State) : State :=
  let s := s.setBlk { s.blk with ready := false, warm := true, warmDefer := false, warmAt := s.bclk, run := 0 }
  let s := dropFrame (dropBurst (loseConn s))
  let s := (List.range 16).foldl stopIssue s
  let s := (s.quads.map Prod.fst).foldl emptyQueue (disarmTakes s)
  let s := (s.chains.map Prod.fst).foldl emptyChain { s with link := [] }
  emptyLeaves (s.setCullet { s.cullet with moved := [] })

/-- `warmReset` (R376, R377): ignored before READY first became 1; it waits while a lifecycle move runs. -/
def execWarmReset (s : State) : Out :=
  if !s.blk.started || s.blk.warmLow then .next s
  else
    let s := s.setBlk { s.blk with warmLow := true }
    if s.sec.moving then .next (s.setBlk { s.blk with warmDefer := true })
    else .next (startWarm s)

/-- `fuseProgramAnswer` (R318, R370, R376): the move ends, and a warm reset that waited for it begins. -/
def execFuseProgramAnswer (a : FuseAnswer) (s : State) : Out :=
  if !s.sec.prog then .next s
  else
    let s := endMove a s
    .next (if s.blk.warmDefer then startWarm s else s)

/-- Tags still held at the drain's end are abandoned (R377). -/
def abandonTags (s : State) (p : Nat) : State :=
  let q := s.port p
  s.setPort p { q with tags := [], gone := q.gone ++ q.tags.map Prod.fst, outTag := none }

/-- A source, a group and a core's bits as after either reset (R375). -/
def clearSrc (x : Src) : Src := { x with pend := false, active := false, lost := false }

/-- PEND, ACTIVE and LOST of every source, the RAISED bits and the groups are cleared (R375). -/
def clearIrqs (s : State) : State :=
  let u := s.icu
  let s := (u.srcs.map Prod.fst).foldl (fun s n => s.setSrc n (clearSrc (s.src n))) s
  let s := (u.grps.map Prod.fst).foldl (fun s g => s.setGrp g { s.grp g with opn := false, ev := 0, timer := 0 }) s
  let s := (List.range 16).foldl (fun s n => s.setIcuc n { s.icucOf n with nraised := false, fraised := false }) s
  s.setIcu { s.icu with hraised := 0, pulses := [] }

/-- The owner of every bank is that of R228, and a pending handover is forgotten. -/
def resetOwner (s : State) (b : Nat) : State := s.setBank b { s.bank b with owner := none, pend := none }

/-- The units are reset (R375, R377). -/
def resetUnits (s : State) : State :=
  let s := (s.ports.map Prod.fst).foldl abandonTags s
  let s := (List.range 16).foldl (fun s n => holdCore n s) s
  let s := (s.banks.map Prod.fst).foldl resetOwner s
  testOff (clearIrqs (emptyLeaves s))

/-- `warmResetDrainEnd` (R375, R377): once every tag has returned, or PTMO has passed, the units are reset; READY rises if the
input has risen. -/
def execWarmResetDrainEnd (s : State) : Out :=
  let drained := s.ports.all fun p => p.2.tags.isEmpty
  if !s.blk.warm || (!drained && decide (s.bclk < s.blk.warmAt + s.cullet.ptmo.toNat)) then .next s
  else
    let s := resetUnits s
    .next (s.setBlk { s.blk with warm := false, testen := false, rstcause := 2, ready := !s.blk.warmLow })

/-- `warmResetRelease` (R377): the input rises; after the drain, READY rises. -/
def execWarmResetRelease (s : State) : Out :=
  .next (s.setBlk { s.blk with warmLow := false, ready := s.blk.ready || (s.blk.started && s.blk.warmLow && !s.blk.warm && !s.blk.warmDefer) })

/-! ## The outputs (R360, R361, R373) -/

/-- The parked outputs of a block without supply (R361). -/
def parkedPins (s : State) : Pins :=
  let k := s.blk.park
  { cpRdata := if bit k 1 then BitVec.allOnes 32 else 0, hxRdata := if bit k 2 then BitVec.allOnes 512 else 0,
    dreq := (List.range 235).map fun _ => if bit k 3 then 1 else 4 }

/-- The outputs: parked without supply, and as last voted while the island has no majority, when only the package lines
follow their conditions (R346, R361, R373). -/
def pinsOf (s : State) : Pins :=
  let on := s.blk.started && !s.blk.warmLow
  let h := s.cullet.held
  if !s.blk.powered then parkedPins s
  else if s.cullet.frozen then { h with faultLow := on, attnLow := on && h.attnLow, timeLow := on && h.timeLow }
  else livePins s

/-- The request that a port presented at the boundary last, while its tag is held (R177, R194). -/
def portRequest (s : State) (p : Nat) : Option TagReq :=
  match (s.port p).outTag with
  | some t => ((s.port p).tags.find? fun x => decide (x.1 = t)).map Prod.snd
  | none => none

/-- A beat of write data (R177). -/
structure WdBeat where
  last : Bool
  data : BitVec 256
  ecc  : BitVec 32
  be   : BitVec 32
  deriving DecidableEq, Repr

/-- The outputs of a physical port in one BCLK (R177): its request channel, its write-data channel with the two beats of a line,
and its response credit. `wdCrc` goes with the beat that has WD_LAST. -/
structure PortPins where
  reqV   : Bool := false
  reqWr  : Bool := false
  tag    : BitVec 9 := 0
  lport  : BitVec 9 := 0
  laddr  : BitVec 24 := 0
  reqPar : Bool := false
  wdV    : Bool := false
  wdTag  : BitVec 9 := 0
  beats  : List WdBeat := []
  wdCrc  : BitVec 32 := 0
  rspCrd : Bool := false
  deriving DecidableEq, Repr

/-- LA of a line (R176). -/
def localLine (line : Nat) : BitVec 24 := BitVec.ofNat 24 (line / 2 ^ 9)

/-- REQ_PAR: odd parity over REQ_WR, REQ_TAG, REQ_LPORT, REQ_LADDR and itself (R177). -/
def reqParity (wr : Bool) (tag lp : BitVec 9) (la : BitVec 24) : Bool :=
  !oddOnes 43 (b2n wr + 2 * tag.toNat + 2 ^ 10 * lp.toNat + 2 ^ 19 * la.toNat)

/-- A store's line as sent: disabled bytes are zero (R181). -/
def sentLine (e : MvEntry) : Line := mergeLine 0 e.data e.be

/-- The check bytes of a line, word 0 lowest (R177, R181). -/
def lineEcc (d : Line) : BitVec 64 :=
  BitVec.ofNat 64 ((List.range 8).foldr (fun w n => (checkByte (lineWord d w)).toNat + 256 * n) 0)

/-- WD_CRC (R181): over the data, the check bytes and the byte enables, WD_BE of beat 0 first. -/
def writeCrc (d : Line) (be : BitVec 64) : BitVec 32 := crc32c (crcBytes d (lineEcc d) ++ (List.range 8).map (byteOf be))

/-- Beat `j` of a store's write data. -/
def wdBeat (e : MvEntry) (j : Nat) : WdBeat :=
  let d := sentLine e
  { last := decide (j = 1), data := BitVec.ofNat 256 (d.toNat >>> (256 * j)), ecc := BitVec.ofNat 32 ((lineEcc d).toNat >>> (32 * j)),
    be := BitVec.ofNat 32 (e.be.toNat >>> (32 * j)) }

/-- A port's outputs while its group is supplied (R177, R178): its request channel presents the request sent in this BCLK. -/
def livePort (s : State) (p : Nat) : PortPins :=
  let crd := decide ((s.port p).crdAt = some s.bclk)
  match portRequest s p with
  | some t =>
    let now := decide ((s.port p).outAt = some s.bclk)
    let tag : BitVec 9 := BitVec.ofNat 9 ((s.port p).outTag.getD 0)
    let lp : BitVec 9 := BitVec.ofNat 9 t.ent.lp
    let la := localLine t.ent.line
    let out : PortPins := { reqV := now, reqWr := t.ent.wr, tag := tag, lport := lp, laddr := la, reqPar := reqParity t.ent.wr tag lp la,
                            rspCrd := crd }
    if t.ent.wr then { out with wdV := now, wdTag := tag, beats := [wdBeat t.ent 0, wdBeat t.ent 1],
                                wdCrc := writeCrc (sentLine t.ent) t.ent.be }
    else out
  | none => { rspCrd := crd }

/-- The level at which the data outputs of port group `g` are parked, if they are (R361). -/
def portPark (s : State) (g : Nat) : Option Bool :=
  if !s.blk.powered || decide ((s.dom (domPgrp g)).st.toNat ≥ 3) then some (bit s.blk.park 0) else none

/-- Data outputs of a port parked at a strap's value; the valid and credit outputs park at 0 (R361). -/
def parkedPort (h : Bool) : PortPins :=
  if h then
    let b : WdBeat := ⟨true, BitVec.allOnes 256, BitVec.allOnes 32, BitVec.allOnes 32⟩
    { reqWr := true, tag := BitVec.allOnes 9, lport := BitVec.allOnes 9, laddr := BitVec.allOnes 24, reqPar := true,
      wdTag := BitVec.allOnes 9, beats := [b, b], wdCrc := BitVec.allOnes 32 }
  else {}

/-- The outputs of port `p` (R177, R360, R361): all 0 in cold reset. -/
def portPins (s : State) (p : Nat) : PortPins :=
  match portPark s (portGroup p) with
  | some h => parkedPort h
  | none => if s.blk.started then livePort s p else {}

end Sys2Proof.Machine
end

