-- ==== Sys2Proof/Machine/Clock.lean ====
section
/-! DEFINITION. What the end of a BCLK does when no command waits. -/

namespace Sys2Proof.Machine

/-- A closed group that has counted an event adds 1 to its timer (R279). -/
def Grp.tick (g : Grp) : Grp := if !g.isOpen && decide (1 ≤ g.ev) then { g with timer := g.timer + 1 } else g

/-- One step of the Galois LFSR of PERT, with taps 0x80200003 (R356). -/
def lfsrStep (v : Reg) : Reg := if bit v 0 then (v >>> 1) ^^^ 0x80200003 else v >>> 1

/-- The end of a BCLK of the block that runs: the group timers, THRCNT, the LFSR, the window of GR, and the pulses of the
boundary (R279, R303, R306, R356, R363, R366); the accesses that wait at their targets are made again. -/
def clockLive (s : State) : State :=
  let s := (s.icu.grps.map Prod.fst).foldl (fun s g => s.setGrp g (s.grp g).tick) s
  let u := s.pau
  let s := s.setPau { u with thrcnt := if throttle s then satInc u.thrcnt else u.thrcnt,
                             ramp := u.ramp.filter fun e => decide (s.bclk + 1 < e.1 + 2000) }
  let s := s.setIcu { s.icu with claimed := [] }
  let s := s.setPert { s.pert with lfsr := lfsrStep s.pert.lfsr }
  let s := s.setBlk { s.blk with cpReady := false, cpErr := false, hxDone := false, hxDrop := false, hxRvalid := false }
  hxNext (retryOwed s)

/-- The end of a BCLK. BCLK are counted from the start-up sequence on (R42); the next one starts with the state as it stands, and with the
captures of a slate that has begun (R263). -/
def clockEnd (s : State) : State :=
  if s.blk.started then
    let t := clockLive s
    let u := { t with bclk := t.bclk + 1, start := t.snap }
    if s.start.slate then slateEdges u else u
  else s

end Sys2Proof.Machine
end

