-- ==== Sys2Proof/Machine/Dispatch.lean ====
section
/-! DEFINITION. The meaning of every command: one arm per constructor of Instr. -/

namespace Sys2Proof.Machine

def exec (i : Instr) (s : State) : Host.Outcome State Fault Refusal :=
  match i with
  | .bundleIssue core => Sys2Proof.Machine.execBundleIssue core s
  | .multiplyComplete core => Sys2Proof.Machine.execMultiplyComplete core s
  | .divideComplete core => Sys2Proof.Machine.execDivideComplete core s
  | .nearLoadLanding core => Sys2Proof.Machine.execNearLoadLanding core s
  | .farAccessResponse core => Sys2Proof.Machine.execFarAccessResponse core s
  | .interruptEntry core fast => Sys2Proof.Machine.execInterruptEntry core fast s
  | .taskSwitch core => Sys2Proof.Machine.execTaskSwitch core s
  | .swmodeChange core => Sys2Proof.Machine.execSwmodeChange core s
  | .spillEngineMove core => Sys2Proof.Machine.execSpillEngineMove core s
  | .mbox m core v => Sys2Proof.Machine.execMbox m core v s
  | .memberMismatch core bad => Sys2Proof.Machine.execMemberMismatch core bad s
  | .resynchronisationPause core => Sys2Proof.Machine.execResynchronisationPause core s
  | .resynchronisationEnded core => Sys2Proof.Machine.execResynchronisationEnded core s
  | .headerRead q slot => Sys2Proof.Machine.execHeaderRead q slot s
  | .tcueArmingDecision core => Sys2Proof.Machine.execTcueArmingDecision core s
  | .admission q => Sys2Proof.Machine.execAdmission q s
  | .descriptorFetch q slot => Sys2Proof.Machine.execDescriptorFetch q slot s
  | .reelStart chain => Sys2Proof.Machine.execReelStart chain s
  | .reelCacheFill chain => Sys2Proof.Machine.execReelCacheFill chain s
  | .microwordIssue chain => Sys2Proof.Machine.execMicrowordIssue chain s
  | .marverEntryCreation chain => Sys2Proof.Machine.execMarverEntryCreation chain s
  | .marverOffer => Sys2Proof.Machine.execMarverOffer s
  | .requestAtBoundary port => Sys2Proof.Machine.execRequestAtBoundary port s
  | .data port tag line p => Sys2Proof.Machine.execData port tag line p s
  | .ack port tag h => Sys2Proof.Machine.execAck port tag h s
  | .uerr port tag h => Sys2Proof.Machine.execUerr port tag h s
  | .retry port tag h => Sys2Proof.Machine.execRetry port tag h s
  | .reqCrd port => Sys2Proof.Machine.execReqCrd port s
  | .wdCrd port => Sys2Proof.Machine.execWdCrd port s
  | .responseCreditReturn port => Sys2Proof.Machine.execResponseCreditReturn port s
  | .residueMismatch chain => Sys2Proof.Machine.execResidueMismatch chain s
  | .groupCommit chain => Sys2Proof.Machine.execGroupCommit chain s
  | .chainHardFault chain => Sys2Proof.Machine.execChainHardFault chain s
  | .chainRepaired q => Sys2Proof.Machine.execChainRepaired q s
  | .laneFold chain => Sys2Proof.Machine.execLaneFold chain s
  | .combineHop chain => Sys2Proof.Machine.execCombineHop chain s
  | .finalRounding chain => Sys2Proof.Machine.execFinalRounding chain s
  | .spliceVectorArrival chain => Sys2Proof.Machine.execSpliceVectorArrival chain s
  | .linkElementArrival chain => Sys2Proof.Machine.execLinkElementArrival chain s
  | .completionRecord q slot => Sys2Proof.Machine.execCompletionRecord q slot s
  | .install m q => Sys2Proof.Machine.execInstall m q s
  | .installComplete q => Sys2Proof.Machine.execInstallComplete q s
  | .clear m q => Sys2Proof.Machine.execClear m q s
  | .clearComplete q => Sys2Proof.Machine.execClearComplete q s
  | .reload m q => Sys2Proof.Machine.execReload m q s
  | .reloadComplete q => Sys2Proof.Machine.execReloadComplete q s
  | .diridx m q v => Sys2Proof.Machine.execDiridx m q v s
  | .microcodeWindowWrite m q off wide v => Sys2Proof.Machine.execMicrocodeWindowWrite m q off wide v s
  | .microcodeScrub q => Sys2Proof.Machine.execMicrocodeScrub q s
  | .microwordRewrite q => Sys2Proof.Machine.execMicrowordRewrite q s
  | .correctionWriteback bank => Sys2Proof.Machine.execCorrectionWriteback bank s
  | .scratchpadScrub bank => Sys2Proof.Machine.execScratchpadScrub bank s
  | .ownreq m bank v => Sys2Proof.Machine.execOwnreq m bank v s
  | .handoverEnd bank => Sys2Proof.Machine.execHandoverEnd bank s
  | .repent m bank v => Sys2Proof.Machine.execRepent m bank v s
  | .refresh m bank => Sys2Proof.Machine.execRefresh m bank s
  | .refreshEnd bank => Sys2Proof.Machine.execRefreshEnd bank s
  | .hostExchangeWrite addr line => Sys2Proof.Machine.execHostExchangeWrite addr line s
  | .hostExchangeRead addr => Sys2Proof.Machine.execHostExchangeRead addr s
  | .mtTick slate => Sys2Proof.Machine.execMtTick slate s
  | .mtLoad valid v => Sys2Proof.Machine.execMtLoad valid v s
  | .holdoverBegin => Sys2Proof.Machine.execHoldoverBegin s
  | .holdoverIncrement => Sys2Proof.Machine.execHoldoverIncrement s
  | .cueSelection => Sys2Proof.Machine.execCueSelection s
  | .cueFire entry => Sys2Proof.Machine.execCueFire entry s
  | .cueTableWrite m off wide v => Sys2Proof.Machine.execCueTableWrite m off wide v s
  | .timerCount ch gate => Sys2Proof.Machine.execTimerCount ch gate s
  | .tgstart m v => Sys2Proof.Machine.execTgstart m v s
  | .tgstop m v => Sys2Proof.Machine.execTgstop m v s
  | .capture ch rising => Sys2Proof.Machine.execCapture ch rising s
  | .pernowLo m ch v => Sys2Proof.Machine.execPernowLo m ch v s
  | .pernowHi m ch v => Sys2Proof.Machine.execPernowHi m ch v s
  | .cntWrite m ch hi v => Sys2Proof.Machine.execCntWrite m ch hi v s
  | .capLoRead m ch => Sys2Proof.Machine.execCapLoRead m ch s
  | .sourceSample src => Sys2Proof.Machine.execSourceSample src s
  | .groupOpen g => Sys2Proof.Machine.execGroupOpen g s
  | .groupClose g => Sys2Proof.Machine.execGroupClose g s
  | .claimn m core => Sys2Proof.Machine.execClaimn m core s
  | .claimf m core => Sys2Proof.Machine.execClaimf m core s
  | .hclaim m line => Sys2Proof.Machine.execHclaim m line s
  | .eoi m core v => Sys2Proof.Machine.execEoi m core v s
  | .heoi m v => Sys2Proof.Machine.execHeoi m v s
  | .swset m v => Sys2Proof.Machine.execSwset m v s
  | .sourceTableWrite m off wide v => Sys2Proof.Machine.execSourceTableWrite m off wide v s
  | .gcfg m g v => Sys2Proof.Machine.execGcfg m g v s
  | .icucCtl m core v => Sys2Proof.Machine.execIcucCtl m core v s
  | .sequencerDecision dom => Sys2Proof.Machine.execSequencerDecision dom s
  | .holdoffExpiry dom => Sys2Proof.Machine.execHoldoffExpiry dom s
  | .scheduledWake dom => Sys2Proof.Machine.execScheduledWake dom s
  | .demand dom => Sys2Proof.Machine.execDemand dom s
  | .wakeComplete dom => Sys2Proof.Machine.execWakeComplete dom s
  | .pwrDack dom code => Sys2Proof.Machine.execPwrDack dom code s
  | .pseqForce m v => Sys2Proof.Machine.execPseqForce m v s
  | .powerDomainTableWrite m off wide v => Sys2Proof.Machine.execPowerDomainTableWrite m off wide v s
  | .grant => Sys2Proof.Machine.execGrant s
  | .leaveRelease q slot => Sys2Proof.Machine.execLeaveRelease q slot s
  | .pwrBudget v => Sys2Proof.Machine.execPwrBudget v s
  | .keepExpiry dom => Sys2Proof.Machine.execKeepExpiry dom s
  | .lccmd m v => Sys2Proof.Machine.execLccmd m v s
  | .wipeComplete => Sys2Proof.Machine.execWipeComplete s
  | .fuseProgramAnswer a => Sys2Proof.Machine.execFuseProgramAnswer a s
  | .blkid => Sys2Proof.Machine.execBlkid s
  | .connect v => Sys2Proof.Machine.execConnect v s
  | .daddr v => Sys2Proof.Machine.execDaddr v s
  | .ddata v => Sys2Proof.Machine.execDdata v s
  | .read => Sys2Proof.Machine.execRead s
  | .write => Sys2Proof.Machine.execWrite s
  | .debugCommandComplete => Sys2Proof.Machine.execDebugCommandComplete s
  | .bypass => Sys2Proof.Machine.execBypass s
  | .testLogicReset => Sys2Proof.Machine.execTestLogicReset s
  | .halt m core => Sys2Proof.Machine.execHalt m core s
  | .forcedHalt m core => Sys2Proof.Machine.execForcedHalt m core s
  | .haltall m v => Sys2Proof.Machine.execHaltall m v s
  | .haltTakesEffect core => Sys2Proof.Machine.execHaltTakesEffect core s
  | .resume m core => Sys2Proof.Machine.execResume m core s
  | .resumeall m v => Sys2Proof.Machine.execResumeall m v s
  | .step m core => Sys2Proof.Machine.execStep m core s
  | .cancel m core => Sys2Proof.Machine.execCancel m core s
  | .feedgo m core => Sys2Proof.Machine.execFeedgo m core s
  | .tagTimeout port tag => Sys2Proof.Machine.execTagTimeout port tag s
  | .portLogicFault port => Sys2Proof.Machine.execPortLogicFault port s
  | .portSubstituted port => Sys2Proof.Machine.execPortSubstituted port s
  | .bankMigration bank => Sys2Proof.Machine.execBankMigration bank s
  | .bankMigrated bank => Sys2Proof.Machine.execBankMigrated bank s
  | .steeringRowReplaced row => Sys2Proof.Machine.execSteeringRowReplaced row s
  | .bankSteeringTableWrite m off wide v => Sys2Proof.Machine.execBankSteeringTableWrite m off wide v s
  | .bstScrub => Sys2Proof.Machine.execBstScrub s
  | .flush m => Sys2Proof.Machine.execFlush m s
  | .hotWindowEnd => Sys2Proof.Machine.execHotWindowEnd s
  | .hmcfg m v => Sys2Proof.Machine.execHmcfg m v s
  | .islandCopyFault copy => Sys2Proof.Machine.execIslandCopyFault copy s
  | .retire m v => Sys2Proof.Machine.execRetire m v s
  | .unret m v => Sys2Proof.Machine.execUnret m v s
  | .retireReq m page => Sys2Proof.Machine.execRetireReq m page s
  | .dailiesEntryWrite => Sys2Proof.Machine.execDailiesEntryWrite s
  | .rdidx m v => Sys2Proof.Machine.execRdidx m v s
  | .dent0Read m => Sys2Proof.Machine.execDent0Read m s
  | .injctl m page v => Sys2Proof.Machine.execInjctl m page v s
  | .testen m v => Sys2Proof.Machine.execTesten m v s
  | .seed m v => Sys2Proof.Machine.execSeed m v s
  | .commit m page => Sys2Proof.Machine.execCommit m page s
  | .commitPoint page => Sys2Proof.Machine.execCommitPoint page s
  | .discard m page => Sys2Proof.Machine.execDiscard m page s
  | .freeze m page on => Sys2Proof.Machine.execFreeze m page on s
  | .registerWrite m off v => Sys2Proof.Machine.execRegisterWrite m off v s
  | .counterRead m off => Sys2Proof.Machine.execCounterRead m off s
  | .lowHalfRead m off => Sys2Proof.Machine.execLowHalfRead m off s
  | .controlPortBeat wr addr len wdata be => Sys2Proof.Machine.execControlPortBeat wr addr len wdata be s
  | .cpSelFall => Sys2Proof.Machine.execCpSelFall s
  | .controlSpaceRead addr => Sys2Proof.Machine.execControlSpaceRead addr s
  | .controlSpaceWrite addr v => Sys2Proof.Machine.execControlSpaceWrite addr v s
  | .scratchpadRead addr => Sys2Proof.Machine.execScratchpadRead addr s
  | .scratchpadWrite addr v => Sys2Proof.Machine.execScratchpadWrite addr v s
  | .coldReset => Sys2Proof.Machine.execColdReset s
  | .startUp fuses straps => Sys2Proof.Machine.execStartUp fuses straps s
  | .warmReset => Sys2Proof.Machine.execWarmReset s
  | .warmResetDrainEnd => Sys2Proof.Machine.execWarmResetDrainEnd s
  | .run m v => Sys2Proof.Machine.execRun m v s
  | .mtSlate => Sys2Proof.Machine.execMtSlate s
  | .mtValidRise => Sys2Proof.Machine.execMtValidRise s
  | .islandUnpowered => Sys2Proof.Machine.execIslandUnpowered s
  | .rescfgWindowEnd chain => Sys2Proof.Machine.execRescfgWindowEnd chain s
  | .bkcfgWindowEnd bank => Sys2Proof.Machine.execBkcfgWindowEnd bank s
  | .islandReloadEnd => Sys2Proof.Machine.execIslandReloadEnd s
  | .contextSaveComplete core => Sys2Proof.Machine.execContextSaveComplete core s
  | .svcSelNRise => Sys2Proof.Machine.execSvcSelNRise s
  | .undefinedCommand cmd => Sys2Proof.Machine.execUndefinedCommand cmd s
  | .warmResetRelease => Sys2Proof.Machine.execWarmResetRelease s

end Sys2Proof.Machine
end

