-- ==== Sys2Proof/Safety.lean ====
section
/-! DEFINITION. What a statement may ask of a run: the form of the tables that every command keeps, and when a master's
register access is made and permitted, with what the master is told of it. -/

namespace Sys2Proof.Machine

/-- Every scratchpad byte is listed once, in rising order, and no listed byte is zero. -/
abbrev Memory.wf (m : List Host.Cell) : Prop := tabWf (zeroD (n := 8)) 0 m = true

/-- The tables of State are in canonical form: indices strictly rising, no value listed that equals the reset value. -/
def State.formed (s : State) : Bool :=
  tabWf zeroD 0 s.mem && tabWf zeroD 0 s.synd && tabWf hdrInit 0 s.hdr && tabWf injInit 0 s.inj && tabWf coreInit 0 s.cores
    && tabWf dbgcInit 0 s.dbgc && tabWf quadInit 0 s.quads && tabWf chainInit 0 s.chains && tabWf (fun _ => []) 0 s.link
    && tabWf portInit 0 s.ports && tabWf pgrpInit 0 s.pgrps && tabWf bankInit 0 s.banks && tabWf icucInit 0 s.icuc
    && tabWf timerInit 0 s.timers && tabWf domInit 0 s.doms && tabWf srcInit 0 s.icu.srcs && tabWf grpInit 0 s.icu.grps
    && tabWf cueInit 0 s.cue.tbl && tabWf chMapD 0 s.cullet.chMap && tabWf bkMapD 0 s.cullet.bkMap && tabWf mbMapD 0 s.cullet.mbMap
    && tabWf unit17D 0 s.cullet.chSt && tabWf unit17D 0 s.cullet.bkSt && tabWf unit14D 0 s.cullet.slSt && tabWf unitPtD 0 s.cullet.ptSt
    && tabWf ptMapD 0 s.steer.ptMap && tabWf bstD 0 s.steer.bst && tabWf zeroD 0 s.steer.synd
    && tabWf tevInit 0 s.start.tev

/-! ## One bundle of a core (R39, R44, R64 to R71) -/

/-- The words of a bundle of one syllable `w` and its EXT syllables: STOP marks the last. -/
def oneSyllable (w : Nat) (es : List Nat) : List Nat :=
  match es.reverse with
  | [] => [0x8000 + w]
  | e :: l => w :: (l.reverse.map fun e => 0x5000 + e) ++ [0xD000 + e]

/-- The bytes of such a bundle. -/
def bytesOf (es : List Nat) : Nat := 2 * (1 + es.length)

/-- The immediate of a field `v` of `b` bits and its EXT syllables: sign-extended from `b` + 12 bits for each (R69). -/
def wideImm (b v : Nat) (es : List Nat) : Word :=
  (BitVec.ofNat (b + 12 * es.length) (v + 2 ^ b * es.foldr (fun e n => e + 4096 * n) 0)).signExtend 64

/-- The operand stack lets a syllable pop `p` cells and push `u`: they are there and resident, and capacity and residency hold after it
(R44, R45). -/
def Ctx.fits (c : Ctx) (p u : Nat) : Prop :=
  c.spilled + p ≤ c.depth.toNat ∧ c.depth.toNat - p + u ≤ c.capacity ∧ c.depth.toNat - p + u ≤ c.spilled + 32

/-- A context after `p` cells are popped, the values `l` pushed, the last of them on top, and the PC has passed `len` bytes. -/
def Ctx.moved (c : Ctx) (len p : Nat) (l : List Word) : Ctx :=
  { c with depth := c.depth - BitVec.ofNat 16 p + BitVec.ofNat 16 l.length, pc := c.pc + BitVec.ofNat 48 len,
           cells := l.zipIdx.foldl (fun t y => tset zeroD ((c.depth.toNat - p + y.2) % 32) y.1 t) c.cells }

/-- Core `n` comes, in state `s`, to issue the bundle of the words `ws` at the PC of context `x` that it executes: nothing keeps it
from issuing, no locked sequence, repetition, near load, comparator or step is under way, and reading the bundle leaves `s` as `u`, which
differs by demands on banks and single-bit errors found. -/
structure Issues (s u : State) (n : Fin 16) (x : Nat) (ws : List Nat) : Prop where
  formed  : s.formed = true
  ctxs    : tabWf ctxInit 0 (s.core n).ctxs = true
  ready   : feedRuns s n = false ∧ bundleReady s n = true
  cur     : (s.core n).cur = some x
  free    : (s.core n).lock = none ∧ (s.core n).want = 0
  quiet   : s.blk.testen = false ∧ (s.dbgcOf n).cmps = [] ∧ (s.dbgcOf n).stepping = false
  settled : (s.ctx n x).restored = false ∧ (s.ctx n x).marks = [] ∧ bit (s.ctx n x).flags 12 = false
  read    : fetchBundle n ((s.ctx n x).level, (s.ctx n x).tag) 9 (s.ctx n x).pc.toNat s = (u, .ok ws)
  same    : { u with doms := s.doms, banks := s.banks } = s

/-- A core's registers once no wait and no interlock of a bundle stands. -/
def CoreSt.settled (k : CoreSt) : CoreSt := { k with twait := none, waitX := false, mwait := false }

/-- `t` is state `v` after the bundle of context `x` has ended, with the core's registers as in `k`, its contexts aside, and the context
`c`. The bundle after a RESUME is behind the core. -/
structure BundleEnded (v t : State) (n : Fin 16) (x : Nat) (k : CoreSt) (c : Ctx) : Prop where
  rest  : { t with cores := v.cores, dbgc := v.dbgc } = v
  cores : ∀ j, j ≠ n.val → t.core j = v.core j
  core  : { t.core n with ctxs := k.ctxs } = k
  ctxs  : ∀ y, y ≠ x → t.ctx n y = v.ctx n y
  ctx   : t.ctx n x = c
  dbg   : ∀ j, { t.dbgcOf j with skipBrk := (v.dbgcOf j).skipBrk } = v.dbgcOf j

end Sys2Proof.Machine

namespace Sys2Proof

open Machine

/-! ## Masters (R16, R313, R321, R363, R371) -/

/-- Does master `m` make a 32-bit access at offset `off` of page `g` now, and does POWN of the page permit it? A core needs an
executing context; the debug port its connection and lifecycle OPEN, where the level table refuses nothing (R324); the control
port its turn, and READY outside the BLK page; the service port READY and no access of its own in progress. -/
def Master.reaches (m : Master) (s : Machine.State) (g off : Nat) : Bool :=
  pownOk s g (masterLvl s m) && masterFree s m && match m with
  | .core n => (s.core n).cur.isSome
  | .debug => s.dbg.conn && !s.sec.lcField
  | .hostPort => hostServed s (g * 0x1000 + off)
  | .service => s.blk.started && s.blk.ready
  | _ => false

/-- The same at level MACHINE, which the registers of R316 ask for. -/
def Master.reachesAsMachine (m : Master) (s : Machine.State) (g off : Nat) : Bool := m.reaches s g off && decide ((masterLvl s m).1 = 0)

/-- What master `m` is left with when its access at control-space offset `o`, made in state `s`, has been done with the
effect `t` and the read value `v`: a core gets the value with its bundle; the control port has CP_READY and CP_RDATA (R363);
the service port its status and data (R371); the debug port its result and data, and the domains reached keep a vote (R321,
R326). -/
def Master.told (m : Master) (s : Machine.State) (o : Nat) (wr : Bool) (v : Word) (t : Machine.State) : Machine.State :=
  match m with
  | .hostPort => t.setBlk { t.blk with cpReady := true, cpErr := false, cpRdata := lo32w v }
  | .service => t.setBlk { t.blk with svcDone := true, svcStat := 0, svcData := v }
  | .debug => keepVotes (dbgDoms s { space := 0, addr := o, wide := false })
      (t.setDbg { t.dbg with result := 0, defer := false, rdata := if wr then t.dbg.rdata else v })
  | _ => t

end Sys2Proof
end

