-- ==== Sys2Proof/Certificates/Slice0/Obligations.lean ====
section
/-! DEFINITION. The statements about the block. -/

section Slice0

open Sys2Proof Sys2Proof.Machine

/-! ## Machine time -/

/-- R243, R244: outside holdover a tick increases MTIME by 1, the tick that disagrees with MT_SLATE about the slate boundary
sets SLIP, and so does MT_SLATE without a tick; in holdover both are ignored (R245). Nothing else changes but the dailies, the
record of this BCLK, and the cue engine's record of the entries whose TIME has been reached. R243, R246: a load with MT_VALID = 1 sets
MTIME, keeps the value replaced in LOADPREV, sets LDEVT, sets BACKSTEP if time went back, and ends holdover; one with MT_VALID = 0
leaves MTIME. A tick in the BCLK of a load is ignored, whichever comes first. A rise of MT_VALID alone does not end holdover. R245: holdover begins with HOEVT, an entry of code 0x50 and a fraction
of zero; in holdover the fraction adds HORATIO until it carries, and the carry increases MTIME by 1.
Completion of: `mtTick`, `mtLoad`, `holdoverBegin`, `holdoverIncrement`, `mtSlate`, `mtValidRise`. -/
def Obligations.MachineTimeMoves : Prop :=
  (∀ (s : State) (slate : Bool), s.blk.started = true →
     (s.mt.holdover = false → s.start.loaded = none →
       (∃ t, exec (.mtTick slate) s = .next t
         ∧ t.mt = { s.mt with mtime := s.mt.mtime + 1,
                              slip := s.mt.slip || (slate != decide ((s.mt.mtime + 1).toNat % 2 ^ 20 = 0)) }
         ∧ { t with mt := s.mt, cue := s.cue, ras := s.ras, start := s.start } = s
         ∧ { t.cue with hit := s.cue.hit, hitAt := s.cue.hitAt } = s.cue ∧ { t.start with slate := s.start.slate, ticked := s.start.ticked } = s.start
         ∧ t.start.ticked = true
         ∧ (slate = decide ((s.mt.mtime + 1).toNat % 2 ^ 20 = 0) → t.ras = s.ras))
       ∧ exec .mtSlate s = .next (logEv 0x52 1 pgMtime 0 { s with mt := { s.mt with slip := true } }))
     ∧ (∀ h, s.start.loaded = some h → ∃ t, exec (.mtTick slate) s = .next t ∧ t.mt.mtime = s.mt.mtime ∧ t.cue = s.cue)
     ∧ (s.mt.holdover = true → exec (.mtTick slate) s = .next s ∧ exec .mtSlate s = .next s))
  ∧ ((∀ (s : State) (v : Word), s.blk.started = true →
        (∃ t, exec (.mtLoad true v) s = .next t
          ∧ (let old := if s.start.ticked then s.mt.mtime - 1 else s.mt.mtime
             t.mt = { s.mt with mtime := v, loadprev := old, ldevt := true, backstep := s.mt.backstep || decide (v.toNat < old.toNat),
                                holdover := false, synced := true, validin := true })
          ∧ { t with mt := s.mt, cue := s.cue, ras := s.ras, start := s.start } = s ∧ t.start.loaded.isSome = true ∧ t.start.ticked = false
          ∧ t.cue = { s.cue with hit := [] }
          ∧ t.ras = (if s.mt.holdover then (logEv 0x51 0 pgMtime 0 s).ras else s.ras))
        ∧ exec (.mtLoad false v) s = .next { s with mt := { s.mt with validin := false } }
        ∧ exec .mtValidRise s = .next { s with mt := { s.mt with validin := true } })
     ∧ (∀ s : State, s.blk.started = true →
          (s.mt.holdover = false → exec .holdoverBegin s =
            .next (logEv 0x50 1 pgMtime 0 { s with mt := { s.mt with holdover := true, hoevt := true, validin := false, frac := 0 } }))
          ∧ (s.mt.holdover = true → s.mt.horatio ≠ 0 → ∃ t k, exec .holdoverIncrement s = .next t
            ∧ 2 ^ 32 ≤ s.mt.frac.toNat + k * s.mt.horatio.toNat ∧ s.mt.frac.toNat + (k - 1) * s.mt.horatio.toNat < 2 ^ 32
            ∧ t.mt = { s.mt with mtime := s.mt.mtime + 1, frac := BitVec.ofNat 32 (s.mt.frac.toNat + k * s.mt.horatio.toNat) }
            ∧ { t with mt := s.mt, cue := s.cue, start := s.start } = s ∧ t.start.ticked = true ∧ { t.cue with hit := s.cue.hit, hitAt := s.cue.hitAt } = s.cue)))

/-! ## Timer channels -/

/-- R258, R259, R261, R267: with EN = 1, no debug freeze and the gate open, a source event (with SRC = 1, of a BCLK in which MTIME increases)
advances the prescaler below PRESC, and otherwise counts: CNT increases by 1 below PER; at PER or above it wraps to 0, sets PEREVT,
clears EN under ONESHOT (unless CTL has been written in this BCLK, R38) and takes the staged values of a pending commit; the wrap is
decided by the PER of the BCLK's start; CMPEVT is set where CNT then equals CMP. A group start of this BCLK governs over the count. No
other channel changes.
Completion of: `timerCount`. -/
def Obligations.SourceEventCountsTimer : Prop :=
  ∀ (s : State) (ch : Fin 32) (gate : BitVec 8), s.formed = true → s.blk.started = true →
    (s.timer ch).en = true → (s.timer ch).frozen s = false → gateOpen s (s.timer ch) gate = true →
    let x := s.timer ch
    let o := s.oldTimer ch
    let presc := fld x.ctl 23 16
    let only := { s with blk := { s.blk with gate := gate } }
    ((s.tev ch).started = true ∨ (bit x.ctl 1 = true ∧ s.start.ticked = false) → exec (.timerCount ch gate) s = .next only)
    ∧ ((s.tev ch).started = false → bit x.ctl 1 = false ∨ s.start.ticked = true → ∃ t, exec (.timerCount ch gate) s = .next t
      ∧ { t with timers := s.timers, hdr := s.hdr, ras := s.ras, start := s.start } = only
      ∧ t.tev ch = { s.tev ch with counted := true } ∧ (∀ c, c ≠ ch.val → t.timer c = s.timer c ∧ t.tev c = s.tev c)
      ∧ ((s.header (chanPage ch)).cmtpend = false ∨ x.commit = false → t.hdr = s.hdr ∧ t.ras = s.ras)
      ∧ (x.presc < presc → t.timer ch = { x with presc := x.presc + 1 })
      ∧ (presc ≤ x.presc → x.cnt.toNat < o.per.toNat →
           t.timer ch = { x with presc := 0, cnt := x.cnt + 1, stat := if x.cnt + 1 = x.cmp then setBit x.stat 1 true else x.stat })
      ∧ (presc ≤ x.presc → o.per.toNat ≤ x.cnt.toNat → (x.commit = true ∨ o.commit = false) →
           let cmp' := if x.commit then x.cmpStg else x.cmp
           let per' := if x.commit then x.perStg else x.per
           t.timer ch = { x with presc := 0, cnt := 0, cmp := cmp', per := per', commit := false,
                                 ctl := setBit x.ctl 0 ((s.tev ch).ctl || !bit x.ctl 2),
                                 stat := if cmp' = 0 then setBit (setBit x.stat 0 true) 1 true else setBit x.stat 0 true }))

/-- R260: a write of TGSTART gives each channel named CNT = PHASE, a prescaler of 0 and EN = 1, unless its page is frozen; a
write of TGSTOP clears EN of each channel named. Nothing else changes. R267: a start in the BCLK of a count governs: CNT = PHASE, and the
count's events are none; in the BCLK of a cue's stop the stop governs. R261, R262: a write of PERNOW_LO is held; a write of
PERNOW_HI, while no commit of the page is pending, sets PER and the staged PER together; CNT takes a written half while EN =
0, and a write with EN = 1 is refused with code 0x0A.
Completion of: `tgstart`, `tgstop`, `pernowLo`, `pernowHi`, `cntWrite`. -/
def Obligations.TimerWritesAndGroups : Prop :=
  (∀ (s : State) (m : Master) (v : Reg), s.formed = true →
     (m.reaches s pgMtime 0x424 = true → ∃ t, exec (.tgstart m v) s = .next (m.told s 0x120424 true 0 t)
       ∧ { t with timers := s.timers, hdr := s.hdr, ras := s.ras, start := s.start } = s
       ∧ ((∀ c, c < 32 → (s.tev c).counted = false) → t.hdr = s.hdr ∧ t.ras = s.ras)
       ∧ ∀ c, c < 32 →
         (v.getLsbD c = false ∨ (s.header (chanPage c)).freeze = true → t.timer c = s.timer c)
         ∧ (v.getLsbD c = true → (s.header (chanPage c)).freeze = false →
             ((s.tev c).counted = false → (s.tev c).stopped ≠ some false → t.timer c =
               { s.timer c with cnt := (s.timer c).phase, presc := 0, ctl := setBit (s.timer c).ctl 0 true })
             ∧ (t.timer c).cnt = (s.timer c).phase ∧ (t.timer c).presc = 0
             ∧ ((s.tev c).stopped = some false → (t.timer c).en = (s.timer c).en)
             ∧ ((s.tev c).counted = true → ∀ i, i < 2 → bit (t.timer c).stat i = (bit (s.timer c).stat i && bit (s.oldTimer c).stat i))))
     ∧ (m.reaches s pgMtime 0x428 = true → ∃ t, exec (.tgstop m v) s = .next (m.told s 0x120428 true 0 t)
       ∧ { t with timers := s.timers, start := s.start } = s
       ∧ ∀ c, c < 32 → t.timer c = if v.getLsbD c then { s.timer c with ctl := setBit (s.timer c).ctl 0 false } else s.timer c))
  ∧ (∀ (s : State) (m : Master) (ch : Fin 32) (v : Reg),
       (m.reaches s (chanPage ch) (chanOff ch 0x30) = true → exec (.pernowLo m ch v) s =
         .next (m.told s (chanPage ch * 0x1000 + chanOff ch 0x30) true 0 (s.setTimer ch { s.timer ch with perLo := v })))
       ∧ (m.reaches s (chanPage ch) (chanOff ch 0x34) = true → (s.header (chanPage ch)).cmtpend = false →
         exec (.pernowHi m ch v) s = .next (m.told s (chanPage ch * 0x1000 + chanOff ch 0x34) true 0
           (s.setTimer ch { s.timer ch with per := v ++ (s.timer ch).perLo, perStg := v ++ (s.timer ch).perLo })))
       ∧ (∀ hi, m.reaches s (chanPage ch) (chanOff ch (if hi then 0x0C else 0x08)) = true → (s.timer ch).en = false →
         exec (.cntWrite m ch hi v) s = .next (m.told s (chanPage ch * 0x1000 + chanOff ch (if hi then 0x0C else 0x08)) true 0
           (s.setTimer ch { s.timer ch with
             cnt := if hi then v ++ (s.timer ch).cnt.extractLsb' 0 32 else (s.timer ch).cnt.extractLsb' 32 32 ++ v })))
       ∧ (∀ (n : Fin 16) (hi : Bool), (Master.core n).reaches s (chanPage ch) (chanOff ch (if hi then 0x0C else 0x08)) = true →
         (s.timer ch).en = true →
         exec (.cntWrite (.core n) ch hi v) s = .next (refuse (chanPage ch) (chanOff ch (if hi then 0x0C else 0x08)) 0x0A s)))

/-- R263, R264: with CAPEN = 1, an accepted change that EDGE names counts towards EPRE, and every (EPRE + 1)th captures: CAP takes
CNT, CAPEVT and CAPPEND are set, and OVR as well if CAPPEND was set. A read of CAP_LO returns the low half, latches the high
half and clears CAPPEND, but a read of the debug port does not clear it. R267: with a cue's capture in the same BCLK one capture occurs.
Completion of: `capture`, `capLoRead`. -/
def Obligations.EdgesCaptureTimer : Prop :=
  ∀ (s : State) (ch : Fin 32), s.formed = true →
    (∀ rising, bit (s.timer ch).capcfg 0 = true → edgeCounts (s.timer ch).capcfg rising = true →
      ∃ t, exec (.capture ch rising) s = .next t ∧ { t with timers := s.timers, start := s.start } = s
        ∧ (∀ c, c ≠ ch.val → t.timer c = s.timer c)
        ∧ (let x := s.timer ch
           (x.edges < fld x.capcfg 18 11 → t.timer ch = { x with edges := x.edges + 1 })
           ∧ (fld x.capcfg 18 11 ≤ x.edges → (s.tev ch).captured = some false → t.timer ch = { x with edges := 0 })
           ∧ (fld x.capcfg 18 11 ≤ x.edges → (s.tev ch).captured ≠ some false → t.timer ch =
                { x with edges := 0, cap := x.cnt,
                         stat := if bit x.stat 3 then setBit (setBit (setBit x.stat 2 true) 3 true) 4 true else setBit (setBit x.stat 2 true) 3 true })))
    ∧ (∀ m : Master, m.reaches s (chanPage ch) (chanOff ch 0x20) = true →
      exec (.capLoRead m ch) s = .next (m.told s (chanPage ch * 0x1000 + chanOff ch 0x20) false
        ((lo32w (s.timer ch).cap).setWidth 64)
        (s.setTimer ch { s.timer ch with capHi := hi32w (s.timer ch).cap,
                                          stat := if m = .debug then (s.timer ch).stat else setBit (s.timer ch).stat 3 false })))

/-! ## Cues -/

/-- R250: selection takes up to 16 due cues (armed, TIME reached, HOLD = 1 or no holdover) that are not selected, by ascending TIME and
then ascending index, each once; what is left due comes after every one taken. One is on time if a tick has just taken MTIME to its TIME
(the model's bound, log entry 47). R252, R253: a selected cue that is armed and on time, or late with SKIP = 0, leaves the
selection, advances its entry, counts in LATECNT if it is late, and its action is made; a late one with SKIP = 1 makes no
action and counts in SKIPCNT (what is counted: log entry 48). A cue disarmed meanwhile only leaves the selection. R253: after a cue
fires, COUNT = 0 clears ARM; otherwise TIME increases by the interval, and COUNT decreases by 1 unless it is 255. R248: what each action
does to the block: MARK nothing; TAKE queues the ARMED slot of its handle; IRQ pulses the source; DOMAIN forces a domain's state (R298);
TSTART and TSTOP start and stop channels (R260, R267); TCAP and SNAP capture, SNAP with SNAPT; WOPEN and WCLOSE drive a cue window.
Completion of: `cueSelection`, `cueFire`. -/
def Obligations.CuesAreSelectedFireAndAdvance : Prop :=
  ((∀ s : State, s.formed = true →
      let due := fun e : Nat × CueEnt => e ∈ s.cue.tbl ∧ bit e.2.q1 4 = true ∧ e.2.time.toNat ≤ s.mt.mtime.toNat
        ∧ (bit e.2.q1 5 = true ∨ s.mt.holdover = false) ∧ ∀ y ∈ s.cue.sel, y.1 ≠ e.1
      let before := fun i j : Nat => (s.cueEnt i).time.toNat < (s.cueEnt j).time.toNat
        ∨ ((s.cueEnt i).time = (s.cueEnt j).time ∧ i < j)
      ∃ new : List (Nat × Bool), exec .cueSelection s = .next { s with cue := { s.cue with sel := s.cue.sel ++ new, hit := [] } }
      ∧ new.length ≤ 16 ∧ new.Pairwise (fun x y => before x.1 y.1)
      ∧ (∀ x ∈ new, (∃ e, due (x.1, e)) ∧ x.2 = (s.cue.hit.contains x.1 && decide (s.bclk ≤ s.cue.hitAt + 1)))
      ∧ (∀ e, due e → (∃ x ∈ new, x.1 = e.1) ∨ (new.length = 16 ∧ ∀ x ∈ new, before x.1 e.1)))
   ∧ (∀ (s : State) (i : Fin 4096) (late : Bool), (s.cue.sel.find? fun x => decide (x.1 = i.val)) = some (i.val, !late) →
        let rest := s.cue.sel.filter fun y => decide (y.1 ≠ i.val)
        let e := s.cueEnt i
        (e.armed = false → exec (.cueFire i) s = .next { s with cue := { s.cue with sel := rest } })
        ∧ (e.armed = true → (late && e.skip) = false → exec (.cueFire i) s = .next (cueAction i e.action e.arg (countLate (fld e.q1 31 24)
            { s with cue := { s.cue with sel := rest, tbl := tset cueInit i (e.advance 1) s.cue.tbl,
                                         latecnt := if late then satInc s.cue.latecnt else s.cue.latecnt } })))
        ∧ (e.armed = true → (late && e.skip) = true → ∃ t n, exec (.cueFire i) s = .next t
            ∧ t = { s with cue := { s.cue with sel := rest, tbl := tset cueInit i (e.advance (skipCount e s.mt.mtime)) s.cue.tbl,
                                               skipcnt := satAdd s.cue.skipcnt n } }
            ∧ n = if e.count = 255 then skipCount e s.mt.mtime else min (skipCount e s.mt.mtime) (e.count + 1))))
  ∧ (∀ e : CueEnt,
       (e.count = 0 → e.advance 1 = { e with q1 := setBit e.q1 4 false })
       ∧ (e.count ≠ 0 → e.count ≠ 255 → e.advance 1 = { time := BitVec.ofNat 64 (e.time.toNat + e.interval), q1 := setFld e.q1 39 32 (e.count - 1) })
       ∧ (e.count = 255 → e.advance 1 = { e with time := BitVec.ofNat 64 (e.time.toNat + e.interval) }))
  ∧ (∀ (s : State) (i arg : Nat), s.formed = true → arg < 2 ^ 16 →
       cueAction i 0 arg s = s
       ∧ (∀ (q k : Nat), q < 4 → k < 64 → tabWf slotInit 0 (s.quad q).slots = true → arg = q * 2 ^ 14 + k * 2 ^ 8 + (s.slot q k).gen.toNat →
           ((s.slot q k).st ≠ .armed → cueAction i 1 arg s = s)
           ∧ ((s.slot q k).st = .armed → (∀ x ∈ (s.quad q).slots, x.2.arrAt = s.bclk → x.2.seq = 0) →
               let t := cueAction i 1 arg s
               t.slot q k = { s.slot q k with st := .queued, leave := true, seq := (s.quad q).seq + 1, arrAt := s.bclk, arrKey := i }
               ∧ (t.quad q).seq = (s.quad q).seq + 1 ∧ (∀ j, j ≠ k → t.slot q j = s.slot q j) ∧ (∀ p, p ≠ q → t.quad p = s.quad p)
               ∧ { t with quads := s.quads, pau := s.pau, doms := s.doms } = s ∧ (t.dom (domQuad q)).demand = true))
       ∧ (let l := if s.icu.pulses.contains (arg % 1024) then s.icu.pulses else s.icu.pulses ++ [arg % 1024]
          cueAction i 2 arg s = { s with icu := { s.icu with pulses := l } })
       ∧ (let d := arg % 256
          let st := arg / 256 % 8
          (domRetired s d = true ∨ st = stateOf s d → cueAction i 3 arg s = s)
          ∧ (domRetired s d = false → stateOf s d < st → mayChoose s d = true → wakeDue s d = false →
              cueAction i 3 arg s = deepen d (min st (limitOf s d)) s)
          ∧ (domRetired s d = false → st < stateOf s d → 2 ≤ stateOf s d → cueAction i 3 arg s = wakeDom d
              ((domUnit s d).foldl (fun s e => s.setDom e { s.dom e with noSel := true, wsched := false, idleAt := s.bclk }) s)))
       ∧ (s.start.tev = [] → ∀ c, c < 32 →
           let x := s.timer c
           let cap : Timer := { x with cap := x.cnt, stat := if bit x.stat 3 then setBit (setBit (setBit x.stat 2 true) 3 true) 4 true
                                                             else setBit (setBit x.stat 2 true) 3 true }
           let named := fun hi : Bool => decide (c < 16) != hi && arg.testBit (c % 16)
           (∀ hi : Bool, ((cueAction i (if hi then 5 else 4) arg s).timer c = if named hi && !(s.header (chanPage c)).freeze then
               { x with cnt := x.phase, presc := 0, ctl := setBit x.ctl 0 true } else x)
             ∧ ((cueAction i (if hi then 7 else 6) arg s).timer c = if named hi then { x with ctl := setBit x.ctl 0 false } else x)
             ∧ ((cueAction i (if hi then 9 else 8) arg s).timer c = if named hi then cap else x))
           ∧ (cueAction i 0xA arg s).timer c = (if bit x.capcfg 19 then cap else x)
           ∧ (cueAction i 0xA arg s).mt = { s.mt with snapt := s.mt.mtime })
       ∧ (∀ a, 4 ≤ a → a ≤ 9 → { cueAction i a arg s with timers := s.timers, hdr := s.hdr, ras := s.ras, start := s.start } = s)
       ∧ { cueAction i 0xA arg s with timers := s.timers, start := s.start, mt := s.mt } = s
       ∧ cueAction i 0xB arg s = { s with mt := { s.mt with windows := setBit s.mt.windows (arg % 8) true } }
       ∧ cueAction i 0xC arg s = { s with mt := { s.mt with windows := setBit s.mt.windows (arg % 8) false } })

/-- R249: a permitted aligned write of the cue table below the pool that leaves TIME of an armed entry and gives a defined entry is done,
whether CFGERR stands or not; a write that disarms a selected cue withdraws it. One that names the pool, or changes q0 of an armed entry,
is refused with code 0x0A, and one that gives an undefined entry with 0x01: the table stays, CFGERR is set, and CUEERR takes the entry
and the code if CFGERR was 0. R30: an access that is not aligned is not accepted.
Completion of: `cueTableWrite`. -/
def Obligations.CueTableTakesDefinedEntries : Prop :=
  ∀ (s : State) (m : Master) (off : BitVec 16) (wide : Bool) (v : Word), s.formed = true → m.reaches s pgCue 0x400 = true →
    off.toNat % (if masterWide m wide then 8 else 4) = 0 →
    let i := off.toNat / 16
    let e := (s.cueEnt i).put off.toNat (masterWide m wide) v
    let kept := (s.cueEnt i).armed = true → e.time = (s.cueEnt i).time
    (i < tcBase s → kept → cueOk e = true → exec (.cueTableWrite m off wide v) s = .next (m.told s (0x1200000 + off.toNat) true 0
      { s with cue := { s.cue with tbl := tset cueInit i e s.cue.tbl,
                                   sel := if e.armed then s.cue.sel else s.cue.sel.filter fun x => decide (x.1 ≠ i) } }))
    ∧ (∀ n c, m = .core n → (c = 0x0A ∧ ¬ (i < tcBase s ∧ kept)) ∨ (c = 1 ∧ i < tcBase s ∧ kept ∧ cueOk e = false) →
      ∃ t, exec (.cueTableWrite m off wide v) s = .next t ∧ { t with cue := s.cue, hdr := s.hdr, ras := s.ras, start := s.start } = s
        ∧ (t.header pgCue).cfgerr = true
        ∧ t.cue = if (s.header pgCue).cfgerr then s.cue else { s.cue with err := BitVec.ofNat 32 (i + c * 2 ^ 24) })
    ∧ (∀ (n : Fin 16) (o : BitVec 16), o.toNat % (if wide then 8 else 4) ≠ 0 → exec (.cueTableWrite (.core n) o wide v) s = .next s)

/-! ## Interrupts -/

/-- R275: the word of a source after one sample, by its SENSE: a level outside service gives PEND as it is; an edge sets PEND,
or LOST where PEND stands; an edge in the BCLK of a change of SENSE is not seen (R286). R279: a source of a closed group that goes
from PEND 0 to 1 is a member event, one in a BCLK at most: it adds 1 to EVCNT, up to 255, and starts the timer with the first; the
timer adds 1 in every BCLK after it. A closed group that has reached a threshold opens; an open one closes when no member is
pending outside service, and its count and timer return to 0.
Completion of: `sourceSample`, `groupOpen`, `groupClose`. -/
def Obligations.SamplesAndGroups : Prop :=
  (∀ (s : State) (n : Fin 1024), s.formed = true → n.val ≠ 0 → n.val ≠ 1023 →
     ∃ t, exec (.sourceSample n) s = .next (raiseAll t)
       ∧ { t with icu := s.icu } = s ∧ t.icu.pulses = s.icu.pulses.filter (· ≠ n.val)
       ∧ (∀ k, k ≠ n.val → t.src k = s.src k)
       ∧ (let x := s.src n
          let i := srcInput s n
          (x.sense ≤ 1 → x.active = true → t.src n = x ∧ t.icu.edgelost = s.icu.edgelost)
          ∧ (x.sense ≤ 1 → x.active = false → t.src n = { x with inn := i, pend := i == decide (x.sense = 0) }
               ∧ t.icu.edgelost = s.icu.edgelost)
          ∧ (2 ≤ x.sense → senseEdge x.sense x.inn i = false ∨ x.senseAt = some s.bclk →
               t.src n = { x with inn := i } ∧ t.icu.edgelost = s.icu.edgelost)
          ∧ (2 ≤ x.sense → senseEdge x.sense x.inn i = true → x.senseAt ≠ some s.bclk → x.pend = false → t.src n = { x with inn := i, pend := true }
               ∧ t.icu.edgelost = s.icu.edgelost)
          ∧ (2 ≤ x.sense → senseEdge x.sense x.inn i = true → x.senseAt ≠ some s.bclk → x.pend = true → t.src n = { x with inn := i, lost := true }
               ∧ t.icu.edgelost = satInc s.icu.edgelost)))
  ∧ (∀ (s t : State) (n : Fin 1024) (g : Fin 32), s.formed = true → n.val ≠ 0 → n.val ≠ 1023 → exec (.sourceSample n) s = .next t →
       let x := s.grp g
       let rise := decide ((s.src n).grpNo = g.val + 1) && !(s.src n).pend && (t.src n).pend
       t.grp g = if rise && !x.isOpen && decide (x.evAt ≠ some s.bclk) then
           { x with ev := min 255 (x.ev + 1), timer := if x.ev = 0 then 0 else x.timer, evAt := some s.bclk }
         else x)
  ∧ (∀ (s t : State) (g : Nat), s.formed = true → s.pending = [] → s.blk.started = true → s.blk.owed = [] → s.blk.hx = none →
       s.blk.hxReq = [] → step s = .next t → t.bclk = s.bclk + 1
         ∧ t.grp g = (if !(s.grp g).isOpen && decide (1 ≤ (s.grp g).ev) then { s.grp g with timer := (s.grp g).timer + 1 } else s.grp g))
  ∧ (∀ (s : State) (g : Fin 32),
       ((s.grp g).isOpen = false → (s.grp g).due = true →
         exec (.groupOpen g) s = .next (raiseAll { s with icu := { s.icu with grps := tset grpInit g { s.grp g with opn := true } s.icu.grps } }))
       ∧ ((s.grp g).opn = true → groupPending s g = false →
         exec (.groupClose g) s = .next (raiseAll
           { s with icu := { s.icu with grps := tset grpInit g { s.grp g with opn := false, ev := 0, timer := 0 } s.icu.grps } })))

/-- R277, R285: after every change of the controller, NRAISED and FRAISED of each core and each HRAISED bit are set where their
indication is 1, and no RAISED bit is cleared; sources, groups and every unit but the cores and the domains stay as they are. -/
def Obligations.RaisedBitsFollowIndications : Prop :=
  ∀ s : State, s.formed = true →
    (∀ n, n < 16 → (raiseAll s).icucOf n = { s.icucOf n with nraised := (s.icucOf n).nraised || nreq s n,
                                                             fraised := (s.icucOf n).fraised || freq s n })
    ∧ (∀ k, k < 8 → (raiseAll s).icu.hraised.getLsbD k = (s.icu.hraised.getLsbD k || irqOut s k))
    ∧ { (raiseAll s).icu with hraised := s.icu.hraised } = s.icu
    ∧ { raiseAll s with icu := s.icu, icuc := s.icuc, cores := s.cores, doms := s.doms } = s

/-- R280: a claim returns the highest-numbered eligible source of the class and core, or of the line, puts it into service and
clears RAISED; with none eligible it returns 1,023 where RAISED is 1, and clears it, and 0 otherwise. It is evaluated on the state at
the start of the BCLK; a second read of one register in it, which the block serialises, sees what the first left. The debug port
only reads. That RAISED is set again in the same command, and not in the BCLK after the claim as R277 has it, is the model's choice
(log entry 58).
Completion of: `claimn`, `claimf`, `hclaim`. -/
def Obligations.ClaimsServeTheTopSource : Prop :=
  ∀ (s : State) (m : Master),
    let start := fun r : Nat => if s.icu.claimed.contains r then s else { s with icu := s.start.icu, icuc := s.start.icuc }
    let read := fun r : Nat => { s.icu with claimed := r :: s.icu.claimed }
    (∀ (n : Fin 16), m.reaches s (pgIcuc n) 0x408 = true →
      let o := start (2 * n)
      let top := topSource o (forCore n false)
      let v := claimValue top (o.icucOf n).nraised
      exec (.claimn m n) s = .next (m.told s (pgIcuc n * 0x1000 + 0x408) false (BitVec.ofNat 64 (v % 2 ^ 32))
        (if m = .debug then s else raiseAll (serve top n
          { s with icu := read (2 * n), icuc := tset icucInit n { s.icucOf n with nraised := false } s.icuc }))))
    ∧ (∀ (n : Fin 16), m.reaches s (pgIcuc n) 0x40C = true →
      let o := start (2 * n + 1)
      let top := topSource o (forCore n true)
      let v := claimValue top (o.icucOf n).fraised
      exec (.claimf m n) s = .next (m.told s (pgIcuc n * 0x1000 + 0x40C) false (BitVec.ofNat 64 (v % 2 ^ 32))
        (if m = .debug then s else raiseAll (serve top n
          { s with icu := read (2 * n + 1), icuc := tset icucInit n { s.icucOf n with fraised := false } s.icuc }))))
    ∧ (∀ (k : Fin 8), m.reaches s pgIcu (0x440 + 4 * k) = true →
      let o := start (32 + k)
      let top := topSource o (forLine k)
      let v := claimValue top (o.icu.hraised.getLsbD k)
      exec (.hclaim m k) s = .next (m.told s (pgIcu * 0x1000 + (0x440 + 4 * k)) false (BitVec.ofNat 64 (v % 2 ^ 32))
        (if m = .debug then s
         else raiseAll (serve top (16 + k) { s with icu := { read (32 + k) with hraised := setBit s.icu.hraised k false } }))))

/-- R281: an end of interrupt that names a source in service for that core or line ends its service, and a level source is
sampled again; any other sets BADEOI and changes nothing else. R272, R274, R279, R283: SWSET pulses the source named; GCFG
takes its thresholds and keeps the counts, but an always-open group that gets thresholds stays open while a member is pending
and otherwise closes with its counts at zero (the model's reading, log entry 136); CTL takes the masks; and an aligned write of a source word's low half, with a
defined setting, takes it, whether CFGERR stands or not; the high half acts through its W1C bits, of which one that rose in this BCLK stays
(R38). An undefined setting, or index 0 or 1,023, is refused with code 0x01, which SRCERR records if CFGERR was 0 (R35). R30: an access
that is not aligned is not accepted.
Completion of: `eoi`, `heoi`, `swset`, `sourceTableWrite`, `gcfg`, `icucCtl`. -/
def Obligations.InterruptRegisterWrites : Prop :=
  (∀ (s : State) (m : Master) (v : Reg), srcOk v = true →
     (∀ n : Fin 16, m.reaches s (pgIcuc n) 0x410 = true →
       exec (.eoi m n v) s = .next (m.told s (pgIcuc n * 0x1000 + 0x410) true 0
         (if (s.src (fld v 9 0)).active && decide ((s.src (fld v 9 0)).actby.toNat = n) then endService (fld v 9 0) s
          else { s with icuc := tset icucInit n { s.icucOf n with badeoi := true } s.icuc })))
     ∧ (m.reaches s pgIcu 0x408 = true →
       exec (.heoi m v) s = .next (m.told s 0x100408 true 0
         (if (s.src (fld v 9 0)).active && decide ((s.src (fld v 9 0)).actby.toNat = 16 + fld v 18 16) then endService (fld v 9 0) s
          else { s with icu := { s.icu with hbadeoi := true } }))))
  ∧ (∀ (s : State) (m : Master) (v : Reg),
       (m.reaches s pgIcu 0x400 = true → srcOk v = true → exec (.swset m v) s = .next (m.told s 0x100400 true 0
         { s with icu := { s.icu with pulses := if s.icu.pulses.contains (fld v 9 0) then s.icu.pulses else s.icu.pulses ++ [fld v 9 0] } }))
       ∧ (∀ g : Fin 32, m.reaches s pgIcu (0x480 + 4 * g) = true → exec (.gcfg m g v) s =
         .next (m.told s (pgIcu * 0x1000 + (0x480 + 4 * g)) true 0
           (let x := s.grp g
            let c := setFld v 31 24 0
            let y : Grp := if x.pass && !(decide (fld v 23 0 = 0)) then
              (if groupPending s g then { x with cfg := c, opn := true } else { cfg := c }) else { x with cfg := c }
            raiseAll { s with icu := { s.icu with grps := tset grpInit g y s.icu.grps } })))
       ∧ (∀ n : Fin 16, m.reaches s (pgIcuc n) 0x400 = true → exec (.icucCtl m n v) s =
         .next (m.told s (pgIcuc n * 0x1000 + 0x400) true 0
           (raiseAll { s with icuc := tset icucInit n { s.icucOf n with nmask := v.getLsbD 0, fmask := v.getLsbD 1 } s.icuc })))
       ∧ (∀ (off : BitVec 13) (wide : Bool) (x : Word), s.formed = true → m.reaches s pgIcu 0x400 = true →
         let n := off.toNat / 8
         let both := masterWide m wide
         let low := both || decide (off.toNat % 8 = 0)
         off.toNat % (if both then 8 else 4) = 0 →
         let good := n ≠ 0 ∧ n ≠ 1023 ∧ (low = true → srcCfgOk (fld x 31 0) = true)
         let t := if low then cfgPut n (fld x 31 0) s else s
         (good → exec (.sourceTableWrite m off wide x) s = .next (m.told s (0x1210000 + off.toNat) true 0
           (raiseAll (if both || !low then w1cPut n (if both then fld x 63 32 else fld x 31 0) t else t))))
         ∧ (∀ c, m = .core c → ¬ good → ∃ u, exec (.sourceTableWrite m off wide x) s = .next u
             ∧ { u with icu := s.icu, hdr := s.hdr, ras := s.ras, start := s.start } = s ∧ (u.header pgIcu).cfgerr = true
             ∧ u.icu = if (s.header pgIcu).cfgerr then s.icu else { s.icu with srcerr := BitVec.ofNat 32 (n + 2 ^ 24) }))
       ∧ (∀ (c : Fin 16) (o : BitVec 13) (wide : Bool) (x : Word), o.toNat % (if wide then 8 else 4) ≠ 0 →
           exec (.sourceTableWrite (.core c) o wide x) s = .next s)
       ∧ (∀ n w, w1cPut n w s = (let y := s.src n
           let o := tget srcInit s.start.icu.srcs n
           let z : Src := { y with pend := y.pend && !(w.testBit 0 && o.pend), lost := y.lost && !((w.testBit 0 || w.testBit 3) && o.lost) }
           { s with icu := { s.icu with srcs := tset srcInit n z s.icu.srcs } }))
       ∧ (∀ n c, cfgPut n c s =
         (let y := s.src n
          let z : Src := { y with cfg := BitVec.ofNat 16 c }
          let w : Src := if z.sense = y.sense then z else { z with pend := false, lost := false, inn := srcInput s n, senseAt := some s.bclk }
          { s with icu := { s.icu with srcs := tset srcInit n w s.icu.srcs } })))

/-! ## Power -/

/-- R295: a wake of a domain that is in GLORY, LEHR or COLD starts for each domain of its unit: from GLORY at once, from LEHR
or COLD with a request for leave at WPRIO in WCLASS; it is counted in WAKECNT, and a domain that is awake, waking or waiting
stays; for a domain that is still entering a state the demand stands until the entry ends, but one in the very BCLK of the decision
to enter keeps the domain awake (R300). R294, R295, R296, R326: a demand and a scheduled wake wake the domain; a keep vote of a debug access ends by itself.
Completion of: `scheduledWake`, `demand`, `keepExpiry`. -/
def Obligations.DemandsAndWakesStart : Prop :=
  (∀ (s : State) (d : Nat),
     let m := s.dom d
     (m.waking = false → m.wleave = false → m.goal = none → m.st = 2 →
       wakeOne d s = { s with pseq := { s.pseq with wakecnt := satInc s.pseq.wakecnt },
                              doms := tset domInit d { m with waking := true, wsched := false, dreq := 1 } s.doms })
     ∧ (m.waking = false → m.wleave = false → m.goal = none → 2 < m.st.toNat →
       (s.pau.reqs.all fun r => decide (r.for_ ≠ .wake d)) = true →
       wakeOne d s = { s with pseq := { s.pseq with wakecnt := satInc s.pseq.wakecnt },
                              doms := tset domInit d { m with wleave := true, wsched := false } s.doms,
                              pau := { s.pau with reqs := s.pau.reqs ++ [⟨(s.domCfg d).wprio.toNat, .wake d, (s.domCfg d).wclass.toNat⟩] } })
     ∧ (m.goal = none → m.waking = true ∨ m.wleave = true ∨ m.st.toNat ≤ 1 → wakeOne d s = s)
     ∧ (m.goal ≠ none → m.demand = false → wakeOne d s = { s with doms := tset domInit d { m with demand := true } s.doms })
     ∧ (m.goal ≠ none → m.demand = true → wakeOne d s = s)
     ∧ wakeDom d s = (domUnit s d).foldl (fun s e => wakeOne e s) s)
  ∧ (∀ (s : State) (d : Fin 235),
       (s.blk.started = true → domRetired s d = false →
         let u := if (s.dom d).demand then s else { s with doms := tset domInit d { s.dom d with demand := true } s.doms }
         ((∀ e ∈ domUnit s d, (s.dom e).goalAt ≠ some s.bclk) → exec (.demand d) s = .next (wakeDom d u))
         ∧ (domUnit s d = [d.val] → (s.dom d).goal ≠ none → (s.dom d).goalAt = some s.bclk → (s.dom d).st.toNat = 1 →
           exec (.demand d) s = .next (wakeDom d (u.setDom d { u.dom d with goal := none, goalAt := none, dreq := 1 }))))
       ∧ ((s.dom d).wsched = true → exec (.scheduledWake d) s = .next (wakeDom d s))
       ∧ exec (.keepExpiry d) s = .next { s with doms := tset domInit d { s.dom d with keepDbg := false } s.doms })

/-- R296: what the sequencer decides for a domain outside any core that is in IDLE: with a demand or a keep vote it stays
awake, in RUN while it is busy or kept; with a known event it enters the deepest state, within the limit, from which the time left
still covers its wake latency with GUARD and its break-even time, and schedules the wake; past HOLDOFF, without a known event, it
enters FLOOR, or the limit if that is shallower, when that is deeper than IDLE. The end of HOLDOFF makes the same entry. R291: the
three slots of a core enter together, and their entry and wake end together. R295, R367: the acknowledgement equal to the code
driven ends an entry, and a demand that came meanwhile wakes the domain at once. R292, R295, R301: a wake whose acknowledgement has
come ends in IDLE with its leave released; out of COLD the unit is re-initialised (R293).
Completion of: `sequencerDecision`, `holdoffExpiry`, `wakeComplete`, `pwrDack`. -/
def Obligations.DomainsEnterAndWake : Prop :=
  (∀ (s : State) (d : Fin 235), (d.val < 68 ∨ 124 ≤ d.val) → s.blk.started = true → s.cullet.frozen = false → s.pseq.en = true →
     (s.header pgPseq).freeze = false → domRetired s d = false → (s.dom d).goal = none → (s.dom d).st = 1 →
     (s.dom d).waking = false → (s.dom d).wleave = false → (s.dom d).noSel = false →
     let st := min (s.domCfg d).floor.toNat (limitOf s d)
     let enters := fun (t : State) (st : Nat) (sched : Bool) => { t with doms := s.doms } = s ∧ (∀ e, e ≠ d.val → t.dom e = s.dom e)
       ∧ t.dom d = { s.dom d with goal := some (BitVec.ofNat 3 st), goalAt := some s.bclk, dreq := BitVec.ofNat 3 st, wsched := sched }
     ((s.dom d).demand = true ∨ domKeep s d = true → exec (.sequencerDecision d) s =
       .next { s with doms := tset domInit d { s.dom d with demand := false, wsched := false, idleAt := s.bclk,
                                                            st := if domBusy s d ∨ domKeep s d then 0 else 1 } s.doms })
     ∧ ((s.dom d).demand = false → domKeep s d = false → domBusy s d = true → exec (.sequencerDecision d) s =
       .next { s with doms := tset domInit d { s.dom d with st := 0, wsched := false } s.doms })
     ∧ (s.formed = true → (s.dom d).demand = false → domKeep s d = false → domBusy s d = false → nextEvent s d = none → 2 ≤ st → st ≤ 4 →
       2 ^ (s.domCfg d).holdoff.toNat ≤ s.bclk - (s.dom d).idleAt → ∃ t,
         exec (.sequencerDecision d) s = .next t ∧ exec (.holdoffExpiry d) s = .next t ∧ enters t st false)
     ∧ (∀ e, s.formed = true → (s.dom d).demand = false → domKeep s d = false → domBusy s d = false → nextEvent s d = some e →
       let left := eventBclk s e
       let fits := fun x : Nat => 2 ≤ x ∧ x ≤ limitOf s d ∧ x ≤ 4 ∧ wakeLat x + s.pseq.guard.toNat ≤ left ∧ breakEven x ≤ left
       (∀ x, fits x → (∀ y, x < y → ¬ fits y) → wakeLat x + s.pseq.guard.toNat < left →
         ∃ t, exec (.sequencerDecision d) s = .next t ∧ enters t x true)
       ∧ ((∀ x, ¬ fits x) → exec (.sequencerDecision d) s =
           .next { s with doms := tset domInit d { s.dom d with wsched := false } s.doms })))
  ∧ (∀ (s : State) (n : Nat) (d : Fin 235), s.formed = true → s.blk.started = true →
       let u := slotDoms s n
       d.val ∈ u → u.Nodup → (∀ e ∈ u, domUnit s e = u) →
       (s.cullet.frozen = false → s.pseq.en = true → (s.header pgPseq).freeze = false → domRetired s d = false → domBusy s d = false →
         domKeep s d = false → (∀ e ∈ u, (s.dom e).st = 1 ∧ (s.dom e).goal = none ∧ (s.dom e).waking = false ∧ (s.dom e).wleave = false
           ∧ (s.dom e).demand = false ∧ (s.dom e).noSel = false ∧ (s.dom e).wsched = false) →
         nextEvent s d = none → 2 ^ holdoffOf s d ≤ s.bclk - (s.dom d).idleAt →
         let st := min (floorOf s d) (limitOf s d)
         2 ≤ st → ∃ t, exec (.sequencerDecision d) s = .next t ∧ { t with doms := s.doms } = s
           ∧ (∀ e, t.dom e = if e ∈ u then { s.dom e with goal := some (BitVec.ofNat 3 st), goalAt := some s.bclk, dreq := BitVec.ofNat 3 st }
                else s.dom e))
       ∧ (∀ g, (∀ e ∈ u, (s.dom e).goal = some g ∧ (s.dom e).demand = false ∧ (e ≠ d.val → (s.dom e).dack = (s.dom e).dreq)) →
         domKeep s d = false → ∃ t, exec (.pwrDack d (s.dom d).dreq) s = .next t ∧ { t with doms := s.doms, dbg := s.dbg } = s
           ∧ (∀ e, t.dom e = if e ∈ u then { s.dom e with dack := (s.dom e).dreq, st := g, goal := none, goalAt := none } else s.dom e))
       ∧ ((∀ e ∈ u, (s.dom e).waking = true ∧ (s.dom e).wleave = false ∧ (s.dom e).dack = (s.dom e).dreq ∧ (s.dom e).st = 2) →
         ∃ t, exec (.wakeComplete d) s = .next t
           ∧ (∀ e, t.dom e = if e ∈ u then { s.dom e with st := 1, waking := false, demand := false, idleAt := s.bclk } else s.dom e)))
  ∧ ((∀ (s : State) (d : Fin 235) (g : BitVec 3), s.formed = true → s.blk.started = true → domUnit s d = [d.val] → (s.dom d).goal = some g →
        (∀ code, code = (s.dom d).dreq → ∃ t, { t with doms := s.doms } = s ∧ (∀ e, e ≠ d.val → t.dom e = s.dom e)
          ∧ t.dom d = { s.dom d with dack := code, st := g, goal := none, goalAt := none }
          ∧ exec (.pwrDack d code) s =
              (let u := if blockAsleep t && !debugWakes t then loseConn t else t
               .next (if (u.dom d).demand || domKeep u d then wakeDom d u else u)))
        ∧ (∀ code, code ≠ (s.dom d).dreq → exec (.pwrDack d code) s =
          .next { s with doms := tset domInit d { s.dom d with dack := code } s.doms }))
     ∧ (∀ (s : State) (d : Fin 235), domUnit s d = [d.val] → (s.dom d).waking = true → (s.dom d).wleave = false →
          (s.dom d).dack = (s.dom d).dreq →
          let t := releaseLeave (.wake d)
            { s with doms := tset domInit d { s.dom d with st := 1, waking := false, demand := false, idleAt := s.bclk } s.doms }
          exec (.wakeComplete d) s = .next (if (s.dom d).st = 4 then fromCold d t else t)))

/-- R301, R302, R303, R305: one grant in a BCLK at most is made to the oldest request of the highest priority when PAU is not frozen or OVER, HELD
plus its cost is within B − BOOKPOOL, and the ramp check passes; HELD grows by the cost, and the take has its leave or the
wake starts. R301, R304: the budget of the chip is sampled, at most 3,200; the leave and the booking of a take that is free
again or aborted are released. OVER follows the sums, and its rise is logged (R305).
Completion of: `grant`, `leaveRelease`, `pwrBudget`. -/
def Obligations.GrantsAndReleases : Prop :=
  (∀ (s : State) (r : LeaveReq) (l1 l2 : List LeaveReq), s.pau.reqs = l1 ++ r :: l2 → r.prio < 4 →
     (∀ x ∈ l1, x.prio < r.prio) → (∀ x ∈ l2, x.prio ≤ r.prio) → s.cullet.frozen = false →
     (s.header pgPau).freeze = false → s.pau.isOver = false →
     heldSum s.pau + s.classCost r.cls + s.pau.pool.toNat ≤ budgetB s.pau →
     (s.pau.rampmax = 0 ∨ grSum s.pau s.bclk + dueSum s.pau s.mt.mtime + s.classCost r.cls ≤ s.pau.rampmax.toNat) →
     (s.pau.grantAt = some s.bclk → exec .grant s = .next s)
     ∧ (s.pau.grantAt ≠ some s.bclk → exec .grant s = .next (granted r.for_ (updOver
       { s with pau := { s.pau with reqs := s.pau.reqs.filter (fun x => decide (x.for_ ≠ r.for_)),
                                    held := s.pau.held ++ [(r.for_, s.classCost r.cls)],
                                    ramp := s.pau.ramp ++ [(s.bclk, s.classCost r.cls)], grantAt := some s.bclk } }))))
  ∧ (∀ s : State,
       (∀ v : BitVec 12, s.blk.started = true →
         exec (.pwrBudget v) s = .next (updOver { s with pau := { s.pau with chip := if 3200 < v.toNat then 3200 else v } }))
       ∧ (∀ (q : Fin 4) (k : Fin 64), (s.slot q k).st = .free ∨ (s.slot q k).aborted = true →
         ∃ t, exec (.leaveRelease q k) s = .next t ∧ { t with pau := s.pau, ras := s.ras } = s
           ∧ { t.pau with held := s.pau.held, bookings := s.pau.bookings, isOver := s.pau.isOver } = s.pau
           ∧ t.pau.held = s.pau.held.filter (fun e => decide (e.1 ≠ .take q k))
           ∧ t.pau.bookings = s.pau.bookings.filter (fun b => !(decide (b.q = q.val) && decide (b.slot = k.val))))
       ∧ (let o := decide (heldSum s.pau + bookedSum s.pau > budgetB s.pau)
          updOver s = (let u := if o && !s.pau.isOver then logEv 0x60 0 pgPau (heldSum s.pau) s else s
                       { u with pau := { u.pau with isOver := o } })))

/-- R298: FORCE asks for a state of a domain: the present one has no effect, a deeper one, within the limit, is entered by an idle domain
without a keep vote, and a shallower one wakes it. R308: a defined aligned write of the low word of d0 takes its RW
fields, whether CFGERR stands or not; an undefined one, or one past entry 234, is refused with code 0x01, which DTERR records if CFGERR was
0 (R35). R30: an access that is not aligned is not accepted.
Completion of: `pseqForce`, `powerDomainTableWrite`. -/
def Obligations.ForceAndPowerTableWrites : Prop :=
  ∀ (s : State) (m : Master) (v : Reg),
    (m.reaches s pgPseq 0x404 = true → fld v 7 0 < 235 → fld v 10 8 < 5 →
      ∃ t, exec (.pseqForce m v) s = .next (m.told s 0x131404 true 0 t)
        ∧ (fld v 10 8 = stateOf s (fld v 7 0) → t = s)
        ∧ (domRetired s (fld v 7 0) = false → stateOf s (fld v 7 0) < fld v 10 8 → mayChoose s (fld v 7 0) = true →
            wakeDue s (fld v 7 0) = false → t = deepen (fld v 7 0) (min (fld v 10 8) (limitOf s (fld v 7 0))) s)
        ∧ (domRetired s (fld v 7 0) = false → fld v 10 8 < stateOf s (fld v 7 0) → 2 ≤ stateOf s (fld v 7 0) →
            t = wakeDom (fld v 7 0) ((domUnit s (fld v 7 0)).foldl (fun s e => s.setDom e
              { s.dom e with noSel := true, wsched := false, idleAt := s.bclk }) s)))
    ∧ (∀ (off : BitVec 12) (wide : Bool) (x : Word), s.formed = true → m.reaches s pgPseq 0x400 = true →
      off.toNat % (if masterWide m wide then 8 else 4) = 0 →
      let d := off.toNat / 16
      let good := d < 235 ∧ (off.toNat % 16 = 0 → domOk (fld x 31 0) = true)
      (good → off.toNat % 16 ≠ 0 → exec (.powerDomainTableWrite m off wide x) s = .next (m.told s (0x1220000 + off.toNat) true 0 s))
      ∧ (∀ n, m = .core n → ¬ good → ∃ t, exec (.powerDomainTableWrite m off wide x) s = .next t
        ∧ { t with pseq := s.pseq, hdr := s.hdr, ras := s.ras, start := s.start } = s ∧ (t.header pgPseq).cfgerr = true
        ∧ t.pseq = if (s.header pgPseq).cfgerr then s.pseq else { s.pseq with err := BitVec.ofNat 32 (d + 2 ^ 24) })
      ∧ (good → off.toNat % 16 = 0 → ∃ t, exec (.powerDomainTableWrite m off wide x) s = .next (m.told s (0x1220000 + off.toNat) true 0 t)
        ∧ t = { s with doms := tset domInit d (t.dom d) s.doms }
        ∧ ((t.dom d).limitOr d = x.extractLsb' 3 3 ∧ (t.dom d).groupsOr d = x.extractLsb' 20 8
            ∧ { t.dom d with limit := (s.dom d).limit, groups := (s.dom d).groups } =
              { s.dom d with floor := x.extractLsb' 6 3, holdoff := x.extractLsb' 9 5, wprio := x.extractLsb' 14 2, wclass := x.extractLsb' 16 4 })))
    ∧ (∀ (n : Fin 16) (o : BitVec 12) (wide : Bool) (x : Word), o.toNat % (if wide then 8 else 4) ≠ 0 →
        exec (.powerDomainTableWrite (.core n) o wide x) s = .next s)

/-! ## Scratchpad banks -/

/-- R181: a single flipped bit of the 72 stored bits of a word is corrected, and two are found uncorrectable. -/
def Obligations.SecdedCorrectsOneAndDetectsTwo : Prop :=
  (∀ (d : Word) (i : Nat), i < 64 → checkByte (flipBit d i) = checkByte d ^^^ flipSyn i)
  ∧ (∀ i, i < 64 → eccDecode (flipSyn i) = .single (some i)) ∧ (∀ i, 64 ≤ i → i < 72 → eccDecode (flipSyn i) = .single none)
  ∧ (∀ i j, i < 72 → j < 72 → i ≠ j → eccDecode (flipSyn i ^^^ flipSyn j) = .double)
  ∧ (∀ d : Word, eccDecode (checkByte d ^^^ checkByte d) = .good)

/-- R234, R235: a read of a word with a single-bit error returns the corrected value, counts once and queues the write-back;
the write-back stores it; the scrubber reads the next word in the same way. R226, R232, R234: a write of a whole word is read
back as it is; every other word reads as before.
Completion of: `correctionWriteback`, `scratchpadScrub`. -/
def Obligations.ScratchpadWordsAndErrors : Prop :=
  (∀ (s : State) (b : Fin 68) (w : Nat) (rest : List Nat),
     let k := s.bank b
     let a := b.val * 32768 + w
     (k.corrQ = w :: rest → awake s (domBank b) = true → k.copying = false → (∃ f, (spPeek s a).2 = .single f) →
       exec (.correctionWriteback b) s = .next
         { s with banks := tset bankInit b { k with corrQ := rest } s.banks, mem := putBytes s.mem a (spPeek s a).1 255,
                  synd := tset zeroD a 0 s.synd })
     ∧ (s.blk.started = true → bit k.acfg 8 = true → awake s (domBank b) = true → k.copying = false → s.sec.moving = false →
       exec (.scratchpadScrub b) s = .next
         (spRead { s with banks := tset bankInit b { k with scrub := (k.scrub + 1) % 32768 } s.banks } (b.val * 32768 + k.scrub)).1)
     ∧ (∀ f, (spPeek s a).2 = .single f → w < 32768 → k.corrQ.contains w = false →
       spRead s a = ({ s with banks := tset bankInit b { k with corr := satInc k.corr, winC := k.winC + 1,
                                                                winInj := k.winInj || bit (tget zeroD s.synd a) 8,
                                                                corrQ := k.corrQ ++ [w] } s.banks }, (spPeek s a).1, false)))
  ∧ (∀ (s : State) (w : Nat) (v : Word), s.formed = true →
       spPeek (spWrite s w v) w = (v, .good)
       ∧ (∀ u, u ≠ w → spPeek (spWrite s w v) u = spPeek s u)
       ∧ { spWrite s w v with mem := s.mem, synd := s.synd } = s)

/-- R236: a write of OWNREQ starts a handover, which breaks the reservations on the bank unless it is to the present owner; a
second one is lost and sets HOLOST; at its end OWNER takes the code. R238, R239: REPENT writes the repair entry that REPSEL
names; no word of another bank changes. REFRESH sets RBUSY, and its end clears it with every correctable word of the bank
good, as reads see words under R226 and R234; that it is every word of the whole bank, and not of the sub-array that REPSEL names, is the
model's reading (log entry 122, DEDUCED).
Completion of: `ownreq`, `handoverEnd`, `repent`, `refresh`, `refreshEnd`. -/
def Obligations.BankHandoverAndRepair : Prop :=
  (∀ (s : State) (b : Fin 68),
     (∀ (m : Master) (v : Reg), m.reaches s (pgSbank b) 0x404 = true → pageAsleep s (.sbank b) = false → ownerOk (fld v 7 0) = true →
       let c : BitVec 8 := BitVec.ofNat 8 (fld v 7 0)
       let t := { s with banks := tset bankInit b { s.bank b with pend := some c } s.banks }
       ((s.bank b).pend = none → exec (.ownreq m b v) s = .next (m.told s (pgSbank b * 0x1000 + 0x404) true 0
         (if c = ownerOf t b then t else breakResv (fun w => decide (w / 32768 = b.val)) t)))
       ∧ ((s.bank b).pend ≠ none → exec (.ownreq m b v) s = .next (m.told s (pgSbank b * 0x1000 + 0x404) true 0
         { s with banks := tset bankInit b { s.bank b with holost := true } s.banks })))
     ∧ (∀ c, (s.bank b).pend = some c → exec (.handoverEnd b) s =
       .next { s with banks := tset bankInit b { s.bank b with owner := some c, pend := none } s.banks }))
  ∧ (∀ (s : State) (b : Fin 68), s.formed = true →
       (∀ (m : Master) (v : Reg), m.reachesAsMachine s (pgSbank b) 0x424 = true → pageAsleep s (.sbank b) = false →
         ∃ t, exec (.repent m b v) s = .next (m.told s (pgSbank b * 0x1000 + 0x424) true 0 t)
           ∧ t.bank b = { s.bank b with repair := tset zeroD (4 * fld (s.bank b).repsel 6 0 + fld (s.bank b).repsel 9 8)
                                                   (BitVec.ofNat 8 (fld v 6 0)) (s.bank b).repair }
           ∧ { t with banks := s.banks, mem := s.mem, synd := s.synd, fresh := s.fresh } = s
           ∧ (∀ c, c ≠ b.val → t.bank c = s.bank c)
           ∧ (∀ w, w / 32768 ≠ b.val → spPeek t w = spPeek s w))
       ∧ (∀ m : Master, m.reaches s (pgSbank b) 0x428 = true → pageAsleep s (.sbank b) = false → (s.bank b).rbusy = false →
         exec (.refresh m b) s = .next (m.told s (pgSbank b * 0x1000 + 0x428) true 0
           { s with banks := tset bankInit b { s.bank b with rbusy := true } s.banks }))
       ∧ ((s.bank b).rbusy = true → ∃ t, exec (.refreshEnd b) s = .next t ∧ (t.bank b).rbusy = false
         ∧ { t with banks := s.banks, mem := s.mem, synd := s.synd, ras := s.ras } = s
         ∧ (∀ w, w / 32768 = b.val → (spPeek s w).2 ≠ .double → spPeek t w = ((spPeek s w).1, .good))
         ∧ (∀ w, w / 32768 ≠ b.val → spPeek t w = spPeek s w)))

/-- R229, R366: a burst to a bank that host exchange owns and may write is written as a whole, and HX_WDONE rises; to any other
owner's bank it is dropped as a whole. A read returns the eight words, with HX_RVALID, and with HX_RERR per pair. While the bank
cannot serve it the burst stands as the burst in progress. The access is a demand on the bank (R294).
Completion of: `hostExchangeWrite`, `hostExchangeRead`. -/
def Obligations.HostExchangeBursts : Prop :=
  ∀ (s : State) (a : BitVec 18) (line : Line) (w : Nat), s.formed = true → s.blk.started = true → s.blk.ready = true →
    s.blk.hx = none → s.blk.hxReq = [] → spIndex s (a.toNat * 64) = some w → spOk s w (masterLvl s .hostExchange) = true →
    let u := addDemand (domBank (w / 32768)) s
    (ownerOf s (w / 32768) = 0x14 → bankOpen s (w / 32768) true = true →
      ∃ t, exec (.hostExchangeWrite a line) s = .next t
        ∧ { t with mem := s.mem, synd := s.synd, cores := s.cores, blk := s.blk } = u
        ∧ t.blk = { s.blk with hxDone := true, hxDrop := false }
        ∧ (∀ i, i < 8 → spPeek t (w + i) = (lineWord line i, .good))
        ∧ (∀ u, u < w ∨ w + 8 ≤ u → spPeek t u = spPeek s u))
    ∧ (ownerOf s (w / 32768) ≠ 0x14 → exec (.hostExchangeWrite a line) s = .next (hxDrop (w / 32768) (w % 32768) s))
    ∧ (bankOpen s (w / 32768) (decide (ownerOf s (w / 32768) = 0x14)) = true →
      ∃ t, exec (.hostExchangeRead a) s = .next t
        ∧ { t with banks := s.banks, ras := s.ras, blk := s.blk } = u
        ∧ t.blk.hxRvalid = true
        ∧ { t.blk with hxRdata := s.blk.hxRdata, hxRerr := s.blk.hxRerr, hxRvalid := s.blk.hxRvalid } = s.blk
        ∧ (∀ i, i < 8 → lineWord t.blk.hxRdata i = if (spPeek s (w + i)).2 = .double then 0 else (spPeek s (w + i)).1)
        ∧ (∀ j, j < 4 → t.blk.hxRerr.getLsbD j =
            (decide ((spPeek s (w + 2 * j)).2 = .double) || decide ((spPeek s (w + 2 * j + 1)).2 = .double))))
    ∧ (ownerOf s (w / 32768) = 0x14 → bankOpen s (w / 32768) true = false →
      exec (.hostExchangeWrite a line) s = .next (addDemand (domBank (w / 32768)) (s.setBlk { s.blk with hx := some ⟨true, a, line⟩ })))
    ∧ (bankOpen s (w / 32768) (decide (ownerOf s (w / 32768) = 0x14)) = false →
      exec (.hostExchangeRead a) s = .next (addDemand (domBank (w / 32768)) (s.setBlk { s.blk with hx := some ⟨false, a, 0⟩ })))

/-! ## Cores -/

/-- R52, R53: a multiply writes PHI and PLO with the exact 128-bit product; a divide writes QUO and REM, truncating toward
zero, and by zero QUO takes all ones, REM the dividend, and IDZ is set. R49: the oldest pending near load of the executing
context lands in its cell. R54, R55, R75: a bundle of one X syllable starts the unit with T and N, or waits while it is busy; pushes PHI, PLO,
QUO or REM; or replaces its operands by the floating-point result and sets the sticky flags. R47, R49, R50, R58, R78: a bundle of one near load
or store of any size and form at an aligned scratchpad address that the context may reach pushes a pending value, or writes the low bytes of its
operand; the post-increment form adds the size to An; STC with no reservation open pushes 0 and stores nothing; FENCE does nothing more.
Completion of: `multiplyComplete`, `divideComplete`, `nearLoadLanding`, `bundleIssue`. -/
def Obligations.UnitsAndNearLoadsComplete : Prop :=
  (∀ (s : State) (n : Fin 16) (m : MulDiv), (s.dbgcOf n).fbusy = false →
     let k := s.core n
     let c := k.ctx m.ctx
     (k.mul = some m → ∃ hi lo, exec (.multiplyComplete n) s =
         .next (s.setCore n { k.setCtx m.ctx { c with phi := hi, plo := lo } with mul := none })
       ∧ hi ++ lo = (if m.signed then m.n.signExtend 128 * m.t.signExtend 128 else m.n.zeroExtend 128 * m.t.zeroExtend 128))
     ∧ (k.div = some m → ∃ q r f, exec (.divideComplete n) s =
         .next (s.setCore n { k.setCtx m.ctx { c with quo := q, rem := r, flags := f } with div := none })
       ∧ (m.t = 0 → q = BitVec.allOnes 64 ∧ r = m.n ∧ f = setBit c.flags 9 true)
       ∧ (m.t ≠ 0 → f = c.flags ∧ (m.signed = false → q = m.n / m.t ∧ r = m.n % m.t)
           ∧ (m.signed = true → q = m.n.sdiv m.t ∧ r = m.n.srem m.t))))
  ∧ (∀ (s : State) (n : Fin 16) (x : Nat) (m : Mark) (rest : List Mark), (s.dbgcOf n).fbusy = false →
       (s.core n).cur = some x → (s.ctx n x).marks = m :: rest →
       exec (.nearLoadLanding n) s = .next (s.setCtx n x
         { s.ctx n x with cells := tset zeroD (m.cell % 32) m.data (s.ctx n x).cells,
                          marks := (m :: rest).filter fun k => decide (k ≠ m) }))
  ∧ (∀ (s u : State) (n : Fin 16) (x : Nat),
      let k := s.core n
      let c := s.ctx n x
      let p := fun (i : Nat) => c.cell (c.depth.toNat - 1 - i)
      let rm := fld c.flags 8 7
      let a := (p 2).toNat
      let b := (p 1).toNat
      let z := (p 0).toNat
      (∀ o, o < 4 → Issues s u n x (oneSyllable (0x1000 + o) []) → c.fits 2 0 →
        let m : MulDiv := { signed := decide (o % 2 = 0), n := p 1, t := p 0, ctx := x }
        (o < 2 → (k.mul = none → ∃ t, exec (.bundleIssue n) s = .next t ∧ BundleEnded u t n x { k.settled with mul := some m } (c.moved 2 2 []))
          ∧ (k.mul ≠ none → exec (.bundleIssue n) s = .next u))
        ∧ (2 ≤ o → (k.div = none → ∃ t, exec (.bundleIssue n) s = .next t ∧ BundleEnded u t n x { k.settled with div := some m } (c.moved 2 2 []))
          ∧ (k.div ≠ none → exec (.bundleIssue n) s = .next u)))
      ∧ (∀ m ∈ [(4, c.phi), (5, c.plo), (6, c.quo), (7, c.rem)], Issues s u n x (oneSyllable (0x1000 + m.1) []) → c.fits 0 1 →
        ∃ t, exec (.bundleIssue n) s = .next t ∧ BundleEnded u t n x k.settled (c.moved 2 0 [m.2]))
      ∧ (Issues s u n x (oneSyllable 0x1008 []) →
        ∃ t, exec (.bundleIssue n) s = .next t ∧ BundleEnded u t n x { k.settled with mwait := true } (c.moved 2 0 []))
      ∧ (∀ m ∈ [(0x010, 2, f64.add rm false b z), (0x011, 2, f64.add rm true b z), (0x012, 2, f64.mul rm b z), (0x013, 3, f64.fma rm false false a b z),
          (0x014, 1, f64.sqrt rm z)], Issues s u n x (oneSyllable (0x1000 + m.1) []) → c.fits m.2.1 1 →
        ∃ t, exec (.bundleIssue n) s = .next t ∧ BundleEnded u t n x k.settled
          { c.moved 2 m.2.1 [BitVec.ofNat 64 m.2.2.1] with flags := orSticky c.flags m.2.2.2 })
      ∧ (∀ i, i < 4 → Issues s u n x (oneSyllable (0x1100 + i) []) → c.fits 2 1 →
        ∃ t, exec (.bundleIssue n) s = .next t ∧ BundleEnded u t n x k.settled
          { c.moved 2 2 [b2w (f64.cmp i b z).1] with flags := orSticky c.flags (f64.cmp i b z).2 })
      ∧ (∀ i, i < 6 → Issues s u n x (oneSyllable (0x1200 + i) []) → c.fits 1 1 →
        ∃ t, exec (.bundleIssue n) s = .next t ∧ BundleEnded u t n x k.settled
          { c.moved 2 1 [(fcvt rm i (p 0)).1] with flags := orSticky c.flags (fcvt rm i (p 0)).2 }))
  ∧ (∀ (s u : State) (n : Fin 16) (x z i v w : Nat) (es : List Nat), z < 4 → i < 8 → v < 16 → es.length ≤ 3 → (∀ e ∈ es, e < 4096) →
      let k := (s.core n).settled
      let c := s.ctx n x
      let p := fun (i : Nat) => c.cell (c.depth.toNat - 1 - i)
      let sz := 2 ^ z
      let r := c.getA i
      let up := tset zeroD i (r + BitVec.ofNat 64 sz) c.a
      let open_ := fun (a : Nat) => a < 0x1000000 ∧ a % sz = 0 ∧ spIndex u a = some w ∧ spOk u w (c.level, c.tag) = true
        ∧ bankOpen u (w / 32768) (coreOwns u n (w / 32768)) = true
      let seen := addDemand (domBank (w / 32768)) u
      (∀ m ∈ [(0x2000 + 128 * z, ([] : List Nat), 1, p 0, c.a), (0x2400 + 128 * z + 16 * i, [], 0, r, up),
          (0x2800 + 128 * z + 16 * i + v, es, 0, r + BitVec.ofNat 64 sz * wideImm 4 v es, c.a)],
        let a := m.2.2.2.1.toNat
        Issues s u n x (oneSyllable m.1 m.2.1) → c.fits m.2.2.1 1 → open_ a → (spPeek u w).2 = .good →
        ∃ t, exec (.bundleIssue n) s = .next t ∧ BundleEnded seen t n x k { c.moved (bytesOf m.2.1) m.2.2.1 [] with
          depth := c.depth - BitVec.ofNat 16 m.2.2.1 + 1, a := m.2.2.2.2,
          marks := [⟨c.depth.toNat - m.2.2.1, BitVec.ofNat 64 ((spPeek u w).1.toNat / 2 ^ (8 * (a % 8)) % 2 ^ (8 * sz)), false⟩] })
      ∧ (∀ m ∈ [(0x2200 + 128 * z, ([] : List Nat), 2, p 0, p 1, c.a), (0x2600 + 128 * z + 16 * i, [], 1, r, p 0, up),
          (0x2A00 + 128 * z + 16 * i + v, es, 1, r + BitVec.ofNat 64 sz * wideImm 4 v es, p 0, c.a)],
        let a := m.2.2.2.1.toNat
        Issues s u n x (oneSyllable m.1 m.2.1) → c.fits m.2.2.1 0 → open_ a →
        ∃ t, exec (.bundleIssue n) s = .next t
          ∧ BundleEnded (spWriteBreak seen w (m.2.2.2.2.1 <<< (8 * (a % 8))) ((2 ^ sz - 1) * 2 ^ (a % 8)) (some n.val)) t n x k
              { c.moved (bytesOf m.2.1) m.2.2.1 [] with a := m.2.2.2.2.2 })
      ∧ (z = 3 → (∀ m ∈ [(0x2C00, 2, p 0), (0x2C80 + 16 * i, 1, r)],
        Issues s u n x (oneSyllable m.1 []) → c.fits m.2.1 1 → open_ m.2.2.toNat →
        ∃ t, exec (.bundleIssue n) s = .next t ∧ BundleEnded seen t n x k (c.moved 2 m.2.1 [0])))
      ∧ (Issues s u n x (oneSyllable 0x2F00 []) → ∃ t, exec (.bundleIssue n) s = .next t ∧ BundleEnded u t n x k (c.moved 2 0 [])))

/-- R39, R40, R73: a bundle that holds one binary S syllable (0x400 to 0x40D) pops T and N, pushes the result and writes C and V as the
table says; the PC moves on by two bytes. Nothing else changes.
Completion of: `bundleIssue`. -/
def Obligations.BinaryStackBundleIssues : Prop :=
  ∀ (s u : State) (n : Fin 16) (x o : Nat),
    let k := s.core n
    let c := k.ctx x
    let p := c.depth.toNat
    s.formed = true → tabWf ctxInit 0 k.ctxs = true →
    feedRuns s n = false → bundleReady s n = true → k.cur = some x → k.lock = none → s.blk.testen = false →
    (s.dbgcOf n).cmps = [] → (s.dbgcOf n).stepping = false → c.restored = false → c.marks = [] → bit c.flags 12 = false →
    c.consistent = true → k.want = 0 → c.spilled + 2 ≤ p →
    0x400 ≤ o → o ≤ 0x40D → fetchBundle n (c.level, c.tag) 9 c.pc.toNat s = (u, .ok [0x8000 + o]) →
    { u with doms := s.doms, banks := s.banks } = s →
    let top := c.cell (p - 1)
    let nxt := c.cell (p - 2)
    let res := if o < 0x404 then (sArith o c.flags nxt top).1 else sBinary o nxt top
    let fl := if o < 0x404 then setCV c.flags (sArith o c.flags nxt top).2.1 (sArith o c.flags nxt top).2.2 else c.flags
    ∃ t, exec (.bundleIssue n) s = .next t ∧ { t with cores := s.cores, dbgc := s.dbgc } = u
      ∧ (∀ j, j ≠ n.val → t.core j = s.core j) ∧ (∀ y, y ≠ x → t.ctx n y = s.ctx n y)
      ∧ { t.core n with ctxs := k.ctxs } = { k with twait := none, waitX := false, mwait := false }
      ∧ (∀ j, { t.dbgcOf j with skipBrk := (s.dbgcOf j).skipBrk } = s.dbgcOf j)
      ∧ t.ctx n x = { c with depth := c.depth - 1, cells := tset zeroD ((p - 2) % 32) res c.cells, flags := fl, pc := c.pc + 2 }

/-- R39, R44, R69, R72, R73: a bundle of one S syllable, its operand cells resident and its results with room, does what the table says and
nothing else: NOP, DUP, DROP, SWAP, OVER, ROT, NIP, SEL, LIT8, LITX, PICK, NOT, NEG with C and V, CLZ, POPC, TOA, FROMA and INCA with their
EXT syllables (0x400 to 0x40D: `BinaryStackBundleIssues`); a PICK over 32 resident cells spills the deepest one (R45). R71, R81, R82: BR, BZ, BNZ and LOOP jump to the bundle's address plus twice the
displacement, or go on. R90 to R92: CALL and CALLI push a frame with the return address, the mask and the masked A registers; RET pops one and
restores them. Completion of: `bundleIssue`. -/
def Obligations.StackAndControlSyllablesAct : Prop :=
  ∀ (s u : State) (n : Fin 16) (x : Nat),
    let k := (s.core n).settled
    let c := s.ctx n x
    let p := fun (i : Nat) => c.cell (c.depth.toNat - 1 - i)
    (∀ m ∈ ([(0x000, 0, []), (0x001, 1, [p 0, p 0]), (0x002, 1, []), (0x003, 2, [p 0, p 1]), (0x004, 2, [p 1, p 0, p 1]),
          (0x005, 3, [p 0, p 2, p 1]), (0x006, 2, [p 0]), (0x007, 3, [if p 0 ≠ 0 then p 2 else p 1]), (0x500, 1, [~~~p 0])] : List (Nat × Nat × List Word)),
      Issues s u n x (oneSyllable m.1 []) → c.fits m.2.1 m.2.2.length →
      ∃ t, exec (.bundleIssue n) s = .next t ∧ BundleEnded u t n x k (c.moved 2 m.2.1 m.2.2))
    ∧ (∀ v, v < 256 → Issues s u n x (oneSyllable (0x100 + v) []) → c.fits 0 1 →
      ∃ t, exec (.bundleIssue n) s = .next t ∧ BundleEnded u t n x k (c.moved 2 0 [(BitVec.ofNat 8 v).signExtend 64]))
    ∧ (∀ i, i < 32 → Issues s u n x (oneSyllable (0x300 + i) []) → c.fits (i + 1) (i + 2) →
      ∃ t, exec (.bundleIssue n) s = .next t ∧ BundleEnded u t n x k (c.moved 2 0 [p i]))
    ∧ (∀ i w, i < 32 → Issues s u n x (oneSyllable (0x300 + i) []) → c.spilled + i + 1 ≤ c.depth.toNat → c.depth.toNat + 1 ≤ c.capacity →
      c.depth.toNat = c.spilled + 32 → c.osp.toNat + 8 ≤ c.oslimit.toNat → spIndex u c.osp.toNat = some w → spOk u w (c.level, c.tag) = true →
      coreOwns u n (w / 32768) = true → bankOpen u (w / 32768) true = true →
      ∃ t, exec (.bundleIssue n) s = .next t
        ∧ BundleEnded (spWriteBreak (addDemand (domBank (w / 32768)) u) w (c.cell c.spilled) 255 (some n.val)) t n x k
            { c.moved 2 0 [p i] with osp := c.osp + 8 })
    ∧ (Issues s u n x (oneSyllable 0x501 []) → c.fits 1 1 →
      ∃ t, exec (.bundleIssue n) s = .next t
        ∧ BundleEnded u t n x k { c.moved 2 1 [0 - p 0] with flags := setCV c.flags (decide (p 0 ≠ 0)) (decide (p 0 = 0x8000000000000000)) })
    ∧ (Issues s u n x (oneSyllable 0x502 []) → c.fits 1 1 →
      ∃ t z, exec (.bundleIssue n) s = .next t ∧ BundleEnded u t n x k (c.moved 2 1 [BitVec.ofNat 64 z])
        ∧ z ≤ 64 ∧ (∀ i, i < z → (p 0).getMsbD i = false) ∧ (z < 64 → (p 0).getMsbD z = true))
    ∧ (Issues s u n x (oneSyllable 0x503 []) → c.fits 1 1 →
      ∃ t, exec (.bundleIssue n) s = .next t
        ∧ BundleEnded u t n x k (c.moved 2 1 [BitVec.ofNat 64 ((List.range 64).filter (p 0).getLsbD).length]))
    ∧ (∀ i, i < 8 →
      (Issues s u n x (oneSyllable (0x600 + i) []) → c.fits 1 0 →
        ∃ t, exec (.bundleIssue n) s = .next t ∧ BundleEnded u t n x k { c.moved 2 1 [] with a := tset zeroD i (p 0) c.a })
      ∧ (Issues s u n x (oneSyllable (0x700 + i) []) → c.fits 0 1 →
        ∃ t, exec (.bundleIssue n) s = .next t ∧ BundleEnded u t n x k (c.moved 2 0 [c.getA i])))
    ∧ (∀ es : List Nat, es.length ≤ 3 → (∀ e ∈ es, e < 4096) →
      let l := bytesOf es
      let past := c.pc + BitVec.ofNat 48 l
      (∀ v, v < 256 →
        (es ≠ [] → Issues s u n x (oneSyllable (0x200 + v) es) → c.fits 0 1 →
          ∃ t, exec (.bundleIssue n) s = .next t ∧ BundleEnded u t n x k (c.moved l 0 [wideImm 8 v es]))
        ∧ (∀ i, i < 8 → Issues s u n x (oneSyllable (0x800 + 256 * i + v) es) →
          ∃ t, exec (.bundleIssue n) s = .next t
            ∧ BundleEnded u t n x k { c.moved l 0 [] with a := tset zeroD i (c.getA i + wideImm 8 v es) c.a }))
      ∧ (∀ v, v < 512 →
        let tgt := c.pc + 2 * (wideImm 9 v es).setWidth 48
        (Issues s u n x (oneSyllable (0x3000 + v) es) →
          ∃ t, exec (.bundleIssue n) s = .next t ∧ BundleEnded u t n x k { c with pc := tgt })
        ∧ (Issues s u n x (oneSyllable (0x3200 + v) es) → c.fits 1 0 →
          ∃ t, exec (.bundleIssue n) s = .next t ∧ BundleEnded u t n x k { c.moved l 1 [] with pc := if p 0 = 0 then tgt else past })
        ∧ (Issues s u n x (oneSyllable (0x3400 + v) es) → c.fits 1 0 →
          ∃ t, exec (.bundleIssue n) s = .next t ∧ BundleEnded u t n x k { c.moved l 1 [] with pc := if p 0 ≠ 0 then tgt else past })
        ∧ (Issues s u n x (oneSyllable (0x3600 + v) es) →
          ∃ t, exec (.bundleIssue n) s = .next t ∧ BundleEnded u t n x k
            (if c.lc = 0 then { c with pc := past } else { c with lc := c.lc - 1, pc := if c.lc = 1 then past else tgt }))
        ∧ (∀ mask, mask < 256 → es.length ≤ 2 → Issues s u n x (oneSyllable (0x3800 + v) (mask :: es)) →
          c.rsdepth.toNat < 64 → (60 ≤ c.rsdepth.toNat → c.guard = true) →
          tabWf zeroD 0 (tget frameInit c.frames c.rsdepth.toNat).slots = true →
          ∃ t f, exec (.bundleIssue n) s = .next t
            ∧ f.hdr = BitVec.ofNat 64 ((c.pc + BitVec.ofNat 48 (l + 2)).toNat + mask * 2 ^ 48)
            ∧ (∀ i, i < 8 → mask.testBit i = true → tget zeroD f.slots i = c.getA i)
            ∧ BundleEnded u t n x k { c with frames := tset frameInit c.rsdepth.toNat f c.frames, rsdepth := c.rsdepth + 1, pc := tgt })))
    ∧ (∀ mask, mask < 256 → Issues s u n x (oneSyllable 0x3E00 [mask]) → c.fits 1 0 → (p 0).getLsbD 0 = false → (p 0).toNat < 2 ^ 48 →
      c.rsdepth.toNat < 64 → (60 ≤ c.rsdepth.toNat → c.guard = true) →
      tabWf zeroD 0 (tget frameInit c.frames c.rsdepth.toNat).slots = true →
      ∃ t f, exec (.bundleIssue n) s = .next t
        ∧ f.hdr = BitVec.ofNat 64 ((c.pc + 4).toNat + mask * 2 ^ 48)
        ∧ (∀ i, i < 8 → mask.testBit i = true → tget zeroD f.slots i = c.getA i)
        ∧ BundleEnded u t n x k { c.moved 4 1 [] with
            frames := tset frameInit c.rsdepth.toNat f c.frames, rsdepth := c.rsdepth + 1, pc := (p 0).setWidth 48 })
    ∧ (let f := tget frameInit c.frames (c.rsdepth.toNat - 1)
       Issues s u n x (oneSyllable 0x3E40 []) → c.rsdepth ≠ 0 → fld f.hdr 57 56 = 0 → f.hdr.getLsbD 0 = false → tabWf zeroD 0 c.a = true →
       ∃ t a, exec (.bundleIssue n) s = .next t
         ∧ (∀ i, tget zeroD a i = if i < 8 ∧ f.hdr.getLsbD (48 + i) = true then tget zeroD f.slots i else c.getA i)
         ∧ BundleEnded u t n x k { c with
             a := a, rsdepth := c.rsdepth - 1, guard := c.guard && decide (60 < c.rsdepth.toNat - 1), pc := f.hdr.setWidth 48 })

/-- R95, R96: an entry that is due at an allowed boundary gives the target context an emptied stack and one IRQ frame that names the
interrupted context, IE = 0, RPT = 0, LMACT = 0, RSV = 0 and the vector of its class; the target executes and NEST grows. R60, R61, R93: a
bundle that faults (TRAP, an illegal syllable, a missing EXT, stack underflow and overflow, RET or RETI of an empty return stack, a misaligned or
unmapped load) has no effect of its own: FCAUSE, FADDR and FPC are written, a FAULT frame with FPC, FLAGS and RC is pushed, IE, RPT, LMACT, LMPROG
and RC clear, and the PC is FVBASE + 0x20 × code; at RSDEPTH 64 the context ends with code 0x05 (R92). R91, R94, R96: RETI of a FAULT frame resumes at
its address with IE, RPT, LMACT, LMPROG and RC of the frame; of an IRQ frame it makes the context READY and the named one, if in RUN, executes.
Completion of: `interruptEntry`, `bundleIssue`. -/
def Obligations.InterruptEntryEntersTarget : Prop :=
  (∀ (s : State) (n : Fin 16) (fast : Bool) (t : Nat), entryTarget s n fast = some t → boundaryFree s n = true →
    entryDue s n fast = true → (fast = true ∨ entryDue s n true = false) →
    let k := s.core n
    let c := k.ctx t
    let d : Ctx := { c with state := 2, rsdepth := 1, guard := false, depth := 0, osp := c.osbase, marks := [], rc := 0, rep1 := false,
                            flags := setBit (setBit (setBit (setBit c.flags 31 false) 12 false) 14 false) 13 false,
                            pc := if fast then k.ivbase + 0x20 else k.ivbase,
                            frames := tset frameInit 0 { hdr := BitVec.ofNat 64 (k.cur.getD 0x7F + 2 ^ 57) } c.frames }
    exec (.interruptEntry n fast) s = .next (s.setCore n
      { k.setCtx t d with cur := some t, nest := k.nest + 1, twait := none, waitX := false, want := 0, mwait := false }))
  ∧ (∀ (s u : State) (n : Fin 16) (x : Nat),
      let k := s.core n
      let c := s.ctx n x
      let d := c.rsdepth.toNat
      let top := c.cell (c.depth.toNat - 1)
      let fl := setBit (setBit (setBit c.flags 10 false) 11 false) 13 false
      let faults := fun (code : BitVec 8) (addr : Word) => k.mul = none → k.div = none →
        (d < 64 → ∃ t f, exec (.bundleIssue n) s = .next t
          ∧ f.hdr = BitVec.ofNat 64 (c.pc.toNat + 2 ^ 56) ∧ tget zeroD f.slots 0 = fl ∧ tget zeroD f.slots 1 = c.rc.setWidth 64
          ∧ BundleEnded u t n x k.settled { c with
              flags := setFld (setBit (setBit (setBit fl 31 false) 12 false) 14 false) 21 16 0, fcause := code, faddr := addr, fpc := c.pc, rc := 0,
              frames := tset frameInit d f c.frames, rsdepth := c.rsdepth + 1, guard := decide (60 < d + 1),
              pc := k.fvbase + 0x20 * code.setWidth 48 })
        ∧ (64 ≤ d → ∃ t, exec (.bundleIssue n) s = .next t
          ∧ BundleEnded u t n x { k.settled with saving := some x } { c with flags := fl, fcause := 0x05, faddr := 0, fpc := c.pc })
      (∀ j, j < 256 → Issues s u n x (oneSyllable (0x3F00 + j) []) → faults 0x0D (BitVec.ofNat 64 j))
      ∧ (∀ j, j < 4096 → Issues s u n x (oneSyllable (0x7000 + j) []) → faults 0x01 (c.pc.setWidth 64))
      ∧ (∀ j, j < 256 → Issues s u n x (oneSyllable (0x0200 + j) []) → faults 0x02 (c.pc.setWidth 64))
      ∧ (Issues s u n x (oneSyllable 0x0002 []) → c.depth = 0 → faults 0x04 0)
      ∧ (Issues s u n x (oneSyllable 0x0100 []) → c.capacity < c.depth.toNat + 1 → faults 0x03 (c.osp.setWidth 64))
      ∧ (∀ w ∈ [0x3E40, 0x3E80], Issues s u n x (oneSyllable w []) → c.rsdepth = 0 → faults 0x01 (c.pc.setWidth 64))
      ∧ (Issues s u n x (oneSyllable 0x2180 []) → c.fits 1 1 → 0x20010000 ≤ top.toNat → top.toNat < 0x8000000000 →
          faults (if top.toNat % 8 = 0 then 0x07 else 0x06) top)
      ∧ (∀ w, Issues s u n x (oneSyllable 0x2180 []) → c.fits 1 1 → spIndex u top.toNat = some w → spOk u w (c.level, c.tag) = true →
          top.toNat % 8 ≠ 0 → faults 0x06 top)
      ∧ (let f := tget frameInit c.frames (d - 1)
         let c' : Ctx := { c with rsdepth := c.rsdepth - 1, guard := c.guard && decide (60 < d - 1) }
         let back := 0x803F5000
         Issues s u n x (oneSyllable 0x3E80 []) → c.rsdepth ≠ 0 →
         (fld f.hdr 57 56 = 1 → f.hdr.getLsbD 0 = false → ∃ t, exec (.bundleIssue n) s = .next t
           ∧ BundleEnded u t n x k.settled { c' with
               flags := (c.flags &&& ~~~back) ||| (tget zeroD f.slots 0 &&& back), rc := (tget zeroD f.slots 1).setWidth 32, pc := f.hdr.setWidth 48 })
         ∧ (fld f.hdr 57 56 = 2 → ∃ t, exec (.bundleIssue n) s = .next t
           ∧ BundleEnded u t n x { k.settled with
               cur := if ctxExists n (fld f.hdr 6 0) = true ∧ (s.ctx n (fld f.hdr 6 0)).state = 2 then some (fld f.hdr 6 0) else none, nest := k.nest - 1 }
               { c' with state := 1, pc := c.pc + 2 })))

/-- R98: on an idle core in SCHED mode with no task set in WAIT, the scheduler runs, of the highest priority that has a READY task set,
the lowest above the last one switched out, else the lowest. R99: a live SWMODE takes effect at an allowed boundary outside interrupt
handlers: 1 for the scheduler, 0 with task set 0, if it is READY, RUN or WAIT, as the background context.
Completion of: `taskSwitch`, `swmodeChange`. -/
def Obligations.SchedulerPicksTask : Prop :=
  ∀ (s : State) (n : Fin 16),
    (∀ x p, s.formed = true → tabWf ctxInit 0 (s.core n).ctxs = true → boundaryFree s n = true → (s.core n).mode = 1 → (s.core n).cur = none →
      (∀ t, t < 64 → (s.ctx n t).state ≠ 3) → p < 4 → (∀ q, p < q → q < 4 → readyAt s n q = []) →
      x ∈ readyAt s n p →
      (∀ y ∈ readyAt s n p, (tget lastInit (s.core n).last p < x → tget lastInit (s.core n).last p < y → x ≤ y)
        ∧ (x ≤ tget lastInit (s.core n).last p → y ≤ tget lastInit (s.core n).last p ∧ x ≤ y)) →
      exec (.taskSwitch n) s = .next (s.setCore n { (s.core n).setCtx x { s.ctx n x with state := 2 } with cur := some x }))
    ∧ (fld (s.core n).cfgLive 1 0 = 1 → (s.core n).mode ≠ 1 → boundaryOk s n = true → (s.core n).nest = 0 → (s.dbgcOf n).halted = false →
      s.cullet.frozen = false → exec (.swmodeChange n) s = .next (s.setCore n { s.core n with mode := 1 }))
    ∧ (fld (s.core n).cfgLive 1 0 = 0 → s.formed = true → tabWf ctxInit 0 (s.core n).ctxs = true → (s.core n).mode = 1 →
      boundaryOk s n = true → (s.core n).nest = 0 → (s.dbgcOf n).halted = false → s.cullet.frozen = false →
      ∃ t, exec (.swmodeChange n) s = .next t ∧ { t with cores := s.cores } = s ∧ (∀ j, j ≠ n.val → t.core j = s.core j)
        ∧ (t.core n).mode = 0
        ∧ ((s.ctx n 0).state ∈ [1, 2, 3] → (t.core n).cur = some 0 ∧ (t.ctx n 0).state = 2)
        ∧ ((s.ctx n 0).state ∉ [1, 2, 3] → (t.core n).cur = none ∧ t.ctx n 0 = s.ctx n 0))

/-- R45: the spill engine moves one cell: the deepest resident cell to OSP when more than 24 are resident, or the word below OSP back
when fewer than 8 are. The move is a demand on its bank (R294).
Completion of: `spillEngineMove`. -/
def Obligations.SpillEngineMovesOneCell : Prop :=
  ∀ (s : State) (n : Fin 16) (x w : Nat),
    let c := s.ctx n x
    let u := addDemand (domBank (w / 32768)) s
    spillCtx s n = some x → c.consistent = true → (s.core n).want = 0 → bankOpen s (w / 32768) true = true →
    (24 < c.resident → maySpill c = true → spillWord s n (c.level, c.tag) c.osp.toNat = some w →
      exec (.spillEngineMove n) s = .next ((spWriteBreak u w (c.cell c.spilled) 255 (some n.val)).setCtx n x { c with osp := c.osp + 8 }))
    ∧ (c.resident < 8 → 0 < c.spilled → spillWord s n (c.level, c.tag) (c.osp.toNat - 8) = some w → (spPeek s w).2 = .good →
      exec (.spillEngineMove n) s = .next (u.setCtx n x
        { c with osp := c.osp - 8, cells := tset zeroD ((c.spilled - 1) % 32) (spPeek s w).1 c.cells }))

/-- R105: MBOX posts an EVT bit below 28 to a context that exists, and makes a demand on the core's domains. R100: an ended context
without a save area is saved nowhere: it goes to state 4, TEND and SAVEFAIL are set, and the event is logged. With a save area the core may write,
its words hold the context as R100 lays it out, no word outside the area changes, and SAVEFAIL stays. R42, R101: CSRR pushes its CSR, and of EVT clears
it; CSRW writes LC, the RW fields of FLAGS, an aligned OSBASE (with OSP) or OSLIMIT at an empty spill region, and BANKWIN. R102: BANKR pushes a
register of the context that BANKWIN names, and BANKW writes it, above JOB level, of another context no more privileged. Completion of: `mbox`,
`contextSaveComplete`, `bundleIssue`. -/
def Obligations.MailboxAndContextEnd : Prop :=
  ∀ (s : State) (n : Fin 16),
    (∀ (m : Master) (v : Reg), m.reaches s (pgCore n) 0x418 = true → pageAsleep s (.core n) = false → s.sec.moving = false →
      ctxExists n (fld v 6 0) = true → fld v 12 8 < 28 →
      exec (.mbox m n v) s = .next (m.told s (pgCore n * 0x1000 + 0x418) true 0
        (demandCore n (s.setCtx n (fld v 6 0) { s.ctx n (fld v 6 0) with evt := setBit (s.ctx n (fld v 6 0)).evt (fld v 12 8) true }))))
    ∧ (∀ x, s.formed = true → (s.core n).saving = some x → (s.ctx n x).savea = 0 →
      ∃ t, exec (.contextSaveComplete n) s = .next (postEnded n x (logEv 0x15 1 (pgCore n) (x + n.val * 2 ^ 8) t))
        ∧ (let k := s.core n
           t = s.setCore n (t.core n)
           ∧ t.core n = { k.setCtx x { k.ctx x with state := 4 } with
               saving := none, tend := true, savefail := true, nest := (if entryCtx k x then k.nest - 1 else k.nest), cur := afterEnd k x }))
    ∧ (∀ x w, s.formed = true → (s.core n).saving = some x → (s.ctx n x).savea ≠ 0 → (s.ctx n x).savea.toNat % 8192 = 0 →
      spIndex s (s.ctx n x).savea.toNat = some w → coreOwns s n (w / 32768) = true → bankOpen s (w / 32768) true = true →
      (s.ctx n x).rsdepth.toNat ≤ 64 →
      let k := s.core n
      let c := k.ctx x
      let z := fun {m : Nat} (v : BitVec m) => v.setWidth 64
      let head : List Word := [z c.pc, c.getA 0, c.getA 1, c.getA 2, c.getA 3, c.getA 4, c.getA 5, c.getA 6, c.getA 7, c.lc, z c.rc, c.phi, c.plo, c.quo,
        c.rem, flagsOf k x, z c.osbase, z c.oslimit, z c.osp, z c.depth, z c.level + 256 * z c.tag, z c.fcause, c.faddr, z c.fpc, z c.rsdepth,
        0, 0, 0, 0, 0, 0, 0]
      ∃ t, exec (.contextSaveComplete n) s = .next (postEnded n x (logEv 0x15 1 (pgCore n) (x + n.val * 2 ^ 8) t))
        ∧ { t with mem := s.mem, synd := s.synd, cores := s.cores, doms := s.doms, fresh := s.fresh } = s
        ∧ t.core n = { k.setCtx x { c with state := 4 } with
             saving := none, tend := true, nest := (if entryCtx k x then k.nest - 1 else k.nest), cur := afterEnd k x }
        ∧ (∀ i, i < 32 → spPeek t (w + i) = (head.getD i 0, .good))
        ∧ (∀ i, i < min 32 c.resident → spPeek t (w + 32 + i) = (c.cell (c.depth.toNat - 1 - i), .good))
        ∧ (∀ f, f < c.rsdepth.toNat → spPeek t (w + 64 + f) = ((tget frameInit c.frames f).hdr, .good)
            ∧ ∀ i, i < 8 → slotNamed (tget frameInit c.frames f) i = true →
                spPeek t (w + 128 + 8 * f + i) = (tget zeroD (tget frameInit c.frames f).slots i, .good))
        ∧ (∀ y, y < w ∨ w + 1024 ≤ y → spPeek t y = spPeek s y))
    ∧ (∀ u x, let k := (s.core n).settled
      let c := s.ctx n x
      let p := c.cell (c.depth.toNat - 1)
      let z := fun {m : Nat} (v : BitVec m) => v.setWidth 64
      let rw := 0x800003FF
      let o := s.ctx n k.bankwin.toNat
      (∀ m ∈ [(0x00, c.lc), (0x01, z c.rc), (0x02, c.phi), (0x03, c.plo), (0x04, c.quo), (0x05, c.rem), (0x07, z c.osbase), (0x08, z c.oslimit),
          (0x09, z c.osp), (0x0A, z c.depth), (0x0B, z c.pc), (0x0C, z c.fcause), (0x0D, c.faddr), (0x0E, z c.fpc), (0x0F, BitVec.ofNat 64 s.bclk),
          (0x10, s.mt.mtime), (0x12, z c.level + 256 * z c.tag), (0x20, z c.rsdepth), (0x21, if c.guard then 1 else 0), (0x23, z k.bankwin),
          (0x24, BitVec.ofNat 64 x)],
        Issues s u n x (oneSyllable (0x3A00 + m.1) []) → c.fits 0 1 →
        ∃ t, exec (.bundleIssue n) s = .next t ∧ BundleEnded u t n x k (c.moved 2 0 [m.2]))
      ∧ (Issues s u n x (oneSyllable 0x3A25 []) → c.fits 0 1 →
        ∃ t, exec (.bundleIssue n) s = .next t ∧ BundleEnded u t n x k { c.moved 2 0 [z c.evt] with evt := 0 })
      ∧ (Issues s u n x (oneSyllable 0x3B00 []) → c.fits 1 0 →
        ∃ t, exec (.bundleIssue n) s = .next t ∧ BundleEnded u t n x k { c.moved 2 1 [] with lc := p })
      ∧ (Issues s u n x (oneSyllable 0x3B06 []) → c.fits 1 0 →
        ∃ t, exec (.bundleIssue n) s = .next t
          ∧ BundleEnded u t n x k { c.moved 2 1 [] with flags := (c.flags &&& ~~~rw) ||| (p &&& rw) })
      ∧ (c.osp = c.osbase → c.level ≠ 2 → p.toNat % 8 = 0 → p.toNat ≤ 0x1000000 →
        (Issues s u n x (oneSyllable 0x3B07 []) → c.fits 1 0 → p.toNat ≤ c.oslimit.toNat →
          ∃ t, exec (.bundleIssue n) s = .next t ∧ BundleEnded u t n x k { c.moved 2 1 [] with osbase := p.setWidth 48, osp := p.setWidth 48 })
        ∧ (Issues s u n x (oneSyllable 0x3B08 []) → c.fits 1 0 → c.osbase.toNat ≤ p.toNat →
          ∃ t, exec (.bundleIssue n) s = .next t ∧ BundleEnded u t n x k { c.moved 2 1 [] with oslimit := p.setWidth 48 }))
      ∧ (Issues s u n x (oneSyllable 0x3B23 []) → c.fits 1 0 → c.level ≠ 2 → p.toNat < 128 → ctxExists n p.toNat = true →
        ∃ t, exec (.bundleIssue n) s = .next t ∧ BundleEnded u t n x { k with bankwin := p.setWidth 7 } (c.moved 2 1 []))
      ∧ (c.level ≠ 2 → k.bankwin.toNat ≠ x → c.level.toNat ≤ o.level.toNat →
        (∀ m ∈ [(0x00, z o.pc), (0x01, o.getA 0), (0x08, o.getA 7), (0x09, o.lc), (0x0A, z o.rc), (0x0B, o.phi), (0x0C, o.plo), (0x0D, o.quo),
            (0x0E, o.rem), (0x10, z o.osbase), (0x11, z o.oslimit), (0x12, z o.osp), (0x13, z o.depth), (0x14, z o.level + 256 * z o.tag),
            (0x15, z o.state + 16 * z o.prio), (0x16, z o.savea), (0x17, z o.rsdepth), (0x18, z o.rssel),
            (0x19, (tget frameInit o.frames o.rssel.toNat).hdr), (0x1A, z o.ossel), (0x1C, z o.fcause), (0x1D, o.faddr), (0x1E, z o.fpc),
            (0x1F, z o.evt), (0x20, o.waith), (0x28, tget zeroD (tget frameInit o.frames o.rssel.toNat).slots 0)],
          Issues s u n x (oneSyllable (0x3C00 + m.1) []) → c.fits 0 1 →
          ∃ t, exec (.bundleIssue n) s = .next t ∧ BundleEnded u t n x k (c.moved 2 0 [m.2]))
        ∧ (∀ m ∈ [(0x00, { o with pc := p.setWidth 48 &&& ~~~1 }), (0x01, { o with a := tset zeroD 0 p o.a }), (0x08, { o with a := tset zeroD 7 p o.a }),
            (0x09, { o with lc := p }), (0x0A, { o with rc := p.setWidth 32 }), (0x0B, { o with phi := p }), (0x0C, { o with plo := p }),
            (0x0D, { o with quo := p }), (0x0E, { o with rem := p }), (0x10, { o with osbase := p.setWidth 48, restored := true }),
            (0x13, { o with depth := p.setWidth 16, restored := true }), (0x16, { o with savea := p.setWidth 48 }), (0x1D, { o with faddr := p }),
            (0x1F, { o with evt := p.setWidth 32 &&& 0x6FFFFFFF }), (0x20, o)],
          Issues s u n x (oneSyllable (0x3D00 + m.1) []) → c.fits 1 0 →
          ∃ t, exec (.bundleIssue n) s = .next t
            ∧ BundleEnded (u.setCtx n k.bankwin.toNat m.2) t n x k (c.moved 2 1 []))))

/-- R51, R60, R233: a far access of a core to an alias window is one read-modify-write of its good word: the old value goes on to the rest
of the bundle, and the word takes the sum, the new value, the OR, or the AND with the complement. R46, R47: a bundle of one
64-bit load or store at an aligned alias address that the context may reach is sent as a far access, with nothing else changed. R80: LDM reads its
registers in ascending order and then its cells from ascending words, and STM stores them so, the deepest cell lowest; both clear LMACT and
LMPROG, with W = 1 An grows by 8 for each item, and nothing else changes. Completion of: `farAccessResponse`, `bundleIssue`. -/
def Obligations.AliasAccessIsOneReadModifyWrite : Prop :=
  (∀ (s : State) (n : Fin 16) (f : FarAcc) (w : Nat), (s.core n).far = some f → f.got = none →
    areaOf f.addr = .atomic → spIndex s (f.addr % 0x1000000) = some w → spOk s w ((s.ctx n f.ctx).level, (s.ctx n f.ctx).tag) = true →
    bankOpen s (w / 32768) false = true → (spPeek s w).2 = .good →
    let old := (spPeek s w).1
    let k := f.addr / 0x1000000
    let new := match f.store, k with
      | true, 1 => old + f.data
      | false, 1 => old + 1
      | true, 2 => f.data
      | false, 2 => 0
      | true, 3 => old ||| f.data
      | false, 3 => old ||| 1
      | true, _ => old &&& ~~~f.data
      | false, _ => old &&& ~~~1
    let t := spWriteBreak (addDemand (domBank (w / 32768)) s) w new 255 none
    exec (.farAccessResponse n) s = .next (if (t.core n).far.isSome then farRest n f old t else t))
  ∧ (∀ (s u : State) (n : Fin 16) (x w : Nat) (store : Bool),
      let c := s.ctx n x
      let a := (c.cell (c.depth.toNat - 1)).toNat
      let ws := oneSyllable (if store then 0x2380 else 0x2180) []
      Issues s u n x ws → c.fits (if store then 2 else 1) (if store then 0 else 1) → areaOf a = .atomic → a % 8 = 0 →
      spIndex u (a % 0x1000000) = some w → spOk u w (c.level, c.tag) = true →
      exec (.bundleIssue n) s = .next (u.setCore n { s.core n with
        far := some { addr := a, size := 8, store := store, data := if store then c.cell (c.depth.toNat - 2) else 0, fed := false,
                         ctx := x, ws := ws },
        twait := none, waitX := false }))
  ∧ (∀ (s u : State) (n : Fin 16) (x i m : Nat) (wb : Bool) (wd : Nat → Nat), i < 8 → m < 4096 → m ≠ 0 →
      let k := (s.core n).settled
      let c := s.ctx n x
      let d := c.depth.toNat
      let regs := (List.range 8).filter m.testBit
      let r := regs.length
      let cn := m / 256
      let a := c.getA i
      let fl := setFld (setBit c.flags 14 false) 21 16 0
      let op := 128 * wb.toNat + 16 * i
      bit c.flags 14 = false → a.toNat % 8 = 0 → tabWf zeroD 0 c.a = true → tabWf zeroD 0 c.cells = true →
      (∀ j, j < r + cn → spIndex u (a.toNat + 8 * j) = some (wd j) ∧ spOk u (wd j) (c.level, c.tag) = true
        ∧ bankOpen u (wd j / 32768) (coreOwns u n (wd j / 32768)) = true) →
      (m.testBit i = false → Issues s u n x (oneSyllable (0x2D00 + op) [m]) → c.fits 0 cn → (∀ j, j < r + cn → (spPeek u (wd j)).2 = .good) →
        ∃ t v c', exec (.bundleIssue n) s = .next t ∧ { v with doms := u.doms } = u ∧ BundleEnded v t n x k c'
          ∧ { c' with a := c.a, cells := c.cells } = { c with depth := c.depth + BitVec.ofNat 16 cn, pc := c.pc + 4, flags := fl }
          ∧ (∀ j, j < r → c'.getA (regs.getD j 0) = (spPeek u (wd j)).1)
          ∧ (∀ j, j ∉ regs → c'.getA j = if wb = true ∧ j = i then a + BitVec.ofNat 64 (8 * (r + cn)) else c.getA j)
          ∧ (∀ j, j < cn → c'.cell (d + j) = (spPeek u (wd (r + j))).1)
          ∧ (∀ j, j < d → d + cn ≤ j + 32 → c'.cell j = c.cell j))
      ∧ (Issues s u n x (oneSyllable (0x2E00 + op) [m]) → c.fits cn 0 → (∀ j l, j < r + cn → l < r + cn → wd j = wd l → j = l) →
        ∃ t, exec (.bundleIssue n) s = .next t
          ∧ { t with mem := u.mem, synd := u.synd, cores := u.cores, dbgc := u.dbgc, doms := u.doms } = u
          ∧ (∀ j, j ≠ n.val → (s.core j).lock = none → t.core j = s.core j)
          ∧ { t.core n with ctxs := k.ctxs } = k ∧ (∀ y, y ≠ x → t.ctx n y = s.ctx n y)
          ∧ t.ctx n x = { c.moved 4 cn [] with
              flags := fl, a := if wb then tset zeroD i (a + BitVec.ofNat 64 (8 * (r + cn))) c.a else c.a }
          ∧ (∀ j, j < r → spPeek t (wd j) = (c.getA (regs.getD j 0), .good))
          ∧ (∀ j, j < cn → spPeek t (wd (r + j)) = (c.cell (d - cn + j), .good))
          ∧ (∀ y, (∀ j, j < r + cn → y ≠ wd j) → spPeek t y = spPeek u y)))

/-! ## The debug port and halts -/

/-- R320 to R325: a command of the debug port for an aligned 64-bit word of scratchpad, which the level table allows and whose
bank serves it, reads or writes the word and ends with OK, its data and AINC, and the bank's domain keeps a vote; one that
names no access ends with ERROR, and one that the level table refuses with REFUSED, counted in PRIVCNT. R319, R321, R323: what
each instruction of the debug segment captures and updates.
Completion of: `blkid`, `connect`, `daddr`, `ddata`, `read`, `write`, `debugCommandComplete`, `bypass`, `testLogicReset`. -/
def Obligations.DebugSegmentAndCommands : Prop :=
  (∀ (s : State) (c : DbgCmd) (w : Nat), s.dbg.cmd = some c → s.dbg.orphan = false → s.dbg.asked = false →
     let v := c.daddr
     let wr := c.wr
     let done : Dbg := { s.dbg with cmd := none, defer := false, line := none, bad := false }
     let next := fun (k : Nat) => if bit v 42 ∧ s.dbg.daddr = v then setFld v 38 0 (fld v 38 0 + k) else s.dbg.daddr
     (daddrOk v = true → matrixRefuses s (dbgAccess c) = false → fld v 40 39 = 1 → bit v 41 = true → fld v 38 0 < 0x1000000 →
       spIndex s (fld v 38 0) = some w → spOk s w (masterLvl s .debug) = true → bankOpen s (w / 32768) false = true →
       (spPeek s w).2 = .good →
       let u := addDemand (domBank (w / 32768)) s
       let t := if wr then spWriteBreak u w c.data 255 none else u
       exec .debugCommandComplete s = .next ((keepVotes [domBank (w / 32768)] t).setDbg
         { done with result := 0, rdata := (if wr then s.dbg.rdata else (spPeek s w).1), daddr := next 8 }))
     ∧ (daddrOk v = false → exec .debugCommandComplete s =
       .next (s.setDbg { done with result := 1, rdata := (if wr then s.dbg.rdata else 0),
                                   daddr := next (if bit v 41 then 8 else 4) }))
     ∧ (daddrOk v = true → matrixRefuses s (dbgAccess c) = true → ∃ t, exec .debugCommandComplete s = .next t
       ∧ { t with dbg := s.dbg, sec := s.sec } = s ∧ t.sec = { s.sec with privcnt := satInc s.sec.privcnt }
       ∧ t.dbg.result = 2 ∧ t.dbg.cmd = none))
  ∧ (∀ s : State, s.blk.started = true →
       exec .blkid s = .next { s with dbg := { s.dbg with ir := 0x01, irOut := 0b000001, tdo := 0x5B0100A0 } }
       ∧ exec .bypass s = .next { s with dbg := { s.dbg with ir := 0x3F, irOut := 0b000001, tdo := 0 } }
       ∧ (∀ (code : BitVec 6) (v : Word), code = 0 ∨ 5 < code.toNat → (s.dbg.scan code v).ir = 0x3F)
       ∧ (∀ v, exec (.connect v) s = .next { s with dbg := { s.dbg with
           ir := 0x02, irOut := 0b000001, conn := s.dbg.conn || decide (v = 0xC3),
           tdo := (if s.dbg.conn then 1 else 0) + (if s.dbg.lost then 2 else 0) } })
       ∧ (∀ v, exec (.daddr v) s = .next { s with dbg := { s.dbg with ir := 0x03, irOut := 0b000001, tdo := s.dbg.daddr.setWidth 64, daddr := v } })
       ∧ (∀ v, exec (.ddata v) s = .next { s with dbg := { s.dbg with ir := 0x04, irOut := 0b000001, tdo := s.dbg.rdata, ddata := v } })
       ∧ (∃ t, exec .testLogicReset s = .next { s with dbg := t } ∧ t.ir = 0x3F ∧ t.conn = false
           ∧ t.lost = true ∧ t.orphan = s.dbg.cmd.isSome)
       ∧ (∀ wr : Bool, ∃ t, exec (if wr then .write else .read) s = .next { s with dbg := t } ∧ t.tdo = (dcmdStatus s).setWidth 64
           ∧ (s.dbg.cmd.isSome = true → t.result = 4 ∧ t.cmd = s.dbg.cmd)
           ∧ (s.dbg.cmd = none → s.dbg.conn = false → t.result = 3 ∧ t.cmd = none)
           ∧ (s.dbg.cmd = none → s.dbg.conn = true → t.result = 0 ∧ t.cmd = some ⟨wr, s.dbg.daddr, s.dbg.ddata⟩)))

/-- R327: a request on a core that is neither halted nor about to halt makes a halt pending with its cause; HALTALL asks each
core named. R329: CANCEL withdraws it. R327, R299: a halt that may take effect sets HALTED with its cause and context, clears
PEND, sets HALTEVT, breaks an open reservation, and the core's domains keep a vote.
Completion of: `halt`, `forcedHalt`, `haltall`, `haltTakesEffect`, `cancel`. -/
def Obligations.HaltsPendAndTakeEffect : Prop :=
  (∀ (s : State) (m : Master) (n : Fin 16), s.formed = true → ctxExists n (s.dbgcOf n).fctx.toNat = true →
     m.reaches s (pgDbgc n) 0x400 = true →
     let o := pgDbgc n * 0x1000 + 0x400
     let d := s.dbgcOf n
     ((d.halted = false → d.pend = none →
       (∃ t, exec (.halt m n) s = .next (m.told s o true 0 t) ∧ { t with dbgc := s.dbgc, doms := s.doms } = s
         ∧ (∀ j, j ≠ n.val → t.dbgcOf j = s.dbgcOf j) ∧ t.dbgcOf n = { d with pend := some 1, byDbg := decide (m = .debug) })
       ∧ (∃ t, exec (.forcedHalt m n) s = .next (m.told s o true 0 t) ∧ { t with dbgc := s.dbgc, doms := s.doms } = s
         ∧ (∀ j, j ≠ n.val → t.dbgcOf j = s.dbgcOf j) ∧ t.dbgcOf n = { d with pend := some 2, force := true, byDbg := decide (m = .debug) }))
     ∧ exec (.cancel m n) s = .next (m.told s o true 0 (s.setDbgc n { d with pend := none, force := false, byDbg := false }))
     ∧ (∀ v : Reg, m.reaches s pgDbg 0x40C = true → ∃ t, exec (.haltall m v) s = .next (m.told s 0x14140C true 0 t)
         ∧ { t with dbgc := s.dbgc, doms := s.doms } = s
         ∧ ∀ j, j < 16 → t.dbgcOf j = (let e := s.dbgcOf j
             if v.getLsbD j && !e.halted then
               (if e.pend.isSome then { e with byDbg := e.byDbg && decide (m = .debug) }
                else { e with pend := some 5, byDbg := decide (m = .debug) })
             else e))))
  ∧ (∀ (s : State) (n : Fin 16) (c : BitVec 3), s.formed = true → (s.dbgcOf n).pend = some c → (s.dbgcOf n).halted = false →
       haltAllowed s n = true →
       let k := s.core n
       let d := s.dbgcOf n
       let brk := match k.lock with | some l => l.held | none => false
       ∃ t, exec (.haltTakesEffect n) s = .next t
         ∧ { t with cores := s.cores, dbgc := s.dbgc, dbg := s.dbg, doms := s.doms } = s
         ∧ t.dbg = { s.dbg with haltevt := true }
         ∧ t.dbgcOf n = { d with halted := true, pend := none, force := false, cause := c, lockbrk := d.lockbrk || brk, stepping := false,
                                 cmpn := (if c = 4 then d.pcmpn else 0),
                                 ctx := if released s n then BitVec.ofNat 7 (k.cur.getD 0x7F) else 0x7F }
         ∧ t.core n = { k with lock := k.lock.map fun l => { l with held := false }, twait := none, waitX := false }
         ∧ (∀ j, j ≠ n.val → t.core j = s.core j ∧ t.dbgcOf j = s.dbgcOf j)
         ∧ ∀ e, t.dom e = if e ∈ slotDoms s n then { s.dom e with keepHalt := true } else s.dom e)

/-- R329, R330: RESUME ends a halt and its keep votes, and the next bundle of the halted context meets no break comparator; STEP also
issues one bundle, or halts again where no context was halted; FEEDGO issues the fed bundle of a halted core that is awake. RESUME,
STEP and FEEDGO on a core that is not halted are ignored.
Completion of: `resume`, `resumeall`, `step`, `feedgo`. -/
def Obligations.ResumeStepAndFeed : Prop :=
  ∀ (s : State) (m : Master) (n : Fin 16), s.formed = true → ctxExists n (s.dbgcOf n).fctx.toNat = true →
    m.reaches s (pgDbgc n) 0x400 = true → m.reaches s (pgDbgc n) 0x41C = true →
    let o := pgDbgc n * 0x1000 + 0x400
    let d := s.dbgcOf n
    let votes := fun t : State => { t with dbgc := s.dbgc, doms := s.doms } = s ∧ (∀ j, j ≠ n.val → t.dbgcOf j = s.dbgcOf j)
      ∧ ∀ e, t.dom e = if e ∈ slotDoms s n then { s.dom e with keepHalt := false } else s.dom e
    (d.halted = true →
      (∃ t, exec (.resume m n) s = .next (m.told s o true 0 t) ∧ votes t ∧ t.dbgcOf n = { d with halted := false, skipBrk := true })
      ∧ (∃ t, exec (.step m n) s = .next (m.told s o true 0 t) ∧ votes t
        ∧ (d.ctx = 0x7F ∨ (s.core n).cur = none → t.dbgcOf n = { d with halted := false, skipBrk := true, pend := some 3, byDbg := false })
        ∧ (d.ctx ≠ 0x7F → (s.core n).cur ≠ none → t.dbgcOf n = { d with halted := false, skipBrk := true, stepping := true }))
      ∧ (d.fbusy = false → coreAwake s n = true → s.sec.moving = false → s.cullet.frozen = false →
        exec (.feedgo m n) s = .next (m.told s (pgDbgc n * 0x1000 + 0x41C) true 0
          (issueFed n (s.setDbgc n { d with fbusy := true, fissue := true, fcause := 0 })))))
    ∧ (d.halted = false →
      exec (.resume m n) s = .next (m.told s o true 0 s) ∧ exec (.step m n) s = .next (m.told s o true 0 s)
      ∧ exec (.feedgo m n) s = .next (m.told s (pgDbgc n * 0x1000 + 0x41C) true 0 s))
    ∧ (∀ v : Reg, m.reaches s pgDbg 0x410 = true → ∃ t, exec (.resumeall m v) s = .next (m.told s 0x141410 true 0 t)
        ∧ { t with dbgc := s.dbgc, doms := s.doms } = s
        ∧ ∀ j, j < 16 → t.dbgcOf j = if v.getLsbD j && (s.dbgcOf j).halted then { s.dbgcOf j with halted := false, skipBrk := true }
                                     else s.dbgcOf j)

/-- R318: from OPEN, with every core held and every slot FREE, the key starts the move; once every bank is awake it wipes scratchpad and
the contexts and asks for the fuse; the acknowledgement makes LC FIELD, and a failure sets MOVEFAIL, logs code 0x70 and leaves LC.
Completion of: `lccmd`, `wipeComplete`, `fuseProgramAnswer`. -/
def Obligations.LifecycleMoveSteps : Prop :=
  ∀ s : State,
    (∀ (m : Master) (v : Reg), m.reachesAsMachine s pgSec 0x404 = true → fld v 15 0 = 0x7E1D → s.sec.moving = false → moveOk s = true →
      ∃ t, exec (.lccmd m v) s = .next (m.told s 0x140404 true 0 t) ∧ t.sec = { s.sec with moving := true } ∧ t.dbg.conn = false
        ∧ { t with sec := s.sec, dbg := s.dbg, dbgc := s.dbgc, doms := s.doms } = s)
    ∧ (s.formed = true → s.sec.moving = true → s.sec.prog = false → ((wipeBanks s).all fun b => awake s (domBank b)) = true →
      ∃ t, exec .wipeComplete s = .next t ∧ t.mem = [] ∧ t.synd = [] ∧ t.sec = { s.sec with prog := true }
        ∧ (∀ n, n < 16 → (t.core n).ctxs = [] ∧ (t.core n).cur = none ∧ (t.dbgcOf n).dbgok = [])
        ∧ { t with sec := s.sec, mem := s.mem, synd := s.synd, cores := s.cores, dbgc := s.dbgc } = s)
    ∧ (s.sec.prog = true → s.blk.warmDefer = false →
      exec (.fuseProgramAnswer .ack) s = .next { s with
        sec := { s.sec with prog := false, moving := false, lcField := true },
        fuse := { s.fuse with words := tset zeroD 0 (setBit (tget zeroD s.fuse.words 0) 16 true) s.fuse.words } }
      ∧ (∀ a, a ≠ .ack → exec (.fuseProgramAnswer a) s =
          .next (logEv 0x70 2 pgSec 0 { s with sec := { s.sec with prog := false, moving := false, movefail := true } })))

/-! ## Register pages -/

/-- R34, R26: a register write that passes its checks has the effect of its register. R34, R35: a refused write sets CFGERR,
and PERR takes the offset and code if CFGERR was 0; code 0x05 counts in PRIVCNT. A core's write is refused with the code of
the first check that fails: permission, the test region, a pending commit, the page's own checks.
Completion of: `registerWrite`. -/
def Obligations.RegisterWritesActOrRefuse : Prop :=
  (∀ (s t : State) (m : Master) (off : BitVec 24) (v : Reg) (k : PageId),
     let g := off.toNat / 0x1000
     let o := off.toNat % 0x1000
     off.toNat % 4 = 0 → pageOf g = some k → m.reaches s g o = true → (machineOnly k o = true → (masterLvl s m).1 = 0) → 0x400 ≤ o → pageAsleep s k = false →
     storeWait s k o = none → moveHold s k = false → (stagedReg k o = true → (s.header g).cmtpend = false) →
     (0xC00 ≤ o → s.blk.testen = true) → writeBody (decide (m = .debug)) g k o (keepSet g k o v s) s = .ok t →
     exec (.registerWrite m off v) s = .next (m.told s off.toNat true 0 t))
  ∧ ((∀ (s : State) (g o c : Nat), s.formed = true →
       (refuse g o c s).header g = (if (s.header g).cfgerr then s.header g
         else { s.header g with cfgerr := true, perr := BitVec.ofNat 32 (o + c * 2 ^ 24) })
       ∧ (refuse g o c s).sec = { s.sec with privcnt := if c = 5 then satInc s.sec.privcnt else s.sec.privcnt }
       ∧ { refuse g o c s with hdr := s.hdr, sec := s.sec, ras := s.ras, start := s.start } = s)
     ∧ (∀ (s : State) (n : Fin 16) (off : BitVec 24) (v : Reg) (k : PageId),
       let g := off.toNat / 0x1000
       let o := off.toNat % 0x1000
       let a : Acc := { lj := masterLvl s (.core n) }
       off.toNat % 4 = 0 → pageOf g = some k → (s.core n).cur.isSome = true → (0x400 ≤ o → pageAsleep s k = false) → storeWait s k o = none →
       moveHold s k = false →
       (mayWrite s a g k o v = false → exec (.registerWrite (.core n) off v) s = .next (refuse g o 0x05 s))
       ∧ (mayWrite s a g k o v = true → 0xC00 ≤ o → s.blk.testen = false →
           exec (.registerWrite (.core n) off v) s = .next (refuse g o 0x09 s))
       ∧ (mayWrite s a g k o v = true → o < 0xC00 → stagedReg k o = true → (s.header g).cmtpend = true →
           exec (.registerWrite (.core n) off v) s = .next (refuse g o 0x03 s))
       ∧ (∀ c, mayWrite s a g k o v = true → 0x400 ≤ o → (0xC00 ≤ o → s.blk.testen = true) → (stagedReg k o = true → (s.header g).cmtpend = false) →
           writeBody false g k o (keepSet g k o v s) s = .error c → c ≠ 5 → exec (.registerWrite (.core n) off v) s = .next (refuse g o c s))))

/-- R33, R262: a read of a counter of type RC returns its value and clears it, but a peek leaves it; a read of a low half latches the
high half, which then reads as latched. Both reach a master through its register read.
Completion of: `counterRead`, `lowHalfRead`. -/
def Obligations.CounterAndLatchedReads : Prop :=
  (∀ (s : State) (m : Master) (off : BitVec 24) (k : PageId),
    let g := off.toNat / 0x1000
    let o := off.toNat % 0x1000
    off.toNat % 4 = 0 → pageOf g = some k → m.reaches s g o = true → pageAsleep s k = false → storeWait s k o = none →
    let r := readReg (decide (m = .debug)) g k o s
    exec (.counterRead m off) s = .next (m.told s off.toNat false (r.2.setWidth 64) r.1)
    ∧ exec (.lowHalfRead m off) s = .next (m.told s off.toNat false (r.2.setWidth 64) r.1))
  ∧ (∀ (s : State) (g p : Nat) (k : PageId) (o : Nat), s.formed = true →
    (k, o) ∈ [(PageId.chain p, 0x408), (.chain p, 0x40C), (.quad p, 0x408), (.quad p, 0x40C), (.quad p, 0x4A4), (.quad p, 0x4A8),
      (.pgrp p, 0x408), (.pgrp p, 0x40C), (.pgrp p, 0x410), (.pgrp p, 0x414), (.sbank p, 0x40C), (.sbank p, 0x410), (.sbank p, 0x418),
      (.icu, 0x410), (.cue, 0x40C), (.cue, 0x410), (.pau, 0x414), (.pau, 0x418), (.pseq, 0x408), (.pseq, 0x40C), (.sec, 0x410),
      (.ras, 0x424), (.steer, 0x404), (.steer, 0x408), (.hotmon, 0x40C)] →
    readReg true g k o s = (s, (readReg false g k o s).2) ∧ (readReg false g k o (readReg false g k o s).1).2 = 0)
  ∧ (∀ (s : State) (pk : Bool) (g c : Nat), s.formed = true → c < 16 →
    (readReg pk g .mtime 0x404 (readReg pk g .mtime 0x400 s).1).2 ++ (readReg pk g .mtime 0x400 s).2 = s.mt.mtime
    ∧ (readReg pk g .mtime 0x418 (readReg pk g .mtime 0x414 s).1).2 ++ (readReg pk g .mtime 0x414 s).2 = s.mt.loadprev
    ∧ (readReg pk g .mtime 0x420 (readReg pk g .mtime 0x41C s).1).2 ++ (readReg pk g .mtime 0x41C s).2 = s.mt.snapt
    ∧ (readReg pk g (.timer 0) (0x40C + 0x40 * c) (readReg pk g (.timer 0) (0x408 + 0x40 * c) s).1).2
        ++ (readReg pk g (.timer 0) (0x408 + 0x40 * c) s).2 = (s.timer c).cnt
    ∧ (readReg pk g (.timer 0) (0x424 + 0x40 * c) (readReg pk g (.timer 0) (0x420 + 0x40 * c) s).1).2
        ++ (readReg pk g (.timer 0) (0x420 + 0x40 * c) s).2 = (s.timer c).cap)

/-- R31, R36, R37, R38: FREEZE follows its write (and the strips that wait in the quadrant look for the chain that is no longer frozen, R130); a commit that passes the page's check sets CMTPEND; DISCARD clears it and gives the staged
registers their live values, after the commit in the BCLK of the commit point; the commit point copies the staged registers, clears CMTPEND and logs it.
Completion of: `commit`, `commitPoint`, `discard`, `freeze`. -/
def Obligations.PageCommitAndFreeze : Prop :=
  ∀ (s : State) (m : Master) (page : BitVec 12) (k : PageId), s.formed = true → pageOf page.toNat = some k → s.sec.moving = false →
    let g := page.toNat
    let h := s.header g
    (m.reaches s g 0x008 = true →
      (∀ on, let u := s.setHeader g { h with freeze := on }
        exec (.freeze m page on) s = .next (m.told s (g * 0x1000 + 8) true 0 (match k with
          | .chain p => if on || !h.freeze then u else placeWaiting (p / 17) u
          | _ => u)))
      ∧ (h.cmtpend = false → commitOk s g k = true → (∀ p, k ≠ .timer p) →
          exec (.commit m page) s = .next (m.told s (g * 0x1000 + 8) true 0 (s.setHeader g { h with cmtpend := true, cmtAt := s.bclk })))
      ∧ (∀ p, h.cmtpend = false → commitOk s g k = true → k = .timer p → ∃ t, exec (.commit m page) s = .next (m.told s (g * 0x1000 + 8) true 0 t)
          ∧ t.header g = { h with cmtpend := true, cmtAt := s.bclk } ∧ { t with hdr := s.hdr, timers := s.timers } = s
          ∧ ∀ c, t.timer c = if 16 * p ≤ c ∧ c < 16 * p + 16 then
              { s.timer c with commit := decide ((s.timer c).cmpStg ≠ (s.timer c).cmp) || decide ((s.timer c).perStg ≠ (s.timer c).per) }
              else s.timer c)
      ∧ (∃ t, exec (.discard m page) s = .next (m.told s (g * 0x1000 + 8) true 0 t) ∧ t.header g = { h with cmtpend := false }
          ∧ (let due := h.cmtpend && decide (s.bclk = h.cmtAt + 2)
            (∀ n, k = .core n → t.core n = if due then { s.core n with cfgLive := (s.core n).cfgStg } else { s.core n with cfgStg := (s.core n).cfgLive })
          ∧ (∀ p, k = .chain p → t.chain p = { s.chain p with srStg := (s.chain p).srLive, swStg := (s.chain p).swLive })
          ∧ (∀ q, k = .quad q → t.quad q = if due then { s.quad q with qcfgLive := (s.quad q).qcfgStg } else { s.quad q with qcfgStg := (s.quad q).qcfgLive })
          ∧ (∀ n, k = .pgrp n → t.pgrp n = if due then { s.pgrp n with cfgLive := (s.pgrp n).cfgStg } else { s.pgrp n with cfgStg := (s.pgrp n).cfgLive })
          ∧ (k = .cue → t.cue = if due then { s.cue with cfgLive := s.cue.cfgStg } else { s.cue with cfgStg := s.cue.cfgLive })
          ∧ (∀ p c, due = false → k = .timer p → 16 * p ≤ c → c < 16 * p + 16 →
              t.timer c = { s.timer c with cmpStg := (s.timer c).cmp, perStg := (s.timer c).per, commit := false }))))
    ∧ (h.cmtpend = true → (∀ p, k ≠ .timer p) → (∀ p, k ≠ .chain p) → ∃ t, exec (.commitPoint page) s = .next t
          ∧ t.header g = { h with cmtpend := false }
          ∧ t.ras = (if bit h.pevt 1 then (logEv 0x02 0 g 0 s).ras else s.ras)
          ∧ (∀ n, k = .core n → t.core n = { s.core n with cfgLive := (s.core n).cfgStg })
          ∧ (∀ q, k = .quad q → t.quad q = { s.quad q with qcfgLive := (s.quad q).qcfgStg })
          ∧ (∀ n, k = .pgrp n → t.pgrp n = { s.pgrp n with cfgLive := (s.pgrp n).cfgStg })
          ∧ (k = .cue → t.cue = { s.cue with cfgLive := s.cue.cfgStg }))
    ∧ (∀ p, k = .timer p → h.cmtpend = true → ∃ t, exec (.commitPoint page) s = .next t
          ∧ ∀ c, 16 * p ≤ c → c < 16 * p + 16 → t.timer c =
              if (s.timer c).en || !(s.timer c).commit then s.timer c
              else { s.timer c with cmp := (s.timer c).cmpStg, per := (s.timer c).perStg, commit := false })

/-! ## The boundary -/

/-- R363: a beat of the control port makes one 32-bit access at the port's level and tag, answers it with CP_READY, and a
burst moves to the next register. R364, R365, R371: the fall of CP_SEL abandons a write burst, whose later beats write
nothing; the service port makes one access at MACHINE level and answers with a status and data; a command outside 0x01 to 0x04
makes none and has status 0b11; the rise of SVC_SEL_N ends the frame.
Completion of: `controlPortBeat`, `cpSelFall`, `controlSpaceRead`, `controlSpaceWrite`, `scratchpadRead`, `scratchpadWrite`,
`svcSelNRise`, `undefinedCommand`. -/
def Obligations.ControlAndServicePortAccesses : Prop :=
  (∀ (s t : State) (wr : Bool) (addr : BitVec 23) (len : BitVec 4) (wdata : Reg) (be : BitVec 4) (v : Word),
     s.blk.cp = none → s.blk.cpBeat = none → masterOwes 0 s = false → hostServed s (4 * addr.toNat) = true →
     let a : Acc := { lj := masterLvl s .hostPort, be := if wr then be.toNat else 15 }
     (if wr then csWrite a (4 * addr.toNat) false (wdata.setWidth 64) s else csRead a (4 * addr.toNat) false s) = .ok t v →
     exec (.controlPortBeat wr addr len wdata be) s = .next (t.setBlk
       { t.blk with cpReady := true, cpErr := false, cpRdata := lo32w v, cpBeat := none,
                    cp := if len = 0 then none else some (wr, 4 * addr.toNat + 4, len.toNat) }))
  ∧ (∀ s : State, s.blk.started = true →
       (∀ o n, s.blk.owed = [] → s.blk.cp = some (true, o, n) → s.blk.cpBeat = none →
         exec .cpSelFall s = .next (s.setBlk { s.blk with cp := none, cpReady := false, cpErr := false }))
       ∧ exec .svcSelNRise s = .next (s.setBlk { s.blk with svcDone := false, owed := s.blk.owed.map fun o => { o with ans := false } })
       ∧ (masterOwes 1 s = false →
         (∀ c : BitVec 8, c.toNat = 0 ∨ 4 < c.toNat → exec (.undefinedCommand c) s =
           .next (s.setBlk { s.blk with svcDone := true, svcStat := 3, svcData := 0 }))
         ∧ (s.blk.ready = true →
           (∀ (a : BitVec 24) (t : State) (v : Word), csRead { lj := (0, 0) } (4 * a.toNat) false s = .ok t v →
             exec (.controlSpaceRead a) s = .next (svcAnswer 0 v t))
           ∧ (∀ (a : BitVec 24) (x : Reg) (t : State) (v : Word), csWrite { lj := (0, 0) } (4 * a.toNat) false (x.setWidth 64) s = .ok t v →
             exec (.controlSpaceWrite a x) s = .next (svcAnswer 0 v t))
           ∧ (∀ (a : BitVec 24) (w : Nat), spIndex s (8 * a.toNat) = some w →
             bankOpen (s.setHeader (pgSbank (w / 32768)) { s.header (pgSbank (w / 32768)) with freeze := false }) (w / 32768) false = true →
             let u := addDemand (domBank (w / 32768)) s
             ((spPeek s w).2 = .good → exec (.scratchpadRead a) s = .next (svcAnswer 0 (spPeek s w).1 u))
             ∧ (∀ x, exec (.scratchpadWrite a x) s = .next (svcAnswer 0 0 (spWriteBreak u w x 255 none)))))))

/-- R361, R375, R376: cold reset and the loss of supply leave every field at its reset value, but for the queue of commands,
the count of free values and the straps; an unpowered block stays so until the next cold reset. R368, R369, R378, R382: the
start-up sequence ends with READY = 1 and cause cold, the straps sampled, the fuses loaded and judged, the lifecycle that they
give (FIELD if they are bad); BLK.RUN, machine time, the cores and scratchpad stay. The shadow holds the words of the fuse block, MAPOK and the
CRC are those of R368 and R369, the unit states are the map's, or the fallback's, and the maps of chains, banks, core members (R383) and ports
follow from them in ascending order; a retired unit's domain is asked for COLD (R310), and the others stay.
Completion of: `coldReset`, `startUp`, `islandUnpowered`. -/
def Obligations.ColdResetAndStartUp : Prop :=
  (∀ s : State,
     exec .coldReset s = .next { State.reset with pending := s.pending, fresh := s.fresh, blk := { State.reset.blk with park := s.blk.park },
                                                  dbg := { State.reset.dbg with lost := true } }
     ∧ exec .islandUnpowered s = .next { State.reset with
         pending := s.pending, fresh := s.fresh, blk := { State.reset.blk with park := s.blk.park, powered := false } }
     ∧ State.reset.blk.ready = false ∧ State.reset.blk.started = false ∧ State.reset.mt.holdover = true ∧ State.reset.mt.mtime = 0
     ∧ State.reset.sec.lcField = false ∧ (∀ q k, (State.reset.slot q k).st = .free) ∧ (∀ n, (State.reset.core n).cur = none)
     ∧ (∀ b, b < 68 → ownerOf State.reset b = BitVec.ofNat 8 (4 * (b / 17))))
  ∧ (∀ (s : State) (f : List (Nat × Reg)) (straps : BitVec 4), s.blk.powered = true → s.blk.started = false →
       ∃ t, exec (.startUp f straps) s = .next t
         ∧ t.blk = { s.blk with park := straps, started := true, bstdone := true, spzdone := true, libdone := true, ready := true,
                                rstcause := 1, fuseok := t.fuse.sigok && t.fuse.crcok && t.fuse.mapok,
                                fuseerr := !(t.fuse.sigok && t.fuse.crcok && t.fuse.mapok) }
         ∧ t.fuse.loaded = true ∧ t.fuse.sigok = decide (fld (tget zeroD t.fuse.words 0) 15 0 = 0xA05B)
         ∧ t.fuse.crcok = decide (t.fuse.fcrc = tget zeroD t.fuse.words 0x1FFF)
         ∧ t.sec = { s.sec with lcField := t.blk.fuseerr || bit (tget zeroD t.fuse.words 0) 16 }
         ∧ { t with blk := s.blk, start := s.start, hdr := s.hdr, quads := s.quads, banks := s.banks, steer := s.steer, doms := s.doms, sec := s.sec,
                    cullet := s.cullet, fuse := s.fuse, pau := s.pau } = s
         ∧ ((∀ d, (s.dom d).wleave = false ∧ (s.dom d).wsched = false) → t.pau = s.pau)
         ∧ (let w := tget zeroD t.fuse.words
            let state := fun (b u : Nat) => fld (w (b + u / 16)) (2 * (u % 16) + 1) (2 * (u % 16))
            let chain := state 1
            let bank := fun u => state 1 (68 + u)
            let slot := fun u => state 1 (136 + u)
            let port := state 0x00D
            let has := fun (g : Nat → Nat) (x lo k : Nat) => ((rangeFrom lo k).filter fun u => decide (g u = x))
            let ok := t.fuse.sigok && t.fuse.crcok && t.fuse.mapok
            (∀ i, w i = if i < 8192 then ((f.reverse.find? fun x => decide (x.1 = i)).map Prod.snd).getD 0 else 0)
            ∧ t.fuse.fcrc = crc32c ((List.range 0x1FFF).flatMap fun i =>
                (List.range 4).map (byteOf (if i = 0 then setBit (w 0) 16 false else w i)))
            ∧ (t.fuse.mapok = true ↔ (∀ u, u < 68 → chain u ≠ 3 ∧ bank u ≠ 3) ∧ (∀ u, u < 56 → slot u ≠ 3) ∧ (∀ u, u < 528 → port u ≠ 3)
                ∧ (∀ q, q < 4 → (has chain 1 (17 * q) 17).length = 1 ∧ (has bank 1 (17 * q) 17).length = 1 ∧ (has slot 0 (14 * q) 14).length ≤ 12)
                ∧ (has port 0 0 528).length = 512)
            ∧ (∀ d, domRetired t d = false → t.dom d = s.dom d)
            ∧ (∀ d, d < 192 → domRetired t d = true → fabricSettled s d = true → (s.dom d).wleave = false → (s.dom d).wsched = false →
                (t.dom d).goal = some 4 ∧ (t.dom d).dreq = 4)
            ∧ (s.cullet = State.reset.cullet → s.steer = State.reset.steer →
              (∀ u, u < 68 → (t.chUnit u).toNat = (if ok then chain u else if u % 17 = 16 then 1 else 0)
                ∧ (t.bkUnit u).toNat = if ok then bank u else if u % 17 = 16 then 1 else 0)
              ∧ (∀ p, p < 528 → (t.ptUnit p).toNat = if ok then port p else if 512 ≤ p then 1 else 0)
              ∧ (let sl := fun u => if ok then slot u else if 12 ≤ u % 14 then 1 else 0
                 (∀ l, l < 48 → t.mbSlot l = (has sl 0 (14 * (l / 12)) 14 ++ has sl 1 (14 * (l / 12)) 14)[l % 12]?)
                 ∧ (∀ m, m < 56 → (∃ l, l < 48 ∧ t.mbSlot l = some m) → t.slUnit m = 0)
                 ∧ (∀ m, m < 56 → (∀ l, l < 48 → t.mbSlot l ≠ some m) → (t.slUnit m).toNat = sl m))
              ∧ (∀ l, l < 64 → t.chPhys l = ((rangeFrom (17 * (l / 16)) 17).filter fun u => decide (t.chUnit u = 0))[l % 16]?
                ∧ t.bkPhys l = ((rangeFrom (17 * (l / 16)) 17).filter fun u => decide (t.bkUnit u = 0))[l % 16]?)
              ∧ (∀ p, p < 512 → t.ptPhys p = (((List.range 528).filter fun u => decide (t.ptUnit u = 0))[p]?).getD p))))

/-- R375, R377: BCLK 0 of a warm reset: READY falls, every core is held, the debug connection is lost, every slot is FREE and
no chain runs a strip; machine time, timers, scratchpad and the fuses stay. R375, R377: at the end of the drain
every tag is given up, every context is reset, the interrupt sources are cleared, the groups have no event and stand open no more, the RAISED bits fall, OWNER is that of R228, and READY
rises if the input has risen; the rise of the input after the drain lets READY rise.
Completion of: `warmReset`, `warmResetDrainEnd`, `warmResetRelease`. -/
def Obligations.WarmResetStopsAndEnds : Prop :=
  (∀ s : State, s.formed = true → s.blk.started = true → s.blk.warmLow = false → s.sec.moving = false →
     ∃ t, exec .warmReset s = .next t
       ∧ t.blk.ready = false ∧ t.blk.run = 0 ∧ t.blk.warm = true ∧ t.blk.warmLow = true ∧ t.blk.warmAt = s.bclk
       ∧ t.dbg.conn = false ∧ (∀ q k, (t.slot q k).st = .free) ∧ (∀ p, (t.chain p).strip = none) ∧ t.pau.reqs = []
       ∧ (t.mem = s.mem ∧ t.mt = s.mt ∧ t.timers = s.timers ∧ t.icu = s.icu ∧ t.fuse = s.fuse ∧ t.sec = s.sec
           ∧ t.hdr = s.hdr ∧ t.bclk = s.bclk ∧ t.pending = s.pending ∧ t.ports = s.ports))
  ∧ (∀ s : State, s.formed = true →
       (s.blk.warm = true → ((s.ports.all fun p => p.2.tags.isEmpty) = true ∨ s.blk.warmAt + s.cullet.ptmo.toNat ≤ s.bclk) →
         ∃ t, exec .warmResetDrainEnd s = .next t
           ∧ t.blk = { s.blk with warm := false, testen := false, rstcause := 2, ready := !s.blk.warmLow }
           ∧ (∀ p, (t.port p).tags = []) ∧ (∀ n, n < 16 → (t.core n).ctxs = [] ∧ (t.core n).cur = none)
           ∧ (∀ n, (t.src n).pend = false ∧ (t.src n).active = false ∧ (t.src n).lost = false)
           ∧ (∀ g, t.grp g = { s.grp g with opn := false, ev := 0, timer := 0 }) ∧ t.icu.hraised = 0 ∧ t.icu.pulses = []
           ∧ (∀ n, n < 16 → t.icucOf n = { s.icucOf n with nraised := false, fraised := false })
           ∧ (∀ b, (t.bank b).owner = none ∧ (t.bank b).pend = none)
           ∧ t.mem = s.mem ∧ t.synd = s.synd ∧ t.mt = s.mt ∧ t.timers = s.timers ∧ t.fuse = s.fuse ∧ t.hdr = s.hdr)
       ∧ exec .warmResetRelease s = .next (s.setBlk
           { s.blk with warmLow := false,
                        ready := s.blk.ready || (s.blk.started && s.blk.warmLow && !s.blk.warm && !s.blk.warmDefer) }))

/-- R379, R383: a write of BLK.RUN releases each core named that is held and has two members: context 0x00 runs at MACHINE level from
BOOTV. A core already released, or short of members, stays.
Completion of: `run`. -/
def Obligations.RunReleasesCores : Prop :=
  ∀ (s : State) (m : Master) (v : Reg), s.formed = true → (∀ n, tabWf ctxInit 0 (s.core n).ctxs = true) →
    m.reaches s 0 0x404 = true → s.blk.ready = true → s.sec.moving = false →
    ∃ t, exec (.run m v) s = .next (m.told s 0x404 true 0 t)
      ∧ { t with cores := s.cores, dbgc := s.dbgc, doms := s.doms, blk := s.blk } = s
      ∧ { t.blk with run := s.blk.run } = s.blk
      ∧ ∀ n, n < 16 →
        (v.getLsbD n = true → released s n = false → 2 ≤ (voters s n).length →
          t.core n = { (s.core n).setCtx 0 { s.ctx n 0 with state := 2, level := 0, tag := 0, pc := s.blk.bootv } with cur := some 0 }
          ∧ t.blk.run.getLsbD n = true)
        ∧ (v.getLsbD n = false ∨ released s n = true ∨ (voters s n).length < 2 →
          t.core n = s.core n ∧ t.blk.run.getLsbD n = s.blk.run.getLsbD n)

/-! ## Repairs -/

/-- R343, R63: a member that disagrees with the two others has its slot retired; the lowest free spare slot of the quadrant serves in
its place and is resynchronised, while the core runs on. With no majority the core is held, with its page as after COLD, FAULT set.
The core pauses for the resynchronisation at an allowed boundary, and goes on when the spare is awake and restored.
Completion of: `memberMismatch`, `resynchronisationPause`, `resynchronisationEnded`. -/
def Obligations.MembersAreReplaced : Prop :=
  ∀ (s : State) (n : Fin 16), s.formed = true →
    (∀ (k : Fin 3) (m u : Nat), s.cullet.frozen = false → released s n = true → (voters s n).length = 3 → (k.val, m) ∈ voters s n →
      s.slUnit m = 0 → repairBusy s 2 (n / 4) = false → freeSpare s 2 (n / 4) = some u →
      ∃ t, exec (.memberMismatch n (some k)) s = .next t
        ∧ { t with cullet := s.cullet, ras := s.ras, doms := s.doms, pseq := s.pseq, pau := s.pau } = s
        ∧ t.slUnit m = 2 ∧ t.slUnit u = 0 ∧ t.mbSlot (3 * n + k) = some u ∧ resyncing t (3 * n + k) = true
        ∧ ∀ j, j ≠ 3 * n.val + k → t.mbSlot j = s.mbSlot j)
    ∧ (∀ bad : Option (Fin 3), s.cullet.frozen = false → released s n = true →
      bad = none ∨ ((voters s n).length < 3 ∧ ∃ k m, bad = some k ∧ (k.val, m) ∈ voters s n) →
      ∃ t, exec (.memberMismatch n bad) s = .next t
        ∧ released t n = false ∧ t.core n = {} ∧ (t.header (pgCore n)).fault = true ∧ t.mem = s.mem)
    ∧ ((resyncOf s n).isSome = true → boundaryOk s n = true →
      exec (.resynchronisationPause n) s = .next (s.setCore n { s.core n with pause := true }))
    ∧ (∀ r u, resyncOf s n = some r → r.spare = some u → (s.core n).pause = true → awake s (domSlot u) = true → s.cullet.waiting = [] →
      exec (.resynchronisationEnded n) s = .next (logEv 0x13 0 (pgCore n) u
        ((s.setCore n { s.core n with pause := false }).setCullet { s.cullet with running := s.cullet.running.filter (· ≠ r) }) r.inj))

/-- R341, R130: a hard fault of a chain that serves a logical chain sets FAULT and starts its repair with the lowest free spare of the
quadrant, or queues it; its strip stops and goes back to its newest checkpoint. When the spare is awake it serves the logical chain,
with its SPROUTE and SPWIDTH and with the strip, whose REPLAYS grows, and the old chain is retired; a
strip whose checkpoint reads uncorrectable ends its take with 0x0C instead (R347).
Completion of: `chainHardFault`, `chainRepaired`. -/
def Obligations.ChainsAreReplaced : Prop :=
  ∀ s : State, s.formed = true →
    (∀ (p : Fin 68) (l : Nat), s.blk.started = true → s.chUnit p = 0 → repairOf s 0 p = false → s.chLog p = some l →
      repairBusy s 0 (l / 16) = true ∨ (freeSpare s 0 (l / 16)).isSome = true →
      let mine := fun (x : Repair) => x.kind = 0 ∧ x.scope = l / 16 ∧ x.logical = l ∧ x.old = p.val
      ∃ t, exec (.chainHardFault p) s = .next t ∧ (t.header (pgChain p)).fault = true
        ∧ (repairBusy s 0 (l / 16) = true → ∃ x ∈ t.cullet.waiting, mine x)
        ∧ (repairBusy s 0 (l / 16) = false → ∃ x ∈ t.cullet.running, mine x ∧ x.spare = freeSpare s 0 (l / 16))
        ∧ ((s.chain p).strip = none → t.chain p = { s.chain p with marver := [] } ∧ t.cullet.moved = s.cullet.moved
            ∧ { t with hdr := s.hdr, ras := s.ras, chains := s.chains, cullet := s.cullet, doms := s.doms, pseq := s.pseq, pau := s.pau } = s)
        ∧ (∀ r, (s.chain p).strip = some r → takeLinked s (s.slot r.q r.slot) = false → r.stop = false → r.spliced = false →
            (s.slot r.q r.slot).aborted = false → (s.slot r.q r.slot).fault = none →
            (t.chain p).strip = none ∧ t.cullet.moved = s.cullet.moved ++ [(l, restartAt r (lastCk r))]))
    ∧ (∀ (q : Fin 4) (r : Repair) (u : Nat), (s.cullet.running.find? fun x => decide (x.kind = 0) && decide (x.scope = q.val)) = some r →
      r.spare = some u → r.old ≠ u → awake s (domChain u) = true → s.cullet.waiting = [] →
      ∃ t, exec (.chainRepaired q) s = .next t
        ∧ t.chPhys r.logical = some u ∧ t.chUnit u = 0 ∧ t.chUnit r.old = 2
        ∧ (t.chain u).srLive = (s.chain r.old).srLive ∧ (t.chain u).swLive = (s.chain r.old).swLive
        ∧ ((s.cullet.moved.find? fun m => decide (m.1 = r.logical)) = none → (t.chain u).strip = (s.chain u).strip)
        ∧ (∀ m, (s.cullet.moved.find? fun m => decide (m.1 = r.logical)) = some m → m.2.ckBad = false →
            (t.chain u).strip = some { m.2 with lchain := r.logical }
            ∧ (t.slot m.2.q m.2.slot).replays = min 255 ((s.slot m.2.q m.2.slot).replays + 1))
        ∧ (∀ m, (s.cullet.moved.find? fun m => decide (m.1 = r.logical)) = some m → m.2.ckBad = true → tabWf slotInit 0 (s.quad m.2.q).slots = true →
            (s.slot m.2.q m.2.slot).st = .running → (s.slot m.2.q m.2.slot).fault = none → (s.slot m.2.q m.2.slot).aborted = false →
            (t.slot m.2.q m.2.slot).fault = some ⟨0x0C, m.2.cptr, 0⟩))

/-- R344: a bank whose window reaches a threshold sets FAULT, if it does not stand already, and its migration to the lowest free spare of the quadrant starts. Once
both are awake the logical bank moves, with OWNER, POWN and every word, an uncorrectable one as such, and the old bank is
retired with its director as owner (R228). The end of a window clears its counts, and so does that of a chain's residue window (R160).
Completion of: `bankMigration`, `bankMigrated`, `rescfgWindowEnd`, `bkcfgWindowEnd`. -/
def Obligations.BanksMigrate : Prop :=
  ∀ (s : State) (b : Fin 68), s.formed = true →
    (∀ l u, s.blk.started = true → bankBad s b = true → s.bkUnit b ≠ 1 → s.bkLog b = some l →
      repairOf s 1 b = false → repairBusy s 1 (b / 17) = false → freeSpare s 1 (b / 17) = some u →
      ∃ t, exec (.bankMigration b) s = .next t ∧ (t.header (pgSbank b)).fault = true
        ∧ t.bank b = { s.bank b with copying := true } ∧ t.bank u = { s.bank u with copying := true }
        ∧ t.cullet = { s.cullet with running := s.cullet.running ++ [⟨1, b / 17, l, b, some u, (s.bank b).winInj⟩] }
        ∧ { t with hdr := s.hdr, ras := s.ras, banks := s.banks, cullet := s.cullet, doms := s.doms, pseq := s.pseq, pau := s.pau } = s)
    ∧ (∀ (r : Repair) (u : Nat), (s.cullet.running.find? fun x => decide (x.kind = 1) && decide (x.old = b.val)) = some r →
      r.spare = some u → u ≠ b.val → awake s (domBank u) = true → awake s (domBank b) = true → s.cullet.waiting = [] →
      ∃ t, exec (.bankMigrated b) s = .next t
        ∧ t.bkPhys r.logical = some u ∧ t.bkUnit u = 0 ∧ t.bkUnit b = 2
        ∧ (t.bank u).owner = (s.bank b).owner ∧ ownerOf t b = BitVec.ofNat 8 (4 * (b / 17)) ∧ (t.bank u).copying = false ∧ (t.bank b).copying = false
        ∧ (t.header (pgSbank u)).level = (s.header (pgSbank b)).level ∧ (t.header (pgSbank u)).tag = (s.header (pgSbank b)).tag
        ∧ (∀ w, w < 32768 → spPeek t (u * 32768 + w) =
            ((spPeek s (b * 32768 + w)).1, if (spPeek s (b * 32768 + w)).2 = .double then .double else .good))
        ∧ (∀ w, w / 32768 ≠ b.val → w / 32768 ≠ u → spPeek t w = spPeek s w))
    ∧ (∃ t, exec (.bkcfgWindowEnd b) s = .next t ∧ { t with banks := s.banks } = s ∧ (∀ c, c ≠ b.val → t.bank c = s.bank c)
        ∧ t.bank b = { s.bank b with winC := 0, winU := 0, winInj := false })
    ∧ (∀ p : Fin 68, ∃ t, exec (.rescfgWindowEnd p) s = .next t ∧ { t with chains := s.chains } = s
        ∧ (∀ c, c ≠ p.val → t.chain c = s.chain c) ∧ t.chain p = { s.chain p with winCnt := 0 })

/-! ## Takes -/

/-- R121, R124, R126, R127, R128: a header read fills w0 and w1 of the slot; admission asks for leave for the candidate, and with leave
gives it the lowest free chains of the quadrant in service, each with its strip, n staying as it was fixed when the take became the candidate; the fetch reads the descriptor, and a take that
passes its checks runs, while one that fails a check ends with that code and frees its chains.
Completion of: `headerRead`, `admission`, `descriptorFetch`. -/
def Obligations.TakesAreFetchedAndAdmitted : Prop :=
  ∀ (s : State) (q : Fin 4) (k : Fin 64) (w : Nat), s.formed = true →
    let t := s.slot q k
    let mineA := fun w => decide (ownerOf s (w / 32768) = BitVec.ofNat 8 (16 + q))
    let v := addDemand (domBank (w / 32768)) s
    (spIndex s t.desc = some w → spOk s w (t.level, t.tag) = true → bankOpen s (w / 32768) (mineA w) = true →
      (t.st = .queued → t.w0 = none → (∀ i, i < 2 → (spPeek s (w + i)).2 = .good) →
        exec (.headerRead q k) s = .next (v.setSlot q k { t with w0 := some (spPeek s w).1, w1 := some (spPeek s (w + 1)).1 }))
      ∧ (∀ ws, t.st = .running → t.fetched = false → awake s (domStore q) = true → ws = (List.range 16).map (fun i => (spPeek s (w + i)).1) →
        (∀ i, i < 16 → (spPeek s (w + i)).2 = .good) → bit (lget 0 ws 0) 20 = false →
        (∀ m ∈ s.cullet.moved, m.2.q ≠ q) →
        let e := (s.quad q).seen (fld (lget 0 ws 0) 8 0) s.bclk
        let f := { t with words := ws, ent := e, ship := shippedReel (s.quad q) e, fetchAt := some s.bclk }
        let c := fetchCode (s.setSlot q k f) (if t.cued then f else { f with w0 := some (f.w 0), w1 := some (f.w 1) })
        (c = none → ∃ u, exec (.descriptorFetch q k) s = .next u ∧ { u with quads := s.quads, chains := s.chains } = v
          ∧ (u.slot q k).fetched = true ∧ (u.slot q k).words = ws
          ∧ (u.slot q k).st = (if f.len = 0 then .ending else .running)
          ∧ (f.hSerial = true → (u.slot q k).serial = true ∧ (u.slot q k).width = 1))
        ∧ (∀ x, c = some x → t.aborted = false → t.fault = none → ∃ u, exec (.descriptorFetch q k) s = .next u
          ∧ (u.slot q k).st = .ending ∧ (u.slot q k).fault = some ⟨x, 0, 0⟩ ∧ takeChains u q k = [])))
    ∧ (∀ n, s.blk.ready = true → s.cullet.frozen = false → candOf (s.quad q) = some k.val → t.len ≠ 0 → (∀ m ∈ s.cullet.moved, m.2.q ≠ q) →
      (match (s.quad q).cand with
        | some c => if c.1 = t.seq ∧ c.2.2 = inService s q then some c.2.1 else chainCount s q t
        | none => chainCount s q t) = some n →
      (t.leave = false → exec (.admission q) s =
        .next (askLeave ⟨t.prio, .take q k, t.pclass⟩ (s.setQuad q { s.quad q with cand := some (t.seq, n, inService s q) })))
      ∧ (t.leave = true → (s.header (pgQuad q)).freeze = false → t.splice = false → 0 < n →
        n ≤ ((inService s q).filter (chainFree s)).length →
        (∀ a ∈ inService s q, ∀ b ∈ inService s q, s.chPhys a = s.chPhys b → a = b) →
        let ls := ((inService s q).filter (chainFree s)).take n
        ∃ u, exec (.admission q) s = .next u
          ∧ { u with quads := s.quads, chains := s.chains, hdr := s.hdr, ras := s.ras, doms := s.doms } = s
          ∧ u.slot q k = { t with st := .running, chains := ls }
          ∧ ∀ x ∈ ls.zipIdx, ∀ p, s.chPhys x.1 = some p → (u.chain p).strip = some (newStrip q k t n x.2 x.1)))

/-- R139, R140, R141, R143, R145: once its requests have drained, a take's record of four words is written at CRADR, TKDONE or
TKFAULT counts, its leave is released, and its slot is FREE, or holds the take at NEXT with the next generation. R121, R256,
R304: the arming of a TCUE is decided once its header words are read: with the booking made the slot holds them and the pool
entry is armed for the handle; with the booking refused the slot and the entry are free again and the bundle takes all ones.
The rest of the bundle then runs with that handle.
R83, R118, R137: a bundle of one V syllable on an awake fabric: TAKE puts the descriptor's address into the lowest FREE slot, QUEUED with the next
generation, and pushes its handle, or all ones with no FREE slot; TWAIT waits while its handle is live; TTEST and TABORT tell whether it is, and a
live take is aborted; TCUE refuses with all ones without a slot or an entry, or for a time not after MTIME, and else arms its slot and waits;
TFENCE fences the context's takes; TQSTAT counts the slots. Completion of: `completionRecord`, `tcueArmingDecision`, `bundleIssue`. -/
def Obligations.RecordsAndArmings : Prop :=
  (∀ (s : State) (q : Fin 4) (k : Fin 64) (w : Nat), s.formed = true → tabWf slotInit 0 (s.quad q).slots = true →
     let t := s.slot q k
     recordReady s q k t = true → t.w0.isSome = true → 16 ≤ t.words.length → t.cradr % 32 = 0 → spIndex s t.cradr = some w →
     spOk s w (t.level, t.tag) = true → bankOpen s (w / 32768) (decide (ownerOf s (w / 32768) = BitVec.ofNat 8 (16 + q))) = true →
     ∃ u, exec (.completionRecord q k) s = .next u
       ∧ (∀ i, i < 4 → spPeek u (w + i) = (lget 0 (recordWords q k t) i, .good))
       ∧ (∀ v, v < w ∨ w + 4 ≤ v → spPeek u v = spPeek s v)
       ∧ (u.quad q).tkdone = (if statusOf t = 1 then satInc (s.quad q).tkdone else (s.quad q).tkdone)
       ∧ (u.quad q).tkfault = (if statusOf t = 2 then satInc (s.quad q).tkfault else (s.quad q).tkfault)
       ∧ u.pau.held = s.pau.held.filter (fun e => decide (e.1 ≠ .take q k))
       ∧ (follows t = false → u.slot q k = { gen := t.gen })
       ∧ (follows t = true → (∀ x ∈ (s.quad q).slots, x.2.arrAt = s.bclk → x.2.seq = 0 ∨ x.2.arrKey ≤ arrLink k) → u.slot q k =
           { gen := genNext t.gen, core := t.core, ctx := t.ctx, level := t.level, tag := t.tag, desc := t.next, st := .queued,
             seq := (s.quad q).seq + 1, arrAt := s.bclk, arrKey := arrLink k }))
  ∧ (∀ (s : State) (n : Fin 16) (t : TcuePend) (b : Bundle) (w : Nat) (x y : Word), s.formed = true →
       let q := n.val / 4
       let k := s.slot q t.slot
       let h : Word := BitVec.ofNat 64 (handleOf q t.slot k.gen)
       let bk := book q t.slot (fld y 27 24) t.time s
       (s.core n).tcue = some t → t.got = none → decodeBundle t.ws false = .ok b → spIndex s k.desc = some w →
       bankOpen s (w / 32768) (coreOwns s n (w / 32768)) = true → spPeek s w = (x, .good) → spPeek s (w + 1) = (y, .good) → k.st = .armed →
       ∃ (d : State) (v : Word), (let u := d.setCore n { d.core n with tcue := some { t with got := some v } }
           let e : BEnv := { n := n, x := t.ctx, at_ := (s.ctx n t.ctx).pc, s0 := u, fed := t.fed, b := b, post := true }
           let r0 : Run := { s := u, w := { c := u.ctx n t.ctx }, slow := true, mwait := decide (b.x.map Syl.op = some 8) }
           (b.c = none → exec (.tcueArmingDecision n) s = .next (commitBundle e (r0.push (plain v))))
           ∧ ∀ r, cExec e (r0.push (plain v)) = .ok r → exec (.tcueArmingDecision n) s = .next (commitBundle e r))
         ∧ { d with quads := s.quads, cue := s.cue, pau := s.pau, ras := s.ras } = addDemand (domBank (w / 32768)) s
         ∧ (bk.2 = true → v = h ∧ d.slot q t.slot = { k with w0 := some x, w1 := some y }
             ∧ d.cueEnt t.entry = tcueEntry s q t.time (handleOf q t.slot k.gen))
         ∧ (bk.2 = false → v = BitVec.allOnes 64 ∧ d.cue.tbl = s.cue.tbl
             ∧ d.cue.held = s.cue.held.filter (· ≠ t.entry)
             ∧ (tabWf slotInit 0 (s.quad q).slots = true → d.slot q t.slot = { gen := k.gen })))
  ∧ (∀ (s u : State) (n : Fin 16) (x : Nat),
      let q := n.val / 4
      let k := (s.core n).settled
      let c := s.ctx n x
      let p := fun (i : Nat) => c.cell (c.depth.toNat - 1 - i)
      let Q := u.quad q
      let seen := addDemand (domQuad q) u
      let free := fun (j : Nat) => j < 64 ∧ (u.slot q j).st = .free ∧ ∀ i, i < j → (u.slot q i).st ≠ .free
      let full := ∀ j, j < 64 → (u.slot q j).st ≠ .free
      let pool := fun (i : Nat) => tcBase u ≤ i ∧ i < 4096 ∧ (u.cueEnt i).armed = false ∧ i ∉ u.cue.held
      let desc := fun (a : Word) (w : Nat) => a.toNat % 128 = 0 ∧ spIndex u a.toNat = some w ∧ spOk u w (c.level, c.tag) = true
      let h := (p 0).toNat
      let y := u.slot q (h / 256 % 64)
      let live := h < 2 ^ 16 ∧ h / 2 ^ 14 = q ∧ y.gen.toNat = h % 256 ∧ y.st ≠ .free ∧ (c.level = 2 → y.level = 2 ∧ y.tag = c.tag)
      awake u (domQuad q) = true → tabWf slotInit 0 Q.slots = true → tabWf quadInit 0 u.quads = true →
      (∀ w, Issues s u n x (oneSyllable 0x4000 []) → c.fits 1 1 → desc (p 0) w →
        (full → ∃ t, exec (.bundleIssue n) s = .next t ∧ BundleEnded seen t n x k (c.moved 2 1 [BitVec.allOnes 64]))
        ∧ (∀ j, free j → ∃ t v, exec (.bundleIssue n) s = .next t ∧ { v with quads := u.quads } = seen ∧ (∀ r, r ≠ q → v.quad r = u.quad r)
          ∧ BundleEnded v t n x k (c.moved 2 1 [BitVec.ofNat 64 (q * 2 ^ 14 + j * 2 ^ 8 + (genNext (u.slot q j).gen).toNat)])
          ∧ { v.slot q j with seq := 0 } = {
              st := .queued, gen := genNext (u.slot q j).gen, core := n.val, ctx := x, byTake := true, level := c.level, tag := c.tag,
              desc := (p 0).toNat, arrAt := u.bclk, arrKey := arrTake n }
          ∧ ((∀ z ∈ Q.slots, z.2.arrAt = u.bclk → z.2.seq = 0 ∨ z.2.arrKey ≤ arrTake n) → (v.slot q j).seq = Q.seq + 1
              ∧ ∀ i, i ≠ j → v.slot q i = u.slot q i)))
      ∧ (Issues s u n x (oneSyllable 0x4001 []) → c.fits 1 0 →
        (¬ live → ∃ t, exec (.bundleIssue n) s = .next t ∧ BundleEnded seen t n x k (c.moved 2 1 []))
        ∧ (live → exec (.bundleIssue n) s = .next (u.setCore n { s.core n with twait := some h, waitX := false })))
      ∧ (Issues s u n x (oneSyllable 0x4002 []) → c.fits 1 1 →
        (live → ∃ t, exec (.bundleIssue n) s = .next t ∧ BundleEnded seen t n x k (c.moved 2 1 [0]))
        ∧ (¬ live → ∃ t, exec (.bundleIssue n) s = .next t ∧ BundleEnded seen t n x k (c.moved 2 1 [1])))
      ∧ (Issues s u n x (oneSyllable 0x4003 []) → c.fits 1 1 →
        (live → y.st ≠ .ending → ∃ t v, exec (.bundleIssue n) s = .next t ∧ v.cores = u.cores ∧ v.dbgc = u.dbgc
          ∧ BundleEnded v t n x k (c.moved 2 1 [1]) ∧ (t.slot q (h / 256 % 64)).st = .ending ∧ (t.slot q (h / 256 % 64)).aborted = true)
        ∧ (¬ live → ∃ t, exec (.bundleIssue n) s = .next t ∧ BundleEnded seen t n x k (c.moved 2 1 [0])))
      ∧ (∀ w, Issues s u n x (oneSyllable 0x4004 []) → c.fits 2 1 → desc (p 1) w →
        (full ∨ (∀ i, ¬ pool i) ∨ h ≤ u.mt.mtime.toNat →
          ∃ t, exec (.bundleIssue n) s = .next t ∧ BundleEnded seen t n x k (c.moved 2 2 [BitVec.allOnes 64]))
        ∧ (∀ j i, free j → pool i → (∀ l, l < i → ¬ pool l) → u.mt.mtime.toNat < h →
          ∃ t pd, exec (.bundleIssue n) s = .next t ∧ { t with quads := u.quads, cores := u.cores, cue := u.cue } = seen
            ∧ t.cue = { u.cue with held := u.cue.held ++ [i] }
            ∧ t.slot q j = {
                st := .armed, gen := genNext (u.slot q j).gen, core := n.val, ctx := x, byTake := false, level := c.level, tag := c.tag,
                desc := (p 1).toNat, cued := true }
            ∧ (t.core n).tcue = some pd ∧ pd.slot = j ∧ pd.entry = i ∧ pd.time = p 0 ∧ pd.ctx = x ∧ t.ctx n x = { c with depth := c.depth - 2 }))
      ∧ (Issues s u n x (oneSyllable 0x4005 []) →
        ∃ t v, exec (.bundleIssue n) s = .next t ∧ { v with quads := u.quads } = seen ∧ (∀ r, r ≠ q → v.quad r = u.quad r)
          ∧ { v.quad q with fences := Q.fences } = Q ∧ BundleEnded v t n x k (c.moved 2 0 [])
          ∧ (∀ f ∈ (v.quad q).fences, f ∈ Q.fences ∨ f = (n.val, x, Q.seq))
          ∧ (∀ z ∈ Q.slots, z.2.byTake = true → z.2.core = n.val → z.2.ctx = x → z.2.seq ≠ 0 → z.2.seq ≤ Q.seq → z.2.st ≠ .free → z.2.st ≠ .armed →
              (n.val, x, Q.seq) ∈ (v.quad q).fences))
      ∧ (Issues s u n x (oneSyllable 0x4006 []) → c.fits 0 1 → (∀ z ∈ Q.slots, z.1 < 64) →
        let count := fun (f : SlotSt → Bool) => ((List.range 64).filter fun j => f (u.slot q j).st).length
        ∃ t, exec (.bundleIssue n) s = .next t ∧ BundleEnded seen t n x k (c.moved 2 0 [BitVec.ofNat 64
          (count (fun st => decide (st = .free)) + 2 ^ 8 * count (fun st => decide (st = .queued))
            + 2 ^ 16 * count (fun st => decide (st = .running) || decide (st = .ending)))])))

/-! ## Chains -/

/-- R215: a reel starts with its directory entry's START and, on a cache miss, its first eight microwords; four more arrive at a
fill. R210 to R214: a microword that does not wait has its effects; in COPY each element of the vector that has landed is
staged for its place in stream E, its line steered with its first element (R191), and the element pointer moves on by a vector.
Completion of: `reelStart`, `reelCacheFill`, `microwordIssue`. -/
def Obligations.ReelsStartAndIssue : Prop :=
  ∀ (s : State) (p : Fin 68) (r : Strip), s.formed = true → (s.chain p).strip = some r → r.ended = false → r.stop = false →
    let c := s.chain p
    let t := s.slot r.q r.slot
    let Q := s.quad r.q
    let sound := fun w => Q.flips w = 0 ∧ Q.rewrite.contains w = false ∧ Q.mcBad.contains w = false
    (r.ready = false → t.fetched = true → pipeHeld s r = false → awake s (domStore r.q) = true → awake s (domChain p) = true →
      (cacheHit s p r = true → min 8 t.ent.len ≤ c.cache.length → ∃ r', exec (.reelStart p) s = .next (s.setChain p { c with strip := some r' })
        ∧ { r' with streams := r.streams, micro := r.micro } = { r with ready := true }
        ∧ (r.micro.pc = 0 → r.micro.ptr = r.lo → r.micro.vfirst = true → r'.micro = { r.micro with pc := t.ent.start }))
      ∧ (cacheHit s p r = false → (∀ i, i < min 8 t.ent.len → sound (t.ent.basew + i)) → ∃ r', exec (.reelStart p) s = .next (s.setChain p
          { c with cache := (List.range (min 8 t.ent.len)).map (fun i => tget storeD Q.store (t.ent.basew + i)), cacheBad := [],
                   cacheId := some (t.reel, (Q.entry t.reel).count), strip := some r' })
        ∧ { r' with streams := r.streams, micro := r.micro } = { r with ready := true }))
    ∧ (r.ready = true → c.cache.length < t.ent.len → awake s (domStore r.q) = true →
      (∀ i, c.cache.length ≤ i → i < min (c.cache.length + 4) t.ent.len → sound (t.ent.basew + i)) →
      ∃ r', exec (.reelCacheFill p) s = .next (s.setChain p
          { c with cache := c.cache ++ (rangeFrom c.cache.length (min 4 (t.ent.len - c.cache.length))).map (fun i => tget storeD Q.store (t.ent.basew + i)),
                   strip := some r' })
        ∧ { r' with streams := r.streams } = r)
    ∧ (r.ready = true → t.imgWait = false → pipeHeld s r = false → badWord c t r = none → awake s (domChain p) = true → stagedLines r + 2 * t.width ≤ 1024 → s.blk.testen = false →
      (∀ v, issueOne s c t (snapshot r) = some v → steerWaits s (sendsOn s t r) t r v.stores = none → exec (.microwordIssue p) s = .next (issueVec p t (snapshot r) v s))
      ∧ (∀ f : Nat → Word, shipOf c t = some 0 → r.spliced = false → t.mode 0 = 1 → t.mode 4 = 1 → t.mode 5 = 0 →
        r.micro.ptr + t.width < r.hi → (∀ i ∈ active t r, landGet r 0 i = some (f i)) →
        t.cap = none → (∀ i ∈ active t r, 0 ≤ linAddr t 4 i ∧ linAddr t 4 i + 8 ≤ 2 ^ 39
          ∧ (let l := (linAddr t 4 i).toNat / 64
             (r.steered.any fun x => decide (x.1 = l)) = true
             ∨ (bstAwake s (l / 2 ^ 14) = true ∧ tget zeroD s.steer.synd (l / 2 ^ 14) = 0
                 ∧ steerCheck (s.bstEntry (l / 2 ^ 14)) t.level t.jobtag false true = none))) →
        ∃ u r', exec (.microwordIssue p) s = .next u ∧ u.chain p = { c with strip := some r' } ∧ (∀ j, j ≠ p.val → u.chain j = s.chain j)
          ∧ { u with chains := s.chains, doms := s.doms } = s
          ∧ r'.micro = { r.micro with ptr := r.micro.ptr + t.width, vfirst := true }
          ∧ r'.staged = r.staged ++ (active t r).map (fun i => ⟨4, i, (linAddr t 4 i).toNat, f i⟩)
          ∧ r'.unacked = r.unacked ++ (active t r).map (fun i => ⟨4, i, (linAddr t 4 i).toNat / 64⟩)
          ∧ (∀ i ∈ active t r, let l := (linAddr t 4 i).toNat / 64
              ∃ x ∈ r'.steered, x.1 = l ∧ (x ∈ r.steered ∨ (let o := steerPort (s.bstEntry (l / 2 ^ 14)) l
                x.2 = (o, s.ptPhys o))))
          ∧ { r' with micro := r.micro, staged := r.staged, unacked := r.unacked, snaps := r.snaps, gflags := r.gflags, steered := r.steered } = r))

/-- R156, R159, R160, R161: the oldest group of a strip whose vectors have all issued commits: its end becomes the first
uncommitted element, its flags join the strip's, ELEM grows by its elements, and at a frame boundary a checkpoint is kept. A
first residue mismatch counts in RESCNT, GREPLAY and REPLAYS, and puts the strip back to the snapshot of that group; a second
one makes the chain faulty. R164, R165, R138: a strip that has ended, all its groups committed, folds its lanes into one
crucible; each joins the take's total in one hop; when every strip has joined, the chain of the first one rounds the total
once and stages it for E(0), its line steered (R191). A step that succeeds ends its retry. Where a laboratory reel has accumulated by more
than one RED operation the total is a free value (log entry 150, R152, R208).
Completion of: `residueMismatch`, `groupCommit`, `laneFold`, `combineHop`, `finalRounding`. -/
def Obligations.GroupsAndReductions : Prop :=
  (∀ (s : State) (p : Fin 68) (r : Strip), s.formed = true → (s.chain p).strip = some r →
     let c := s.chain p
     let t := s.slot r.q r.slot
     (r.ended = false → r.cptr < groupEnd r → groupEnd r ≤ reached r → ∃ r', exec (.groupCommit p) s = .next (s.setChain p
         { c with strip := some r', elem := if c.en then c.elem + BitVec.ofNat 64 (groupEnd r - r.cptr) else c.elem })
       ∧ r'.cptr = groupEnd r ∧ r'.retried = false ∧ r'.flags = r.flags ||| tget zeroD r.gflags (groupOf r r.cptr)
       ∧ r'.grp = r.grp.filter (fun x => decide (x.1 / 16 ≠ groupOf r r.cptr))
       ∧ r'.micro = r.micro ∧ r'.staged = r.staged ∧ r'.unacked = r.unacked
       ∧ (groupEnd r % 4096 = 0 → groupEnd r < r.hi → ∃ n, r'.cks = r.cks ++ [(n,
           { micro := tget (fun _ => r.micro) r.snaps (groupOf r r.cptr + 1), pass2 := r.pass2, lanes := r'.lanes, flags := r'.flags })])
       ∧ (groupEnd r % 4096 ≠ 0 ∨ r.hi ≤ groupEnd r → r'.cks = r.cks))
     ∧ (r.ready = true → uncommitted r = true → r.stop = false → failing t = false → r.badGrp ≠ some r.cptr → c.en = true →
       (r.retried = false → (fld c.rescfg 7 0 = 0 ∨ c.winCnt + 1 < fld c.rescfg 7 0) → ∃ u, exec (.residueMismatch p) s = .next u
         ∧ { u with chains := s.chains, quads := s.quads, ras := s.ras } = s
         ∧ u.chain p = { c with strip := some (replayGroup t r), rescnt := satInc c.rescnt, winCnt := c.winCnt + 1, greplay := satInc c.greplay,
                                    undo := some (s.bclk, decide (c.greplay ≠ BitVec.allOnes 32), decide (t.replays < 255)) }
         ∧ u.slot r.q r.slot = { t with replays := min 255 (t.replays + 1) })
       ∧ (r.retried = true → ∀ l, s.chUnit p = 0 → repairOf s 0 p = false → s.chLog p = some l →
         repairBusy s 0 (l / 16) = true ∨ (freeSpare s 0 (l / 16)).isSome = true →
         ∃ u, exec (.residueMismatch p) s = .next u ∧ (u.header (pgChain p)).fault = true ∧ (u.chain p).strip = none
           ∧ (u.chain p).rescnt = satInc c.rescnt))
     ∧ (let x := replayGroup t r
        x.cptr = r.cptr ∧ x.retried = true ∧ x.ended = false ∧ x.grp = [] ∧ x.gflags = []
        ∧ x.micro = tget (fun _ => r.micro) r.snaps (groupOf r r.cptr) ∧ ∀ e ∈ x.staged, e ∈ r.staged ∧ e.elem < r.cptr))
  ∧ (∀ (s : State) (p : Fin 68) (r : Strip), s.formed = true → (s.chain p).strip = some r → passEnded r = true → r.spliced = false →
       let c := s.chain p
       let t := s.slot r.q r.slot
       let op := redOp c t
       let once := fun u : State => if r.retried then u.setChain p { u.chain p with strip := some { r with retried := false } } else u
       op ≠ 0 → twoPass t = false →
       (partOf t r.pos = none → exec (.laneFold p) s = .next (once (s.setSlot r.q r.slot
         { t with parts := t.parts ++ [⟨r.pos, r.lanes.foldl (fun a x => crucAdd t.rm t.etype op a x.2) {}, r.micro.pks⟩] })))
       ∧ (∀ x, partOf t r.pos = some x → r.pos ≠ 0 → t.hops.contains r.pos = false → failing t = false →
         exec (.combineHop p) s = .next (finishStrip p (once (s.setSlot r.q r.slot
           { t with total := crucAdd t.rm t.etype op t.total x.cr, hops := t.hops ++ [r.pos] }))))
       ∧ (∀ x, partOf t r.pos = some x → r.pos = 0 → t.st = .ending → failing t = false → t.stored = false → t.cru = false → t.mode 4 = 1 →
         (∀ i, 0 < i → i < t.chains.length → t.hops.contains i = true) → 0 ≤ linAddr t 4 0 → linAddr t 4 0 + 8 ≤ 2 ^ 39 →
         let y := if 1 < (redKinds c t).length then (Config.openLane s.fresh, 0) else redFinal t.rm t.etype op (crucAdd t.rm t.etype op t.total x.cr)
         let a := (linAddr t 4 0).toNat
         let g := a / 2 ^ 20
         let o := steerPort (s.bstEntry g) (a / 64)
         (r.steered.any fun x => decide (x.1 = a / 64)) = false → bstAwake s g = true → tget zeroD s.steer.synd g = 0 →
         steerCheck (s.bstEntry g) t.level t.jobtag false true = none →
         exec (.finalRounding p) s = .next (finishStrip p ((addDemand (domBst (bstHalf g))
           { s.setSlot r.q r.slot { t with stored := true, flags := t.flags ||| y.2 } with fresh := s.fresh + 1 }).setChain p
           { c with strip := some { r with retried := false, staged := r.staged ++ [⟨4, 0, a, y.1⟩], unacked := r.unacked ++ [⟨4, 0, a / 64⟩],
                                           steered := r.steered ++ [(a / 64, o, s.ptPhys o)] } }))))

/-- R170, R173, R191: the next vector of channel P, or element of a cross-quadrant link, reaches its chain; the link's producer counts
its element as stored. A store line that is ready gets an entry of the marver with the port that the steering gave when its first
element was staged; a read element that has not been asked for, with a free slot in the read region, gets one with the port that the Bank
Steering Table gives; the lookup is a demand on its half (R294).
Completion of: `marverEntryCreation`, `spliceVectorArrival`, `linkElementArrival`. -/
def Obligations.ElementsReachChainsAndMarver : Prop :=
  ∀ (s : State) (p : Fin 68) (r : Strip), s.formed = true → (s.chain p).strip = some r →
    let c := s.chain p
    let t := s.slot r.q r.slot
    let port := fun l => steerPort (s.bstEntry (l / 2 ^ 14)) l
    let looked := fun l => addDemand (domBst (bstHalf (l / 2 ^ 14))) s
    let open_ := fun l st => bstAwake s (l / 2 ^ 14) = true ∧ tget zeroD s.steer.synd (l / 2 ^ 14) = 0
      ∧ steerCheck (s.bstEntry (l / 2 ^ 14)) t.level t.jobtag false st = none
    (∀ v l, r.ready = true → r.chan = v :: l → r.fin = [] → t.imgWait = false → t.ship ≠ some 0x0D →
      exec (.spliceVectorArrival p) s = .next (s.setChain p { c with strip := some { r with spin := r.spin ++ [v], chan := l } }))
    ∧ (∀ e l, recvLink s t r = true → tget (fun _ => []) s.link r.lchain = e :: l → r.lo + r.lin.length < r.hi →
      r.lin.length < (r.cptr - r.lo) + 8 * regionLines r → exec (.linkElementArrival p) s = .next (linkStored e
        { s.setChain p { c with strip := some { r with lin := r.lin ++ [e.val] } } with link := tset (fun _ => []) r.lchain l s.link }))
    ∧ (generatorOn s p r = true → s.blk.testen = false → c.marver.length < 512 →
      (∀ x l, r.ended = true → r.staged = [x] → r.stgErr = [] → (r.steered.find? fun y => decide (y.1 = x.addr / 64)) = some l →
        exec (.marverEntryCreation p) s = .next (s.setChain p
        { c with strip := some { r with staged := [], steered := r.steered.filter fun y => decide (y.1 ≠ x.addr / 64) },
                 marver := c.marver ++ [storeEntry (x.addr / 64) [x] t s.bclk l.2] }))
      ∧ (r.ended = false → t.ship = some 0 → r.spliced = false → r.streams = [0] → t.mode 0 = 1 → r.hi = r.from_ + 1 → r.micro.ptr = r.from_ →
        r.nxt = [] → c.marver = [] → r.staged = [] → t.imgWait = false → t.cap = none → r.stop = false → t.serial = false → t.holds = [] →
        1 ≤ t.width → roomFor s p r 0 = true → 0 ≤ linAddr t 0 r.from_ → linAddr t 0 r.from_ + t.esize 0 ≤ 2 ^ 39 → open_ ((linAddr t 0 r.from_).toNat / 64) false →
        let a := (linAddr t 0 r.from_).toNat
        exec (.marverEntryCreation p) s = .next ((looked (a / 64)).setChain p
          { c with strip := some { r with nxt := [(0, 1)] },
                   marver := [{ line := a / 64, wr := false, lp := port (a / 64), pp := s.ptPhys (port (a / 64)),
                                places := [(0, (r.from_ : Int), a % 64)], elems := [], stamp := s.bclk, jobtag := t.jobtag,
                                elem := r.from_ }] })))

/-! ## Ports -/

/-- R193, R194: the one offer of a BCLK that its port can take leaves its marver, takes the lowest free tag, a request credit
and, for a store, a write-data credit; the port presents its oldest request that is not sent, with its parity, and a store's two beats with their enables and
CRC (R177, R181). R178, R201: credits return one
at a time; one above the initial value is a protocol error. R336, R340, R342: a port logic fault sets FAULT and starts or
queues the port's repair; a tag held longer than PTMO is one. Once the tags have returned, or PTMO has passed, the lowest free
spare takes the logical port, the requests left are sent again there in order under new tags, and the old port is retired.
Completion of: `marverOffer`, `requestAtBoundary`, `reqCrd`, `wdCrd`, `responseCreditReturn`, `tagTimeout`, `portLogicFault`,
`portSubstituted`. -/
def Obligations.PortsSendAndAreReplaced : Prop :=
  (∀ s : State, s.formed = true →
     (∀ (p : Nat) (c : Chain) (r : Strip) (e : MvEntry), s.steer.gwQ = [] → s.chains = [(p, c)] → c.strip = some r → c.marver = [e] →
       e.holdTo = none → s.bclk < e.stamp + 1024 → (s.port e.pp).lost = false → portTakes s e.pp e.wr = true →
       let q := s.port e.pp
       let tags := q.tags ++ [(freeTag q, { src := .chain p r.q r.slot r.gen, ent := e, order := q.order, since := s.bclk })]
       ∃ t, exec .marverOffer s = .next t ∧ { t with chains := s.chains, ports := s.ports, pgrps := s.pgrps } = s
         ∧ t.chain p = { c with marver := [] }
         ∧ t.port e.pp = { q with tags := tags, reqCrd := q.reqCrd - 1, wdCrd := if e.wr then q.wdCrd - 1 else q.wdCrd, order := q.order + 1 }
         ∧ (t.pgrp (portGroup e.pp)).taghw.toNat = max (s.pgrp (portGroup e.pp)).taghw.toNat (tags.length % 512))
     ∧ (∀ (p : Fin 528) (n : Nat) (x : TagReq), (s.port p).tags = [(n, x)] → x.sent = false → x.pay = false →
       let t := s.setPort p { s.port p with tags := [(n, { x with sent := true })], outTag := some n, outAt := some s.bclk }
       exec (.requestAtBoundary p) s = .next t
       ∧ (s.blk.started = true → portPark s (portGroup p) = none →
         let o := portPins t p
         let d := mergeLine 0 x.ent.data x.ent.be
         let ecc := (List.range 8).map fun w => checkByte (lineWord d w)
         o.reqV = true ∧ o.reqWr = x.ent.wr ∧ o.tag = BitVec.ofNat 9 n ∧ o.lport = BitVec.ofNat 9 x.ent.lp
         ∧ o.laddr = BitVec.ofNat 24 (x.ent.line / 2 ^ 9)
         ∧ oddOnes 44 (b2n x.ent.wr + 2 * o.tag.toNat + 2 ^ 10 * o.lport.toNat + 2 ^ 19 * o.laddr.toNat + 2 ^ 43 * b2n o.reqPar) = true
         ∧ o.wdV = x.ent.wr
         ∧ (x.ent.wr = true → o.wdTag = o.tag ∧ o.beats.map WdBeat.last = [false, true]
             ∧ o.beats.map WdBeat.data = [BitVec.ofNat 256 d.toNat, BitVec.ofNat 256 (d.toNat >>> 256)]
             ∧ o.beats.map WdBeat.be = [BitVec.ofNat 32 x.ent.be.toNat, BitVec.ofNat 32 (x.ent.be.toNat >>> 32)]
             ∧ o.wdCrc = crc32c ((List.range 64).map (byteOf d) ++ ecc.map (BitVec.setWidth 8) ++ (List.range 8).map (byteOf x.ent.be)))))
     ∧ (∀ p : Fin 528, s.blk.started = true → s.ptUnit p ≠ 2 →
       let q := s.port p
       let g := s.pgrp (portGroup p)
       (q.reqCrd < initReq g → exec (.reqCrd p) s = .next (s.setPort p { q with reqCrd := q.reqCrd + 1 }))
       ∧ (initReq g ≤ q.reqCrd → exec (.reqCrd p) s = exec (.portLogicFault p) s)
       ∧ (q.wdCrd < initWd g → exec (.wdCrd p) s = .next (s.setPort p { q with wdCrd := q.wdCrd + 1 }))
       ∧ (initWd g ≤ q.wdCrd → exec (.wdCrd p) s = exec (.portLogicFault p) s)
       ∧ (q.rspOwe ≠ 0 → exec (.responseCreditReturn p) s = .next (s.setPort p
           { q with rspOwe := q.rspOwe - 1, rspCrd := q.rspCrd + 1, crdAt := some s.bclk }))))
  ∧ (∀ (s : State) (p : Fin 528), s.formed = true →
       let q := s.port p
       (∀ l, s.blk.started = true → q.fault = false → s.ptUnit p ≠ 2 → s.ptLog p = some l →
         (∃ t, exec (.portLogicFault p) s = .next t
           ∧ { t with ports := s.ports, hdr := s.hdr, ras := s.ras, cullet := s.cullet } = s
           ∧ t.port p = { q with fault := true, faultAt := s.bclk } ∧ (t.header (pgPgrp (portGroup p))).fault = true
           ∧ (let r : Repair := ⟨3, 0, l, p, none, false⟩
              t.cullet = if repairBusy s 3 0 then { s.cullet with waiting := s.cullet.waiting ++ [r] }
                else { s.cullet with running := s.cullet.running ++ [r] }))
         ∧ (∀ (tag : BitVec 9) (i : Nat) (x : TagReq), (q.tags.find? fun y => decide (y.1 = tag.toNat)) = some (i, x) →
           s.blk.warm = false → x.since + s.cullet.ptmo.toNat < s.bclk →
             ∃ t, exec (.tagTimeout p tag) s = .next t ∧ exec (.portLogicFault p) s = .next t ∧ (t.port p).fault = true))
       ∧ (∀ r u, (s.cullet.running.find? fun x => decide (x.kind = 3) && decide (x.old = p.val)) = some r →
         (q.tags = [] ∨ q.faultAt + s.cullet.ptmo.toNat ≤ s.bclk) → freeSpare (endRepair r s) 3 0 = some u → u ≠ p.val →
         (∀ x ∈ s.cullet.waiting, x.kind ≠ 3) →
         ∃ t, exec (.portSubstituted p) s = .next t
           ∧ t.ptPhys r.logical = u ∧ t.ptUnit u = 0 ∧ t.ptUnit p = 2 ∧ (t.port p).tags = []
           ∧ (t.port u).tags.map Prod.snd = (s.port u).tags.map Prod.snd ++ (byOrder q.tags).zipIdx.map (fun x =>
               { x.1 with pay := true, sent := false, order := (s.port u).order + x.2, since := s.bclk, ent := { x.1.ent with pp := u } })
           ∧ ((s.port u).tags = [] → (s.port u).gone = [] → q.tags.length ≤ 384 → (t.port u).tags.map Prod.fst = List.range q.tags.length)
           ∧ { t with cullet := s.cullet, steer := s.steer, chains := s.chains, ports := s.ports, ras := s.ras, pgrps := s.pgrps } = s))

/-- R178, R180, R182: a response of the expected kind with odd parity and the beats that suit it takes a response credit; any other
is a port logic fault. ACK acknowledges the store; DATA whose CRC
and words are good gives the line to its requester; a failed CRC, or RETRY, sends the request again once, under the same tag; UERR,
or a second failure, is an uncorrectable outcome, counted and logged. Each frees the tag but the one that sends again.
Completion of: `data`, `ack`, `uerr`, `retry`. -/
def Obligations.ResponsesEndRequests : Prop :=
  ∀ (s : State) (p : Fin 528) (tag : BitVec 9) (x : TagReq) (i : Nat), s.formed = true → s.blk.started = true → s.blk.testen = false →
    s.ptUnit p ≠ 2 → ((s.port p).tags.find? fun y => decide (y.1 = tag.toNat) && y.2.sent) = some (i, x) → (s.port p).rspCrd ≠ 0 →
    let q := s.port p
    let g := s.pgrp (portGroup p)
    let q1 := { q with rspCrd := q.rspCrd - 1, rspOwe := q.rspOwe + 1 }
    let gone := s.setPort p { q1 with tags := q.tags.filter fun y => decide (y.1 ≠ tag.toNat) }
    let again := (s.setPort p { q1 with tags := q.tags.map fun y =>
      if y.1 = tag.toNat then (y.1, { y.2 with resent := true, pay := true, sent := false }) else y }).setPgrp (portGroup p)
        { g with crcrty := satInc g.crcrty }
    let bad := failRequest x.src x.ent (logEv 0x30 1 (pgPgrp (portGroup p)) (p + tag.toNat * 2 ^ 16)
      (gone.setPgrp (portGroup p) { g with uerr := satInc g.uerr }))
    let good := fun (stat : Nat) (h : RspHead) => oddOnes 12 (tag.toNat + 512 * stat + 2048 * b2n h.tpar) = true ∧ h.beats = if stat = 0 then 2 else 1
    (∀ h : RspHead, x.ent.wr = true → (good 1 h → exec (.ack p tag h) s = .next (ackStore x.src x.ent gone))
      ∧ (good 3 h → x.resent = false → exec (.retry p tag h) s = .next again)
      ∧ (good 3 h → x.resent = true → exec (.retry p tag h) s = .next bad))
    ∧ (∀ h : RspHead, good 2 h → exec (.uerr p tag h) s = .next bad)
    ∧ (∀ h : RspHead, (¬ good 1 h ∨ x.ent.wr = false → exec (.ack p tag h) s = .next (portFault p (s.setPort p q1)))
      ∧ (¬ good 2 h → exec (.uerr p tag h) s = .next (portFault p (s.setPort p q1)))
      ∧ (¬ good 3 h ∨ x.ent.wr = false → exec (.retry p tag h) s = .next (portFault p (s.setPort p q1)))
      ∧ (∀ (line : Line) (b : RspBits), ¬ good 0 b.head ∨ x.ent.wr = true → exec (.data p tag line b) s = .next (portFault p (s.setPort p q1))))
    ∧ (x.ent.wr = false → ∀ (line : Line) (b : RspBits), good 0 b.head →
      (crc32c (crcBytes line b.ecc) = b.crc → (∀ j, j < 8 → checkByte (lineWord line j) = byteOf b.ecc j) →
        exec (.data p tag line b) s = .next (lineLands x.src x.ent line gone))
      ∧ (crc32c (crcBytes line b.ecc) ≠ b.crc → x.resent = false → exec (.data p tag line b) s = .next again)
      ∧ (crc32c (crcBytes line b.ecc) ≠ b.crc → x.resent = true → exec (.data p tag line b) s = .next bad))

/-! ## The stream microcode store -/

/-- R205, R218, R220, R225: MCCMD starts INSTALL, CLEAR or RELOAD of the entry at DIRIDX, while none runs; CLEAR and RELOAD clear VALID at
once (no more than that where no take was fetched in this BCLK), and a command while one runs is ignored and sets CMDLOST. DIRIDX loads its entry into DIRD0 to DIRD3. An aligned window write
at level MACHINE of a word in no VALID entry's range takes the half written with fresh check bytes, whether CFGERR stands or not; of a word
in such a range it is refused with code 0x0A, which MCERR records if CFGERR was 0. R30: an access that is not aligned is not accepted.
Completion of: `install`, `clear`, `reload`, `diridx`, `microcodeWindowWrite`. -/
def Obligations.MicrocodeCommandsStart : Prop :=
  ∀ (s : State) (m : Master) (q : Fin 4), s.formed = true → pageAsleep s (.quad q) = false → awake s (domStore q) = true →
    let Q := s.quad q
    let o := pgQuad q * 0x1000 + 0x488
    let u := addDemand (domStore q) s
    (m.reachesAsMachine s (pgQuad q) 0x488 = true →
      (Q.mcRun = none →
        exec (.install m q) s = .next (m.told s o true 0 (u.setQuad q { Q with mcRun := some (1, Q.diridx.toNat), mcCmd := 1 }))
        ∧ (∃ t, exec (.clear m q) s = .next (m.told s o true 0 t)) ∧ (∃ t, exec (.reload m q) s = .next (m.told s o true 0 t))
        ∧ ((∀ n, n < 64 → (s.slot q n).fetchAt ≠ some s.bclk) →
          exec (.clear m q) s = .next (m.told s o true 0 (u.setQuad q { Q with
            mcRun := some (2, Q.diridx.toNat), mcCmd := 2, dir := tset dirInit Q.diridx.toNat (Q.entry Q.diridx.toNat).clear Q.dir }))
          ∧ (∃ t, exec (.reload m q) s = .next (m.told s o true 0 t)
            ∧ { t with quads := s.quads, doms := s.doms, pau := s.pau } = s
            ∧ (t.quad q).mcRun = some (3, 0) ∧ (tabWf dirInit 0 Q.dir = true → ∀ k, k < 16 → ((t.quad q).entry k).valid = false)
            ∧ (tabWf dirInit 0 Q.dir = true → ∀ k, 16 ≤ k → (t.quad q).entry k = Q.entry k)
            ∧ (reelRuns s q (fun k => decide (k < 16)) = false → ∃ r ∈ t.pau.reqs, r.for_ = .reload q))))
      ∧ (∀ x, Q.mcRun = some x → exec (.install m q) s = .next (m.told s o true 0 (s.setQuad q { Q with cmdlost := true }))
        ∧ exec (.clear m q) s = .next (m.told s o true 0 (s.setQuad q { Q with cmdlost := true }))
        ∧ exec (.reload m q) s = .next (m.told s o true 0 (s.setQuad q { Q with cmdlost := true }))))
    ∧ (∀ v : Reg, m.reachesAsMachine s (pgQuad q) 0x48C = true → Q.mcRun = none → tabWf zeroD 0 Q.dird = true →
      ∃ d, exec (.diridx m q v) s = .next (m.told s (pgQuad q * 0x1000 + 0x48C) true 0
          (s.setQuad q { Q with diridx := BitVec.ofNat 9 (fld v 8 0), dird := d }))
        ∧ (let e := Q.entry (fld v 8 0)
           tget zeroD d 0 = e.d0 ∧ tget zeroD d 1 = e.d1 ∧ tget zeroD d 2 = e.d2 ∧ tget zeroD d 3 = e.d3))
    ∧ (∀ (off : BitVec 18) (wide : Bool) (v : Word), m.reachesAsMachine s (pgQuad q) 0x400 = true →
      let w := off.toNat / 32
      let sub := off.toNat % 32
      off.toNat % (if masterWide m wide then 8 else 4) = 0 →
      (mcLocked Q w = false → (∀ u, Q.mcUndo = some u → u.1 = s.bclk → u.2.1 = w → u.2.2.2 = false) →
      sub < 16 → tabWf storeD 0 Q.store = true → tabWf zeroD 0 Q.mcSynd = true →
      ∃ t, exec (.microcodeWindowWrite m q off wide v) s = .next (m.told s (0x1400000 + q * 0x40000 + off.toNat) true 0 t)
        ∧ { t with quads := s.quads } = u
        ∧ dataHalf ((t.quad q).data w) (sub / 8) = (if masterWide m wide then v
            else if sub % 8 = 0 then setFld (dataHalf (Q.data w) (sub / 8)) 31 0 (fld v 31 0)
            else setFld (dataHalf (Q.data w) (sub / 8)) 63 32 (fld v 31 0))
        ∧ dataHalf ((t.quad q).data w) (1 - sub / 8) = dataHalf (Q.data w) (1 - sub / 8)
        ∧ halfSyn ((t.quad q).flips w) (sub / 8) = 0
        ∧ ∀ x, x ≠ w → (t.quad q).data x = Q.data x)
      ∧ (∀ n, m = .core n → mcLocked Q w = true → ∃ t, exec (.microcodeWindowWrite m q off wide v) s = .next t
        ∧ { t with quads := s.quads, hdr := s.hdr, ras := s.ras, start := s.start } = u ∧ (t.header (pgQuad q)).cfgerr = true
        ∧ t.quad q = if (s.header (pgQuad q)).cfgerr then Q else { Q with mcerr := BitVec.ofNat 32 (w + 10 * 2 ^ 24) }))
    ∧ (∀ (n : Fin 16) (x : BitVec 18) (wide : Bool) (v : Word), x.toNat % (if wide then 8 else 4) ≠ 0 →
        exec (.microcodeWindowWrite (.core n) q x wide v) s = .next s)

/-- R218, R219, R221: INSTALL ends with its RESULT and FAILADDR, and makes the described entry VALID where its verification finds no
failure; CLEAR ends once no strip runs the reel; RELOAD, with its leave, rewrites the library and its entries. Scrubbing reads the
next word, corrects a single error and counts it; a library word with an uncorrectable one is rewritten.
Completion of: `installComplete`, `clearComplete`, `reloadComplete`, `microcodeScrub`, `microwordRewrite`. -/
def Obligations.MicrocodeCommandsComplete : Prop :=
  ∀ (s : State) (q : Fin 4), s.formed = true →
    let Q := s.quad q
    let w := Q.scrub
    let moved := { Q with scrub := (w + 1) % 8192 }
    (∀ k, Q.mcRun = some (1, k) → awake s (domStore q) = true →
      ((Q.entry k).valid = true → exec (.installComplete q) s = .next (s.setQuad q { Q with mcRun := none, mcResult := 8, failaddr := 0 }))
      ∧ ((Q.entry k).valid = false → dirBad Q.described = true →
          exec (.installComplete q) s = .next (s.setQuad q { Q with mcRun := none, mcResult := 1, failaddr := 0 }))
      ∧ (∀ t r f, mcVerify q k s = (t, r, f) → r ≠ 0 →
          exec (.installComplete q) s = .next (t.setQuad q { t.quad q with mcRun := none, mcResult := BitVec.ofNat 4 r, failaddr := BitVec.ofNat 9 f }))
      ∧ (∀ t f, mcVerify q k s = (t, 0, f) →
          let e := (t.quad q).described
          exec (.installComplete q) s = .next (t.setQuad q { t.quad q with
            mcRun := none, mcResult := 0, failaddr := BitVec.ofNat 9 f,
            dir := tset dirInit k { e with d0 := setBit e.d0 31 true, count := ((t.quad q).entry k).count + 1, instAt := some s.bclk } (t.quad q).dir })))
    ∧ (∀ k, Q.mcRun = some (2, k) → reelRuns s q (fun j => decide (j = k)) = false →
      exec (.clearComplete q) s = .next (s.setQuad q { Q with mcRun := none }))
    ∧ (∀ k, Q.mcRun = some (3, k) → awake s (domStore q) = true → (s.pau.held.any fun h => decide (h.1 = .reload q.val)) = true →
      ∃ t, exec (.reloadComplete q) s = .next t ∧ { t with quads := s.quads, pau := s.pau, ras := s.ras } = s
        ∧ (t.quad q).mcRun = none ∧ (t.pau.held.any fun h => decide (h.1 = .reload q.val)) = false
        ∧ (tabWf storeD 0 Q.store = true → ∀ x, x < libWords → tget storeD (t.quad q).store x = none)
        ∧ (tabWf storeD 0 Q.store = true → ∀ x, libWords ≤ x → tget storeD (t.quad q).store x = tget storeD Q.store x)
        ∧ (tabWf dirInit 0 Q.dir = true → ∀ j, j < 16 → (t.quad q).entry j = { libEntry j with count := (Q.entry j).count + 1 }))
    ∧ (s.blk.started = true → bit Q.mcctl 0 = true → awake s (domStore q) = true → Q.rewrite.contains w = false → Q.mcBad.contains w = false →
      (Q.flips w = 0 → exec (.microcodeScrub q) s = .next (s.setQuad q moved))
      ∧ (∀ i, i < 64 → Q.flips w = BitVec.ofNat 144 (2 ^ i) →
          exec (.microcodeScrub q) s = .next (s.setQuad q { moved with mcSynd := tset zeroD w 0 Q.mcSynd, mccorr := satInc Q.mccorr })))
    ∧ (∀ x l, Q.rewrite = x :: l → tabWf storeD 0 Q.store = true → tabWf zeroD 0 Q.mcSynd = true → ∃ t, exec (.microwordRewrite q) s = .next t
        ∧ { t with quads := s.quads } = s ∧ tget storeD (t.quad q).store x = none ∧ (t.quad q).flips x = 0
        ∧ (t.quad q).rewrite = Q.rewrite.filter (· ≠ x) ∧ ∀ y, y ≠ x → (t.quad q).data y = Q.data y)

/-! ## Steering -/

/-- R186, R187, R196, R200, R202, R203, R345: an aligned write of the Bank Steering Table takes its entries, whether CFGERR stands or not, and
drops the gateway's lines of their granules; one that sets a reserved bit is refused with code 0x01, which BSTERR records if CFGERR was 0,
and one that is not aligned is not accepted (R30). The scrubber corrects a single error in place, counts it and moves on, at the end of
the table to a new pass, and a window read does so too; a row that is due moves to a spare row of its half, and with none free it stays
and the entry has DETAIL[31] = 1. FLUSH drops
the buffer, a defined HMCFG restarts the window, and the end of a window clears the counts.
Completion of: `steeringRowReplaced`, `bankSteeringTableWrite`, `bstScrub`, `flush`, `hotWindowEnd`, `hmcfg`. -/
def Obligations.SteeringIsKept : Prop :=
  ∀ (s : State) (m : Master), s.formed = true →
    (∀ (off : BitVec 21) (wide : Bool) (v : Word), m.reaches s pgSteer 0x400 = true → (masterLvl s m).1 ≠ 2 →
      off.toNat % (if masterWide m wide then 8 else 4) = 0 →
      let g := off.toNat / 4
      let both := masterWide m wide
      let good := fld v 31 24 = 0 ∧ (both = true → fld v 63 56 = 0)
      bstAwake s g = true →
      (∀ n, m = .core n → ¬ good → ∃ t, exec (.bankSteeringTableWrite m off wide v) s = .next t ∧ (t.header pgSteer).cfgerr = true
        ∧ { t with steer := s.steer, hdr := s.hdr, ras := s.ras, start := s.start } = addDemand (domBst (bstHalf g)) s
        ∧ t.steer = if (s.header pgSteer).cfgerr then s.steer else { s.steer with err := BitVec.ofNat 32 (g + 2 ^ 24) })
      ∧ (good → ∃ t, exec (.bankSteeringTableWrite m off wide v) s = .next (m.told s (0x1000000 + off.toNat) true 0 t)
        ∧ { t with steer := s.steer } = addDemand (domBst (bstHalf g)) s
        ∧ t.steer.gwBuf = s.steer.gwBuf.filter (fun x => decide (x.1 / 2 ^ 14 ≠ g) && !(both && decide (x.1 / 2 ^ 14 = g + 1)))
        ∧ t.bstEntry g = v.extractLsb' 0 32
        ∧ (both = true → t.bstEntry (g + 1) = v.extractLsb' 32 32)
        ∧ (∀ x, x ≠ g → (both = false ∨ x ≠ g + 1) → t.bstEntry x = s.bstEntry x ∧ tget zeroD t.steer.synd x = tget zeroD s.steer.synd x)))
    ∧ (∀ (n : Fin 16) (o : BitVec 21) (wide : Bool) (v : Word), o.toNat % (if wide then 8 else 4) ≠ 0 →
        exec (.bankSteeringTableWrite (.core n) o wide v) s = .next s)
    ∧ (let g := s.steer.scrub
       s.blk.started = true → bit s.steer.bstctl 0 = true → bstAwake s g = true →
        (tget zeroD s.steer.synd g = 0 → exec .bstScrub s = .next (s.setSteer (if g + 1 = 524288 then
            { s.steer with scrub := 0, rowPrev := s.steer.rowNow, rowNow := [] } else { s.steer with scrub := g + 1 })))
        ∧ (g + 1 < 524288 → bit (tget zeroD s.steer.synd g) 39 = false → popLow (tget zeroD s.steer.synd g) 39 = 1 → s.steer.rowPrev.contains (bstRow g) = false → s.steer.rowNow.contains (bstRow g) = false →
            exec .bstScrub s = .next (s.setSteer { s.steer with
              scrub := g + 1, synd := tset zeroD g 0 s.steer.synd, corr := satInc s.steer.corr, rowNow := s.steer.rowNow ++ [bstRow g] })))
    ∧ (∀ (a : Acc) (o : Nat), o < 0x200000 → o % 4 = 0 → bstOk s a.lj = true → bstAwake s (o / 4) = true →
        popLow (tget zeroD s.steer.synd (o / 4)) 39 = 1 → csRead a (0x1000000 + o) false s =
          .ok ((addDemand (domBst (bstHalf (o / 4))) s).setSteer { s.steer with synd := tset zeroD (o / 4) 0 s.steer.synd, corr := satInc s.steer.corr }) ((s.bstEntry (o / 4)).setWidth 64))
    ∧ (∀ row : Fin 8192, s.steer.rowDue.contains row.val = true → (∀ i, i < 64 → tget zeroD s.steer.synd (64 * row + i) = 0) →
      let inj := s.steer.rowInj.contains row.val
      let low := decide (row.val < 4096)
      let free := if low then s.steer.spare0 else s.steer.spare1
      (free = 0 → ∃ t, exec (.steeringRowReplaced row) s = .next (logEv 0x34 1 pgSteer (row + 2 ^ 31) { s with steer := t } inj)
        ∧ t.spare0 = s.steer.spare0 ∧ t.spare1 = s.steer.spare1 ∧ t.rowDue = s.steer.rowDue.filter (· ≠ row.val)
        ∧ t.bst = s.steer.bst ∧ t.synd = s.steer.synd)
      ∧ (free ≠ 0 → ∃ t, exec (.steeringRowReplaced row) s = .next (logEv 0x34 1 pgSteer row { s with steer := t } inj)
        ∧ (if low then t.spare0 else t.spare1) = free - 1 ∧ t.rowDue = s.steer.rowDue.filter (· ≠ row.val)
        ∧ t.bst = s.steer.bst ∧ t.synd = s.steer.synd))
    ∧ (m.reaches s pgSteer 0x41C = true → exec (.flush m) s = .next (m.told s (pgSteer * 0x1000 + 0x41C) true 0
        (s.setSteer { s.steer with gwBuf := [] })))
    ∧ (∀ v : Reg, m.reaches s pgHotmon 0x400 = true → 10 ≤ fld v 4 0 → fld v 4 0 ≤ 30 → 2 ≤ fld v 14 8 → fld v 14 8 ≤ 65 →
      exec (.hmcfg m v) s = .next (m.told s (pgHotmon * 0x1000 + 0x400) true 0 (s.setHot { s.hot with cfg := v &&& 0xFFFF7F1F, counts := [] })))
    ∧ exec .hotWindowEnd s = .next (s.setHot { s.hot with counts := [] })

/-! ## Retirement, the island and the dailies -/

/-- R339, R291, R367: RETCMD and RETIRE_REQ take a free spare out of the cullet: it is retired, and its domain goes toward COLD, at
once if every request made of it is acknowledged (else PWR_DREQ stays). They repair an active unit as if it had faulted: FAULT of a chain or bank
is set and its repair takes the lowest-numbered free spare, or waits behind one of its quadrant; with no spare the chain
is retired and the bank stays (R340, R341, R344). UNRET returns a retired unit as a free spare, with FAULT clear. R346, R348, R351, R358: a first fault of an island copy is
masked and logged until its reload ends; one of another copy before that freezes the outputs. The log queue writes its oldest
entry at WRIDX, over the oldest unread one when 1,023 are unread, and ATTNP or FAULTP follows its severity; RDIDX takes its
write, and a read of DENT0 latches the entry at DSEL.
Completion of: `islandCopyFault`, `retire`, `unret`, `retireReq`, `dailiesEntryWrite`, `rdidx`, `dent0Read`, `islandReloadEnd`. -/
def Obligations.SparesIslandAndDailies : Prop :=
  (∀ (s : State) (m : Master) (v : Reg), s.formed = true →
     let kind := fld v 1 0
     let u := fld v 25 16
     let spareGone := fun (kind u : Nat) (t : State) =>
       { t with cullet := s.cullet, ras := s.ras, doms := s.doms, pau := s.pau } = s ∧ unitSt t kind u = 2
       ∧ (∀ d, unitDom kind u = some d → (∀ e, e ≠ d → t.dom e = s.dom e)
         ∧ ((s.dom d).wleave = false → (s.dom d).wsched = false → t.pau = s.pau)
         ∧ (fabricSettled s d = true → (t.dom d).goal = some 4 ∧ (t.dom d).dreq = 4)
         ∧ (fabricSettled s d = false → (t.dom d).goal = (s.dom d).goal ∧ (t.dom d).dreq = (s.dom d).dreq))
     let chainGoes := fun (u : Nat) (t : State) => ∀ l, s.chLog u = some l → (t.header (pgChain u)).fault = true
       ∧ ((s.chain u).strip = none →
         (repairBusy s 0 (l / 16) = true → t.cullet.waiting = s.cullet.waiting ++ [⟨0, l / 16, l, u, none, false⟩])
         ∧ (repairBusy s 0 (l / 16) = false → ∀ x, freeSpare s 0 (l / 16) = some x →
             t.cullet.running = s.cullet.running ++ [⟨0, l / 16, l, u, some x, false⟩] ∧ t.chLog u = some l)
         ∧ (repairBusy s 0 (l / 16) = false → freeSpare s 0 (l / 16) = none → t.chUnit u = 2))
     let bankGoes := fun (u : Nat) (t : State) => ∀ l, s.bkLog u = some l → (t.header (pgSbank u)).fault = true
       ∧ t.bkLog u = some l ∧ t.bkUnit u = s.bkUnit u
       ∧ (repairBusy s 1 (u / 17) = true → t.cullet.waiting = s.cullet.waiting ++ [⟨1, u / 17, l, u, none, false⟩])
       ∧ (repairBusy s 1 (u / 17) = false → ∀ x, freeSpare s 1 (u / 17) = some x →
           t.cullet.running = s.cullet.running ++ [⟨1, u / 17, l, u, some x, false⟩] ∧ (t.bank u).copying = true)
       ∧ (repairBusy s 1 (u / 17) = false → freeSpare s 1 (u / 17) = none → t.cullet = s.cullet)
     (m.reachesAsMachine s pgCullet 0x4C8 = true → u < unitCount kind →
       (unitSt s kind u = 1 → repairOf s kind u = false → ∃ t, exec (.retire m v) s = .next (m.told s (pgCullet * 0x1000 + 0x4C8) true 0 t)
         ∧ spareGone kind u t)
       ∧ (unitSt s kind u = 0 → repairOf s kind u = false → ∃ t, exec (.retire m v) s = .next (m.told s (pgCullet * 0x1000 + 0x4C8) true 0 t)
         ∧ (kind = 0 → chainGoes u t) ∧ (kind = 1 → bankGoes u t) ∧ (kind = 2 → (s.mbLog u).isSome = true → unitSt t 2 u = 2)
         ∧ (kind = 3 → (t.port u).fault = true))
       ∧ (unitSt s kind u = 2 → kind ≠ 2 → ∃ t, exec (.unret m v) s = .next (m.told s (pgCullet * 0x1000 + 0x4C8) true 0 t)
         ∧ unitSt t kind u = 1 ∧ (kind = 0 → (t.header (pgChain u)).fault = false) ∧ (kind = 1 → (t.header (pgSbank u)).fault = false)
         ∧ (kind = 3 → (t.port u).fault = false)
         ∧ (∀ d, unitDom kind u = some d → (s.dom d).st = 4 → (s.dom d).goal = none → (s.dom d).waking = false → (t.dom d).wleave = true)))
     ∧ (∀ (p : Fin 68), m.reaches s (pgChain p) 0x008 = true → s.chUnit p ≠ 2 → repairOf s 0 p = false →
       ∃ t, exec (.retireReq m (BitVec.ofNat 12 (pgChain p))) s = .next (m.told s (pgChain p * 0x1000 + 8) true 0 t)
         ∧ (s.chUnit p = 1 → spareGone 0 p t) ∧ (s.chUnit p = 0 → chainGoes p t))
     ∧ (∀ (b : Fin 68), m.reaches s (pgSbank b) 0x008 = true → s.bkUnit b ≠ 2 → repairOf s 1 b = false →
       ∃ t, exec (.retireReq m (BitVec.ofNat 12 (pgSbank b))) s = .next (m.told s (pgSbank b * 0x1000 + 8) true 0 t)
         ∧ (s.bkUnit b = 1 → spareGone 1 b t) ∧ (s.bkUnit b = 0 → bankGoes b t)))
  ∧ (∀ s : State,
       (∀ c : Fin 3, s.blk.started = true → s.cullet.frozen = false →
         (s.cullet.isl = none → exec (.islandCopyFault c) s = .next (logEv 0x10 1 0 c (s.setCullet { s.cullet with isl := some c })))
         ∧ (∀ d, s.cullet.isl = some d → d ≠ c →
             exec (.islandCopyFault c) s = .next (s.setCullet { s.cullet with held := livePins s, frozen := true }))
         ∧ exec .islandReloadEnd s = .next (s.setCullet { s.cullet with isl := none }))
       ∧ (∀ b e l, s.ras.queue = (b, e) :: l →
         let r := s.ras
         let full := decide (r.wridx - r.rdidx = 1023)
         exec .dailiesEntryWrite s = .next (s.setRas { r with
           queue := l, ring := tset logInit r.wridx.toNat e r.ring, wridx := r.wridx + 1,
           rdidx := if full then r.rdidx + 1 else r.rdidx, lostcnt := if full then satInc r.lostcnt else r.lostcnt, ovf := r.ovf || full,
           attnp := r.attnp || decide (fld e.e1 9 8 = 1), faultp := r.faultp || decide (fld e.e1 9 8 = 2) }))
       ∧ (∀ (m : Master) (v : Reg), m.reaches s pgRas 0x40C = true →
         exec (.rdidx m v) s = .next (m.told s (pgRas * 0x1000 + 0x40C) true 0 (s.setRas { s.ras with rdidx := v.extractLsb' 0 10 })))
       ∧ (∀ m : Master, m.reaches s pgRas 0x414 = true →
         let e := tget logInit s.ras.ring s.ras.dsel.toNat
         exec (.dent0Read m) s = .next (m.told s (pgRas * 0x1000 + 0x414) false ((lo32w e.time).setWidth 64) (s.setRas { s.ras with latch := e }))))

/-- R352, R354, R355, R356: TESTEN = 0 disarms every injection and resets PERT; with TESTEN = 1 SEED restarts the sequence, and INJCTL arms
a defined kind. One of kind 1 at a bank puts a single-bit error into the word at POS, which a read corrects.
Completion of: `injctl`, `testen`, `seed`. -/
def Obligations.InjectionsArmAndAct : Prop :=
  ∀ (s : State) (m : Master) (v : Reg), s.formed = true →
    (m.reachesAsMachine s 0 0x410 = true →
      (bit v 0 = true → exec (.testen m v) s = .next (m.told s 0x410 true 0 (s.setBlk { s.blk with testen := true })))
      ∧ (bit v 0 = false → s.blk.testen = true →
          exec (.testen m v) s = .next (m.told s 0x410 true 0 { s with blk := { s.blk with testen := false }, inj := [], pert := {} })))
    ∧ (m.reaches s pgPert 0xC10 = true → s.blk.testen = true → v ≠ 0 →
      exec (.seed m v) s = .next (m.told s (pgPert * 0x1000 + 0xC10) true 0 (s.setPert { s.pert with seed := v, lfsr := v })))
    ∧ (∀ p : Fin 68, m.reaches s (pgChain p) 0xC00 = true → pageAsleep s (.chain p) = false → s.blk.testen = true →
      injOk (pgChain p) { s.injOf (pgChain p) with ctl := v } = true → bit v 4 = true →
      exec (.injctl m (BitVec.ofNat 12 (pgChain p)) v) s = .next (m.told s (pgChain p * 0x1000 + 0xC00) true 0
        (s.setInj (pgChain p) { s.injOf (pgChain p) with ctl := v &&& 0xFF3F })))
    ∧ (∀ b : Fin 68, m.reaches s (pgSbank b) 0xC00 = true → pageAsleep s (.sbank b) = false → s.blk.testen = true →
      injOk (pgSbank b) { s.injOf (pgSbank b) with ctl := v } = true → bit v 4 = true → fld v 3 0 = 1 →
      let w := b.val * 32768 + (s.injOf (pgSbank b)).at
      (spPeek s w).2 = .good →
      ∃ t, exec (.injctl m (BitVec.ofNat 12 (pgSbank b)) v) s = .next (m.told s (pgSbank b * 0x1000 + 0xC00) true 0 t)
        ∧ { t with mem := s.mem, synd := s.synd, inj := s.inj } = s
        ∧ (spPeek t w).1 = (spPeek s w).1 ∧ (∃ f, (spPeek t w).2 = .single f)
        ∧ (∀ x, x ≠ w → spPeek t x = spPeek s x)
        ∧ (t.injOf (pgSbank b)).cnt = satInc (s.injOf (pgSbank b)).cnt)

/-! ## The whole block -/

/-- R266: while any core is halted by the debugger, a channel with DBGRUN = 0 counts nothing and its prescaler holds, but still captures;
a channel with DBGRUN = 1 runs on; MTIME and the cue engine are never frozen.
Completion of: `mtTick`, `holdoverIncrement`, `cueSelection`, `cueFire`, `timerCount`, `capture`. -/
def Obligations.DebugHaltFreezesChannels : Prop :=
  ∀ (s : State) (n : Fin 16) (ch : Fin 32), s.formed = true → s.blk.started = true → (s.dbgcOf n).halted = true →
    let x := s.timer ch
    (∀ gate, bit x.ctl 3 = false → exec (.timerCount ch gate) s = .next { s with blk := { s.blk with gate := gate } })
    ∧ (∀ rising, bit x.capcfg 0 = true → edgeCounts x.capcfg rising = true → fld x.capcfg 18 11 ≤ x.edges →
        (s.tev ch).captured ≠ some false → ∃ t, exec (.capture ch rising) s = .next t ∧ (t.timer ch).cap = x.cnt ∧ (t.timer ch).cnt = x.cnt ∧ (t.timer ch).presc = x.presc)
    ∧ (∀ gate, bit x.ctl 3 = true → x.en = true → gateOpen s x gate = true → s.start.tev = [] →
        bit x.ctl 1 = false ∨ s.start.ticked = true → (s.oldTimer ch).per = x.per → ∃ t, exec (.timerCount ch gate) s = .next t
        ∧ (x.presc < fld x.ctl 23 16 → (t.timer ch).cnt = x.cnt ∧ (t.timer ch).presc = x.presc + 1)
        ∧ (fld x.ctl 23 16 ≤ x.presc → x.cnt.toNat < x.per.toNat → (t.timer ch).cnt = x.cnt + 1 ∧ (t.timer ch).presc = 0)
        ∧ (fld x.ctl 23 16 ≤ x.presc → x.per.toNat ≤ x.cnt.toNat → (t.timer ch).cnt = 0 ∧ (t.timer ch).presc = 0))
    ∧ (∀ slate, s.mt.holdover = false → s.start.loaded = none → ∃ t, exec (.mtTick slate) s = .next t ∧ t.mt.mtime = s.mt.mtime + 1)
    ∧ (s.mt.holdover = true → s.mt.horatio ≠ 0 → ∃ t, exec .holdoverIncrement s = .next t ∧ t.mt.mtime = s.mt.mtime + 1)
    ∧ (∃ new, exec .cueSelection s = .next { s with cue := { s.cue with sel := s.cue.sel ++ new, hit := [] } }
        ∧ new.length = min 16 (s.cue.tbl.filter (cueDue s)).length)
    ∧ (∀ i : Fin 4096, (s.cue.sel.find? fun y => decide (y.1 = i.val)) = some (i.val, true) → (s.cueEnt i).armed = true →
        exec (.cueFire i) s = .next (cueAction i (s.cueEnt i).action (s.cueEnt i).arg (countLate (fld (s.cueEnt i).q1 31 24)
          { s with cue := { s.cue with sel := s.cue.sel.filter (fun y => decide (y.1 ≠ i.val)),
                                       tbl := tset cueInit i ((s.cueEnt i).advance 1) s.cue.tbl } })))

/-- R351: an entry of severity ATTN sets ATTNP and one of severity FAULT sets FAULTP, when it is written and when it is lost, as
one is that finds 64 entries of earlier BCLK waiting. While the
block is past its resets, the two lines and sources 966 and 967 follow these bits and their enables (and a frozen island, R346).
Completion of: `dailiesEntryWrite`. -/
def Obligations.SeverityBitsDriveTheLines : Prop :=
  ∀ s : State, s.blk.started = true → s.blk.warmLow = false → s.cullet.frozen = false →
    (livePins s).attnLow = (s.ras.attnp && bit s.ras.rctl 0) ∧ (livePins s).faultLow = (s.ras.faultp && bit s.ras.rctl 1)
    ∧ fixedLevel s 966 = (s.ras.attnp && bit s.ras.rctl 0) ∧ fixedLevel s 967 = (s.ras.faultp && bit s.ras.rctl 1)
    ∧ (∀ b e l, s.ras.queue = (b, e) :: l → ∃ t, exec .dailiesEntryWrite s = .next t
        ∧ t.ras.attnp = (s.ras.attnp || decide (fld e.e1 9 8 = 1)) ∧ t.ras.faultp = (s.ras.faultp || decide (fld e.e1 9 8 = 2)))
    ∧ (∀ code sev pg detail inj, 64 ≤ s.ras.queue.length → (∀ x ∈ s.ras.queue, x.1 ≠ s.bclk) → sev ≠ 0 →
        let t := logEv code sev pg detail s inj
        t.ras.attnp = (s.ras.attnp || decide (sev = 1)) ∧ t.ras.faultp = (s.ras.faultp || decide (sev = 2)) ∧ t.ras.queue = s.ras.queue)

/-- With a command at the front of the queue, a step is the effect of that command with the queue's rest. -/
def Obligations.StepRunsTheFrontCommand : Prop :=
  ∀ (c : Instr) (rest : List Instr) (s : State), step { s with pending := c :: rest } = exec c { s with pending := rest }

/-- The model's choice (assumption 1): with no command waiting, a step is the end of a BCLK. Before the start-up sequence nothing
changes; after it BCLK counts on and machine time, memory, the cores, the chains and the timers stay. R263: in the BCLK after a tick that
took MT[19:0] to zero each capturing channel with CSEL = 8 and an edge named in EDGE counts an edge, and the (EPRE + 1)th captures. -/
def Obligations.EmptyQueueEndsTheClock : Prop :=
  ∀ s : State, s.pending = [] →
    (s.blk.started = false → step s = .next s)
    ∧ (s.blk.started = true → s.blk.owed = [] → s.blk.hx = none → s.blk.hxReq = [] → ∃ t, step s = .next t ∧ t.bclk = s.bclk + 1
      ∧ { t with icu := s.icu, pau := s.pau, pert := s.pert, blk := s.blk, bclk := s.bclk, start := s.start, timers := s.timers } = s
      ∧ (s.start.slate = false → t.start = t.snap ∧ t.timers = s.timers)
      ∧ (s.start.slate = true → s.formed = true → ∀ c, c < 32 → let x := s.timer c
        (bit x.capcfg 0 = false ∨ fld x.capcfg 4 1 ≠ 8 ∨ fld x.capcfg 6 5 = 0 → t.timer c = x)
        ∧ (bit x.capcfg 0 = true → fld x.capcfg 4 1 = 8 → fld x.capcfg 6 5 ≠ 0 →
          (x.edges < fld x.capcfg 18 11 → t.timer c = { x with edges := x.edges + 1 })
          ∧ (fld x.capcfg 18 11 ≤ x.edges → (t.timer c).cap = x.cnt ∧ (t.timer c).edges = 0 ∧ bit (t.timer c).stat 2 = true)))
      ∧ t.pau = { s.pau with thrcnt := t.pau.thrcnt, ramp := t.pau.ramp }
      ∧ t.pau.ramp = s.pau.ramp.filter (fun e => decide (s.bclk + 1 < e.1 + 2000))
      ∧ t.blk = { s.blk with cpReady := false, cpErr := false, hxDone := false, hxDrop := false, hxRvalid := false })

/-- No command ends in a fault or a refusal, and none touches the queue. -/
def Obligations.EveryCommandAnswersANextState : Prop :=
  ∀ (c : Instr) (s : State), ∃ t, exec c s = .next t ∧ t.pending = s.pending

/-- Every step keeps the canonical form of the tables of State: indices rising, and no listed value that equals the reset value. -/
def Obligations.StepKeepsTheTablesCanonical : Prop :=
  ∀ s t : State, s.formed = true → step s = .next t → t.formed = true

/-- The state after reset has its tables in canonical form, with scratchpad all zero and nothing waiting. -/
def Obligations.ResetIsFormed : Prop :=
  State.reset.formed = true ∧ State.reset.pending = [] ∧ ∀ w, spPeek State.reset w = (0, .good)

/-- R317, R318: a block in lifecycle FIELD stays there through every command but cold reset, the loss of supply, and the start-up
sequence that follows them and takes the lifecycle from the fuses. -/
def Obligations.FieldIsNeverLeft : Prop :=
  ∀ (c : Instr) (s t : State), c ≠ .coldReset → c ≠ .islandUnpowered → (∀ f p, c = .startUp f p → s.blk.started = true) →
    s.sec.lcField = true → exec c s = .next t → t.sec.lcField = true

end Slice0
end

