-- ==== Sys2Proof/Laws/Tables.lean ====
section
/-! SUPPORT. Laws of the sparse tables and of the scratchpad memory: reading after writing, and the canonical form. -/

namespace Sys2Proof.Machine

variable {α : Type} [DecidableEq α]

/-- A canonical table from `lo` reads as reset below `lo`. -/
theorem tget_below {d : Nat → α} {lo i : Nat} {t : Tab α} (h : tabWf d lo t = true) (hi : i < lo) : tget d t i = d i := by
  cases t with
  | nil => rfl
  | cons e t =>
    obtain ⟨j, v⟩ := e
    simp only [tabWf, Bool.and_eq_true, decide_eq_true_eq] at h
    have : i ≠ j := by omega
    have : i < j := by omega
    simp [tget, *]

theorem tabWf_mono {d : Nat → α} {lo lo' : Nat} {t : Tab α} (h : tabWf d lo t = true) (hl : lo' ≤ lo) : tabWf d lo' t = true := by
  cases t with
  | nil => rfl
  | cons e t =>
    obtain ⟨j, v⟩ := e
    simp only [tabWf, Bool.and_eq_true, decide_eq_true_eq] at h ⊢
    exact ⟨⟨by omega, h.1.2⟩, h.2⟩

/-- Reading a table after one index has been set. -/
theorem tget_tset {d : Nat → α} {lo : Nat} {t : Tab α} (h : tabWf d lo t = true) (i k : Nat) (v : α) :
    tget d (tset d i v t) k = if k = i then v else tget d t k := by
  induction t generalizing lo with
  | nil =>
    by_cases hv : v = d i <;> by_cases hk : k = i <;> simp [tset, tget, hv, hk]
  | cons e t ih =>
    obtain ⟨j, w⟩ := e
    simp only [tabWf, Bool.and_eq_true, decide_eq_true_eq] at h
    obtain ⟨⟨hl, hw⟩, ht⟩ := h
    have ih := ih ht
    unfold tset
    split
    · rename_i hij
      by_cases hv : v = d i
      · simp only [hv, if_true]
        by_cases hk : k = i
        · subst hk; have : k ≠ j := by omega
          simp [tget, this, hij]
        · simp [hk]
      · simp only [hv, if_false]
        by_cases hk : k = i
        · simp [tget, hk]
        · by_cases hlt : k < i
          · have : k ≠ j := by omega
            have : k < j := by omega
            simp [tget, *]
          · simp [tget, *]
    · split
      · rename_i hij; subst hij
        by_cases hv : v = d i
        · simp only [hv, if_true]
          by_cases hk : k = i
          · subst hk; simp [tget_below ht (Nat.lt_succ_self k)]
          · by_cases hlt : k < i
            · simp [tget, hk, hlt, tget_below ht (by omega : k < i + 1)]
            · simp [tget, hk, hlt]
        · simp only [hv, if_false]
          by_cases hk : k = i <;> simp [tget, hk]
      · by_cases hkj : k = j
        · have : k ≠ i := by omega
          subst hkj; simp [tget, this]
        · by_cases hlt : k < j
          · have : k ≠ i := by omega
            simp [tget, hkj, hlt, this]
          · simp [tget, hkj, hlt, ih]

/-- Reading the index that has been set. -/
theorem tget_tset_self {d : Nat → α} {lo : Nat} {t : Tab α} (h : tabWf d lo t = true) (i : Nat) (v : α) :
    tget d (tset d i v t) i = v := by simp [tget_tset h]

/-- Reading another index than the one that has been set. -/
theorem tget_tset_ne {d : Nat → α} {lo : Nat} {t : Tab α} (h : tabWf d lo t = true) {i k : Nat} (v : α) (hk : k ≠ i) :
    tget d (tset d i v t) k = tget d t k := by simp [tget_tset h, hk]

/-- Setting keeps the canonical form. -/
theorem tabWf_tset {d : Nat → α} {lo i : Nat} {t : Tab α} (h : tabWf d lo t = true) (hi : lo ≤ i) (v : α) :
    tabWf d lo (tset d i v t) = true := by
  induction t generalizing lo with
  | nil => by_cases hv : v = d i <;> simp [tset, tabWf, hv, hi]
  | cons e t ih =>
    obtain ⟨j, w⟩ := e
    have h0 := h
    simp only [tabWf, Bool.and_eq_true, decide_eq_true_eq] at h
    obtain ⟨⟨hl, hw⟩, ht⟩ := h
    unfold tset
    split
    · rename_i hij
      by_cases hv : v = d i
      · simp only [hv, if_true]; exact h0
      · simp only [hv, if_false, tabWf, Bool.and_eq_true, decide_eq_true_eq]
        exact ⟨⟨hi, hv⟩, ⟨by omega, hw⟩, ht⟩
    · split
      · rename_i hij; subst hij
        by_cases hv : v = d i
        · simp only [hv, if_true]; exact tabWf_mono ht (by omega)
        · simp only [hv, if_false, tabWf, Bool.and_eq_true, decide_eq_true_eq]
          exact ⟨⟨hl, hv⟩, ht⟩
      · simp only [tabWf, Bool.and_eq_true, decide_eq_true_eq]
        exact ⟨⟨hl, hw⟩, ih ht (by omega)⟩

/-- A canonical table is set to what it reads: nothing changes. -/
theorem tset_tget {d : Nat → α} {lo : Nat} {t : Tab α} (h : tabWf d lo t = true) (i : Nat) : tset d i (tget d t i) t = t := by
  induction t generalizing lo with
  | nil => simp [tset, tget]
  | cons e t ih =>
    obtain ⟨j, w⟩ := e
    simp only [tabWf, Bool.and_eq_true, decide_eq_true_eq] at h
    obtain ⟨⟨hl, hw⟩, ht⟩ := h
    unfold tset
    by_cases h1 : i < j
    · have : i ≠ j := by omega
      simp [tget, h1, this]
    · by_cases h2 : i = j
      · subst h2; simp [tget, hw]
      · simp [tget, h1, h2, ih ht]

/-- Of two writes of one index the second stands. -/
theorem tset_tset {d : Nat → α} {lo : Nat} {t : Tab α} (h : tabWf d lo t = true) (i : Nat) (v w : α) :
    tset d i w (tset d i v t) = tset d i w t := by
  induction t generalizing lo with
  | nil => by_cases hv : v = d i <;> simp [tset, hv]
  | cons e t ih =>
    obtain ⟨j, x⟩ := e
    simp only [tabWf, Bool.and_eq_true, decide_eq_true_eq] at h
    obtain ⟨⟨hl, hx⟩, ht⟩ := h
    have below : ∀ {t : Tab α} {lo : Nat}, tabWf d lo t = true → i < lo → tset d i w t = if w = d i then t else (i, w) :: t := by
      intro t lo h1 h2
      cases t with
      | nil => rfl
      | cons e t =>
        obtain ⟨k, y⟩ := e
        simp only [tabWf, Bool.and_eq_true, decide_eq_true_eq] at h1
        have : i < k := by omega
        simp [tset, this]
    by_cases h1 : i < j
    · by_cases hv : v = d i <;> simp [tset, h1, hv]
    · by_cases h2 : i = j
      · subst h2
        by_cases hv : v = d i
        · simp [tset, hv, below ht (Nat.lt_succ_self i)]
        · simp [tset, hv]
      · simp [tset, h1, h2, ih ht]

/-- Leaving entries out keeps the canonical form. -/
theorem tabWf_filter {d : Nat → α} {lo : Nat} {t : Tab α} (h : tabWf d lo t = true) (f : Nat × α → Bool) :
    tabWf d lo (t.filter f) = true := by
  induction t generalizing lo with
  | nil => rfl
  | cons e t ih =>
    obtain ⟨j, w⟩ := e
    simp only [tabWf, Bool.and_eq_true, decide_eq_true_eq] at h
    obtain ⟨⟨hl, hw⟩, ht⟩ := h
    by_cases hf : f (j, w) = true
    · simp only [List.filter_cons, hf, if_true, tabWf, Bool.and_eq_true, decide_eq_true_eq]
      exact ⟨⟨hl, hw⟩, ih ht⟩
    · simp only [List.filter_cons, hf]
      exact tabWf_mono (ih ht) (by omega)

/-- A property that each element of a fold keeps is kept by the fold. -/
theorem foldl_keeps {σ β : Type} {P : σ → Prop} {f : σ → β → σ} (hf : ∀ s b, P s → P (f s b)) (l : List β) {s : σ} (hs : P s) :
    P (l.foldl f s) := by
  induction l generalizing s with
  | nil => exact hs
  | cons b l ih => exact ih (hf s b hs)

omit [DecidableEq α] in
/-- A field that each element of a fold leaves is left by the fold. -/
theorem foldl_leaves {σ β : Type} {g : σ → α} {f : σ → β → σ} (hf : ∀ s b, g (f s b) = g s) (l : List β) (s : σ) :
    g (l.foldl f s) = g s := by
  induction l generalizing s with
  | nil => rfl
  | cons b l ih => exact (ih (f s b)).trans (hf s b)

/-! ## Scratchpad memory -/

/-- Writing the bytes of a word keeps the memory's canonical form. -/
theorem putBytes_wf {m : List Host.Cell} (h : Memory.wf m) (w : Nat) (v : Word) (be : Nat) : Memory.wf (putBytes m w v be) := by
  unfold putBytes
  refine foldl_keeps (P := fun m => Memory.wf m) ?_ _ h
  intro m i hm
  split
  · exact tabWf_tset hm (Nat.zero_le _) _
  · exact hm

/-- Leaving cells out keeps the memory's canonical form. -/
theorem filter_wf {m : List Host.Cell} (h : Memory.wf m) (f : Host.Cell → Bool) : Memory.wf (m.filter f) := tabWf_filter h f

/-- A write of a word keeps the memory's canonical form. -/
theorem spWrite_wf {s : State} (h : Memory.wf s.mem) (w : Nat) (v : Word) (be : Nat) : Memory.wf (spWrite s w v be).mem := by
  unfold spWrite
  split
  · exact putBytes_wf h w v 255
  · split
    · exact h
    · split
      · exact putBytes_wf h w v be
      · exact putBytes_wf (putBytes_wf h w _ 255) w v be

end Sys2Proof.Machine
end

