-- ==== Sys2Proof/Laws/Frames.lean ====
section
/-! SUPPORT. What the shared operations leave as it was: the log, refusals, faults of a page, demands, leave and retirement. -/

namespace Sys2Proof.Machine

/-- The log writes the dailies only (R349). -/
theorem logEv_frame (code sev page detail : Nat) (s : State) (inj : Bool) : { logEv code sev page detail s inj with ras := s.ras } = s := by
  unfold logEv
  split
  · rfl
  · dsimp only
    split
    · split <;> rfl
    · rfl

/-- FAULT of a page writes its header and the dailies (R31, R350). -/
theorem raiseFault_frame (pg : Nat) (s : State) (inj : Bool) : { raiseFault pg s inj with hdr := s.hdr, ras := s.ras } = s := by
  unfold raiseFault
  dsimp only
  by_cases hf : (s.header pg).fault = true
  · simp only [if_pos hf]
  · simp only [if_neg hf]
    split
    · exact congrArg (fun t : State => { t with hdr := s.hdr, ras := s.ras })
        (logEv_frame 0x03 1 pg 0 (s.setHeader pg { s.header pg with fault := true }) inj)
    · rfl

/-- A refusal writes PRIVCNT, the header, the dailies and the record of the BCLK (R35, R38, R315). -/
theorem refuse_frame (pg off code : Nat) (s : State) :
    { refuse pg off code s with hdr := s.hdr, ras := s.ras, sec := s.sec, start := s.start } = s := by
  unfold refuse noteRef
  dsimp only
  repeat' split
  all_goals first
    | rfl
    | exact congrArg (fun t : State => { t with hdr := s.hdr, ras := s.ras, sec := s.sec, start := s.start }) (logEv_frame _ _ _ _ _ _)

/-- OVER follows the sums of the power admission unit, with a dailies entry (R305). -/
theorem updOver_frame (s : State) : { updOver s with pau := s.pau, ras := s.ras } = s := by
  unfold updOver
  dsimp only
  split
  · exact congrArg (fun t : State => { t with pau := s.pau, ras := s.ras }) (logEv_frame _ _ _ _ s false)
  · rfl

/-- The release of leave writes the power admission unit and the dailies (R301). -/
theorem releaseLeave_frame (f : LeaveFor) (s : State) : { releaseLeave f s with pau := s.pau, ras := s.ras } = s :=
  congrArg (fun t : State => { t with pau := s.pau }) (updOver_frame _)

/-- The request for COLD of a retired unit's domain writes that domain and, for a wake given up, the requests for leave (R367). -/
theorem askCold_frame (d : Nat) (s : State) : { askCold d s with doms := s.doms, pau := s.pau } = s := by
  unfold askCold enterOne dropRequest
  dsimp only
  repeat' split
  all_goals rfl

/-- A retirement writes the cullet, the dailies, and what `askCold` does (R291, R339, R350). -/
theorem retireUnit_frame (kind u : Nat) (l : Option Nat) (s : State) (inj : Bool) :
    { retireUnit kind u l s inj with cullet := s.cullet, ras := s.ras, doms := s.doms, pau := s.pau } = s := by
  have hc : ∀ (d : Nat) (t : State), { askCold d t with cullet := s.cullet, ras := s.ras, doms := s.doms, pau := s.pau }
      = { t with cullet := s.cullet, ras := s.ras, doms := s.doms, pau := s.pau } :=
    fun d t => congrArg (fun t : State => { t with cullet := s.cullet, ras := s.ras, doms := s.doms, pau := s.pau }) (askCold_frame d t)
  have hl : ∀ (c v p x : Nat) (t : State), { logEv c v p x t inj with cullet := s.cullet, ras := s.ras, doms := s.doms, pau := s.pau }
      = { t with cullet := s.cullet, ras := s.ras, doms := s.doms, pau := s.pau } :=
    fun c v p x t => congrArg (fun t : State => { t with cullet := s.cullet, ras := s.ras, doms := s.doms, pau := s.pau }) (logEv_frame c v p x t inj)
  have hu : { setUnit kind u 2 s with cullet := s.cullet, ras := s.ras, doms := s.doms, pau := s.pau } = s := by
    unfold setUnit; split <;> rfl
  unfold retireUnit
  dsimp only
  split
  · rw [hc]; split
    · rw [hl]; exact hu
    · exact hu
  · split
    · rw [hl]; exact hu
    · exact hu

/-- An operation on a unit's domains leaves whatever it leaves of each (R291). -/
theorem onUnit_leaves {α : Type} {g : State → α} {f : Nat → State → State} (hf : ∀ d s, g (f d s) = g s) (d : Nat) (s : State) :
    g (onUnit f d s) = g s := foldl_leaves (fun s d => hf d s) _ s

/-- A demand writes domains only (R294, R300). -/
theorem addDemand_frame (d : Nat) (s : State) : { addDemand d s with doms := s.doms } = s := by
  have h1 : ∀ e t, { stayOne e t with doms := s.doms } = { t with doms := s.doms } := by
    intro e t; unfold stayOne; dsimp only; split <;> rfl
  have h2 : { markDemand d s with doms := s.doms } = s := by unfold markDemand; split <;> rfl
  exact (onUnit_leaves (g := fun t => { t with doms := s.doms }) h1 d _).trans h2

/-- A request for leave writes the queue of requests only (R302). -/
theorem askLeave_frame (r : LeaveReq) (s : State) (u : Pau) : { askLeave r s with pau := u } = { s with pau := u } := by
  unfold askLeave; split <;> rfl

/-- One domain's wake writes that domain, the requests for leave and WAKECNT (R295). -/
theorem wakeOne_frame (d : Nat) (s : State) : { wakeOne d s with doms := s.doms, pau := s.pau, pseq := s.pseq } = s := by
  let g := fun t : State => { t with doms := s.doms, pau := s.pau, pseq := s.pseq }
  change g (wakeOne d s) = s
  unfold wakeOne
  dsimp only
  split
  · change g (markDemand d s) = s
    unfold markDemand; split <;> rfl
  · split
    · rfl
    · split
      · rfl
      · exact congrArg (fun t : State => { t with doms := s.doms, pseq := s.pseq }) (askLeave_frame _ _ s.pau)

/-- A wake writes domains, the requests for leave and WAKECNT (R291, R295). -/
theorem wakeDom_frame (d : Nat) (s : State) : { wakeDom d s with doms := s.doms, pau := s.pau, pseq := s.pseq } = s := by
  let g := fun t : State => { t with doms := s.doms, pau := s.pau, pseq := s.pseq }
  have h : ∀ e t, g (wakeOne e t) = g t := fun e t => (show g (wakeOne e t) = g { wakeOne e t with doms := t.doms, pau := t.pau, pseq := t.pseq } from rfl).trans
    (congrArg g (wakeOne_frame e t))
  exact onUnit_leaves (g := g) h d s

end Sys2Proof.Machine
end

