-- ==== Sys2Proof/Laws/State.lean ====
section
/-! SUPPORT. What each update of State leaves: one lemma per field per update. -/

namespace Sys2Proof.Machine

/-! ## `setCore` -/

@[simp] theorem State.setCore_pending (s : State) (n : Nat) (v : CoreSt) : (s.setCore n v).pending = s.pending := rfl
@[simp] theorem State.setCore_bclk (s : State) (n : Nat) (v : CoreSt) : (s.setCore n v).bclk = s.bclk := rfl
@[simp] theorem State.setCore_fresh (s : State) (n : Nat) (v : CoreSt) : (s.setCore n v).fresh = s.fresh := rfl
@[simp] theorem State.setCore_start (s : State) (n : Nat) (v : CoreSt) : (s.setCore n v).start = s.start := rfl
@[simp] theorem State.setCore_blk (s : State) (n : Nat) (v : CoreSt) : (s.setCore n v).blk = s.blk := rfl
@[simp] theorem State.setCore_hdr (s : State) (n : Nat) (v : CoreSt) : (s.setCore n v).hdr = s.hdr := rfl
@[simp] theorem State.setCore_inj (s : State) (n : Nat) (v : CoreSt) : (s.setCore n v).inj = s.inj := rfl
@[simp] theorem State.setCore_cores (s : State) (n : Nat) (v : CoreSt) : (s.setCore n v).cores = tset coreInit n v s.cores := rfl
@[simp] theorem State.setCore_dbgc (s : State) (n : Nat) (v : CoreSt) : (s.setCore n v).dbgc = s.dbgc := rfl
@[simp] theorem State.setCore_quads (s : State) (n : Nat) (v : CoreSt) : (s.setCore n v).quads = s.quads := rfl
@[simp] theorem State.setCore_chains (s : State) (n : Nat) (v : CoreSt) : (s.setCore n v).chains = s.chains := rfl
@[simp] theorem State.setCore_link (s : State) (n : Nat) (v : CoreSt) : (s.setCore n v).link = s.link := rfl
@[simp] theorem State.setCore_ports (s : State) (n : Nat) (v : CoreSt) : (s.setCore n v).ports = s.ports := rfl
@[simp] theorem State.setCore_pgrps (s : State) (n : Nat) (v : CoreSt) : (s.setCore n v).pgrps = s.pgrps := rfl
@[simp] theorem State.setCore_banks (s : State) (n : Nat) (v : CoreSt) : (s.setCore n v).banks = s.banks := rfl
@[simp] theorem State.setCore_mem (s : State) (n : Nat) (v : CoreSt) : (s.setCore n v).mem = s.mem := rfl
@[simp] theorem State.setCore_synd (s : State) (n : Nat) (v : CoreSt) : (s.setCore n v).synd = s.synd := rfl
@[simp] theorem State.setCore_steer (s : State) (n : Nat) (v : CoreSt) : (s.setCore n v).steer = s.steer := rfl
@[simp] theorem State.setCore_hot (s : State) (n : Nat) (v : CoreSt) : (s.setCore n v).hot = s.hot := rfl
@[simp] theorem State.setCore_icu (s : State) (n : Nat) (v : CoreSt) : (s.setCore n v).icu = s.icu := rfl
@[simp] theorem State.setCore_icuc (s : State) (n : Nat) (v : CoreSt) : (s.setCore n v).icuc = s.icuc := rfl
@[simp] theorem State.setCore_mt (s : State) (n : Nat) (v : CoreSt) : (s.setCore n v).mt = s.mt := rfl
@[simp] theorem State.setCore_cue (s : State) (n : Nat) (v : CoreSt) : (s.setCore n v).cue = s.cue := rfl
@[simp] theorem State.setCore_timers (s : State) (n : Nat) (v : CoreSt) : (s.setCore n v).timers = s.timers := rfl
@[simp] theorem State.setCore_doms (s : State) (n : Nat) (v : CoreSt) : (s.setCore n v).doms = s.doms := rfl
@[simp] theorem State.setCore_pau (s : State) (n : Nat) (v : CoreSt) : (s.setCore n v).pau = s.pau := rfl
@[simp] theorem State.setCore_pseq (s : State) (n : Nat) (v : CoreSt) : (s.setCore n v).pseq = s.pseq := rfl
@[simp] theorem State.setCore_sec (s : State) (n : Nat) (v : CoreSt) : (s.setCore n v).sec = s.sec := rfl
@[simp] theorem State.setCore_dbg (s : State) (n : Nat) (v : CoreSt) : (s.setCore n v).dbg = s.dbg := rfl
@[simp] theorem State.setCore_ras (s : State) (n : Nat) (v : CoreSt) : (s.setCore n v).ras = s.ras := rfl
@[simp] theorem State.setCore_cullet (s : State) (n : Nat) (v : CoreSt) : (s.setCore n v).cullet = s.cullet := rfl
@[simp] theorem State.setCore_pert (s : State) (n : Nat) (v : CoreSt) : (s.setCore n v).pert = s.pert := rfl
@[simp] theorem State.setCore_fuse (s : State) (n : Nat) (v : CoreSt) : (s.setCore n v).fuse = s.fuse := rfl

/-! ## `setDbgc` -/

@[simp] theorem State.setDbgc_pending (s : State) (n : Nat) (v : Dbgc) : (s.setDbgc n v).pending = s.pending := rfl
@[simp] theorem State.setDbgc_bclk (s : State) (n : Nat) (v : Dbgc) : (s.setDbgc n v).bclk = s.bclk := rfl
@[simp] theorem State.setDbgc_fresh (s : State) (n : Nat) (v : Dbgc) : (s.setDbgc n v).fresh = s.fresh := rfl
@[simp] theorem State.setDbgc_start (s : State) (n : Nat) (v : Dbgc) : (s.setDbgc n v).start = s.start := rfl
@[simp] theorem State.setDbgc_blk (s : State) (n : Nat) (v : Dbgc) : (s.setDbgc n v).blk = s.blk := rfl
@[simp] theorem State.setDbgc_hdr (s : State) (n : Nat) (v : Dbgc) : (s.setDbgc n v).hdr = s.hdr := rfl
@[simp] theorem State.setDbgc_inj (s : State) (n : Nat) (v : Dbgc) : (s.setDbgc n v).inj = s.inj := rfl
@[simp] theorem State.setDbgc_cores (s : State) (n : Nat) (v : Dbgc) : (s.setDbgc n v).cores = s.cores := rfl
@[simp] theorem State.setDbgc_dbgc (s : State) (n : Nat) (v : Dbgc) : (s.setDbgc n v).dbgc = tset dbgcInit n v s.dbgc := rfl
@[simp] theorem State.setDbgc_quads (s : State) (n : Nat) (v : Dbgc) : (s.setDbgc n v).quads = s.quads := rfl
@[simp] theorem State.setDbgc_chains (s : State) (n : Nat) (v : Dbgc) : (s.setDbgc n v).chains = s.chains := rfl
@[simp] theorem State.setDbgc_link (s : State) (n : Nat) (v : Dbgc) : (s.setDbgc n v).link = s.link := rfl
@[simp] theorem State.setDbgc_ports (s : State) (n : Nat) (v : Dbgc) : (s.setDbgc n v).ports = s.ports := rfl
@[simp] theorem State.setDbgc_pgrps (s : State) (n : Nat) (v : Dbgc) : (s.setDbgc n v).pgrps = s.pgrps := rfl
@[simp] theorem State.setDbgc_banks (s : State) (n : Nat) (v : Dbgc) : (s.setDbgc n v).banks = s.banks := rfl
@[simp] theorem State.setDbgc_mem (s : State) (n : Nat) (v : Dbgc) : (s.setDbgc n v).mem = s.mem := rfl
@[simp] theorem State.setDbgc_synd (s : State) (n : Nat) (v : Dbgc) : (s.setDbgc n v).synd = s.synd := rfl
@[simp] theorem State.setDbgc_steer (s : State) (n : Nat) (v : Dbgc) : (s.setDbgc n v).steer = s.steer := rfl
@[simp] theorem State.setDbgc_hot (s : State) (n : Nat) (v : Dbgc) : (s.setDbgc n v).hot = s.hot := rfl
@[simp] theorem State.setDbgc_icu (s : State) (n : Nat) (v : Dbgc) : (s.setDbgc n v).icu = s.icu := rfl
@[simp] theorem State.setDbgc_icuc (s : State) (n : Nat) (v : Dbgc) : (s.setDbgc n v).icuc = s.icuc := rfl
@[simp] theorem State.setDbgc_mt (s : State) (n : Nat) (v : Dbgc) : (s.setDbgc n v).mt = s.mt := rfl
@[simp] theorem State.setDbgc_cue (s : State) (n : Nat) (v : Dbgc) : (s.setDbgc n v).cue = s.cue := rfl
@[simp] theorem State.setDbgc_timers (s : State) (n : Nat) (v : Dbgc) : (s.setDbgc n v).timers = s.timers := rfl
@[simp] theorem State.setDbgc_doms (s : State) (n : Nat) (v : Dbgc) : (s.setDbgc n v).doms = s.doms := rfl
@[simp] theorem State.setDbgc_pau (s : State) (n : Nat) (v : Dbgc) : (s.setDbgc n v).pau = s.pau := rfl
@[simp] theorem State.setDbgc_pseq (s : State) (n : Nat) (v : Dbgc) : (s.setDbgc n v).pseq = s.pseq := rfl
@[simp] theorem State.setDbgc_sec (s : State) (n : Nat) (v : Dbgc) : (s.setDbgc n v).sec = s.sec := rfl
@[simp] theorem State.setDbgc_dbg (s : State) (n : Nat) (v : Dbgc) : (s.setDbgc n v).dbg = s.dbg := rfl
@[simp] theorem State.setDbgc_ras (s : State) (n : Nat) (v : Dbgc) : (s.setDbgc n v).ras = s.ras := rfl
@[simp] theorem State.setDbgc_cullet (s : State) (n : Nat) (v : Dbgc) : (s.setDbgc n v).cullet = s.cullet := rfl
@[simp] theorem State.setDbgc_pert (s : State) (n : Nat) (v : Dbgc) : (s.setDbgc n v).pert = s.pert := rfl
@[simp] theorem State.setDbgc_fuse (s : State) (n : Nat) (v : Dbgc) : (s.setDbgc n v).fuse = s.fuse := rfl

/-! ## `setQuad` -/

@[simp] theorem State.setQuad_pending (s : State) (n : Nat) (v : Quad) : (s.setQuad n v).pending = s.pending := rfl
@[simp] theorem State.setQuad_bclk (s : State) (n : Nat) (v : Quad) : (s.setQuad n v).bclk = s.bclk := rfl
@[simp] theorem State.setQuad_fresh (s : State) (n : Nat) (v : Quad) : (s.setQuad n v).fresh = s.fresh := rfl
@[simp] theorem State.setQuad_start (s : State) (n : Nat) (v : Quad) : (s.setQuad n v).start = s.start := rfl
@[simp] theorem State.setQuad_blk (s : State) (n : Nat) (v : Quad) : (s.setQuad n v).blk = s.blk := rfl
@[simp] theorem State.setQuad_hdr (s : State) (n : Nat) (v : Quad) : (s.setQuad n v).hdr = s.hdr := rfl
@[simp] theorem State.setQuad_inj (s : State) (n : Nat) (v : Quad) : (s.setQuad n v).inj = s.inj := rfl
@[simp] theorem State.setQuad_cores (s : State) (n : Nat) (v : Quad) : (s.setQuad n v).cores = s.cores := rfl
@[simp] theorem State.setQuad_dbgc (s : State) (n : Nat) (v : Quad) : (s.setQuad n v).dbgc = s.dbgc := rfl
@[simp] theorem State.setQuad_quads (s : State) (n : Nat) (v : Quad) : (s.setQuad n v).quads = tset quadInit n v s.quads := rfl
@[simp] theorem State.setQuad_chains (s : State) (n : Nat) (v : Quad) : (s.setQuad n v).chains = s.chains := rfl
@[simp] theorem State.setQuad_link (s : State) (n : Nat) (v : Quad) : (s.setQuad n v).link = s.link := rfl
@[simp] theorem State.setQuad_ports (s : State) (n : Nat) (v : Quad) : (s.setQuad n v).ports = s.ports := rfl
@[simp] theorem State.setQuad_pgrps (s : State) (n : Nat) (v : Quad) : (s.setQuad n v).pgrps = s.pgrps := rfl
@[simp] theorem State.setQuad_banks (s : State) (n : Nat) (v : Quad) : (s.setQuad n v).banks = s.banks := rfl
@[simp] theorem State.setQuad_mem (s : State) (n : Nat) (v : Quad) : (s.setQuad n v).mem = s.mem := rfl
@[simp] theorem State.setQuad_synd (s : State) (n : Nat) (v : Quad) : (s.setQuad n v).synd = s.synd := rfl
@[simp] theorem State.setQuad_steer (s : State) (n : Nat) (v : Quad) : (s.setQuad n v).steer = s.steer := rfl
@[simp] theorem State.setQuad_hot (s : State) (n : Nat) (v : Quad) : (s.setQuad n v).hot = s.hot := rfl
@[simp] theorem State.setQuad_icu (s : State) (n : Nat) (v : Quad) : (s.setQuad n v).icu = s.icu := rfl
@[simp] theorem State.setQuad_icuc (s : State) (n : Nat) (v : Quad) : (s.setQuad n v).icuc = s.icuc := rfl
@[simp] theorem State.setQuad_mt (s : State) (n : Nat) (v : Quad) : (s.setQuad n v).mt = s.mt := rfl
@[simp] theorem State.setQuad_cue (s : State) (n : Nat) (v : Quad) : (s.setQuad n v).cue = s.cue := rfl
@[simp] theorem State.setQuad_timers (s : State) (n : Nat) (v : Quad) : (s.setQuad n v).timers = s.timers := rfl
@[simp] theorem State.setQuad_doms (s : State) (n : Nat) (v : Quad) : (s.setQuad n v).doms = s.doms := rfl
@[simp] theorem State.setQuad_pau (s : State) (n : Nat) (v : Quad) : (s.setQuad n v).pau = s.pau := rfl
@[simp] theorem State.setQuad_pseq (s : State) (n : Nat) (v : Quad) : (s.setQuad n v).pseq = s.pseq := rfl
@[simp] theorem State.setQuad_sec (s : State) (n : Nat) (v : Quad) : (s.setQuad n v).sec = s.sec := rfl
@[simp] theorem State.setQuad_dbg (s : State) (n : Nat) (v : Quad) : (s.setQuad n v).dbg = s.dbg := rfl
@[simp] theorem State.setQuad_ras (s : State) (n : Nat) (v : Quad) : (s.setQuad n v).ras = s.ras := rfl
@[simp] theorem State.setQuad_cullet (s : State) (n : Nat) (v : Quad) : (s.setQuad n v).cullet = s.cullet := rfl
@[simp] theorem State.setQuad_pert (s : State) (n : Nat) (v : Quad) : (s.setQuad n v).pert = s.pert := rfl
@[simp] theorem State.setQuad_fuse (s : State) (n : Nat) (v : Quad) : (s.setQuad n v).fuse = s.fuse := rfl

/-! ## `setChain` -/

@[simp] theorem State.setChain_pending (s : State) (n : Nat) (v : Chain) : (s.setChain n v).pending = s.pending := rfl
@[simp] theorem State.setChain_bclk (s : State) (n : Nat) (v : Chain) : (s.setChain n v).bclk = s.bclk := rfl
@[simp] theorem State.setChain_fresh (s : State) (n : Nat) (v : Chain) : (s.setChain n v).fresh = s.fresh := rfl
@[simp] theorem State.setChain_start (s : State) (n : Nat) (v : Chain) : (s.setChain n v).start = s.start := rfl
@[simp] theorem State.setChain_blk (s : State) (n : Nat) (v : Chain) : (s.setChain n v).blk = s.blk := rfl
@[simp] theorem State.setChain_hdr (s : State) (n : Nat) (v : Chain) : (s.setChain n v).hdr = s.hdr := rfl
@[simp] theorem State.setChain_inj (s : State) (n : Nat) (v : Chain) : (s.setChain n v).inj = s.inj := rfl
@[simp] theorem State.setChain_cores (s : State) (n : Nat) (v : Chain) : (s.setChain n v).cores = s.cores := rfl
@[simp] theorem State.setChain_dbgc (s : State) (n : Nat) (v : Chain) : (s.setChain n v).dbgc = s.dbgc := rfl
@[simp] theorem State.setChain_quads (s : State) (n : Nat) (v : Chain) : (s.setChain n v).quads = s.quads := rfl
@[simp] theorem State.setChain_chains (s : State) (n : Nat) (v : Chain) : (s.setChain n v).chains = tset chainInit n v s.chains := rfl
@[simp] theorem State.setChain_link (s : State) (n : Nat) (v : Chain) : (s.setChain n v).link = s.link := rfl
@[simp] theorem State.setChain_ports (s : State) (n : Nat) (v : Chain) : (s.setChain n v).ports = s.ports := rfl
@[simp] theorem State.setChain_pgrps (s : State) (n : Nat) (v : Chain) : (s.setChain n v).pgrps = s.pgrps := rfl
@[simp] theorem State.setChain_banks (s : State) (n : Nat) (v : Chain) : (s.setChain n v).banks = s.banks := rfl
@[simp] theorem State.setChain_mem (s : State) (n : Nat) (v : Chain) : (s.setChain n v).mem = s.mem := rfl
@[simp] theorem State.setChain_synd (s : State) (n : Nat) (v : Chain) : (s.setChain n v).synd = s.synd := rfl
@[simp] theorem State.setChain_steer (s : State) (n : Nat) (v : Chain) : (s.setChain n v).steer = s.steer := rfl
@[simp] theorem State.setChain_hot (s : State) (n : Nat) (v : Chain) : (s.setChain n v).hot = s.hot := rfl
@[simp] theorem State.setChain_icu (s : State) (n : Nat) (v : Chain) : (s.setChain n v).icu = s.icu := rfl
@[simp] theorem State.setChain_icuc (s : State) (n : Nat) (v : Chain) : (s.setChain n v).icuc = s.icuc := rfl
@[simp] theorem State.setChain_mt (s : State) (n : Nat) (v : Chain) : (s.setChain n v).mt = s.mt := rfl
@[simp] theorem State.setChain_cue (s : State) (n : Nat) (v : Chain) : (s.setChain n v).cue = s.cue := rfl
@[simp] theorem State.setChain_timers (s : State) (n : Nat) (v : Chain) : (s.setChain n v).timers = s.timers := rfl
@[simp] theorem State.setChain_doms (s : State) (n : Nat) (v : Chain) : (s.setChain n v).doms = s.doms := rfl
@[simp] theorem State.setChain_pau (s : State) (n : Nat) (v : Chain) : (s.setChain n v).pau = s.pau := rfl
@[simp] theorem State.setChain_pseq (s : State) (n : Nat) (v : Chain) : (s.setChain n v).pseq = s.pseq := rfl
@[simp] theorem State.setChain_sec (s : State) (n : Nat) (v : Chain) : (s.setChain n v).sec = s.sec := rfl
@[simp] theorem State.setChain_dbg (s : State) (n : Nat) (v : Chain) : (s.setChain n v).dbg = s.dbg := rfl
@[simp] theorem State.setChain_ras (s : State) (n : Nat) (v : Chain) : (s.setChain n v).ras = s.ras := rfl
@[simp] theorem State.setChain_cullet (s : State) (n : Nat) (v : Chain) : (s.setChain n v).cullet = s.cullet := rfl
@[simp] theorem State.setChain_pert (s : State) (n : Nat) (v : Chain) : (s.setChain n v).pert = s.pert := rfl
@[simp] theorem State.setChain_fuse (s : State) (n : Nat) (v : Chain) : (s.setChain n v).fuse = s.fuse := rfl

/-! ## `setPort` -/

@[simp] theorem State.setPort_pending (s : State) (n : Nat) (v : Port) : (s.setPort n v).pending = s.pending := rfl
@[simp] theorem State.setPort_bclk (s : State) (n : Nat) (v : Port) : (s.setPort n v).bclk = s.bclk := rfl
@[simp] theorem State.setPort_fresh (s : State) (n : Nat) (v : Port) : (s.setPort n v).fresh = s.fresh := rfl
@[simp] theorem State.setPort_start (s : State) (n : Nat) (v : Port) : (s.setPort n v).start = s.start := rfl
@[simp] theorem State.setPort_blk (s : State) (n : Nat) (v : Port) : (s.setPort n v).blk = s.blk := rfl
@[simp] theorem State.setPort_hdr (s : State) (n : Nat) (v : Port) : (s.setPort n v).hdr = s.hdr := rfl
@[simp] theorem State.setPort_inj (s : State) (n : Nat) (v : Port) : (s.setPort n v).inj = s.inj := rfl
@[simp] theorem State.setPort_cores (s : State) (n : Nat) (v : Port) : (s.setPort n v).cores = s.cores := rfl
@[simp] theorem State.setPort_dbgc (s : State) (n : Nat) (v : Port) : (s.setPort n v).dbgc = s.dbgc := rfl
@[simp] theorem State.setPort_quads (s : State) (n : Nat) (v : Port) : (s.setPort n v).quads = s.quads := rfl
@[simp] theorem State.setPort_chains (s : State) (n : Nat) (v : Port) : (s.setPort n v).chains = s.chains := rfl
@[simp] theorem State.setPort_link (s : State) (n : Nat) (v : Port) : (s.setPort n v).link = s.link := rfl
@[simp] theorem State.setPort_ports (s : State) (n : Nat) (v : Port) : (s.setPort n v).ports = tset portInit n v s.ports := rfl
@[simp] theorem State.setPort_pgrps (s : State) (n : Nat) (v : Port) : (s.setPort n v).pgrps = s.pgrps := rfl
@[simp] theorem State.setPort_banks (s : State) (n : Nat) (v : Port) : (s.setPort n v).banks = s.banks := rfl
@[simp] theorem State.setPort_mem (s : State) (n : Nat) (v : Port) : (s.setPort n v).mem = s.mem := rfl
@[simp] theorem State.setPort_synd (s : State) (n : Nat) (v : Port) : (s.setPort n v).synd = s.synd := rfl
@[simp] theorem State.setPort_steer (s : State) (n : Nat) (v : Port) : (s.setPort n v).steer = s.steer := rfl
@[simp] theorem State.setPort_hot (s : State) (n : Nat) (v : Port) : (s.setPort n v).hot = s.hot := rfl
@[simp] theorem State.setPort_icu (s : State) (n : Nat) (v : Port) : (s.setPort n v).icu = s.icu := rfl
@[simp] theorem State.setPort_icuc (s : State) (n : Nat) (v : Port) : (s.setPort n v).icuc = s.icuc := rfl
@[simp] theorem State.setPort_mt (s : State) (n : Nat) (v : Port) : (s.setPort n v).mt = s.mt := rfl
@[simp] theorem State.setPort_cue (s : State) (n : Nat) (v : Port) : (s.setPort n v).cue = s.cue := rfl
@[simp] theorem State.setPort_timers (s : State) (n : Nat) (v : Port) : (s.setPort n v).timers = s.timers := rfl
@[simp] theorem State.setPort_doms (s : State) (n : Nat) (v : Port) : (s.setPort n v).doms = s.doms := rfl
@[simp] theorem State.setPort_pau (s : State) (n : Nat) (v : Port) : (s.setPort n v).pau = s.pau := rfl
@[simp] theorem State.setPort_pseq (s : State) (n : Nat) (v : Port) : (s.setPort n v).pseq = s.pseq := rfl
@[simp] theorem State.setPort_sec (s : State) (n : Nat) (v : Port) : (s.setPort n v).sec = s.sec := rfl
@[simp] theorem State.setPort_dbg (s : State) (n : Nat) (v : Port) : (s.setPort n v).dbg = s.dbg := rfl
@[simp] theorem State.setPort_ras (s : State) (n : Nat) (v : Port) : (s.setPort n v).ras = s.ras := rfl
@[simp] theorem State.setPort_cullet (s : State) (n : Nat) (v : Port) : (s.setPort n v).cullet = s.cullet := rfl
@[simp] theorem State.setPort_pert (s : State) (n : Nat) (v : Port) : (s.setPort n v).pert = s.pert := rfl
@[simp] theorem State.setPort_fuse (s : State) (n : Nat) (v : Port) : (s.setPort n v).fuse = s.fuse := rfl

/-! ## `setPgrp` -/

@[simp] theorem State.setPgrp_pending (s : State) (n : Nat) (v : Pgrp) : (s.setPgrp n v).pending = s.pending := rfl
@[simp] theorem State.setPgrp_bclk (s : State) (n : Nat) (v : Pgrp) : (s.setPgrp n v).bclk = s.bclk := rfl
@[simp] theorem State.setPgrp_fresh (s : State) (n : Nat) (v : Pgrp) : (s.setPgrp n v).fresh = s.fresh := rfl
@[simp] theorem State.setPgrp_start (s : State) (n : Nat) (v : Pgrp) : (s.setPgrp n v).start = s.start := rfl
@[simp] theorem State.setPgrp_blk (s : State) (n : Nat) (v : Pgrp) : (s.setPgrp n v).blk = s.blk := rfl
@[simp] theorem State.setPgrp_hdr (s : State) (n : Nat) (v : Pgrp) : (s.setPgrp n v).hdr = s.hdr := rfl
@[simp] theorem State.setPgrp_inj (s : State) (n : Nat) (v : Pgrp) : (s.setPgrp n v).inj = s.inj := rfl
@[simp] theorem State.setPgrp_cores (s : State) (n : Nat) (v : Pgrp) : (s.setPgrp n v).cores = s.cores := rfl
@[simp] theorem State.setPgrp_dbgc (s : State) (n : Nat) (v : Pgrp) : (s.setPgrp n v).dbgc = s.dbgc := rfl
@[simp] theorem State.setPgrp_quads (s : State) (n : Nat) (v : Pgrp) : (s.setPgrp n v).quads = s.quads := rfl
@[simp] theorem State.setPgrp_chains (s : State) (n : Nat) (v : Pgrp) : (s.setPgrp n v).chains = s.chains := rfl
@[simp] theorem State.setPgrp_link (s : State) (n : Nat) (v : Pgrp) : (s.setPgrp n v).link = s.link := rfl
@[simp] theorem State.setPgrp_ports (s : State) (n : Nat) (v : Pgrp) : (s.setPgrp n v).ports = s.ports := rfl
@[simp] theorem State.setPgrp_pgrps (s : State) (n : Nat) (v : Pgrp) : (s.setPgrp n v).pgrps = tset pgrpInit n v s.pgrps := rfl
@[simp] theorem State.setPgrp_banks (s : State) (n : Nat) (v : Pgrp) : (s.setPgrp n v).banks = s.banks := rfl
@[simp] theorem State.setPgrp_mem (s : State) (n : Nat) (v : Pgrp) : (s.setPgrp n v).mem = s.mem := rfl
@[simp] theorem State.setPgrp_synd (s : State) (n : Nat) (v : Pgrp) : (s.setPgrp n v).synd = s.synd := rfl
@[simp] theorem State.setPgrp_steer (s : State) (n : Nat) (v : Pgrp) : (s.setPgrp n v).steer = s.steer := rfl
@[simp] theorem State.setPgrp_hot (s : State) (n : Nat) (v : Pgrp) : (s.setPgrp n v).hot = s.hot := rfl
@[simp] theorem State.setPgrp_icu (s : State) (n : Nat) (v : Pgrp) : (s.setPgrp n v).icu = s.icu := rfl
@[simp] theorem State.setPgrp_icuc (s : State) (n : Nat) (v : Pgrp) : (s.setPgrp n v).icuc = s.icuc := rfl
@[simp] theorem State.setPgrp_mt (s : State) (n : Nat) (v : Pgrp) : (s.setPgrp n v).mt = s.mt := rfl
@[simp] theorem State.setPgrp_cue (s : State) (n : Nat) (v : Pgrp) : (s.setPgrp n v).cue = s.cue := rfl
@[simp] theorem State.setPgrp_timers (s : State) (n : Nat) (v : Pgrp) : (s.setPgrp n v).timers = s.timers := rfl
@[simp] theorem State.setPgrp_doms (s : State) (n : Nat) (v : Pgrp) : (s.setPgrp n v).doms = s.doms := rfl
@[simp] theorem State.setPgrp_pau (s : State) (n : Nat) (v : Pgrp) : (s.setPgrp n v).pau = s.pau := rfl
@[simp] theorem State.setPgrp_pseq (s : State) (n : Nat) (v : Pgrp) : (s.setPgrp n v).pseq = s.pseq := rfl
@[simp] theorem State.setPgrp_sec (s : State) (n : Nat) (v : Pgrp) : (s.setPgrp n v).sec = s.sec := rfl
@[simp] theorem State.setPgrp_dbg (s : State) (n : Nat) (v : Pgrp) : (s.setPgrp n v).dbg = s.dbg := rfl
@[simp] theorem State.setPgrp_ras (s : State) (n : Nat) (v : Pgrp) : (s.setPgrp n v).ras = s.ras := rfl
@[simp] theorem State.setPgrp_cullet (s : State) (n : Nat) (v : Pgrp) : (s.setPgrp n v).cullet = s.cullet := rfl
@[simp] theorem State.setPgrp_pert (s : State) (n : Nat) (v : Pgrp) : (s.setPgrp n v).pert = s.pert := rfl
@[simp] theorem State.setPgrp_fuse (s : State) (n : Nat) (v : Pgrp) : (s.setPgrp n v).fuse = s.fuse := rfl

/-! ## `setBank` -/

@[simp] theorem State.setBank_pending (s : State) (n : Nat) (v : Bank) : (s.setBank n v).pending = s.pending := rfl
@[simp] theorem State.setBank_bclk (s : State) (n : Nat) (v : Bank) : (s.setBank n v).bclk = s.bclk := rfl
@[simp] theorem State.setBank_fresh (s : State) (n : Nat) (v : Bank) : (s.setBank n v).fresh = s.fresh := rfl
@[simp] theorem State.setBank_start (s : State) (n : Nat) (v : Bank) : (s.setBank n v).start = s.start := rfl
@[simp] theorem State.setBank_blk (s : State) (n : Nat) (v : Bank) : (s.setBank n v).blk = s.blk := rfl
@[simp] theorem State.setBank_hdr (s : State) (n : Nat) (v : Bank) : (s.setBank n v).hdr = s.hdr := rfl
@[simp] theorem State.setBank_inj (s : State) (n : Nat) (v : Bank) : (s.setBank n v).inj = s.inj := rfl
@[simp] theorem State.setBank_cores (s : State) (n : Nat) (v : Bank) : (s.setBank n v).cores = s.cores := rfl
@[simp] theorem State.setBank_dbgc (s : State) (n : Nat) (v : Bank) : (s.setBank n v).dbgc = s.dbgc := rfl
@[simp] theorem State.setBank_quads (s : State) (n : Nat) (v : Bank) : (s.setBank n v).quads = s.quads := rfl
@[simp] theorem State.setBank_chains (s : State) (n : Nat) (v : Bank) : (s.setBank n v).chains = s.chains := rfl
@[simp] theorem State.setBank_link (s : State) (n : Nat) (v : Bank) : (s.setBank n v).link = s.link := rfl
@[simp] theorem State.setBank_ports (s : State) (n : Nat) (v : Bank) : (s.setBank n v).ports = s.ports := rfl
@[simp] theorem State.setBank_pgrps (s : State) (n : Nat) (v : Bank) : (s.setBank n v).pgrps = s.pgrps := rfl
@[simp] theorem State.setBank_banks (s : State) (n : Nat) (v : Bank) : (s.setBank n v).banks = tset bankInit n v s.banks := rfl
@[simp] theorem State.setBank_mem (s : State) (n : Nat) (v : Bank) : (s.setBank n v).mem = s.mem := rfl
@[simp] theorem State.setBank_synd (s : State) (n : Nat) (v : Bank) : (s.setBank n v).synd = s.synd := rfl
@[simp] theorem State.setBank_steer (s : State) (n : Nat) (v : Bank) : (s.setBank n v).steer = s.steer := rfl
@[simp] theorem State.setBank_hot (s : State) (n : Nat) (v : Bank) : (s.setBank n v).hot = s.hot := rfl
@[simp] theorem State.setBank_icu (s : State) (n : Nat) (v : Bank) : (s.setBank n v).icu = s.icu := rfl
@[simp] theorem State.setBank_icuc (s : State) (n : Nat) (v : Bank) : (s.setBank n v).icuc = s.icuc := rfl
@[simp] theorem State.setBank_mt (s : State) (n : Nat) (v : Bank) : (s.setBank n v).mt = s.mt := rfl
@[simp] theorem State.setBank_cue (s : State) (n : Nat) (v : Bank) : (s.setBank n v).cue = s.cue := rfl
@[simp] theorem State.setBank_timers (s : State) (n : Nat) (v : Bank) : (s.setBank n v).timers = s.timers := rfl
@[simp] theorem State.setBank_doms (s : State) (n : Nat) (v : Bank) : (s.setBank n v).doms = s.doms := rfl
@[simp] theorem State.setBank_pau (s : State) (n : Nat) (v : Bank) : (s.setBank n v).pau = s.pau := rfl
@[simp] theorem State.setBank_pseq (s : State) (n : Nat) (v : Bank) : (s.setBank n v).pseq = s.pseq := rfl
@[simp] theorem State.setBank_sec (s : State) (n : Nat) (v : Bank) : (s.setBank n v).sec = s.sec := rfl
@[simp] theorem State.setBank_dbg (s : State) (n : Nat) (v : Bank) : (s.setBank n v).dbg = s.dbg := rfl
@[simp] theorem State.setBank_ras (s : State) (n : Nat) (v : Bank) : (s.setBank n v).ras = s.ras := rfl
@[simp] theorem State.setBank_cullet (s : State) (n : Nat) (v : Bank) : (s.setBank n v).cullet = s.cullet := rfl
@[simp] theorem State.setBank_pert (s : State) (n : Nat) (v : Bank) : (s.setBank n v).pert = s.pert := rfl
@[simp] theorem State.setBank_fuse (s : State) (n : Nat) (v : Bank) : (s.setBank n v).fuse = s.fuse := rfl

/-! ## `setIcuc` -/

@[simp] theorem State.setIcuc_pending (s : State) (n : Nat) (v : Icuc) : (s.setIcuc n v).pending = s.pending := rfl
@[simp] theorem State.setIcuc_bclk (s : State) (n : Nat) (v : Icuc) : (s.setIcuc n v).bclk = s.bclk := rfl
@[simp] theorem State.setIcuc_fresh (s : State) (n : Nat) (v : Icuc) : (s.setIcuc n v).fresh = s.fresh := rfl
@[simp] theorem State.setIcuc_start (s : State) (n : Nat) (v : Icuc) : (s.setIcuc n v).start = s.start := rfl
@[simp] theorem State.setIcuc_blk (s : State) (n : Nat) (v : Icuc) : (s.setIcuc n v).blk = s.blk := rfl
@[simp] theorem State.setIcuc_hdr (s : State) (n : Nat) (v : Icuc) : (s.setIcuc n v).hdr = s.hdr := rfl
@[simp] theorem State.setIcuc_inj (s : State) (n : Nat) (v : Icuc) : (s.setIcuc n v).inj = s.inj := rfl
@[simp] theorem State.setIcuc_cores (s : State) (n : Nat) (v : Icuc) : (s.setIcuc n v).cores = s.cores := rfl
@[simp] theorem State.setIcuc_dbgc (s : State) (n : Nat) (v : Icuc) : (s.setIcuc n v).dbgc = s.dbgc := rfl
@[simp] theorem State.setIcuc_quads (s : State) (n : Nat) (v : Icuc) : (s.setIcuc n v).quads = s.quads := rfl
@[simp] theorem State.setIcuc_chains (s : State) (n : Nat) (v : Icuc) : (s.setIcuc n v).chains = s.chains := rfl
@[simp] theorem State.setIcuc_link (s : State) (n : Nat) (v : Icuc) : (s.setIcuc n v).link = s.link := rfl
@[simp] theorem State.setIcuc_ports (s : State) (n : Nat) (v : Icuc) : (s.setIcuc n v).ports = s.ports := rfl
@[simp] theorem State.setIcuc_pgrps (s : State) (n : Nat) (v : Icuc) : (s.setIcuc n v).pgrps = s.pgrps := rfl
@[simp] theorem State.setIcuc_banks (s : State) (n : Nat) (v : Icuc) : (s.setIcuc n v).banks = s.banks := rfl
@[simp] theorem State.setIcuc_mem (s : State) (n : Nat) (v : Icuc) : (s.setIcuc n v).mem = s.mem := rfl
@[simp] theorem State.setIcuc_synd (s : State) (n : Nat) (v : Icuc) : (s.setIcuc n v).synd = s.synd := rfl
@[simp] theorem State.setIcuc_steer (s : State) (n : Nat) (v : Icuc) : (s.setIcuc n v).steer = s.steer := rfl
@[simp] theorem State.setIcuc_hot (s : State) (n : Nat) (v : Icuc) : (s.setIcuc n v).hot = s.hot := rfl
@[simp] theorem State.setIcuc_icu (s : State) (n : Nat) (v : Icuc) : (s.setIcuc n v).icu = s.icu := rfl
@[simp] theorem State.setIcuc_icuc (s : State) (n : Nat) (v : Icuc) : (s.setIcuc n v).icuc = tset icucInit n v s.icuc := rfl
@[simp] theorem State.setIcuc_mt (s : State) (n : Nat) (v : Icuc) : (s.setIcuc n v).mt = s.mt := rfl
@[simp] theorem State.setIcuc_cue (s : State) (n : Nat) (v : Icuc) : (s.setIcuc n v).cue = s.cue := rfl
@[simp] theorem State.setIcuc_timers (s : State) (n : Nat) (v : Icuc) : (s.setIcuc n v).timers = s.timers := rfl
@[simp] theorem State.setIcuc_doms (s : State) (n : Nat) (v : Icuc) : (s.setIcuc n v).doms = s.doms := rfl
@[simp] theorem State.setIcuc_pau (s : State) (n : Nat) (v : Icuc) : (s.setIcuc n v).pau = s.pau := rfl
@[simp] theorem State.setIcuc_pseq (s : State) (n : Nat) (v : Icuc) : (s.setIcuc n v).pseq = s.pseq := rfl
@[simp] theorem State.setIcuc_sec (s : State) (n : Nat) (v : Icuc) : (s.setIcuc n v).sec = s.sec := rfl
@[simp] theorem State.setIcuc_dbg (s : State) (n : Nat) (v : Icuc) : (s.setIcuc n v).dbg = s.dbg := rfl
@[simp] theorem State.setIcuc_ras (s : State) (n : Nat) (v : Icuc) : (s.setIcuc n v).ras = s.ras := rfl
@[simp] theorem State.setIcuc_cullet (s : State) (n : Nat) (v : Icuc) : (s.setIcuc n v).cullet = s.cullet := rfl
@[simp] theorem State.setIcuc_pert (s : State) (n : Nat) (v : Icuc) : (s.setIcuc n v).pert = s.pert := rfl
@[simp] theorem State.setIcuc_fuse (s : State) (n : Nat) (v : Icuc) : (s.setIcuc n v).fuse = s.fuse := rfl

/-! ## `setTimer` -/

@[simp] theorem State.setTimer_pending (s : State) (n : Nat) (v : Timer) : (s.setTimer n v).pending = s.pending := rfl
@[simp] theorem State.setTimer_bclk (s : State) (n : Nat) (v : Timer) : (s.setTimer n v).bclk = s.bclk := rfl
@[simp] theorem State.setTimer_fresh (s : State) (n : Nat) (v : Timer) : (s.setTimer n v).fresh = s.fresh := rfl
@[simp] theorem State.setTimer_start (s : State) (n : Nat) (v : Timer) : (s.setTimer n v).start = s.start := rfl
@[simp] theorem State.setTimer_blk (s : State) (n : Nat) (v : Timer) : (s.setTimer n v).blk = s.blk := rfl
@[simp] theorem State.setTimer_hdr (s : State) (n : Nat) (v : Timer) : (s.setTimer n v).hdr = s.hdr := rfl
@[simp] theorem State.setTimer_inj (s : State) (n : Nat) (v : Timer) : (s.setTimer n v).inj = s.inj := rfl
@[simp] theorem State.setTimer_cores (s : State) (n : Nat) (v : Timer) : (s.setTimer n v).cores = s.cores := rfl
@[simp] theorem State.setTimer_dbgc (s : State) (n : Nat) (v : Timer) : (s.setTimer n v).dbgc = s.dbgc := rfl
@[simp] theorem State.setTimer_quads (s : State) (n : Nat) (v : Timer) : (s.setTimer n v).quads = s.quads := rfl
@[simp] theorem State.setTimer_chains (s : State) (n : Nat) (v : Timer) : (s.setTimer n v).chains = s.chains := rfl
@[simp] theorem State.setTimer_link (s : State) (n : Nat) (v : Timer) : (s.setTimer n v).link = s.link := rfl
@[simp] theorem State.setTimer_ports (s : State) (n : Nat) (v : Timer) : (s.setTimer n v).ports = s.ports := rfl
@[simp] theorem State.setTimer_pgrps (s : State) (n : Nat) (v : Timer) : (s.setTimer n v).pgrps = s.pgrps := rfl
@[simp] theorem State.setTimer_banks (s : State) (n : Nat) (v : Timer) : (s.setTimer n v).banks = s.banks := rfl
@[simp] theorem State.setTimer_mem (s : State) (n : Nat) (v : Timer) : (s.setTimer n v).mem = s.mem := rfl
@[simp] theorem State.setTimer_synd (s : State) (n : Nat) (v : Timer) : (s.setTimer n v).synd = s.synd := rfl
@[simp] theorem State.setTimer_steer (s : State) (n : Nat) (v : Timer) : (s.setTimer n v).steer = s.steer := rfl
@[simp] theorem State.setTimer_hot (s : State) (n : Nat) (v : Timer) : (s.setTimer n v).hot = s.hot := rfl
@[simp] theorem State.setTimer_icu (s : State) (n : Nat) (v : Timer) : (s.setTimer n v).icu = s.icu := rfl
@[simp] theorem State.setTimer_icuc (s : State) (n : Nat) (v : Timer) : (s.setTimer n v).icuc = s.icuc := rfl
@[simp] theorem State.setTimer_mt (s : State) (n : Nat) (v : Timer) : (s.setTimer n v).mt = s.mt := rfl
@[simp] theorem State.setTimer_cue (s : State) (n : Nat) (v : Timer) : (s.setTimer n v).cue = s.cue := rfl
@[simp] theorem State.setTimer_timers (s : State) (n : Nat) (v : Timer) : (s.setTimer n v).timers = tset timerInit n v s.timers := rfl
@[simp] theorem State.setTimer_doms (s : State) (n : Nat) (v : Timer) : (s.setTimer n v).doms = s.doms := rfl
@[simp] theorem State.setTimer_pau (s : State) (n : Nat) (v : Timer) : (s.setTimer n v).pau = s.pau := rfl
@[simp] theorem State.setTimer_pseq (s : State) (n : Nat) (v : Timer) : (s.setTimer n v).pseq = s.pseq := rfl
@[simp] theorem State.setTimer_sec (s : State) (n : Nat) (v : Timer) : (s.setTimer n v).sec = s.sec := rfl
@[simp] theorem State.setTimer_dbg (s : State) (n : Nat) (v : Timer) : (s.setTimer n v).dbg = s.dbg := rfl
@[simp] theorem State.setTimer_ras (s : State) (n : Nat) (v : Timer) : (s.setTimer n v).ras = s.ras := rfl
@[simp] theorem State.setTimer_cullet (s : State) (n : Nat) (v : Timer) : (s.setTimer n v).cullet = s.cullet := rfl
@[simp] theorem State.setTimer_pert (s : State) (n : Nat) (v : Timer) : (s.setTimer n v).pert = s.pert := rfl
@[simp] theorem State.setTimer_fuse (s : State) (n : Nat) (v : Timer) : (s.setTimer n v).fuse = s.fuse := rfl

/-! ## `setDom` -/

@[simp] theorem State.setDom_pending (s : State) (n : Nat) (v : Dom) : (s.setDom n v).pending = s.pending := rfl
@[simp] theorem State.setDom_bclk (s : State) (n : Nat) (v : Dom) : (s.setDom n v).bclk = s.bclk := rfl
@[simp] theorem State.setDom_fresh (s : State) (n : Nat) (v : Dom) : (s.setDom n v).fresh = s.fresh := rfl
@[simp] theorem State.setDom_start (s : State) (n : Nat) (v : Dom) : (s.setDom n v).start = s.start := rfl
@[simp] theorem State.setDom_blk (s : State) (n : Nat) (v : Dom) : (s.setDom n v).blk = s.blk := rfl
@[simp] theorem State.setDom_hdr (s : State) (n : Nat) (v : Dom) : (s.setDom n v).hdr = s.hdr := rfl
@[simp] theorem State.setDom_inj (s : State) (n : Nat) (v : Dom) : (s.setDom n v).inj = s.inj := rfl
@[simp] theorem State.setDom_cores (s : State) (n : Nat) (v : Dom) : (s.setDom n v).cores = s.cores := rfl
@[simp] theorem State.setDom_dbgc (s : State) (n : Nat) (v : Dom) : (s.setDom n v).dbgc = s.dbgc := rfl
@[simp] theorem State.setDom_quads (s : State) (n : Nat) (v : Dom) : (s.setDom n v).quads = s.quads := rfl
@[simp] theorem State.setDom_chains (s : State) (n : Nat) (v : Dom) : (s.setDom n v).chains = s.chains := rfl
@[simp] theorem State.setDom_link (s : State) (n : Nat) (v : Dom) : (s.setDom n v).link = s.link := rfl
@[simp] theorem State.setDom_ports (s : State) (n : Nat) (v : Dom) : (s.setDom n v).ports = s.ports := rfl
@[simp] theorem State.setDom_pgrps (s : State) (n : Nat) (v : Dom) : (s.setDom n v).pgrps = s.pgrps := rfl
@[simp] theorem State.setDom_banks (s : State) (n : Nat) (v : Dom) : (s.setDom n v).banks = s.banks := rfl
@[simp] theorem State.setDom_mem (s : State) (n : Nat) (v : Dom) : (s.setDom n v).mem = s.mem := rfl
@[simp] theorem State.setDom_synd (s : State) (n : Nat) (v : Dom) : (s.setDom n v).synd = s.synd := rfl
@[simp] theorem State.setDom_steer (s : State) (n : Nat) (v : Dom) : (s.setDom n v).steer = s.steer := rfl
@[simp] theorem State.setDom_hot (s : State) (n : Nat) (v : Dom) : (s.setDom n v).hot = s.hot := rfl
@[simp] theorem State.setDom_icu (s : State) (n : Nat) (v : Dom) : (s.setDom n v).icu = s.icu := rfl
@[simp] theorem State.setDom_icuc (s : State) (n : Nat) (v : Dom) : (s.setDom n v).icuc = s.icuc := rfl
@[simp] theorem State.setDom_mt (s : State) (n : Nat) (v : Dom) : (s.setDom n v).mt = s.mt := rfl
@[simp] theorem State.setDom_cue (s : State) (n : Nat) (v : Dom) : (s.setDom n v).cue = s.cue := rfl
@[simp] theorem State.setDom_timers (s : State) (n : Nat) (v : Dom) : (s.setDom n v).timers = s.timers := rfl
@[simp] theorem State.setDom_doms (s : State) (n : Nat) (v : Dom) : (s.setDom n v).doms = tset domInit n v s.doms := rfl
@[simp] theorem State.setDom_pau (s : State) (n : Nat) (v : Dom) : (s.setDom n v).pau = s.pau := rfl
@[simp] theorem State.setDom_pseq (s : State) (n : Nat) (v : Dom) : (s.setDom n v).pseq = s.pseq := rfl
@[simp] theorem State.setDom_sec (s : State) (n : Nat) (v : Dom) : (s.setDom n v).sec = s.sec := rfl
@[simp] theorem State.setDom_dbg (s : State) (n : Nat) (v : Dom) : (s.setDom n v).dbg = s.dbg := rfl
@[simp] theorem State.setDom_ras (s : State) (n : Nat) (v : Dom) : (s.setDom n v).ras = s.ras := rfl
@[simp] theorem State.setDom_cullet (s : State) (n : Nat) (v : Dom) : (s.setDom n v).cullet = s.cullet := rfl
@[simp] theorem State.setDom_pert (s : State) (n : Nat) (v : Dom) : (s.setDom n v).pert = s.pert := rfl
@[simp] theorem State.setDom_fuse (s : State) (n : Nat) (v : Dom) : (s.setDom n v).fuse = s.fuse := rfl

/-! ## `setHeader` -/

@[simp] theorem State.setHeader_pending (s : State) (n : Nat) (v : Header) : (s.setHeader n v).pending = s.pending := rfl
@[simp] theorem State.setHeader_bclk (s : State) (n : Nat) (v : Header) : (s.setHeader n v).bclk = s.bclk := rfl
@[simp] theorem State.setHeader_fresh (s : State) (n : Nat) (v : Header) : (s.setHeader n v).fresh = s.fresh := rfl
@[simp] theorem State.setHeader_start (s : State) (n : Nat) (v : Header) : (s.setHeader n v).start = s.start := rfl
@[simp] theorem State.setHeader_blk (s : State) (n : Nat) (v : Header) : (s.setHeader n v).blk = s.blk := rfl
@[simp] theorem State.setHeader_hdr (s : State) (n : Nat) (v : Header) : (s.setHeader n v).hdr = tset hdrInit n v s.hdr := rfl
@[simp] theorem State.setHeader_inj (s : State) (n : Nat) (v : Header) : (s.setHeader n v).inj = s.inj := rfl
@[simp] theorem State.setHeader_cores (s : State) (n : Nat) (v : Header) : (s.setHeader n v).cores = s.cores := rfl
@[simp] theorem State.setHeader_dbgc (s : State) (n : Nat) (v : Header) : (s.setHeader n v).dbgc = s.dbgc := rfl
@[simp] theorem State.setHeader_quads (s : State) (n : Nat) (v : Header) : (s.setHeader n v).quads = s.quads := rfl
@[simp] theorem State.setHeader_chains (s : State) (n : Nat) (v : Header) : (s.setHeader n v).chains = s.chains := rfl
@[simp] theorem State.setHeader_link (s : State) (n : Nat) (v : Header) : (s.setHeader n v).link = s.link := rfl
@[simp] theorem State.setHeader_ports (s : State) (n : Nat) (v : Header) : (s.setHeader n v).ports = s.ports := rfl
@[simp] theorem State.setHeader_pgrps (s : State) (n : Nat) (v : Header) : (s.setHeader n v).pgrps = s.pgrps := rfl
@[simp] theorem State.setHeader_banks (s : State) (n : Nat) (v : Header) : (s.setHeader n v).banks = s.banks := rfl
@[simp] theorem State.setHeader_mem (s : State) (n : Nat) (v : Header) : (s.setHeader n v).mem = s.mem := rfl
@[simp] theorem State.setHeader_synd (s : State) (n : Nat) (v : Header) : (s.setHeader n v).synd = s.synd := rfl
@[simp] theorem State.setHeader_steer (s : State) (n : Nat) (v : Header) : (s.setHeader n v).steer = s.steer := rfl
@[simp] theorem State.setHeader_hot (s : State) (n : Nat) (v : Header) : (s.setHeader n v).hot = s.hot := rfl
@[simp] theorem State.setHeader_icu (s : State) (n : Nat) (v : Header) : (s.setHeader n v).icu = s.icu := rfl
@[simp] theorem State.setHeader_icuc (s : State) (n : Nat) (v : Header) : (s.setHeader n v).icuc = s.icuc := rfl
@[simp] theorem State.setHeader_mt (s : State) (n : Nat) (v : Header) : (s.setHeader n v).mt = s.mt := rfl
@[simp] theorem State.setHeader_cue (s : State) (n : Nat) (v : Header) : (s.setHeader n v).cue = s.cue := rfl
@[simp] theorem State.setHeader_timers (s : State) (n : Nat) (v : Header) : (s.setHeader n v).timers = s.timers := rfl
@[simp] theorem State.setHeader_doms (s : State) (n : Nat) (v : Header) : (s.setHeader n v).doms = s.doms := rfl
@[simp] theorem State.setHeader_pau (s : State) (n : Nat) (v : Header) : (s.setHeader n v).pau = s.pau := rfl
@[simp] theorem State.setHeader_pseq (s : State) (n : Nat) (v : Header) : (s.setHeader n v).pseq = s.pseq := rfl
@[simp] theorem State.setHeader_sec (s : State) (n : Nat) (v : Header) : (s.setHeader n v).sec = s.sec := rfl
@[simp] theorem State.setHeader_dbg (s : State) (n : Nat) (v : Header) : (s.setHeader n v).dbg = s.dbg := rfl
@[simp] theorem State.setHeader_ras (s : State) (n : Nat) (v : Header) : (s.setHeader n v).ras = s.ras := rfl
@[simp] theorem State.setHeader_cullet (s : State) (n : Nat) (v : Header) : (s.setHeader n v).cullet = s.cullet := rfl
@[simp] theorem State.setHeader_pert (s : State) (n : Nat) (v : Header) : (s.setHeader n v).pert = s.pert := rfl
@[simp] theorem State.setHeader_fuse (s : State) (n : Nat) (v : Header) : (s.setHeader n v).fuse = s.fuse := rfl

/-! ## `setInj` -/

@[simp] theorem State.setInj_pending (s : State) (n : Nat) (v : Inj) : (s.setInj n v).pending = s.pending := rfl
@[simp] theorem State.setInj_bclk (s : State) (n : Nat) (v : Inj) : (s.setInj n v).bclk = s.bclk := rfl
@[simp] theorem State.setInj_fresh (s : State) (n : Nat) (v : Inj) : (s.setInj n v).fresh = s.fresh := rfl
@[simp] theorem State.setInj_start (s : State) (n : Nat) (v : Inj) : (s.setInj n v).start = s.start := rfl
@[simp] theorem State.setInj_blk (s : State) (n : Nat) (v : Inj) : (s.setInj n v).blk = s.blk := rfl
@[simp] theorem State.setInj_hdr (s : State) (n : Nat) (v : Inj) : (s.setInj n v).hdr = s.hdr := rfl
@[simp] theorem State.setInj_inj (s : State) (n : Nat) (v : Inj) : (s.setInj n v).inj = tset injInit n v s.inj := rfl
@[simp] theorem State.setInj_cores (s : State) (n : Nat) (v : Inj) : (s.setInj n v).cores = s.cores := rfl
@[simp] theorem State.setInj_dbgc (s : State) (n : Nat) (v : Inj) : (s.setInj n v).dbgc = s.dbgc := rfl
@[simp] theorem State.setInj_quads (s : State) (n : Nat) (v : Inj) : (s.setInj n v).quads = s.quads := rfl
@[simp] theorem State.setInj_chains (s : State) (n : Nat) (v : Inj) : (s.setInj n v).chains = s.chains := rfl
@[simp] theorem State.setInj_link (s : State) (n : Nat) (v : Inj) : (s.setInj n v).link = s.link := rfl
@[simp] theorem State.setInj_ports (s : State) (n : Nat) (v : Inj) : (s.setInj n v).ports = s.ports := rfl
@[simp] theorem State.setInj_pgrps (s : State) (n : Nat) (v : Inj) : (s.setInj n v).pgrps = s.pgrps := rfl
@[simp] theorem State.setInj_banks (s : State) (n : Nat) (v : Inj) : (s.setInj n v).banks = s.banks := rfl
@[simp] theorem State.setInj_mem (s : State) (n : Nat) (v : Inj) : (s.setInj n v).mem = s.mem := rfl
@[simp] theorem State.setInj_synd (s : State) (n : Nat) (v : Inj) : (s.setInj n v).synd = s.synd := rfl
@[simp] theorem State.setInj_steer (s : State) (n : Nat) (v : Inj) : (s.setInj n v).steer = s.steer := rfl
@[simp] theorem State.setInj_hot (s : State) (n : Nat) (v : Inj) : (s.setInj n v).hot = s.hot := rfl
@[simp] theorem State.setInj_icu (s : State) (n : Nat) (v : Inj) : (s.setInj n v).icu = s.icu := rfl
@[simp] theorem State.setInj_icuc (s : State) (n : Nat) (v : Inj) : (s.setInj n v).icuc = s.icuc := rfl
@[simp] theorem State.setInj_mt (s : State) (n : Nat) (v : Inj) : (s.setInj n v).mt = s.mt := rfl
@[simp] theorem State.setInj_cue (s : State) (n : Nat) (v : Inj) : (s.setInj n v).cue = s.cue := rfl
@[simp] theorem State.setInj_timers (s : State) (n : Nat) (v : Inj) : (s.setInj n v).timers = s.timers := rfl
@[simp] theorem State.setInj_doms (s : State) (n : Nat) (v : Inj) : (s.setInj n v).doms = s.doms := rfl
@[simp] theorem State.setInj_pau (s : State) (n : Nat) (v : Inj) : (s.setInj n v).pau = s.pau := rfl
@[simp] theorem State.setInj_pseq (s : State) (n : Nat) (v : Inj) : (s.setInj n v).pseq = s.pseq := rfl
@[simp] theorem State.setInj_sec (s : State) (n : Nat) (v : Inj) : (s.setInj n v).sec = s.sec := rfl
@[simp] theorem State.setInj_dbg (s : State) (n : Nat) (v : Inj) : (s.setInj n v).dbg = s.dbg := rfl
@[simp] theorem State.setInj_ras (s : State) (n : Nat) (v : Inj) : (s.setInj n v).ras = s.ras := rfl
@[simp] theorem State.setInj_cullet (s : State) (n : Nat) (v : Inj) : (s.setInj n v).cullet = s.cullet := rfl
@[simp] theorem State.setInj_pert (s : State) (n : Nat) (v : Inj) : (s.setInj n v).pert = s.pert := rfl
@[simp] theorem State.setInj_fuse (s : State) (n : Nat) (v : Inj) : (s.setInj n v).fuse = s.fuse := rfl

/-! ## `setStart` -/

@[simp] theorem State.setStart_pending (s : State) (v : Start) : (s.setStart v).pending = s.pending := rfl
@[simp] theorem State.setStart_bclk (s : State) (v : Start) : (s.setStart v).bclk = s.bclk := rfl
@[simp] theorem State.setStart_fresh (s : State) (v : Start) : (s.setStart v).fresh = s.fresh := rfl
@[simp] theorem State.setStart_start (s : State) (v : Start) : (s.setStart v).start = v := rfl
@[simp] theorem State.setStart_blk (s : State) (v : Start) : (s.setStart v).blk = s.blk := rfl
@[simp] theorem State.setStart_hdr (s : State) (v : Start) : (s.setStart v).hdr = s.hdr := rfl
@[simp] theorem State.setStart_inj (s : State) (v : Start) : (s.setStart v).inj = s.inj := rfl
@[simp] theorem State.setStart_cores (s : State) (v : Start) : (s.setStart v).cores = s.cores := rfl
@[simp] theorem State.setStart_dbgc (s : State) (v : Start) : (s.setStart v).dbgc = s.dbgc := rfl
@[simp] theorem State.setStart_quads (s : State) (v : Start) : (s.setStart v).quads = s.quads := rfl
@[simp] theorem State.setStart_chains (s : State) (v : Start) : (s.setStart v).chains = s.chains := rfl
@[simp] theorem State.setStart_link (s : State) (v : Start) : (s.setStart v).link = s.link := rfl
@[simp] theorem State.setStart_ports (s : State) (v : Start) : (s.setStart v).ports = s.ports := rfl
@[simp] theorem State.setStart_pgrps (s : State) (v : Start) : (s.setStart v).pgrps = s.pgrps := rfl
@[simp] theorem State.setStart_banks (s : State) (v : Start) : (s.setStart v).banks = s.banks := rfl
@[simp] theorem State.setStart_mem (s : State) (v : Start) : (s.setStart v).mem = s.mem := rfl
@[simp] theorem State.setStart_synd (s : State) (v : Start) : (s.setStart v).synd = s.synd := rfl
@[simp] theorem State.setStart_steer (s : State) (v : Start) : (s.setStart v).steer = s.steer := rfl
@[simp] theorem State.setStart_hot (s : State) (v : Start) : (s.setStart v).hot = s.hot := rfl
@[simp] theorem State.setStart_icu (s : State) (v : Start) : (s.setStart v).icu = s.icu := rfl
@[simp] theorem State.setStart_icuc (s : State) (v : Start) : (s.setStart v).icuc = s.icuc := rfl
@[simp] theorem State.setStart_mt (s : State) (v : Start) : (s.setStart v).mt = s.mt := rfl
@[simp] theorem State.setStart_cue (s : State) (v : Start) : (s.setStart v).cue = s.cue := rfl
@[simp] theorem State.setStart_timers (s : State) (v : Start) : (s.setStart v).timers = s.timers := rfl
@[simp] theorem State.setStart_doms (s : State) (v : Start) : (s.setStart v).doms = s.doms := rfl
@[simp] theorem State.setStart_pau (s : State) (v : Start) : (s.setStart v).pau = s.pau := rfl
@[simp] theorem State.setStart_pseq (s : State) (v : Start) : (s.setStart v).pseq = s.pseq := rfl
@[simp] theorem State.setStart_sec (s : State) (v : Start) : (s.setStart v).sec = s.sec := rfl
@[simp] theorem State.setStart_dbg (s : State) (v : Start) : (s.setStart v).dbg = s.dbg := rfl
@[simp] theorem State.setStart_ras (s : State) (v : Start) : (s.setStart v).ras = s.ras := rfl
@[simp] theorem State.setStart_cullet (s : State) (v : Start) : (s.setStart v).cullet = s.cullet := rfl
@[simp] theorem State.setStart_pert (s : State) (v : Start) : (s.setStart v).pert = s.pert := rfl
@[simp] theorem State.setStart_fuse (s : State) (v : Start) : (s.setStart v).fuse = s.fuse := rfl

/-! ## `setIcu` -/

@[simp] theorem State.setIcu_pending (s : State) (v : Icu) : (s.setIcu v).pending = s.pending := rfl
@[simp] theorem State.setIcu_bclk (s : State) (v : Icu) : (s.setIcu v).bclk = s.bclk := rfl
@[simp] theorem State.setIcu_fresh (s : State) (v : Icu) : (s.setIcu v).fresh = s.fresh := rfl
@[simp] theorem State.setIcu_start (s : State) (v : Icu) : (s.setIcu v).start = s.start := rfl
@[simp] theorem State.setIcu_blk (s : State) (v : Icu) : (s.setIcu v).blk = s.blk := rfl
@[simp] theorem State.setIcu_hdr (s : State) (v : Icu) : (s.setIcu v).hdr = s.hdr := rfl
@[simp] theorem State.setIcu_inj (s : State) (v : Icu) : (s.setIcu v).inj = s.inj := rfl
@[simp] theorem State.setIcu_cores (s : State) (v : Icu) : (s.setIcu v).cores = s.cores := rfl
@[simp] theorem State.setIcu_dbgc (s : State) (v : Icu) : (s.setIcu v).dbgc = s.dbgc := rfl
@[simp] theorem State.setIcu_quads (s : State) (v : Icu) : (s.setIcu v).quads = s.quads := rfl
@[simp] theorem State.setIcu_chains (s : State) (v : Icu) : (s.setIcu v).chains = s.chains := rfl
@[simp] theorem State.setIcu_link (s : State) (v : Icu) : (s.setIcu v).link = s.link := rfl
@[simp] theorem State.setIcu_ports (s : State) (v : Icu) : (s.setIcu v).ports = s.ports := rfl
@[simp] theorem State.setIcu_pgrps (s : State) (v : Icu) : (s.setIcu v).pgrps = s.pgrps := rfl
@[simp] theorem State.setIcu_banks (s : State) (v : Icu) : (s.setIcu v).banks = s.banks := rfl
@[simp] theorem State.setIcu_mem (s : State) (v : Icu) : (s.setIcu v).mem = s.mem := rfl
@[simp] theorem State.setIcu_synd (s : State) (v : Icu) : (s.setIcu v).synd = s.synd := rfl
@[simp] theorem State.setIcu_steer (s : State) (v : Icu) : (s.setIcu v).steer = s.steer := rfl
@[simp] theorem State.setIcu_hot (s : State) (v : Icu) : (s.setIcu v).hot = s.hot := rfl
@[simp] theorem State.setIcu_icu (s : State) (v : Icu) : (s.setIcu v).icu = v := rfl
@[simp] theorem State.setIcu_icuc (s : State) (v : Icu) : (s.setIcu v).icuc = s.icuc := rfl
@[simp] theorem State.setIcu_mt (s : State) (v : Icu) : (s.setIcu v).mt = s.mt := rfl
@[simp] theorem State.setIcu_cue (s : State) (v : Icu) : (s.setIcu v).cue = s.cue := rfl
@[simp] theorem State.setIcu_timers (s : State) (v : Icu) : (s.setIcu v).timers = s.timers := rfl
@[simp] theorem State.setIcu_doms (s : State) (v : Icu) : (s.setIcu v).doms = s.doms := rfl
@[simp] theorem State.setIcu_pau (s : State) (v : Icu) : (s.setIcu v).pau = s.pau := rfl
@[simp] theorem State.setIcu_pseq (s : State) (v : Icu) : (s.setIcu v).pseq = s.pseq := rfl
@[simp] theorem State.setIcu_sec (s : State) (v : Icu) : (s.setIcu v).sec = s.sec := rfl
@[simp] theorem State.setIcu_dbg (s : State) (v : Icu) : (s.setIcu v).dbg = s.dbg := rfl
@[simp] theorem State.setIcu_ras (s : State) (v : Icu) : (s.setIcu v).ras = s.ras := rfl
@[simp] theorem State.setIcu_cullet (s : State) (v : Icu) : (s.setIcu v).cullet = s.cullet := rfl
@[simp] theorem State.setIcu_pert (s : State) (v : Icu) : (s.setIcu v).pert = s.pert := rfl
@[simp] theorem State.setIcu_fuse (s : State) (v : Icu) : (s.setIcu v).fuse = s.fuse := rfl

/-! ## `setSteer` -/

@[simp] theorem State.setSteer_pending (s : State) (v : Steer) : (s.setSteer v).pending = s.pending := rfl
@[simp] theorem State.setSteer_bclk (s : State) (v : Steer) : (s.setSteer v).bclk = s.bclk := rfl
@[simp] theorem State.setSteer_fresh (s : State) (v : Steer) : (s.setSteer v).fresh = s.fresh := rfl
@[simp] theorem State.setSteer_start (s : State) (v : Steer) : (s.setSteer v).start = s.start := rfl
@[simp] theorem State.setSteer_blk (s : State) (v : Steer) : (s.setSteer v).blk = s.blk := rfl
@[simp] theorem State.setSteer_hdr (s : State) (v : Steer) : (s.setSteer v).hdr = s.hdr := rfl
@[simp] theorem State.setSteer_inj (s : State) (v : Steer) : (s.setSteer v).inj = s.inj := rfl
@[simp] theorem State.setSteer_cores (s : State) (v : Steer) : (s.setSteer v).cores = s.cores := rfl
@[simp] theorem State.setSteer_dbgc (s : State) (v : Steer) : (s.setSteer v).dbgc = s.dbgc := rfl
@[simp] theorem State.setSteer_quads (s : State) (v : Steer) : (s.setSteer v).quads = s.quads := rfl
@[simp] theorem State.setSteer_chains (s : State) (v : Steer) : (s.setSteer v).chains = s.chains := rfl
@[simp] theorem State.setSteer_link (s : State) (v : Steer) : (s.setSteer v).link = s.link := rfl
@[simp] theorem State.setSteer_ports (s : State) (v : Steer) : (s.setSteer v).ports = s.ports := rfl
@[simp] theorem State.setSteer_pgrps (s : State) (v : Steer) : (s.setSteer v).pgrps = s.pgrps := rfl
@[simp] theorem State.setSteer_banks (s : State) (v : Steer) : (s.setSteer v).banks = s.banks := rfl
@[simp] theorem State.setSteer_mem (s : State) (v : Steer) : (s.setSteer v).mem = s.mem := rfl
@[simp] theorem State.setSteer_synd (s : State) (v : Steer) : (s.setSteer v).synd = s.synd := rfl
@[simp] theorem State.setSteer_steer (s : State) (v : Steer) : (s.setSteer v).steer = v := rfl
@[simp] theorem State.setSteer_hot (s : State) (v : Steer) : (s.setSteer v).hot = s.hot := rfl
@[simp] theorem State.setSteer_icu (s : State) (v : Steer) : (s.setSteer v).icu = s.icu := rfl
@[simp] theorem State.setSteer_icuc (s : State) (v : Steer) : (s.setSteer v).icuc = s.icuc := rfl
@[simp] theorem State.setSteer_mt (s : State) (v : Steer) : (s.setSteer v).mt = s.mt := rfl
@[simp] theorem State.setSteer_cue (s : State) (v : Steer) : (s.setSteer v).cue = s.cue := rfl
@[simp] theorem State.setSteer_timers (s : State) (v : Steer) : (s.setSteer v).timers = s.timers := rfl
@[simp] theorem State.setSteer_doms (s : State) (v : Steer) : (s.setSteer v).doms = s.doms := rfl
@[simp] theorem State.setSteer_pau (s : State) (v : Steer) : (s.setSteer v).pau = s.pau := rfl
@[simp] theorem State.setSteer_pseq (s : State) (v : Steer) : (s.setSteer v).pseq = s.pseq := rfl
@[simp] theorem State.setSteer_sec (s : State) (v : Steer) : (s.setSteer v).sec = s.sec := rfl
@[simp] theorem State.setSteer_dbg (s : State) (v : Steer) : (s.setSteer v).dbg = s.dbg := rfl
@[simp] theorem State.setSteer_ras (s : State) (v : Steer) : (s.setSteer v).ras = s.ras := rfl
@[simp] theorem State.setSteer_cullet (s : State) (v : Steer) : (s.setSteer v).cullet = s.cullet := rfl
@[simp] theorem State.setSteer_pert (s : State) (v : Steer) : (s.setSteer v).pert = s.pert := rfl
@[simp] theorem State.setSteer_fuse (s : State) (v : Steer) : (s.setSteer v).fuse = s.fuse := rfl

/-! ## `setMt` -/

@[simp] theorem State.setMt_pending (s : State) (v : Mt) : (s.setMt v).pending = s.pending := rfl
@[simp] theorem State.setMt_bclk (s : State) (v : Mt) : (s.setMt v).bclk = s.bclk := rfl
@[simp] theorem State.setMt_fresh (s : State) (v : Mt) : (s.setMt v).fresh = s.fresh := rfl
@[simp] theorem State.setMt_start (s : State) (v : Mt) : (s.setMt v).start = s.start := rfl
@[simp] theorem State.setMt_blk (s : State) (v : Mt) : (s.setMt v).blk = s.blk := rfl
@[simp] theorem State.setMt_hdr (s : State) (v : Mt) : (s.setMt v).hdr = s.hdr := rfl
@[simp] theorem State.setMt_inj (s : State) (v : Mt) : (s.setMt v).inj = s.inj := rfl
@[simp] theorem State.setMt_cores (s : State) (v : Mt) : (s.setMt v).cores = s.cores := rfl
@[simp] theorem State.setMt_dbgc (s : State) (v : Mt) : (s.setMt v).dbgc = s.dbgc := rfl
@[simp] theorem State.setMt_quads (s : State) (v : Mt) : (s.setMt v).quads = s.quads := rfl
@[simp] theorem State.setMt_chains (s : State) (v : Mt) : (s.setMt v).chains = s.chains := rfl
@[simp] theorem State.setMt_link (s : State) (v : Mt) : (s.setMt v).link = s.link := rfl
@[simp] theorem State.setMt_ports (s : State) (v : Mt) : (s.setMt v).ports = s.ports := rfl
@[simp] theorem State.setMt_pgrps (s : State) (v : Mt) : (s.setMt v).pgrps = s.pgrps := rfl
@[simp] theorem State.setMt_banks (s : State) (v : Mt) : (s.setMt v).banks = s.banks := rfl
@[simp] theorem State.setMt_mem (s : State) (v : Mt) : (s.setMt v).mem = s.mem := rfl
@[simp] theorem State.setMt_synd (s : State) (v : Mt) : (s.setMt v).synd = s.synd := rfl
@[simp] theorem State.setMt_steer (s : State) (v : Mt) : (s.setMt v).steer = s.steer := rfl
@[simp] theorem State.setMt_hot (s : State) (v : Mt) : (s.setMt v).hot = s.hot := rfl
@[simp] theorem State.setMt_icu (s : State) (v : Mt) : (s.setMt v).icu = s.icu := rfl
@[simp] theorem State.setMt_icuc (s : State) (v : Mt) : (s.setMt v).icuc = s.icuc := rfl
@[simp] theorem State.setMt_mt (s : State) (v : Mt) : (s.setMt v).mt = v := rfl
@[simp] theorem State.setMt_cue (s : State) (v : Mt) : (s.setMt v).cue = s.cue := rfl
@[simp] theorem State.setMt_timers (s : State) (v : Mt) : (s.setMt v).timers = s.timers := rfl
@[simp] theorem State.setMt_doms (s : State) (v : Mt) : (s.setMt v).doms = s.doms := rfl
@[simp] theorem State.setMt_pau (s : State) (v : Mt) : (s.setMt v).pau = s.pau := rfl
@[simp] theorem State.setMt_pseq (s : State) (v : Mt) : (s.setMt v).pseq = s.pseq := rfl
@[simp] theorem State.setMt_sec (s : State) (v : Mt) : (s.setMt v).sec = s.sec := rfl
@[simp] theorem State.setMt_dbg (s : State) (v : Mt) : (s.setMt v).dbg = s.dbg := rfl
@[simp] theorem State.setMt_ras (s : State) (v : Mt) : (s.setMt v).ras = s.ras := rfl
@[simp] theorem State.setMt_cullet (s : State) (v : Mt) : (s.setMt v).cullet = s.cullet := rfl
@[simp] theorem State.setMt_pert (s : State) (v : Mt) : (s.setMt v).pert = s.pert := rfl
@[simp] theorem State.setMt_fuse (s : State) (v : Mt) : (s.setMt v).fuse = s.fuse := rfl

/-! ## `setCue` -/

@[simp] theorem State.setCue_pending (s : State) (v : Cue) : (s.setCue v).pending = s.pending := rfl
@[simp] theorem State.setCue_bclk (s : State) (v : Cue) : (s.setCue v).bclk = s.bclk := rfl
@[simp] theorem State.setCue_fresh (s : State) (v : Cue) : (s.setCue v).fresh = s.fresh := rfl
@[simp] theorem State.setCue_start (s : State) (v : Cue) : (s.setCue v).start = s.start := rfl
@[simp] theorem State.setCue_blk (s : State) (v : Cue) : (s.setCue v).blk = s.blk := rfl
@[simp] theorem State.setCue_hdr (s : State) (v : Cue) : (s.setCue v).hdr = s.hdr := rfl
@[simp] theorem State.setCue_inj (s : State) (v : Cue) : (s.setCue v).inj = s.inj := rfl
@[simp] theorem State.setCue_cores (s : State) (v : Cue) : (s.setCue v).cores = s.cores := rfl
@[simp] theorem State.setCue_dbgc (s : State) (v : Cue) : (s.setCue v).dbgc = s.dbgc := rfl
@[simp] theorem State.setCue_quads (s : State) (v : Cue) : (s.setCue v).quads = s.quads := rfl
@[simp] theorem State.setCue_chains (s : State) (v : Cue) : (s.setCue v).chains = s.chains := rfl
@[simp] theorem State.setCue_link (s : State) (v : Cue) : (s.setCue v).link = s.link := rfl
@[simp] theorem State.setCue_ports (s : State) (v : Cue) : (s.setCue v).ports = s.ports := rfl
@[simp] theorem State.setCue_pgrps (s : State) (v : Cue) : (s.setCue v).pgrps = s.pgrps := rfl
@[simp] theorem State.setCue_banks (s : State) (v : Cue) : (s.setCue v).banks = s.banks := rfl
@[simp] theorem State.setCue_mem (s : State) (v : Cue) : (s.setCue v).mem = s.mem := rfl
@[simp] theorem State.setCue_synd (s : State) (v : Cue) : (s.setCue v).synd = s.synd := rfl
@[simp] theorem State.setCue_steer (s : State) (v : Cue) : (s.setCue v).steer = s.steer := rfl
@[simp] theorem State.setCue_hot (s : State) (v : Cue) : (s.setCue v).hot = s.hot := rfl
@[simp] theorem State.setCue_icu (s : State) (v : Cue) : (s.setCue v).icu = s.icu := rfl
@[simp] theorem State.setCue_icuc (s : State) (v : Cue) : (s.setCue v).icuc = s.icuc := rfl
@[simp] theorem State.setCue_mt (s : State) (v : Cue) : (s.setCue v).mt = s.mt := rfl
@[simp] theorem State.setCue_cue (s : State) (v : Cue) : (s.setCue v).cue = v := rfl
@[simp] theorem State.setCue_timers (s : State) (v : Cue) : (s.setCue v).timers = s.timers := rfl
@[simp] theorem State.setCue_doms (s : State) (v : Cue) : (s.setCue v).doms = s.doms := rfl
@[simp] theorem State.setCue_pau (s : State) (v : Cue) : (s.setCue v).pau = s.pau := rfl
@[simp] theorem State.setCue_pseq (s : State) (v : Cue) : (s.setCue v).pseq = s.pseq := rfl
@[simp] theorem State.setCue_sec (s : State) (v : Cue) : (s.setCue v).sec = s.sec := rfl
@[simp] theorem State.setCue_dbg (s : State) (v : Cue) : (s.setCue v).dbg = s.dbg := rfl
@[simp] theorem State.setCue_ras (s : State) (v : Cue) : (s.setCue v).ras = s.ras := rfl
@[simp] theorem State.setCue_cullet (s : State) (v : Cue) : (s.setCue v).cullet = s.cullet := rfl
@[simp] theorem State.setCue_pert (s : State) (v : Cue) : (s.setCue v).pert = s.pert := rfl
@[simp] theorem State.setCue_fuse (s : State) (v : Cue) : (s.setCue v).fuse = s.fuse := rfl

/-! ## `setPau` -/

@[simp] theorem State.setPau_pending (s : State) (v : Pau) : (s.setPau v).pending = s.pending := rfl
@[simp] theorem State.setPau_bclk (s : State) (v : Pau) : (s.setPau v).bclk = s.bclk := rfl
@[simp] theorem State.setPau_fresh (s : State) (v : Pau) : (s.setPau v).fresh = s.fresh := rfl
@[simp] theorem State.setPau_start (s : State) (v : Pau) : (s.setPau v).start = s.start := rfl
@[simp] theorem State.setPau_blk (s : State) (v : Pau) : (s.setPau v).blk = s.blk := rfl
@[simp] theorem State.setPau_hdr (s : State) (v : Pau) : (s.setPau v).hdr = s.hdr := rfl
@[simp] theorem State.setPau_inj (s : State) (v : Pau) : (s.setPau v).inj = s.inj := rfl
@[simp] theorem State.setPau_cores (s : State) (v : Pau) : (s.setPau v).cores = s.cores := rfl
@[simp] theorem State.setPau_dbgc (s : State) (v : Pau) : (s.setPau v).dbgc = s.dbgc := rfl
@[simp] theorem State.setPau_quads (s : State) (v : Pau) : (s.setPau v).quads = s.quads := rfl
@[simp] theorem State.setPau_chains (s : State) (v : Pau) : (s.setPau v).chains = s.chains := rfl
@[simp] theorem State.setPau_link (s : State) (v : Pau) : (s.setPau v).link = s.link := rfl
@[simp] theorem State.setPau_ports (s : State) (v : Pau) : (s.setPau v).ports = s.ports := rfl
@[simp] theorem State.setPau_pgrps (s : State) (v : Pau) : (s.setPau v).pgrps = s.pgrps := rfl
@[simp] theorem State.setPau_banks (s : State) (v : Pau) : (s.setPau v).banks = s.banks := rfl
@[simp] theorem State.setPau_mem (s : State) (v : Pau) : (s.setPau v).mem = s.mem := rfl
@[simp] theorem State.setPau_synd (s : State) (v : Pau) : (s.setPau v).synd = s.synd := rfl
@[simp] theorem State.setPau_steer (s : State) (v : Pau) : (s.setPau v).steer = s.steer := rfl
@[simp] theorem State.setPau_hot (s : State) (v : Pau) : (s.setPau v).hot = s.hot := rfl
@[simp] theorem State.setPau_icu (s : State) (v : Pau) : (s.setPau v).icu = s.icu := rfl
@[simp] theorem State.setPau_icuc (s : State) (v : Pau) : (s.setPau v).icuc = s.icuc := rfl
@[simp] theorem State.setPau_mt (s : State) (v : Pau) : (s.setPau v).mt = s.mt := rfl
@[simp] theorem State.setPau_cue (s : State) (v : Pau) : (s.setPau v).cue = s.cue := rfl
@[simp] theorem State.setPau_timers (s : State) (v : Pau) : (s.setPau v).timers = s.timers := rfl
@[simp] theorem State.setPau_doms (s : State) (v : Pau) : (s.setPau v).doms = s.doms := rfl
@[simp] theorem State.setPau_pau (s : State) (v : Pau) : (s.setPau v).pau = v := rfl
@[simp] theorem State.setPau_pseq (s : State) (v : Pau) : (s.setPau v).pseq = s.pseq := rfl
@[simp] theorem State.setPau_sec (s : State) (v : Pau) : (s.setPau v).sec = s.sec := rfl
@[simp] theorem State.setPau_dbg (s : State) (v : Pau) : (s.setPau v).dbg = s.dbg := rfl
@[simp] theorem State.setPau_ras (s : State) (v : Pau) : (s.setPau v).ras = s.ras := rfl
@[simp] theorem State.setPau_cullet (s : State) (v : Pau) : (s.setPau v).cullet = s.cullet := rfl
@[simp] theorem State.setPau_pert (s : State) (v : Pau) : (s.setPau v).pert = s.pert := rfl
@[simp] theorem State.setPau_fuse (s : State) (v : Pau) : (s.setPau v).fuse = s.fuse := rfl

/-! ## `setPseq` -/

@[simp] theorem State.setPseq_pending (s : State) (v : Pseq) : (s.setPseq v).pending = s.pending := rfl
@[simp] theorem State.setPseq_bclk (s : State) (v : Pseq) : (s.setPseq v).bclk = s.bclk := rfl
@[simp] theorem State.setPseq_fresh (s : State) (v : Pseq) : (s.setPseq v).fresh = s.fresh := rfl
@[simp] theorem State.setPseq_start (s : State) (v : Pseq) : (s.setPseq v).start = s.start := rfl
@[simp] theorem State.setPseq_blk (s : State) (v : Pseq) : (s.setPseq v).blk = s.blk := rfl
@[simp] theorem State.setPseq_hdr (s : State) (v : Pseq) : (s.setPseq v).hdr = s.hdr := rfl
@[simp] theorem State.setPseq_inj (s : State) (v : Pseq) : (s.setPseq v).inj = s.inj := rfl
@[simp] theorem State.setPseq_cores (s : State) (v : Pseq) : (s.setPseq v).cores = s.cores := rfl
@[simp] theorem State.setPseq_dbgc (s : State) (v : Pseq) : (s.setPseq v).dbgc = s.dbgc := rfl
@[simp] theorem State.setPseq_quads (s : State) (v : Pseq) : (s.setPseq v).quads = s.quads := rfl
@[simp] theorem State.setPseq_chains (s : State) (v : Pseq) : (s.setPseq v).chains = s.chains := rfl
@[simp] theorem State.setPseq_link (s : State) (v : Pseq) : (s.setPseq v).link = s.link := rfl
@[simp] theorem State.setPseq_ports (s : State) (v : Pseq) : (s.setPseq v).ports = s.ports := rfl
@[simp] theorem State.setPseq_pgrps (s : State) (v : Pseq) : (s.setPseq v).pgrps = s.pgrps := rfl
@[simp] theorem State.setPseq_banks (s : State) (v : Pseq) : (s.setPseq v).banks = s.banks := rfl
@[simp] theorem State.setPseq_mem (s : State) (v : Pseq) : (s.setPseq v).mem = s.mem := rfl
@[simp] theorem State.setPseq_synd (s : State) (v : Pseq) : (s.setPseq v).synd = s.synd := rfl
@[simp] theorem State.setPseq_steer (s : State) (v : Pseq) : (s.setPseq v).steer = s.steer := rfl
@[simp] theorem State.setPseq_hot (s : State) (v : Pseq) : (s.setPseq v).hot = s.hot := rfl
@[simp] theorem State.setPseq_icu (s : State) (v : Pseq) : (s.setPseq v).icu = s.icu := rfl
@[simp] theorem State.setPseq_icuc (s : State) (v : Pseq) : (s.setPseq v).icuc = s.icuc := rfl
@[simp] theorem State.setPseq_mt (s : State) (v : Pseq) : (s.setPseq v).mt = s.mt := rfl
@[simp] theorem State.setPseq_cue (s : State) (v : Pseq) : (s.setPseq v).cue = s.cue := rfl
@[simp] theorem State.setPseq_timers (s : State) (v : Pseq) : (s.setPseq v).timers = s.timers := rfl
@[simp] theorem State.setPseq_doms (s : State) (v : Pseq) : (s.setPseq v).doms = s.doms := rfl
@[simp] theorem State.setPseq_pau (s : State) (v : Pseq) : (s.setPseq v).pau = s.pau := rfl
@[simp] theorem State.setPseq_pseq (s : State) (v : Pseq) : (s.setPseq v).pseq = v := rfl
@[simp] theorem State.setPseq_sec (s : State) (v : Pseq) : (s.setPseq v).sec = s.sec := rfl
@[simp] theorem State.setPseq_dbg (s : State) (v : Pseq) : (s.setPseq v).dbg = s.dbg := rfl
@[simp] theorem State.setPseq_ras (s : State) (v : Pseq) : (s.setPseq v).ras = s.ras := rfl
@[simp] theorem State.setPseq_cullet (s : State) (v : Pseq) : (s.setPseq v).cullet = s.cullet := rfl
@[simp] theorem State.setPseq_pert (s : State) (v : Pseq) : (s.setPseq v).pert = s.pert := rfl
@[simp] theorem State.setPseq_fuse (s : State) (v : Pseq) : (s.setPseq v).fuse = s.fuse := rfl

/-! ## `setSec` -/

@[simp] theorem State.setSec_pending (s : State) (v : Sec) : (s.setSec v).pending = s.pending := rfl
@[simp] theorem State.setSec_bclk (s : State) (v : Sec) : (s.setSec v).bclk = s.bclk := rfl
@[simp] theorem State.setSec_fresh (s : State) (v : Sec) : (s.setSec v).fresh = s.fresh := rfl
@[simp] theorem State.setSec_start (s : State) (v : Sec) : (s.setSec v).start = s.start := rfl
@[simp] theorem State.setSec_blk (s : State) (v : Sec) : (s.setSec v).blk = s.blk := rfl
@[simp] theorem State.setSec_hdr (s : State) (v : Sec) : (s.setSec v).hdr = s.hdr := rfl
@[simp] theorem State.setSec_inj (s : State) (v : Sec) : (s.setSec v).inj = s.inj := rfl
@[simp] theorem State.setSec_cores (s : State) (v : Sec) : (s.setSec v).cores = s.cores := rfl
@[simp] theorem State.setSec_dbgc (s : State) (v : Sec) : (s.setSec v).dbgc = s.dbgc := rfl
@[simp] theorem State.setSec_quads (s : State) (v : Sec) : (s.setSec v).quads = s.quads := rfl
@[simp] theorem State.setSec_chains (s : State) (v : Sec) : (s.setSec v).chains = s.chains := rfl
@[simp] theorem State.setSec_link (s : State) (v : Sec) : (s.setSec v).link = s.link := rfl
@[simp] theorem State.setSec_ports (s : State) (v : Sec) : (s.setSec v).ports = s.ports := rfl
@[simp] theorem State.setSec_pgrps (s : State) (v : Sec) : (s.setSec v).pgrps = s.pgrps := rfl
@[simp] theorem State.setSec_banks (s : State) (v : Sec) : (s.setSec v).banks = s.banks := rfl
@[simp] theorem State.setSec_mem (s : State) (v : Sec) : (s.setSec v).mem = s.mem := rfl
@[simp] theorem State.setSec_synd (s : State) (v : Sec) : (s.setSec v).synd = s.synd := rfl
@[simp] theorem State.setSec_steer (s : State) (v : Sec) : (s.setSec v).steer = s.steer := rfl
@[simp] theorem State.setSec_hot (s : State) (v : Sec) : (s.setSec v).hot = s.hot := rfl
@[simp] theorem State.setSec_icu (s : State) (v : Sec) : (s.setSec v).icu = s.icu := rfl
@[simp] theorem State.setSec_icuc (s : State) (v : Sec) : (s.setSec v).icuc = s.icuc := rfl
@[simp] theorem State.setSec_mt (s : State) (v : Sec) : (s.setSec v).mt = s.mt := rfl
@[simp] theorem State.setSec_cue (s : State) (v : Sec) : (s.setSec v).cue = s.cue := rfl
@[simp] theorem State.setSec_timers (s : State) (v : Sec) : (s.setSec v).timers = s.timers := rfl
@[simp] theorem State.setSec_doms (s : State) (v : Sec) : (s.setSec v).doms = s.doms := rfl
@[simp] theorem State.setSec_pau (s : State) (v : Sec) : (s.setSec v).pau = s.pau := rfl
@[simp] theorem State.setSec_pseq (s : State) (v : Sec) : (s.setSec v).pseq = s.pseq := rfl
@[simp] theorem State.setSec_sec (s : State) (v : Sec) : (s.setSec v).sec = v := rfl
@[simp] theorem State.setSec_dbg (s : State) (v : Sec) : (s.setSec v).dbg = s.dbg := rfl
@[simp] theorem State.setSec_ras (s : State) (v : Sec) : (s.setSec v).ras = s.ras := rfl
@[simp] theorem State.setSec_cullet (s : State) (v : Sec) : (s.setSec v).cullet = s.cullet := rfl
@[simp] theorem State.setSec_pert (s : State) (v : Sec) : (s.setSec v).pert = s.pert := rfl
@[simp] theorem State.setSec_fuse (s : State) (v : Sec) : (s.setSec v).fuse = s.fuse := rfl

/-! ## `setDbg` -/

@[simp] theorem State.setDbg_pending (s : State) (v : Dbg) : (s.setDbg v).pending = s.pending := rfl
@[simp] theorem State.setDbg_bclk (s : State) (v : Dbg) : (s.setDbg v).bclk = s.bclk := rfl
@[simp] theorem State.setDbg_fresh (s : State) (v : Dbg) : (s.setDbg v).fresh = s.fresh := rfl
@[simp] theorem State.setDbg_start (s : State) (v : Dbg) : (s.setDbg v).start = s.start := rfl
@[simp] theorem State.setDbg_blk (s : State) (v : Dbg) : (s.setDbg v).blk = s.blk := rfl
@[simp] theorem State.setDbg_hdr (s : State) (v : Dbg) : (s.setDbg v).hdr = s.hdr := rfl
@[simp] theorem State.setDbg_inj (s : State) (v : Dbg) : (s.setDbg v).inj = s.inj := rfl
@[simp] theorem State.setDbg_cores (s : State) (v : Dbg) : (s.setDbg v).cores = s.cores := rfl
@[simp] theorem State.setDbg_dbgc (s : State) (v : Dbg) : (s.setDbg v).dbgc = s.dbgc := rfl
@[simp] theorem State.setDbg_quads (s : State) (v : Dbg) : (s.setDbg v).quads = s.quads := rfl
@[simp] theorem State.setDbg_chains (s : State) (v : Dbg) : (s.setDbg v).chains = s.chains := rfl
@[simp] theorem State.setDbg_link (s : State) (v : Dbg) : (s.setDbg v).link = s.link := rfl
@[simp] theorem State.setDbg_ports (s : State) (v : Dbg) : (s.setDbg v).ports = s.ports := rfl
@[simp] theorem State.setDbg_pgrps (s : State) (v : Dbg) : (s.setDbg v).pgrps = s.pgrps := rfl
@[simp] theorem State.setDbg_banks (s : State) (v : Dbg) : (s.setDbg v).banks = s.banks := rfl
@[simp] theorem State.setDbg_mem (s : State) (v : Dbg) : (s.setDbg v).mem = s.mem := rfl
@[simp] theorem State.setDbg_synd (s : State) (v : Dbg) : (s.setDbg v).synd = s.synd := rfl
@[simp] theorem State.setDbg_steer (s : State) (v : Dbg) : (s.setDbg v).steer = s.steer := rfl
@[simp] theorem State.setDbg_hot (s : State) (v : Dbg) : (s.setDbg v).hot = s.hot := rfl
@[simp] theorem State.setDbg_icu (s : State) (v : Dbg) : (s.setDbg v).icu = s.icu := rfl
@[simp] theorem State.setDbg_icuc (s : State) (v : Dbg) : (s.setDbg v).icuc = s.icuc := rfl
@[simp] theorem State.setDbg_mt (s : State) (v : Dbg) : (s.setDbg v).mt = s.mt := rfl
@[simp] theorem State.setDbg_cue (s : State) (v : Dbg) : (s.setDbg v).cue = s.cue := rfl
@[simp] theorem State.setDbg_timers (s : State) (v : Dbg) : (s.setDbg v).timers = s.timers := rfl
@[simp] theorem State.setDbg_doms (s : State) (v : Dbg) : (s.setDbg v).doms = s.doms := rfl
@[simp] theorem State.setDbg_pau (s : State) (v : Dbg) : (s.setDbg v).pau = s.pau := rfl
@[simp] theorem State.setDbg_pseq (s : State) (v : Dbg) : (s.setDbg v).pseq = s.pseq := rfl
@[simp] theorem State.setDbg_sec (s : State) (v : Dbg) : (s.setDbg v).sec = s.sec := rfl
@[simp] theorem State.setDbg_dbg (s : State) (v : Dbg) : (s.setDbg v).dbg = v := rfl
@[simp] theorem State.setDbg_ras (s : State) (v : Dbg) : (s.setDbg v).ras = s.ras := rfl
@[simp] theorem State.setDbg_cullet (s : State) (v : Dbg) : (s.setDbg v).cullet = s.cullet := rfl
@[simp] theorem State.setDbg_pert (s : State) (v : Dbg) : (s.setDbg v).pert = s.pert := rfl
@[simp] theorem State.setDbg_fuse (s : State) (v : Dbg) : (s.setDbg v).fuse = s.fuse := rfl

/-! ## `setRas` -/

@[simp] theorem State.setRas_pending (s : State) (v : Ras) : (s.setRas v).pending = s.pending := rfl
@[simp] theorem State.setRas_bclk (s : State) (v : Ras) : (s.setRas v).bclk = s.bclk := rfl
@[simp] theorem State.setRas_fresh (s : State) (v : Ras) : (s.setRas v).fresh = s.fresh := rfl
@[simp] theorem State.setRas_start (s : State) (v : Ras) : (s.setRas v).start = s.start := rfl
@[simp] theorem State.setRas_blk (s : State) (v : Ras) : (s.setRas v).blk = s.blk := rfl
@[simp] theorem State.setRas_hdr (s : State) (v : Ras) : (s.setRas v).hdr = s.hdr := rfl
@[simp] theorem State.setRas_inj (s : State) (v : Ras) : (s.setRas v).inj = s.inj := rfl
@[simp] theorem State.setRas_cores (s : State) (v : Ras) : (s.setRas v).cores = s.cores := rfl
@[simp] theorem State.setRas_dbgc (s : State) (v : Ras) : (s.setRas v).dbgc = s.dbgc := rfl
@[simp] theorem State.setRas_quads (s : State) (v : Ras) : (s.setRas v).quads = s.quads := rfl
@[simp] theorem State.setRas_chains (s : State) (v : Ras) : (s.setRas v).chains = s.chains := rfl
@[simp] theorem State.setRas_link (s : State) (v : Ras) : (s.setRas v).link = s.link := rfl
@[simp] theorem State.setRas_ports (s : State) (v : Ras) : (s.setRas v).ports = s.ports := rfl
@[simp] theorem State.setRas_pgrps (s : State) (v : Ras) : (s.setRas v).pgrps = s.pgrps := rfl
@[simp] theorem State.setRas_banks (s : State) (v : Ras) : (s.setRas v).banks = s.banks := rfl
@[simp] theorem State.setRas_mem (s : State) (v : Ras) : (s.setRas v).mem = s.mem := rfl
@[simp] theorem State.setRas_synd (s : State) (v : Ras) : (s.setRas v).synd = s.synd := rfl
@[simp] theorem State.setRas_steer (s : State) (v : Ras) : (s.setRas v).steer = s.steer := rfl
@[simp] theorem State.setRas_hot (s : State) (v : Ras) : (s.setRas v).hot = s.hot := rfl
@[simp] theorem State.setRas_icu (s : State) (v : Ras) : (s.setRas v).icu = s.icu := rfl
@[simp] theorem State.setRas_icuc (s : State) (v : Ras) : (s.setRas v).icuc = s.icuc := rfl
@[simp] theorem State.setRas_mt (s : State) (v : Ras) : (s.setRas v).mt = s.mt := rfl
@[simp] theorem State.setRas_cue (s : State) (v : Ras) : (s.setRas v).cue = s.cue := rfl
@[simp] theorem State.setRas_timers (s : State) (v : Ras) : (s.setRas v).timers = s.timers := rfl
@[simp] theorem State.setRas_doms (s : State) (v : Ras) : (s.setRas v).doms = s.doms := rfl
@[simp] theorem State.setRas_pau (s : State) (v : Ras) : (s.setRas v).pau = s.pau := rfl
@[simp] theorem State.setRas_pseq (s : State) (v : Ras) : (s.setRas v).pseq = s.pseq := rfl
@[simp] theorem State.setRas_sec (s : State) (v : Ras) : (s.setRas v).sec = s.sec := rfl
@[simp] theorem State.setRas_dbg (s : State) (v : Ras) : (s.setRas v).dbg = s.dbg := rfl
@[simp] theorem State.setRas_ras (s : State) (v : Ras) : (s.setRas v).ras = v := rfl
@[simp] theorem State.setRas_cullet (s : State) (v : Ras) : (s.setRas v).cullet = s.cullet := rfl
@[simp] theorem State.setRas_pert (s : State) (v : Ras) : (s.setRas v).pert = s.pert := rfl
@[simp] theorem State.setRas_fuse (s : State) (v : Ras) : (s.setRas v).fuse = s.fuse := rfl

/-! ## `setCullet` -/

@[simp] theorem State.setCullet_pending (s : State) (v : Cullet) : (s.setCullet v).pending = s.pending := rfl
@[simp] theorem State.setCullet_bclk (s : State) (v : Cullet) : (s.setCullet v).bclk = s.bclk := rfl
@[simp] theorem State.setCullet_fresh (s : State) (v : Cullet) : (s.setCullet v).fresh = s.fresh := rfl
@[simp] theorem State.setCullet_start (s : State) (v : Cullet) : (s.setCullet v).start = s.start := rfl
@[simp] theorem State.setCullet_blk (s : State) (v : Cullet) : (s.setCullet v).blk = s.blk := rfl
@[simp] theorem State.setCullet_hdr (s : State) (v : Cullet) : (s.setCullet v).hdr = s.hdr := rfl
@[simp] theorem State.setCullet_inj (s : State) (v : Cullet) : (s.setCullet v).inj = s.inj := rfl
@[simp] theorem State.setCullet_cores (s : State) (v : Cullet) : (s.setCullet v).cores = s.cores := rfl
@[simp] theorem State.setCullet_dbgc (s : State) (v : Cullet) : (s.setCullet v).dbgc = s.dbgc := rfl
@[simp] theorem State.setCullet_quads (s : State) (v : Cullet) : (s.setCullet v).quads = s.quads := rfl
@[simp] theorem State.setCullet_chains (s : State) (v : Cullet) : (s.setCullet v).chains = s.chains := rfl
@[simp] theorem State.setCullet_link (s : State) (v : Cullet) : (s.setCullet v).link = s.link := rfl
@[simp] theorem State.setCullet_ports (s : State) (v : Cullet) : (s.setCullet v).ports = s.ports := rfl
@[simp] theorem State.setCullet_pgrps (s : State) (v : Cullet) : (s.setCullet v).pgrps = s.pgrps := rfl
@[simp] theorem State.setCullet_banks (s : State) (v : Cullet) : (s.setCullet v).banks = s.banks := rfl
@[simp] theorem State.setCullet_mem (s : State) (v : Cullet) : (s.setCullet v).mem = s.mem := rfl
@[simp] theorem State.setCullet_synd (s : State) (v : Cullet) : (s.setCullet v).synd = s.synd := rfl
@[simp] theorem State.setCullet_steer (s : State) (v : Cullet) : (s.setCullet v).steer = s.steer := rfl
@[simp] theorem State.setCullet_hot (s : State) (v : Cullet) : (s.setCullet v).hot = s.hot := rfl
@[simp] theorem State.setCullet_icu (s : State) (v : Cullet) : (s.setCullet v).icu = s.icu := rfl
@[simp] theorem State.setCullet_icuc (s : State) (v : Cullet) : (s.setCullet v).icuc = s.icuc := rfl
@[simp] theorem State.setCullet_mt (s : State) (v : Cullet) : (s.setCullet v).mt = s.mt := rfl
@[simp] theorem State.setCullet_cue (s : State) (v : Cullet) : (s.setCullet v).cue = s.cue := rfl
@[simp] theorem State.setCullet_timers (s : State) (v : Cullet) : (s.setCullet v).timers = s.timers := rfl
@[simp] theorem State.setCullet_doms (s : State) (v : Cullet) : (s.setCullet v).doms = s.doms := rfl
@[simp] theorem State.setCullet_pau (s : State) (v : Cullet) : (s.setCullet v).pau = s.pau := rfl
@[simp] theorem State.setCullet_pseq (s : State) (v : Cullet) : (s.setCullet v).pseq = s.pseq := rfl
@[simp] theorem State.setCullet_sec (s : State) (v : Cullet) : (s.setCullet v).sec = s.sec := rfl
@[simp] theorem State.setCullet_dbg (s : State) (v : Cullet) : (s.setCullet v).dbg = s.dbg := rfl
@[simp] theorem State.setCullet_ras (s : State) (v : Cullet) : (s.setCullet v).ras = s.ras := rfl
@[simp] theorem State.setCullet_cullet (s : State) (v : Cullet) : (s.setCullet v).cullet = v := rfl
@[simp] theorem State.setCullet_pert (s : State) (v : Cullet) : (s.setCullet v).pert = s.pert := rfl
@[simp] theorem State.setCullet_fuse (s : State) (v : Cullet) : (s.setCullet v).fuse = s.fuse := rfl

/-! ## `setPert` -/

@[simp] theorem State.setPert_pending (s : State) (v : Pert) : (s.setPert v).pending = s.pending := rfl
@[simp] theorem State.setPert_bclk (s : State) (v : Pert) : (s.setPert v).bclk = s.bclk := rfl
@[simp] theorem State.setPert_fresh (s : State) (v : Pert) : (s.setPert v).fresh = s.fresh := rfl
@[simp] theorem State.setPert_start (s : State) (v : Pert) : (s.setPert v).start = s.start := rfl
@[simp] theorem State.setPert_blk (s : State) (v : Pert) : (s.setPert v).blk = s.blk := rfl
@[simp] theorem State.setPert_hdr (s : State) (v : Pert) : (s.setPert v).hdr = s.hdr := rfl
@[simp] theorem State.setPert_inj (s : State) (v : Pert) : (s.setPert v).inj = s.inj := rfl
@[simp] theorem State.setPert_cores (s : State) (v : Pert) : (s.setPert v).cores = s.cores := rfl
@[simp] theorem State.setPert_dbgc (s : State) (v : Pert) : (s.setPert v).dbgc = s.dbgc := rfl
@[simp] theorem State.setPert_quads (s : State) (v : Pert) : (s.setPert v).quads = s.quads := rfl
@[simp] theorem State.setPert_chains (s : State) (v : Pert) : (s.setPert v).chains = s.chains := rfl
@[simp] theorem State.setPert_link (s : State) (v : Pert) : (s.setPert v).link = s.link := rfl
@[simp] theorem State.setPert_ports (s : State) (v : Pert) : (s.setPert v).ports = s.ports := rfl
@[simp] theorem State.setPert_pgrps (s : State) (v : Pert) : (s.setPert v).pgrps = s.pgrps := rfl
@[simp] theorem State.setPert_banks (s : State) (v : Pert) : (s.setPert v).banks = s.banks := rfl
@[simp] theorem State.setPert_mem (s : State) (v : Pert) : (s.setPert v).mem = s.mem := rfl
@[simp] theorem State.setPert_synd (s : State) (v : Pert) : (s.setPert v).synd = s.synd := rfl
@[simp] theorem State.setPert_steer (s : State) (v : Pert) : (s.setPert v).steer = s.steer := rfl
@[simp] theorem State.setPert_hot (s : State) (v : Pert) : (s.setPert v).hot = s.hot := rfl
@[simp] theorem State.setPert_icu (s : State) (v : Pert) : (s.setPert v).icu = s.icu := rfl
@[simp] theorem State.setPert_icuc (s : State) (v : Pert) : (s.setPert v).icuc = s.icuc := rfl
@[simp] theorem State.setPert_mt (s : State) (v : Pert) : (s.setPert v).mt = s.mt := rfl
@[simp] theorem State.setPert_cue (s : State) (v : Pert) : (s.setPert v).cue = s.cue := rfl
@[simp] theorem State.setPert_timers (s : State) (v : Pert) : (s.setPert v).timers = s.timers := rfl
@[simp] theorem State.setPert_doms (s : State) (v : Pert) : (s.setPert v).doms = s.doms := rfl
@[simp] theorem State.setPert_pau (s : State) (v : Pert) : (s.setPert v).pau = s.pau := rfl
@[simp] theorem State.setPert_pseq (s : State) (v : Pert) : (s.setPert v).pseq = s.pseq := rfl
@[simp] theorem State.setPert_sec (s : State) (v : Pert) : (s.setPert v).sec = s.sec := rfl
@[simp] theorem State.setPert_dbg (s : State) (v : Pert) : (s.setPert v).dbg = s.dbg := rfl
@[simp] theorem State.setPert_ras (s : State) (v : Pert) : (s.setPert v).ras = s.ras := rfl
@[simp] theorem State.setPert_cullet (s : State) (v : Pert) : (s.setPert v).cullet = s.cullet := rfl
@[simp] theorem State.setPert_pert (s : State) (v : Pert) : (s.setPert v).pert = v := rfl
@[simp] theorem State.setPert_fuse (s : State) (v : Pert) : (s.setPert v).fuse = s.fuse := rfl

/-! ## `setFuse` -/

@[simp] theorem State.setFuse_pending (s : State) (v : Fuse) : (s.setFuse v).pending = s.pending := rfl
@[simp] theorem State.setFuse_bclk (s : State) (v : Fuse) : (s.setFuse v).bclk = s.bclk := rfl
@[simp] theorem State.setFuse_fresh (s : State) (v : Fuse) : (s.setFuse v).fresh = s.fresh := rfl
@[simp] theorem State.setFuse_start (s : State) (v : Fuse) : (s.setFuse v).start = s.start := rfl
@[simp] theorem State.setFuse_blk (s : State) (v : Fuse) : (s.setFuse v).blk = s.blk := rfl
@[simp] theorem State.setFuse_hdr (s : State) (v : Fuse) : (s.setFuse v).hdr = s.hdr := rfl
@[simp] theorem State.setFuse_inj (s : State) (v : Fuse) : (s.setFuse v).inj = s.inj := rfl
@[simp] theorem State.setFuse_cores (s : State) (v : Fuse) : (s.setFuse v).cores = s.cores := rfl
@[simp] theorem State.setFuse_dbgc (s : State) (v : Fuse) : (s.setFuse v).dbgc = s.dbgc := rfl
@[simp] theorem State.setFuse_quads (s : State) (v : Fuse) : (s.setFuse v).quads = s.quads := rfl
@[simp] theorem State.setFuse_chains (s : State) (v : Fuse) : (s.setFuse v).chains = s.chains := rfl
@[simp] theorem State.setFuse_link (s : State) (v : Fuse) : (s.setFuse v).link = s.link := rfl
@[simp] theorem State.setFuse_ports (s : State) (v : Fuse) : (s.setFuse v).ports = s.ports := rfl
@[simp] theorem State.setFuse_pgrps (s : State) (v : Fuse) : (s.setFuse v).pgrps = s.pgrps := rfl
@[simp] theorem State.setFuse_banks (s : State) (v : Fuse) : (s.setFuse v).banks = s.banks := rfl
@[simp] theorem State.setFuse_mem (s : State) (v : Fuse) : (s.setFuse v).mem = s.mem := rfl
@[simp] theorem State.setFuse_synd (s : State) (v : Fuse) : (s.setFuse v).synd = s.synd := rfl
@[simp] theorem State.setFuse_steer (s : State) (v : Fuse) : (s.setFuse v).steer = s.steer := rfl
@[simp] theorem State.setFuse_hot (s : State) (v : Fuse) : (s.setFuse v).hot = s.hot := rfl
@[simp] theorem State.setFuse_icu (s : State) (v : Fuse) : (s.setFuse v).icu = s.icu := rfl
@[simp] theorem State.setFuse_icuc (s : State) (v : Fuse) : (s.setFuse v).icuc = s.icuc := rfl
@[simp] theorem State.setFuse_mt (s : State) (v : Fuse) : (s.setFuse v).mt = s.mt := rfl
@[simp] theorem State.setFuse_cue (s : State) (v : Fuse) : (s.setFuse v).cue = s.cue := rfl
@[simp] theorem State.setFuse_timers (s : State) (v : Fuse) : (s.setFuse v).timers = s.timers := rfl
@[simp] theorem State.setFuse_doms (s : State) (v : Fuse) : (s.setFuse v).doms = s.doms := rfl
@[simp] theorem State.setFuse_pau (s : State) (v : Fuse) : (s.setFuse v).pau = s.pau := rfl
@[simp] theorem State.setFuse_pseq (s : State) (v : Fuse) : (s.setFuse v).pseq = s.pseq := rfl
@[simp] theorem State.setFuse_sec (s : State) (v : Fuse) : (s.setFuse v).sec = s.sec := rfl
@[simp] theorem State.setFuse_dbg (s : State) (v : Fuse) : (s.setFuse v).dbg = s.dbg := rfl
@[simp] theorem State.setFuse_ras (s : State) (v : Fuse) : (s.setFuse v).ras = s.ras := rfl
@[simp] theorem State.setFuse_cullet (s : State) (v : Fuse) : (s.setFuse v).cullet = s.cullet := rfl
@[simp] theorem State.setFuse_pert (s : State) (v : Fuse) : (s.setFuse v).pert = s.pert := rfl
@[simp] theorem State.setFuse_fuse (s : State) (v : Fuse) : (s.setFuse v).fuse = v := rfl

/-! ## `setBlk` -/

@[simp] theorem State.setBlk_pending (s : State) (v : Blk) : (s.setBlk v).pending = s.pending := rfl
@[simp] theorem State.setBlk_bclk (s : State) (v : Blk) : (s.setBlk v).bclk = s.bclk := rfl
@[simp] theorem State.setBlk_fresh (s : State) (v : Blk) : (s.setBlk v).fresh = s.fresh := rfl
@[simp] theorem State.setBlk_start (s : State) (v : Blk) : (s.setBlk v).start = s.start := rfl
@[simp] theorem State.setBlk_blk (s : State) (v : Blk) : (s.setBlk v).blk = v := rfl
@[simp] theorem State.setBlk_hdr (s : State) (v : Blk) : (s.setBlk v).hdr = s.hdr := rfl
@[simp] theorem State.setBlk_inj (s : State) (v : Blk) : (s.setBlk v).inj = s.inj := rfl
@[simp] theorem State.setBlk_cores (s : State) (v : Blk) : (s.setBlk v).cores = s.cores := rfl
@[simp] theorem State.setBlk_dbgc (s : State) (v : Blk) : (s.setBlk v).dbgc = s.dbgc := rfl
@[simp] theorem State.setBlk_quads (s : State) (v : Blk) : (s.setBlk v).quads = s.quads := rfl
@[simp] theorem State.setBlk_chains (s : State) (v : Blk) : (s.setBlk v).chains = s.chains := rfl
@[simp] theorem State.setBlk_link (s : State) (v : Blk) : (s.setBlk v).link = s.link := rfl
@[simp] theorem State.setBlk_ports (s : State) (v : Blk) : (s.setBlk v).ports = s.ports := rfl
@[simp] theorem State.setBlk_pgrps (s : State) (v : Blk) : (s.setBlk v).pgrps = s.pgrps := rfl
@[simp] theorem State.setBlk_banks (s : State) (v : Blk) : (s.setBlk v).banks = s.banks := rfl
@[simp] theorem State.setBlk_mem (s : State) (v : Blk) : (s.setBlk v).mem = s.mem := rfl
@[simp] theorem State.setBlk_synd (s : State) (v : Blk) : (s.setBlk v).synd = s.synd := rfl
@[simp] theorem State.setBlk_steer (s : State) (v : Blk) : (s.setBlk v).steer = s.steer := rfl
@[simp] theorem State.setBlk_hot (s : State) (v : Blk) : (s.setBlk v).hot = s.hot := rfl
@[simp] theorem State.setBlk_icu (s : State) (v : Blk) : (s.setBlk v).icu = s.icu := rfl
@[simp] theorem State.setBlk_icuc (s : State) (v : Blk) : (s.setBlk v).icuc = s.icuc := rfl
@[simp] theorem State.setBlk_mt (s : State) (v : Blk) : (s.setBlk v).mt = s.mt := rfl
@[simp] theorem State.setBlk_cue (s : State) (v : Blk) : (s.setBlk v).cue = s.cue := rfl
@[simp] theorem State.setBlk_timers (s : State) (v : Blk) : (s.setBlk v).timers = s.timers := rfl
@[simp] theorem State.setBlk_doms (s : State) (v : Blk) : (s.setBlk v).doms = s.doms := rfl
@[simp] theorem State.setBlk_pau (s : State) (v : Blk) : (s.setBlk v).pau = s.pau := rfl
@[simp] theorem State.setBlk_pseq (s : State) (v : Blk) : (s.setBlk v).pseq = s.pseq := rfl
@[simp] theorem State.setBlk_sec (s : State) (v : Blk) : (s.setBlk v).sec = s.sec := rfl
@[simp] theorem State.setBlk_dbg (s : State) (v : Blk) : (s.setBlk v).dbg = s.dbg := rfl
@[simp] theorem State.setBlk_ras (s : State) (v : Blk) : (s.setBlk v).ras = s.ras := rfl
@[simp] theorem State.setBlk_cullet (s : State) (v : Blk) : (s.setBlk v).cullet = s.cullet := rfl
@[simp] theorem State.setBlk_pert (s : State) (v : Blk) : (s.setBlk v).pert = s.pert := rfl
@[simp] theorem State.setBlk_fuse (s : State) (v : Blk) : (s.setBlk v).fuse = s.fuse := rfl

/-! ## `setHot` -/

@[simp] theorem State.setHot_pending (s : State) (v : HotMon) : (s.setHot v).pending = s.pending := rfl
@[simp] theorem State.setHot_bclk (s : State) (v : HotMon) : (s.setHot v).bclk = s.bclk := rfl
@[simp] theorem State.setHot_fresh (s : State) (v : HotMon) : (s.setHot v).fresh = s.fresh := rfl
@[simp] theorem State.setHot_start (s : State) (v : HotMon) : (s.setHot v).start = s.start := rfl
@[simp] theorem State.setHot_blk (s : State) (v : HotMon) : (s.setHot v).blk = s.blk := rfl
@[simp] theorem State.setHot_hdr (s : State) (v : HotMon) : (s.setHot v).hdr = s.hdr := rfl
@[simp] theorem State.setHot_inj (s : State) (v : HotMon) : (s.setHot v).inj = s.inj := rfl
@[simp] theorem State.setHot_cores (s : State) (v : HotMon) : (s.setHot v).cores = s.cores := rfl
@[simp] theorem State.setHot_dbgc (s : State) (v : HotMon) : (s.setHot v).dbgc = s.dbgc := rfl
@[simp] theorem State.setHot_quads (s : State) (v : HotMon) : (s.setHot v).quads = s.quads := rfl
@[simp] theorem State.setHot_chains (s : State) (v : HotMon) : (s.setHot v).chains = s.chains := rfl
@[simp] theorem State.setHot_link (s : State) (v : HotMon) : (s.setHot v).link = s.link := rfl
@[simp] theorem State.setHot_ports (s : State) (v : HotMon) : (s.setHot v).ports = s.ports := rfl
@[simp] theorem State.setHot_pgrps (s : State) (v : HotMon) : (s.setHot v).pgrps = s.pgrps := rfl
@[simp] theorem State.setHot_banks (s : State) (v : HotMon) : (s.setHot v).banks = s.banks := rfl
@[simp] theorem State.setHot_mem (s : State) (v : HotMon) : (s.setHot v).mem = s.mem := rfl
@[simp] theorem State.setHot_synd (s : State) (v : HotMon) : (s.setHot v).synd = s.synd := rfl
@[simp] theorem State.setHot_steer (s : State) (v : HotMon) : (s.setHot v).steer = s.steer := rfl
@[simp] theorem State.setHot_hot (s : State) (v : HotMon) : (s.setHot v).hot = v := rfl
@[simp] theorem State.setHot_icu (s : State) (v : HotMon) : (s.setHot v).icu = s.icu := rfl
@[simp] theorem State.setHot_icuc (s : State) (v : HotMon) : (s.setHot v).icuc = s.icuc := rfl
@[simp] theorem State.setHot_mt (s : State) (v : HotMon) : (s.setHot v).mt = s.mt := rfl
@[simp] theorem State.setHot_cue (s : State) (v : HotMon) : (s.setHot v).cue = s.cue := rfl
@[simp] theorem State.setHot_timers (s : State) (v : HotMon) : (s.setHot v).timers = s.timers := rfl
@[simp] theorem State.setHot_doms (s : State) (v : HotMon) : (s.setHot v).doms = s.doms := rfl
@[simp] theorem State.setHot_pau (s : State) (v : HotMon) : (s.setHot v).pau = s.pau := rfl
@[simp] theorem State.setHot_pseq (s : State) (v : HotMon) : (s.setHot v).pseq = s.pseq := rfl
@[simp] theorem State.setHot_sec (s : State) (v : HotMon) : (s.setHot v).sec = s.sec := rfl
@[simp] theorem State.setHot_dbg (s : State) (v : HotMon) : (s.setHot v).dbg = s.dbg := rfl
@[simp] theorem State.setHot_ras (s : State) (v : HotMon) : (s.setHot v).ras = s.ras := rfl
@[simp] theorem State.setHot_cullet (s : State) (v : HotMon) : (s.setHot v).cullet = s.cullet := rfl
@[simp] theorem State.setHot_pert (s : State) (v : HotMon) : (s.setHot v).pert = s.pert := rfl
@[simp] theorem State.setHot_fuse (s : State) (v : HotMon) : (s.setHot v).fuse = s.fuse := rfl

/-! ## `setSrc` -/

@[simp] theorem State.setSrc_pending (s : State) (n : Nat) (v : Src) : (s.setSrc n v).pending = s.pending := rfl
@[simp] theorem State.setSrc_bclk (s : State) (n : Nat) (v : Src) : (s.setSrc n v).bclk = s.bclk := rfl
@[simp] theorem State.setSrc_fresh (s : State) (n : Nat) (v : Src) : (s.setSrc n v).fresh = s.fresh := rfl
@[simp] theorem State.setSrc_start (s : State) (n : Nat) (v : Src) : (s.setSrc n v).start = s.start := rfl
@[simp] theorem State.setSrc_blk (s : State) (n : Nat) (v : Src) : (s.setSrc n v).blk = s.blk := rfl
@[simp] theorem State.setSrc_hdr (s : State) (n : Nat) (v : Src) : (s.setSrc n v).hdr = s.hdr := rfl
@[simp] theorem State.setSrc_inj (s : State) (n : Nat) (v : Src) : (s.setSrc n v).inj = s.inj := rfl
@[simp] theorem State.setSrc_cores (s : State) (n : Nat) (v : Src) : (s.setSrc n v).cores = s.cores := rfl
@[simp] theorem State.setSrc_dbgc (s : State) (n : Nat) (v : Src) : (s.setSrc n v).dbgc = s.dbgc := rfl
@[simp] theorem State.setSrc_quads (s : State) (n : Nat) (v : Src) : (s.setSrc n v).quads = s.quads := rfl
@[simp] theorem State.setSrc_chains (s : State) (n : Nat) (v : Src) : (s.setSrc n v).chains = s.chains := rfl
@[simp] theorem State.setSrc_link (s : State) (n : Nat) (v : Src) : (s.setSrc n v).link = s.link := rfl
@[simp] theorem State.setSrc_ports (s : State) (n : Nat) (v : Src) : (s.setSrc n v).ports = s.ports := rfl
@[simp] theorem State.setSrc_pgrps (s : State) (n : Nat) (v : Src) : (s.setSrc n v).pgrps = s.pgrps := rfl
@[simp] theorem State.setSrc_banks (s : State) (n : Nat) (v : Src) : (s.setSrc n v).banks = s.banks := rfl
@[simp] theorem State.setSrc_mem (s : State) (n : Nat) (v : Src) : (s.setSrc n v).mem = s.mem := rfl
@[simp] theorem State.setSrc_synd (s : State) (n : Nat) (v : Src) : (s.setSrc n v).synd = s.synd := rfl
@[simp] theorem State.setSrc_steer (s : State) (n : Nat) (v : Src) : (s.setSrc n v).steer = s.steer := rfl
@[simp] theorem State.setSrc_hot (s : State) (n : Nat) (v : Src) : (s.setSrc n v).hot = s.hot := rfl
@[simp] theorem State.setSrc_icu (s : State) (n : Nat) (v : Src) : (s.setSrc n v).icu = { s.icu with srcs := tset srcInit n v s.icu.srcs } := rfl
@[simp] theorem State.setSrc_icuc (s : State) (n : Nat) (v : Src) : (s.setSrc n v).icuc = s.icuc := rfl
@[simp] theorem State.setSrc_mt (s : State) (n : Nat) (v : Src) : (s.setSrc n v).mt = s.mt := rfl
@[simp] theorem State.setSrc_cue (s : State) (n : Nat) (v : Src) : (s.setSrc n v).cue = s.cue := rfl
@[simp] theorem State.setSrc_timers (s : State) (n : Nat) (v : Src) : (s.setSrc n v).timers = s.timers := rfl
@[simp] theorem State.setSrc_doms (s : State) (n : Nat) (v : Src) : (s.setSrc n v).doms = s.doms := rfl
@[simp] theorem State.setSrc_pau (s : State) (n : Nat) (v : Src) : (s.setSrc n v).pau = s.pau := rfl
@[simp] theorem State.setSrc_pseq (s : State) (n : Nat) (v : Src) : (s.setSrc n v).pseq = s.pseq := rfl
@[simp] theorem State.setSrc_sec (s : State) (n : Nat) (v : Src) : (s.setSrc n v).sec = s.sec := rfl
@[simp] theorem State.setSrc_dbg (s : State) (n : Nat) (v : Src) : (s.setSrc n v).dbg = s.dbg := rfl
@[simp] theorem State.setSrc_ras (s : State) (n : Nat) (v : Src) : (s.setSrc n v).ras = s.ras := rfl
@[simp] theorem State.setSrc_cullet (s : State) (n : Nat) (v : Src) : (s.setSrc n v).cullet = s.cullet := rfl
@[simp] theorem State.setSrc_pert (s : State) (n : Nat) (v : Src) : (s.setSrc n v).pert = s.pert := rfl
@[simp] theorem State.setSrc_fuse (s : State) (n : Nat) (v : Src) : (s.setSrc n v).fuse = s.fuse := rfl

/-! ## `setGrp` -/

@[simp] theorem State.setGrp_pending (s : State) (n : Nat) (v : Grp) : (s.setGrp n v).pending = s.pending := rfl
@[simp] theorem State.setGrp_bclk (s : State) (n : Nat) (v : Grp) : (s.setGrp n v).bclk = s.bclk := rfl
@[simp] theorem State.setGrp_fresh (s : State) (n : Nat) (v : Grp) : (s.setGrp n v).fresh = s.fresh := rfl
@[simp] theorem State.setGrp_start (s : State) (n : Nat) (v : Grp) : (s.setGrp n v).start = s.start := rfl
@[simp] theorem State.setGrp_blk (s : State) (n : Nat) (v : Grp) : (s.setGrp n v).blk = s.blk := rfl
@[simp] theorem State.setGrp_hdr (s : State) (n : Nat) (v : Grp) : (s.setGrp n v).hdr = s.hdr := rfl
@[simp] theorem State.setGrp_inj (s : State) (n : Nat) (v : Grp) : (s.setGrp n v).inj = s.inj := rfl
@[simp] theorem State.setGrp_cores (s : State) (n : Nat) (v : Grp) : (s.setGrp n v).cores = s.cores := rfl
@[simp] theorem State.setGrp_dbgc (s : State) (n : Nat) (v : Grp) : (s.setGrp n v).dbgc = s.dbgc := rfl
@[simp] theorem State.setGrp_quads (s : State) (n : Nat) (v : Grp) : (s.setGrp n v).quads = s.quads := rfl
@[simp] theorem State.setGrp_chains (s : State) (n : Nat) (v : Grp) : (s.setGrp n v).chains = s.chains := rfl
@[simp] theorem State.setGrp_link (s : State) (n : Nat) (v : Grp) : (s.setGrp n v).link = s.link := rfl
@[simp] theorem State.setGrp_ports (s : State) (n : Nat) (v : Grp) : (s.setGrp n v).ports = s.ports := rfl
@[simp] theorem State.setGrp_pgrps (s : State) (n : Nat) (v : Grp) : (s.setGrp n v).pgrps = s.pgrps := rfl
@[simp] theorem State.setGrp_banks (s : State) (n : Nat) (v : Grp) : (s.setGrp n v).banks = s.banks := rfl
@[simp] theorem State.setGrp_mem (s : State) (n : Nat) (v : Grp) : (s.setGrp n v).mem = s.mem := rfl
@[simp] theorem State.setGrp_synd (s : State) (n : Nat) (v : Grp) : (s.setGrp n v).synd = s.synd := rfl
@[simp] theorem State.setGrp_steer (s : State) (n : Nat) (v : Grp) : (s.setGrp n v).steer = s.steer := rfl
@[simp] theorem State.setGrp_hot (s : State) (n : Nat) (v : Grp) : (s.setGrp n v).hot = s.hot := rfl
@[simp] theorem State.setGrp_icu (s : State) (n : Nat) (v : Grp) : (s.setGrp n v).icu = { s.icu with grps := tset grpInit n v s.icu.grps } := rfl
@[simp] theorem State.setGrp_icuc (s : State) (n : Nat) (v : Grp) : (s.setGrp n v).icuc = s.icuc := rfl
@[simp] theorem State.setGrp_mt (s : State) (n : Nat) (v : Grp) : (s.setGrp n v).mt = s.mt := rfl
@[simp] theorem State.setGrp_cue (s : State) (n : Nat) (v : Grp) : (s.setGrp n v).cue = s.cue := rfl
@[simp] theorem State.setGrp_timers (s : State) (n : Nat) (v : Grp) : (s.setGrp n v).timers = s.timers := rfl
@[simp] theorem State.setGrp_doms (s : State) (n : Nat) (v : Grp) : (s.setGrp n v).doms = s.doms := rfl
@[simp] theorem State.setGrp_pau (s : State) (n : Nat) (v : Grp) : (s.setGrp n v).pau = s.pau := rfl
@[simp] theorem State.setGrp_pseq (s : State) (n : Nat) (v : Grp) : (s.setGrp n v).pseq = s.pseq := rfl
@[simp] theorem State.setGrp_sec (s : State) (n : Nat) (v : Grp) : (s.setGrp n v).sec = s.sec := rfl
@[simp] theorem State.setGrp_dbg (s : State) (n : Nat) (v : Grp) : (s.setGrp n v).dbg = s.dbg := rfl
@[simp] theorem State.setGrp_ras (s : State) (n : Nat) (v : Grp) : (s.setGrp n v).ras = s.ras := rfl
@[simp] theorem State.setGrp_cullet (s : State) (n : Nat) (v : Grp) : (s.setGrp n v).cullet = s.cullet := rfl
@[simp] theorem State.setGrp_pert (s : State) (n : Nat) (v : Grp) : (s.setGrp n v).pert = s.pert := rfl
@[simp] theorem State.setGrp_fuse (s : State) (n : Nat) (v : Grp) : (s.setGrp n v).fuse = s.fuse := rfl

/-! ## `setCueEnt` -/

@[simp] theorem State.setCueEnt_pending (s : State) (n : Nat) (v : CueEnt) : (s.setCueEnt n v).pending = s.pending := rfl
@[simp] theorem State.setCueEnt_bclk (s : State) (n : Nat) (v : CueEnt) : (s.setCueEnt n v).bclk = s.bclk := rfl
@[simp] theorem State.setCueEnt_fresh (s : State) (n : Nat) (v : CueEnt) : (s.setCueEnt n v).fresh = s.fresh := rfl
@[simp] theorem State.setCueEnt_start (s : State) (n : Nat) (v : CueEnt) : (s.setCueEnt n v).start = s.start := rfl
@[simp] theorem State.setCueEnt_blk (s : State) (n : Nat) (v : CueEnt) : (s.setCueEnt n v).blk = s.blk := rfl
@[simp] theorem State.setCueEnt_hdr (s : State) (n : Nat) (v : CueEnt) : (s.setCueEnt n v).hdr = s.hdr := rfl
@[simp] theorem State.setCueEnt_inj (s : State) (n : Nat) (v : CueEnt) : (s.setCueEnt n v).inj = s.inj := rfl
@[simp] theorem State.setCueEnt_cores (s : State) (n : Nat) (v : CueEnt) : (s.setCueEnt n v).cores = s.cores := rfl
@[simp] theorem State.setCueEnt_dbgc (s : State) (n : Nat) (v : CueEnt) : (s.setCueEnt n v).dbgc = s.dbgc := rfl
@[simp] theorem State.setCueEnt_quads (s : State) (n : Nat) (v : CueEnt) : (s.setCueEnt n v).quads = s.quads := rfl
@[simp] theorem State.setCueEnt_chains (s : State) (n : Nat) (v : CueEnt) : (s.setCueEnt n v).chains = s.chains := rfl
@[simp] theorem State.setCueEnt_link (s : State) (n : Nat) (v : CueEnt) : (s.setCueEnt n v).link = s.link := rfl
@[simp] theorem State.setCueEnt_ports (s : State) (n : Nat) (v : CueEnt) : (s.setCueEnt n v).ports = s.ports := rfl
@[simp] theorem State.setCueEnt_pgrps (s : State) (n : Nat) (v : CueEnt) : (s.setCueEnt n v).pgrps = s.pgrps := rfl
@[simp] theorem State.setCueEnt_banks (s : State) (n : Nat) (v : CueEnt) : (s.setCueEnt n v).banks = s.banks := rfl
@[simp] theorem State.setCueEnt_mem (s : State) (n : Nat) (v : CueEnt) : (s.setCueEnt n v).mem = s.mem := rfl
@[simp] theorem State.setCueEnt_synd (s : State) (n : Nat) (v : CueEnt) : (s.setCueEnt n v).synd = s.synd := rfl
@[simp] theorem State.setCueEnt_steer (s : State) (n : Nat) (v : CueEnt) : (s.setCueEnt n v).steer = s.steer := rfl
@[simp] theorem State.setCueEnt_hot (s : State) (n : Nat) (v : CueEnt) : (s.setCueEnt n v).hot = s.hot := rfl
@[simp] theorem State.setCueEnt_icu (s : State) (n : Nat) (v : CueEnt) : (s.setCueEnt n v).icu = s.icu := rfl
@[simp] theorem State.setCueEnt_icuc (s : State) (n : Nat) (v : CueEnt) : (s.setCueEnt n v).icuc = s.icuc := rfl
@[simp] theorem State.setCueEnt_mt (s : State) (n : Nat) (v : CueEnt) : (s.setCueEnt n v).mt = s.mt := rfl
@[simp] theorem State.setCueEnt_cue (s : State) (n : Nat) (v : CueEnt) : (s.setCueEnt n v).cue = { s.cue with tbl := tset cueInit n v s.cue.tbl } := rfl
@[simp] theorem State.setCueEnt_timers (s : State) (n : Nat) (v : CueEnt) : (s.setCueEnt n v).timers = s.timers := rfl
@[simp] theorem State.setCueEnt_doms (s : State) (n : Nat) (v : CueEnt) : (s.setCueEnt n v).doms = s.doms := rfl
@[simp] theorem State.setCueEnt_pau (s : State) (n : Nat) (v : CueEnt) : (s.setCueEnt n v).pau = s.pau := rfl
@[simp] theorem State.setCueEnt_pseq (s : State) (n : Nat) (v : CueEnt) : (s.setCueEnt n v).pseq = s.pseq := rfl
@[simp] theorem State.setCueEnt_sec (s : State) (n : Nat) (v : CueEnt) : (s.setCueEnt n v).sec = s.sec := rfl
@[simp] theorem State.setCueEnt_dbg (s : State) (n : Nat) (v : CueEnt) : (s.setCueEnt n v).dbg = s.dbg := rfl
@[simp] theorem State.setCueEnt_ras (s : State) (n : Nat) (v : CueEnt) : (s.setCueEnt n v).ras = s.ras := rfl
@[simp] theorem State.setCueEnt_cullet (s : State) (n : Nat) (v : CueEnt) : (s.setCueEnt n v).cullet = s.cullet := rfl
@[simp] theorem State.setCueEnt_pert (s : State) (n : Nat) (v : CueEnt) : (s.setCueEnt n v).pert = s.pert := rfl
@[simp] theorem State.setCueEnt_fuse (s : State) (n : Nat) (v : CueEnt) : (s.setCueEnt n v).fuse = s.fuse := rfl

/-! ## `setCtx` and `setSlot` -/

@[simp] theorem State.setCtx_pending (s : State) (n x : Nat) (v : Ctx) : (s.setCtx n x v).pending = s.pending := rfl
@[simp] theorem State.setCtx_bclk (s : State) (n x : Nat) (v : Ctx) : (s.setCtx n x v).bclk = s.bclk := rfl
@[simp] theorem State.setCtx_fresh (s : State) (n x : Nat) (v : Ctx) : (s.setCtx n x v).fresh = s.fresh := rfl
@[simp] theorem State.setCtx_start (s : State) (n x : Nat) (v : Ctx) : (s.setCtx n x v).start = s.start := rfl
@[simp] theorem State.setCtx_blk (s : State) (n x : Nat) (v : Ctx) : (s.setCtx n x v).blk = s.blk := rfl
@[simp] theorem State.setCtx_hdr (s : State) (n x : Nat) (v : Ctx) : (s.setCtx n x v).hdr = s.hdr := rfl
@[simp] theorem State.setCtx_inj (s : State) (n x : Nat) (v : Ctx) : (s.setCtx n x v).inj = s.inj := rfl
theorem State.setCtx_cores (s : State) (n x : Nat) (v : Ctx) : (s.setCtx n x v).cores = (s.setCore n ((s.core n).setCtx x v)).cores := rfl
@[simp] theorem State.setCtx_dbgc (s : State) (n x : Nat) (v : Ctx) : (s.setCtx n x v).dbgc = s.dbgc := rfl
@[simp] theorem State.setCtx_quads (s : State) (n x : Nat) (v : Ctx) : (s.setCtx n x v).quads = s.quads := rfl
@[simp] theorem State.setCtx_chains (s : State) (n x : Nat) (v : Ctx) : (s.setCtx n x v).chains = s.chains := rfl
@[simp] theorem State.setCtx_link (s : State) (n x : Nat) (v : Ctx) : (s.setCtx n x v).link = s.link := rfl
@[simp] theorem State.setCtx_ports (s : State) (n x : Nat) (v : Ctx) : (s.setCtx n x v).ports = s.ports := rfl
@[simp] theorem State.setCtx_pgrps (s : State) (n x : Nat) (v : Ctx) : (s.setCtx n x v).pgrps = s.pgrps := rfl
@[simp] theorem State.setCtx_banks (s : State) (n x : Nat) (v : Ctx) : (s.setCtx n x v).banks = s.banks := rfl
@[simp] theorem State.setCtx_mem (s : State) (n x : Nat) (v : Ctx) : (s.setCtx n x v).mem = s.mem := rfl
@[simp] theorem State.setCtx_synd (s : State) (n x : Nat) (v : Ctx) : (s.setCtx n x v).synd = s.synd := rfl
@[simp] theorem State.setCtx_steer (s : State) (n x : Nat) (v : Ctx) : (s.setCtx n x v).steer = s.steer := rfl
@[simp] theorem State.setCtx_hot (s : State) (n x : Nat) (v : Ctx) : (s.setCtx n x v).hot = s.hot := rfl
@[simp] theorem State.setCtx_icu (s : State) (n x : Nat) (v : Ctx) : (s.setCtx n x v).icu = s.icu := rfl
@[simp] theorem State.setCtx_icuc (s : State) (n x : Nat) (v : Ctx) : (s.setCtx n x v).icuc = s.icuc := rfl
@[simp] theorem State.setCtx_mt (s : State) (n x : Nat) (v : Ctx) : (s.setCtx n x v).mt = s.mt := rfl
@[simp] theorem State.setCtx_cue (s : State) (n x : Nat) (v : Ctx) : (s.setCtx n x v).cue = s.cue := rfl
@[simp] theorem State.setCtx_timers (s : State) (n x : Nat) (v : Ctx) : (s.setCtx n x v).timers = s.timers := rfl
@[simp] theorem State.setCtx_doms (s : State) (n x : Nat) (v : Ctx) : (s.setCtx n x v).doms = s.doms := rfl
@[simp] theorem State.setCtx_pau (s : State) (n x : Nat) (v : Ctx) : (s.setCtx n x v).pau = s.pau := rfl
@[simp] theorem State.setCtx_pseq (s : State) (n x : Nat) (v : Ctx) : (s.setCtx n x v).pseq = s.pseq := rfl
@[simp] theorem State.setCtx_sec (s : State) (n x : Nat) (v : Ctx) : (s.setCtx n x v).sec = s.sec := rfl
@[simp] theorem State.setCtx_dbg (s : State) (n x : Nat) (v : Ctx) : (s.setCtx n x v).dbg = s.dbg := rfl
@[simp] theorem State.setCtx_ras (s : State) (n x : Nat) (v : Ctx) : (s.setCtx n x v).ras = s.ras := rfl
@[simp] theorem State.setCtx_cullet (s : State) (n x : Nat) (v : Ctx) : (s.setCtx n x v).cullet = s.cullet := rfl
@[simp] theorem State.setCtx_pert (s : State) (n x : Nat) (v : Ctx) : (s.setCtx n x v).pert = s.pert := rfl
@[simp] theorem State.setCtx_fuse (s : State) (n x : Nat) (v : Ctx) : (s.setCtx n x v).fuse = s.fuse := rfl

@[simp] theorem State.setSlot_pending (s : State) (n x : Nat) (v : Slot) : (s.setSlot n x v).pending = s.pending := rfl
@[simp] theorem State.setSlot_bclk (s : State) (n x : Nat) (v : Slot) : (s.setSlot n x v).bclk = s.bclk := rfl
@[simp] theorem State.setSlot_fresh (s : State) (n x : Nat) (v : Slot) : (s.setSlot n x v).fresh = s.fresh := rfl
@[simp] theorem State.setSlot_start (s : State) (n x : Nat) (v : Slot) : (s.setSlot n x v).start = s.start := rfl
@[simp] theorem State.setSlot_blk (s : State) (n x : Nat) (v : Slot) : (s.setSlot n x v).blk = s.blk := rfl
@[simp] theorem State.setSlot_hdr (s : State) (n x : Nat) (v : Slot) : (s.setSlot n x v).hdr = s.hdr := rfl
@[simp] theorem State.setSlot_inj (s : State) (n x : Nat) (v : Slot) : (s.setSlot n x v).inj = s.inj := rfl
@[simp] theorem State.setSlot_cores (s : State) (n x : Nat) (v : Slot) : (s.setSlot n x v).cores = s.cores := rfl
@[simp] theorem State.setSlot_dbgc (s : State) (n x : Nat) (v : Slot) : (s.setSlot n x v).dbgc = s.dbgc := rfl
theorem State.setSlot_quads (s : State) (n x : Nat) (v : Slot) : (s.setSlot n x v).quads = (s.setQuad n ((s.quad n).setSlot x v)).quads := rfl
@[simp] theorem State.setSlot_chains (s : State) (n x : Nat) (v : Slot) : (s.setSlot n x v).chains = s.chains := rfl
@[simp] theorem State.setSlot_link (s : State) (n x : Nat) (v : Slot) : (s.setSlot n x v).link = s.link := rfl
@[simp] theorem State.setSlot_ports (s : State) (n x : Nat) (v : Slot) : (s.setSlot n x v).ports = s.ports := rfl
@[simp] theorem State.setSlot_pgrps (s : State) (n x : Nat) (v : Slot) : (s.setSlot n x v).pgrps = s.pgrps := rfl
@[simp] theorem State.setSlot_banks (s : State) (n x : Nat) (v : Slot) : (s.setSlot n x v).banks = s.banks := rfl
@[simp] theorem State.setSlot_mem (s : State) (n x : Nat) (v : Slot) : (s.setSlot n x v).mem = s.mem := rfl
@[simp] theorem State.setSlot_synd (s : State) (n x : Nat) (v : Slot) : (s.setSlot n x v).synd = s.synd := rfl
@[simp] theorem State.setSlot_steer (s : State) (n x : Nat) (v : Slot) : (s.setSlot n x v).steer = s.steer := rfl
@[simp] theorem State.setSlot_hot (s : State) (n x : Nat) (v : Slot) : (s.setSlot n x v).hot = s.hot := rfl
@[simp] theorem State.setSlot_icu (s : State) (n x : Nat) (v : Slot) : (s.setSlot n x v).icu = s.icu := rfl
@[simp] theorem State.setSlot_icuc (s : State) (n x : Nat) (v : Slot) : (s.setSlot n x v).icuc = s.icuc := rfl
@[simp] theorem State.setSlot_mt (s : State) (n x : Nat) (v : Slot) : (s.setSlot n x v).mt = s.mt := rfl
@[simp] theorem State.setSlot_cue (s : State) (n x : Nat) (v : Slot) : (s.setSlot n x v).cue = s.cue := rfl
@[simp] theorem State.setSlot_timers (s : State) (n x : Nat) (v : Slot) : (s.setSlot n x v).timers = s.timers := rfl
@[simp] theorem State.setSlot_doms (s : State) (n x : Nat) (v : Slot) : (s.setSlot n x v).doms = s.doms := rfl
@[simp] theorem State.setSlot_pau (s : State) (n x : Nat) (v : Slot) : (s.setSlot n x v).pau = s.pau := rfl
@[simp] theorem State.setSlot_pseq (s : State) (n x : Nat) (v : Slot) : (s.setSlot n x v).pseq = s.pseq := rfl
@[simp] theorem State.setSlot_sec (s : State) (n x : Nat) (v : Slot) : (s.setSlot n x v).sec = s.sec := rfl
@[simp] theorem State.setSlot_dbg (s : State) (n x : Nat) (v : Slot) : (s.setSlot n x v).dbg = s.dbg := rfl
@[simp] theorem State.setSlot_ras (s : State) (n x : Nat) (v : Slot) : (s.setSlot n x v).ras = s.ras := rfl
@[simp] theorem State.setSlot_cullet (s : State) (n x : Nat) (v : Slot) : (s.setSlot n x v).cullet = s.cullet := rfl
@[simp] theorem State.setSlot_pert (s : State) (n x : Nat) (v : Slot) : (s.setSlot n x v).pert = s.pert := rfl
@[simp] theorem State.setSlot_fuse (s : State) (n x : Nat) (v : Slot) : (s.setSlot n x v).fuse = s.fuse := rfl

end Sys2Proof.Machine
end

