-- ==== Sys2Proof/Laws/Registers.lean ====
section
/-! SUPPORT. One register access of a master, from its answer at the page to what the master is told. -/

namespace Sys2Proof.Machine

theorem pageAsleep_false {s : State} {k : PageId} (h : pageAsleep s k = false) {d : Nat} (hd : d ∈ pageDoms s k) :
    (s.dom d).st.toNat < 2 := by
  simp only [pageAsleep, List.any_eq_false, decide_eq_true_eq] at h
  have := h d hd
  omega

/-- The debug port's access to an awake page is not deferred. -/
theorem pageDeferred_none {s : State} {k : PageId} {a : DbgAcc} (hk : pageOf (a.addr / 0x1000) = some k) (h : pageAsleep s k = false) :
    pageDeferred s a = none := by
  unfold pageDeferred
  split
  · rw [hk]
    simp only
    split
    · rfl
    · rw [List.find?_eq_none]
      intro d hd
      have := pageAsleep_false h hd
      intro h2
      simp only [decide_eq_true_eq] at h2
      rw [h2] at this
      exact absurd this (by decide)
  · rfl

/-- In lifecycle OPEN the level table refuses nothing. -/
theorem matrix_open {s : State} (h : s.sec.lcField = false) (a : DbgAcc) : matrixRefuses s a = false := by
  simp [matrixRefuses, h]

/-- An access to a register page that its page does. -/
theorem makes_done {m : Master} {g off : Nat} {k : PageId} {wr : Option Word} {v : Word} {s t : State}
    (hk : pageOf g = some k) (ho : off < 0x1000) (hg : g < 0x1000) (ha : off % 4 = 0) (hm : m.reaches s g off = true) (hw : pageAsleep s k = false)
    (hr : ∀ a : Acc, a.lj = masterLvl s m → a.be = 15 → a.dbg = decide (m = .debug) → a.peek = decide (m = .debug) →
      (match wr with | some x => regWrite a g k off (lo32w x) s | none => regRead a g k off s) = .ok t v) :
    makes m (g * 0x1000 + off) false wr s = m.told s (g * 0x1000 + off) wr.isSome v t := by
  have h1 : (g * 0x1000 + off) / 0x1000 = g := by omega
  have h2 : (g * 0x1000 + off) % 0x1000 = off := by omega
  have h3 : g * 0x1000 + off < 0x1000000 := by omega
  have h0 : csAligned (g * 0x1000 + off) false = true := by simp [csAligned]; omega
  have hcs : ∀ a : Acc, a.lj = masterLvl s m → a.be = 15 → a.dbg = decide (m = .debug) → a.peek = decide (m = .debug) →
      (match wr with | some x => csWrite a (g * 0x1000 + off) false x s | none => csRead a (g * 0x1000 + off) false s) = .ok t v := by
    intro a h4 h5 h6 h7
    have := hr a h4 h5 h6 h7
    cases wr with
    | none => simp only [csRead, h0, Bool.not_true, Bool.false_eq_true, if_false, pageAccess, h1, h2, h3, hk, if_true] at this ⊢; rw [this]; rfl
    | some x => simp only [csWrite, h0, Bool.not_true, Bool.false_eq_true, if_false, pageAccess, h1, h2, h3, hk, if_true] at this ⊢; rw [this]; rfl
  unfold Master.reaches at hm
  cases m with
  | core n =>
    simp only [Bool.and_eq_true] at hm
    have := hcs { lj := masterLvl s (.core n) } rfl rfl (by simp) (by simp)
    cases wr <;> simp [makes, masterWide, hm.1.2, hm.2, csState, Master.told, this]
  | debug =>
    simp only [Bool.and_eq_true, Bool.not_eq_true', masterFree] at hm
    obtain ⟨⟨_, hf⟩, hc, hl⟩ := hm
    have hf : s.dbg.cmd = none := by cases h : s.dbg.cmd <;> simp_all
    have := hcs { lj := masterLvl s .debug, dbg := true, peek := true } rfl rfl (by simp) (by simp)
    have hd : pageDeferred s { space := 0, addr := g * 0x1000 + off, wide := false, wr := wr } = none :=
      pageDeferred_none (k := k) (by simp only [h1, hk]) hw
    cases wr <;>
      simp only [makes, masterWide, debugMakes, hf, hc, Bool.not_true, matrix_open hl, dbgPerform, hd, DbgOut.ofCs, Master.told,
        Bool.false_eq_true, if_false, if_true, Option.isSome] at this ⊢ <;> rw [this] <;> rfl
  | hostPort =>
    simp only [Bool.and_eq_true] at hm
    have := hcs { lj := masterLvl s .hostPort } rfl rfl (by simp) (by simp)
    cases wr <;> simp only [makes, masterWide, hm.1.2, hm.2, Bool.and_self, if_true, Ended.ofCs, hostAnswer, Master.told] at this ⊢ <;>
      rw [this] <;> simp
  | service =>
    simp only [Bool.and_eq_true, Bool.not_eq_true', masterFree] at hm
    obtain ⟨⟨_, ho⟩, hs, hrdy⟩ := hm
    have := hcs { lj := (0, 0) } rfl rfl (by simp) (by simp)
    cases wr <;>
      simp only [makes, svcAccess, hs, ho, Bool.not_true, boundaryAccess, hrdy, Bool.false_eq_true,
        if_false, if_true, Ended.ofCs, svcAnswer, Master.told, Nat.one_ne_zero, decide_false, Nat.reduceEqDiff] at this ⊢ <;>
      rw [this]
  | fetcher q => simp at hm
  | hostExchange => simp at hm

/-- Check 1 of R34 passes for a register that is no POWN, at level MACHINE where the register asks for it. -/
theorem mayWrite_of {s : State} {a : Acc} {g off : Nat} {k : PageId} {v : Reg} (hp : pownOk s g a.lj = true)
    (hm : machineOnly k off = true → a.lj.1 = 0) (ho : 0x10 ≤ off) : mayWrite s a g k off v = true := by
  have : off / 4 ≠ 3 := by omega
  cases h : machineOnly k off
  · simp [mayWrite, mayTouch, hp, h, this]
  · simp [mayWrite, mayTouch, hp, hm h, this]

/-- A register without flags that a write of 1 clears takes the value written. -/
theorem keepSet_plain {g off : Nat} {k : PageId} {v : Reg} {s : State} (h : w1cMask k off = 0) : keepSet g k off v s = v := by
  simp [keepSet, h]

/-- A write of a live, staged or test register that every check of R34 before the encoding passes. -/
theorem regWrite_body {s t : State} {a : Acc} {g off : Nat} {k : PageId} {v : Reg} (hp : pownOk s g a.lj = true)
    (hm : machineOnly k off = true → a.lj.1 = 0) (ho : 0x400 ≤ off) (hb : a.be = 15) (hw : pageAsleep s k = false)
    (hs : storeWait s k off = none) (hv : moveHold s k = false) (hst : stagedReg k off = true → (s.header g).cmtpend = false)
    (ht : 0xC00 ≤ off → s.blk.testen = true) (hbody : writeBody a.dbg g k off (keepSet g k off v s) s = .ok t) :
    regWrite a g k off v s = .ok t 0 := by
  have h1 : ¬ off < 0x18 := by omega
  have h2 : ¬ off < 0x400 := by omega
  have h3 : (stagedReg k off && (s.header g).cmtpend) = false := by
    cases h : stagedReg k off
    · rfl
    · simp [hst h]
  have h4 : ¬ (0xC00 ≤ off ∧ (!s.blk.testen) = true) := by
    rintro ⟨h5, h6⟩
    simp [ht h5] at h6
  simp only [regWrite, hw, hb, hs, mayWrite_of hp hm (by omega : 0x10 ≤ off), hv, regChecked, h1, h2, h3, h4, hbody, Bool.not_true,
    Bool.false_eq_true, and_false, if_false, ne_eq, not_true_eq_false, Nat.reduceEqDiff]

/-- A read of a register that the page's owner permits. -/
theorem regRead_done {s : State} {a : Acc} {g off : Nat} {k : PageId} (hp : pownOk s g a.lj = true) (hw : pageAsleep s k = false)
    (hs : storeWait s k off = none) :
    regRead a g k off s = .ok (readReg a.peek g k off s).1 ((readReg a.peek g k off s).2.setWidth 64) := by
  simp [regRead, hw, hs, mayTouch, hp]

theorem reaches_pownOk {m : Master} {s : State} {g off : Nat} (h : m.reaches s g off = true) : pownOk s g (masterLvl s m) = true := by
  simp only [Master.reaches, Bool.and_eq_true] at h
  exact h.1.1

/-- A write row: the master reaches the page, every check passes, and the page's write has the effect `t`. -/
theorem writes_done {m : Master} {g off : Nat} {k : PageId} {v : Reg} {s t : State} (hk : pageOf g = some k) (hg : g < 0x1000)
    (hm : m.reaches s g off = true) (hmo : machineOnly k off = true → (masterLvl s m).1 = 0) (ho : 0x400 ≤ off) (ho' : off < 0x1000) (ha : off % 4 = 0)
    (hw : pageAsleep s k = false) (hs : storeWait s k off = none) (hv : moveHold s k = false)
    (hst : stagedReg k off = true → (s.header g).cmtpend = false) (ht : 0xC00 ≤ off → s.blk.testen = true)
    (hbody : writeBody (decide (m = .debug)) g k off (keepSet g k off v s) s = .ok t) :
    writes m g off v s = m.told s (g * 0x1000 + off) true 0 t := by
  have hv32 : lo32w (v.setWidth 64) = v := by
    apply BitVec.eq_of_toNat_eq
    have := v.isLt
    simp only [lo32w, fld, BitVec.toNat_ofNat, BitVec.toNat_setWidth]
    omega
  refine makes_done hk ho' hg ha hm hw ?_
  intro a h1 h2 h3 _
  simp only [hv32]
  exact regWrite_body (h1 ▸ reaches_pownOk hm) (fun h => by rw [h1]; exact hmo h) ho h2 hw hs hv hst ht (h3 ▸ hbody)

/-- A read row. The debug port peeks. -/
theorem reads_done {m : Master} {g off : Nat} {k : PageId} {s : State} (hk : pageOf g = some k) (hg : g < 0x1000)
    (hm : m.reaches s g off = true) (ho' : off < 0x1000) (ha : off % 4 = 0) (hw : pageAsleep s k = false) (hs : storeWait s k off = none) :
    reads m g off s = m.told s (g * 0x1000 + off) false ((readReg (decide (m = .debug)) g k off s).2.setWidth 64)
      (readReg (decide (m = .debug)) g k off s).1 := by
  refine makes_done hk ho' hg ha hm hw ?_
  intro a h1 _ _ h4
  rw [regRead_done (h1 ▸ reaches_pownOk hm) hw hs, h4]

/-- A write of a table window that its chapter does, once what it reaches has the demand. -/
theorem winPut_done {s : State} {a : Acc} {w : Win} {o : Nat} {wide : Bool} {v : Word} (hb : a.be = 15)
    (hd : ∀ d, winDom w o = some d → awake s d = true) (hok : winOk (winTouch w o s) a true w = true)
    (hr : winRefused w a.lj o wide v (winTouch w o s) = false) :
    winPut a w o wide v s = .ok (winWrite w a.lj o wide v (winTouch w o s)) 0 := by
  have hf : (winDom w o).all (awake s) = true := by
    cases h : winDom w o with
    | none => rfl
    | some d => simp [hd d h]
  simp [winPut, winReach, hb, hf, hok, hr]

/-- A window write row: the master reaches the owner's page, the domain is awake, and the chapter refuses nothing. -/
theorem makes_window {m : Master} {g off o i : Nat} {w : Win} {wide : Bool} {v : Word} {s : State}
    (hm : m.reaches s g off = true) (hg : 0x1000 ≤ g * 0x1000 + off) (ho : ¬ o < 0x1000000) (hw : winOf o = some (w, i)) (ha : csAligned o (masterWide m wide) = true)
    (hd : ∀ d, winDom w i = some d → awake s d = true)
    (hok : ∀ a : Acc, a.lj = masterLvl s m → winOk (winTouch w i s) a true w = true)
    (hr : winRefused w (masterLvl s m) i (masterWide m wide) v (winTouch w i s) = false) :
    makes m o wide (some v) s = m.told s o true 0 (winWrite w (masterLvl s m) i (masterWide m wide) v (winTouch w i s)) := by
  have hcs : ∀ a : Acc, a.lj = masterLvl s m → a.be = 15 →
      csWrite a o (masterWide m wide) v s = .ok (winWrite w (masterLvl s m) i (masterWide m wide) v (winTouch w i s)) 0 := by
    intro a h1 h2
    simp only [csWrite, ha, Bool.not_true, Bool.false_eq_true, ho, if_false, hw]
    rw [winPut_done h2 hd (hok a h1) (h1 ▸ hr), h1]
  unfold Master.reaches at hm
  cases m with
  | core n =>
    simp only [Bool.and_eq_true] at hm
    have := hcs { lj := masterLvl s (.core n) } rfl rfl
    simp [makes, hm.1.2, hm.2, csState, Master.told, this]
  | debug =>
    simp only [Bool.and_eq_true, Bool.not_eq_true', masterFree] at hm
    obtain ⟨⟨_, hf⟩, hc, hl⟩ := hm
    have hf : s.dbg.cmd = none := by cases h : s.dbg.cmd <;> simp_all
    have := hcs { lj := masterLvl s .debug, dbg := true, peek := true } rfl rfl
    have hp : ∀ b x, pageDeferred s { space := 0, addr := o, wide := b, wr := x } = none := by
      intro b x
      simp [pageDeferred, ho]
    simp only [makes, masterWide, debugMakes, hf, Option.isSome, hc, Bool.not_true, matrix_open hl, dbgPerform, hp, Master.told,
      Bool.false_eq_true, if_false] at this ⊢
    rw [this]
    rfl
  | hostPort =>
    simp only [Bool.and_eq_true] at hm
    have := hcs { lj := masterLvl s .hostPort } rfl rfl
    have h1 : s.blk.started = true ∧ s.blk.ready = true := by
      have := hm.2
      simp only [hostServed, Bool.and_eq_true, Bool.or_eq_true, decide_eq_true_eq] at this
      exact ⟨this.1, this.2.resolve_right (by omega)⟩
    have h2 : hostServed s o = true := by simp [hostServed, h1]
    simp only [masterWide] at this
    simp only [makes, masterWide, h2, hm.1.2, Bool.and_self, if_true, Ended.ofCs, hostAnswer, Master.told, this]
    simp
  | service =>
    simp only [Bool.and_eq_true, Bool.not_eq_true', masterFree] at hm
    obtain ⟨⟨_, hn⟩, hs, hrdy⟩ := hm
    have := hcs { lj := (0, 0) } rfl rfl
    simp only [masterWide] at this
    simp only [makes, svcAccess, hs, hn, Bool.not_true, boundaryAccess, hrdy, Bool.false_eq_true,
      if_false, if_true, Ended.ofCs, svcAnswer, Master.told, Nat.one_ne_zero, decide_false, Nat.reduceEqDiff, this, masterWide]
  | fetcher q => simp at hm
  | hostExchange => simp at hm

end Sys2Proof.Machine
end

