-- ==== Sys2Proof/WellFormed.lean ====
section
/-! DEFINITION. Which terms of Instr are commands that the outside or the block can present. The types of the operands
already name only units that exist; what remains are relations inside one operand list. -/

namespace Sys2Proof

/-- Fuse words at strictly rising indices from `lo`, below 8,192 (R368). -/
def fusesWf (lo : Nat) : List (Nat × Reg) → Bool
  | [] => true
  | (i, _) :: t => decide (lo ≤ i) && decide (i < 8192) && fusesWf (i + 1) t

/-- A window access is aligned to its size: 8 bytes if wide, else 4 (R25). -/
def windowWf {n : Nat} (off : BitVec n) (wide : Bool) : Bool :=
  decide (off.toNat % (if wide then 8 else 4) = 0)

/-- Well-formed commands. -/
def Instr.wf : Instr → Bool
  | .startUp fuses _ => fusesWf 0 fuses
  | .microcodeWindowWrite _ _ off wide _ => windowWf off wide
  | .cueTableWrite _ off wide _ => windowWf off wide
  | .sourceTableWrite _ off wide _ => windowWf off wide
  | .powerDomainTableWrite _ off wide _ => windowWf off wide
  | .bankSteeringTableWrite _ off wide _ => windowWf off wide
  | .scratchpadRead a => decide (a.toNat < 2 ^ 21)
  | .scratchpadWrite a _ => decide (a.toNat < 2 ^ 21)
  | .controlSpaceRead a => decide (a.toNat < 2 ^ 23)
  | .controlSpaceWrite a _ => decide (a.toNat < 2 ^ 23)
  | .registerWrite _ off _ => decide (off.toNat % 4 = 0)
  | .counterRead _ off => decide (off.toNat % 4 = 0)
  | .lowHalfRead _ off => decide (off.toNat % 4 = 0)
  | _ => true

end Sys2Proof
end

