-- ==== Sys2Proof/Tests/Slice0.lean ====
section
/-! SUPPORT. Checks on fixed values: ill-formed commands are refused, and for every statement a state and operands that meet its
hypotheses, with what the spec gives there. -/

namespace Sys2Proof.Tests

open Sys2Proof Sys2Proof.Machine

set_option Elab.async false

/-! ## Helpers -/

/-- The state after a command, or reset if it does not answer one. -/
def after (c : Instr) (s : State) : State := match exec c s with | .next t => t | _ => State.reset

/-- Does the command answer exactly this state? -/
def gives (c : Instr) (s t : State) : Bool := match exec c s with | .next u => decide (u = t) | _ => false

/-- The block once its start-up sequence has ended. -/
def up : State := { State.reset with blk := { State.reset.blk with started := true, ready := true } }

/-- The block with core 0 released and its context 0, of level MACHINE, executing. -/
def running : State := { up with
  blk := { up.blk with run := 1 }
  cores := [(0, { cur := some 0, ctxs := [(0, { state := 2, pc := 0x20000000, osbase := 0x100, osp := 0x100, oslimit := 0x200 })] })] }

/-- A state as the start of a BCLK has it. -/
def atStart (s : State) : State := { s with start := s.snap }

/-! ## Well-formed commands -/

theorem test_wf_fuses : (Instr.startUp [(3, 0), (3, 1)] 0).wf = false ∧ (Instr.startUp [(8192, 0)] 0).wf = false
    ∧ (Instr.startUp [(0, 0xA05B), (4, 1)] 0).wf = true := by decide
theorem test_wf_microcode : (Instr.microcodeWindowWrite .service 0 4 true 0).wf = false
    ∧ (Instr.microcodeWindowWrite .service 0 8 true 0).wf = true := by decide
theorem test_wf_cue : (Instr.cueTableWrite .service 2 false 0).wf = false ∧ (Instr.cueTableWrite .service 4 false 0).wf = true := by decide
theorem test_wf_source : (Instr.sourceTableWrite .service 4 true 0).wf = false ∧ (Instr.sourceTableWrite .service 4 false 0).wf = true := by decide
theorem test_wf_domain : (Instr.powerDomainTableWrite .service 1 false 0).wf = false
    ∧ (Instr.powerDomainTableWrite .service 16 true 0).wf = true := by decide
theorem test_wf_steering : (Instr.bankSteeringTableWrite .service 4 true 0).wf = false
    ∧ (Instr.bankSteeringTableWrite .service 4 false 0).wf = true := by decide
theorem test_wf_service_scratchpad : (Instr.scratchpadRead 0x200000).wf = false ∧ (Instr.scratchpadWrite 0x200000 0).wf = false
    ∧ (Instr.scratchpadRead 0x1FFFFF).wf = true := by decide
theorem test_wf_service_control : (Instr.controlSpaceRead 0x800000).wf = false ∧ (Instr.controlSpaceWrite 0x800000 0).wf = false
    ∧ (Instr.controlSpaceWrite 0x7FFFFF 0).wf = true := by decide
theorem test_wf_registers : (Instr.registerWrite .service 0x402 0).wf = false ∧ (Instr.counterRead .service 0x40D).wf = false
    ∧ (Instr.lowHalfRead .service 0x401).wf = false ∧ (Instr.registerWrite .service 0x404 0).wf = true := by decide
theorem test_no_word_spells_a_command (n w : Nat) (s : State) : decodeTableWord n w = none ∧ s.withFetchWord n w = s := ⟨rfl, rfl⟩

/-! ## Machine time (R243 to R246) -/

def synced : State := { up with mt := { up.mt with holdover := false, mtime := 0xFFFFF } }

theorem witness_MachineTimeMoves_tick : synced.blk.started = true ∧ synced.mt.holdover = false
    ∧ (after (.mtTick true) synced).mt = { synced.mt with mtime := 0x100000 }
    ∧ (after (.mtTick false) synced).mt = { synced.mt with mtime := 0x100000, slip := true }
    ∧ (after .mtSlate synced).mt.slip = true ∧ gives (.mtTick true) up up = true := by decide +kernel
theorem witness_MachineTimeMoves_load : (after (.mtLoad true 5) synced).mt = { synced.mt with
      mtime := 5, loadprev := 0xFFFFF, ldevt := true, backstep := true, synced := true, validin := true }
    ∧ gives (.mtLoad false 5) up { up with mt := { up.mt with validin := false } } = true
    ∧ (after .mtValidRise up).mt.validin = true ∧ (after .mtValidRise up).mt.holdover = true := by decide +kernel
theorem witness_MachineTimeMoves_holdover : (after .holdoverBegin synced).mt = { synced.mt with holdover := true, hoevt := true }
    ∧ (after .holdoverIncrement up).mt = { up.mt with mtime := 1 }
    ∧ (after .holdoverIncrement { up with mt := { up.mt with frac := 0x90000000 } }).mt = { up.mt with mtime := 1, frac := 0x10000000 } := by
  decide +kernel

/-! ## Timers (R258 to R264) -/

def counting : State :=
  atStart (up.setTimer 3 { ctl := 0x00020201, presc := 2, cnt := 9, per := 9, cmp := 0, perStg := 7, cmpStg := 0, commit := true })

theorem witness_SourceEventCountsTimer : counting.formed = true ∧ (counting.timer 3).en = true ∧ (counting.timer 3).frozen counting = false
    ∧ gateOpen counting (counting.timer 3) 0 = true ∧ (counting.header (chanPage 3)).cmtpend = false
    ∧ (after (.timerCount 3 0) counting).timer 3 =
      { counting.timer 3 with presc := 0, cnt := 0, per := 7, commit := false, stat := 3 } := by decide +kernel
theorem witness_SourceEventCountsTimer_below :
    let s := atStart (counting.setTimer 3 { counting.timer 3 with cnt := 6, cmp := 7 })
    (after (.timerCount 3 0) s).timer 3 = { s.timer 3 with presc := 0, cnt := 7, stat := 2 }
    ∧ (let p := atStart (s.setTimer 3 { s.timer 3 with presc := 1 })
       (after (.timerCount 3 0) p).timer 3 = { p.timer 3 with presc := 2 }) := by decide +kernel
theorem witness_TimerWritesAndGroups_start : Master.service.reaches up pgMtime 0x424 = true ∧ Master.service.reaches up pgMtime 0x428 = true
    ∧ (after (.tgstart .service 8) (up.setTimer 3 { phase := 40, presc := 1, cnt := 3 })).timer 3 =
      { phase := 40, cnt := 40, ctl := 0x00000201 }
    ∧ ((after (.tgstart .service 9) (up.setHeader (chanPage 0) { freeze := true })).timer 0).en = false
    ∧ ((after (.tgstop .service 8) counting).timer 3).en = false := by decide +kernel
theorem witness_TimerWritesAndGroups_halves : Master.service.reaches up (chanPage 17) (chanOff 17 0x34) = true
    ∧ (up.header (chanPage 17)).cmtpend = false
    ∧ (after (.pernowLo .service 17 5) up).timer 17 = { perLo := 5 }
    ∧ (after (.pernowHi .service 17 1) (up.setTimer 17 { perLo := 5 })).timer 17 = { perLo := 5, per := 0x100000005, perStg := 0x100000005 }
    ∧ (after (.cntWrite .service 17 true 2) (up.setTimer 17 { cnt := 3 })).timer 17 = { cnt := 0x200000003 } := by decide +kernel
theorem witness_TimerWritesAndGroups_refused : (Master.core 0).reaches (running.setTimer 0 { ctl := 0x201 }) (chanPage 0) (chanOff 0 0x08) = true
    ∧ gives (.cntWrite (.core 0) 0 false 7) (running.setTimer 0 { ctl := 0x201 })
      (refuse (chanPage 0) (chanOff 0 0x08) 0x0A (running.setTimer 0 { ctl := 0x201 })) = true := by decide +kernel
theorem witness_EdgesCaptureTimer : edgeCounts 0x821 true = true
    ∧ (after (.capture 5 true) (up.setTimer 5 { capcfg := 0x821, cnt := 77 })).timer 5 = { capcfg := 0x821, cnt := 77, edges := 1 }
    ∧ (after (.capture 5 true) (up.setTimer 5 { capcfg := 0x821, cnt := 77, edges := 1, stat := 8 })).timer 5 =
      { capcfg := 0x821, cnt := 77, cap := 77, stat := 0x1C } := by decide +kernel
theorem witness_EdgesCaptureTimer_read : Master.service.reaches up (chanPage 5) (chanOff 5 0x20) = true
    ∧ (after (.capLoRead .service 5) (up.setTimer 5 { cap := 0x100000002, stat := 0xC })).timer 5 = { cap := 0x100000002, capHi := 1, stat := 4 }
    ∧ (after (.capLoRead .service 5) (up.setTimer 5 { cap := 0x100000002, stat := 0xC })).blk.svcData = 2 := by decide +kernel
theorem witness_DebugHaltFreezesChannels :
    let s := atStart ((counting.setDbgc 4 { halted := true }).setTimer 5 { ctl := 0x209, per := 3 })
    s.formed = true ∧ (s.dbgcOf 4).halted = true ∧ bit (s.timer 3).ctl 3 = false ∧ gives (.timerCount 3 0) s s = true
    ∧ gateOpen s (s.timer 5) 0 = true ∧ ((after (.timerCount 5 0) s).timer 5).cnt = 1
    ∧ ((after (.capture 3 true) (s.setTimer 3 { s.timer 3 with capcfg := 0x21 })).timer 3).cap = 9
    ∧ (after .holdoverIncrement s).mt.mtime = 1 := by decide +kernel

/-! ## Cues (R249 to R253) -/

/-- Entry 2: due at 3, action SNAP, periodic without end; entry 1: due at 5, once. -/
def cued : State := { synced with cue := { synced.cue with
  tbl := [(1, { time := 5, q1 := 0x12 }), (2, { time := 3, q1 := 0x000100FF00000012 })], hit := [2] } }

theorem witness_Cues_selected : gives .cueSelection cued { cued with cue := { cued.cue with sel := [(2, true), (1, false)], hit := [] } } = true := by
  decide +kernel
theorem witness_Cues_advance : (cued.cueEnt 1).advance 1 = { time := 5, q1 := 2 }
    ∧ ({ time := 5, q1 := 0x0000000300000012 } : CueEnt).advance 1 = { time := 5 + ({ time := 5, q1 := 0x0000000300000012 } : CueEnt).interval, q1 := 0x0000000200000012 }
    ∧ ((cued.cueEnt 2).advance 1).q1 = (cued.cueEnt 2).q1 := by decide +kernel
theorem witness_Cues_fire :
    let s := after .cueSelection cued
    (s.cue.sel.find? fun x => decide (x.1 = 1)) = some (1, false) ∧ (s.cueEnt 1).armed = true
    ∧ (after (.cueFire 1) s).cue.sel = [(2, true)] ∧ (after (.cueFire 1) s).cue.latecnt = 1 ∧ (after (.cueFire 1) s).cue.tbl.length = 2
    ∧ ((after (.cueFire 1) s).cueEnt 1).armed = false ∧ (after (.cueFire 2) s).cue.latecnt = 0 := by decide +kernel
theorem witness_Cues_skip :
    let s := { cued with cue := { cued.cue with tbl := [(1, { time := 5, q1 := 0x52 })], sel := [(1, false)] } }
    (s.cueEnt 1).skip = true ∧ (s.cueEnt 1).armed = true ∧ (after (.cueFire 1) s).cue.skipcnt = 1
    ∧ (after (.cueFire 1) { s with cue := { s.cue with tbl := [] } }).cue.sel = [] := by decide +kernel
theorem witness_Cues_actions :
    let s := atStart ((up.setTimer 3 { phase := 40, presc := 1, cnt := 3, capcfg := 0x80000 }).setTimer 17 { ctl := 1, cnt := 8, stat := 8 })
    s.formed = true ∧ s.start.tev = [] ∧ (cueAction 1 2 900 s).icu.pulses = [900]
    ∧ (cueAction 1 4 8 s).timer 3 = { s.timer 3 with cnt := 40, presc := 0, ctl := 0x201 } ∧ (cueAction 1 4 8 s).timer 17 = s.timer 17
    ∧ (cueAction 1 7 2 s).timer 17 = { s.timer 17 with ctl := 0 }
    ∧ (cueAction 1 9 2 s).timer 17 = { s.timer 17 with cap := 8, stat := 0x1C }
    ∧ (cueAction 1 0xA 0 s).timer 3 = { s.timer 3 with cap := 3, stat := 0xC } ∧ (cueAction 1 0xA 0 s).timer 17 = s.timer 17
    ∧ (cueAction 1 0xB 3 s).mt.windows = 8 ∧ (cueAction 1 0xC 3 (cueAction 1 0xB 3 s)).mt.windows = 0 := by decide +kernel
theorem witness_Cues_release :
    let s := (up.setSlot 2 5 { gen := 7, st := .armed }).setQuad 2 { (up.setSlot 2 5 { gen := 7, st := .armed }).quad 2 with seq := 9 }
    let h := 2 * 2 ^ 14 + 5 * 2 ^ 8 + 7
    s.formed = true ∧ tabWf slotInit 0 (s.quad 2).slots = true
    ∧ (cueAction 1 1 h s).slot 2 5 = { gen := 7, st := .queued, leave := true, seq := 10, arrAt := s.bclk, arrKey := 1 }
    ∧ ((cueAction 1 1 h s).dom (domQuad 2)).demand = true ∧ decide (cueAction 1 1 h up = up) = true := by decide +kernel
theorem witness_Cues_domains :
    let d := domBank 3
    let s := up.setDom d { up.dom d with st := 2, dreq := 2, dack := 2 }
    stateOf s d = 2 ∧ domRetired s d = false ∧ ((cueAction 1 3 (d + 256) s).dom d).waking = true
    ∧ decide (cueAction 1 3 (d + 512) s = s) = true := by decide +kernel
theorem witness_CueTableTakesDefinedEntries : synced.formed = true ∧ Master.service.reaches synced pgCue 0x400 = true
    ∧ 1 < tcBase synced ∧ (synced.cueEnt 1).armed = false ∧ cueOk ((synced.cueEnt 1).put 16 (masterWide .service true) 9) = true
    ∧ (synced.header pgCue).cfgerr = false
    ∧ ((after (.cueTableWrite .service 16 false 9) synced).cueEnt 1).time = 9 := by decide +kernel

/-! ## Interrupts (R275 to R288) -/

/-- Source 30 pends, enabled, for core 2 on the normal class; source 31 for line 3; source 29, fast, for core 2, in service. -/
def wired : State := atStart (up.setIcu { up.icu with
  srcs := [(29, { cfg := 0x98, active := true, actby := 2 }), (30, { cfg := 0x88, pend := true }), (31, { cfg := 0xE8, pend := true })] })

theorem witness_SamplesAndGroups_sample : up.formed = true
    ∧ (after (.sourceSample 30) (up.setIcu { up.icu with srcs := [(30, { cfg := 8 })], pulses := [30] })).src 30 =
      { cfg := 8, inn := true, pend := true }
    ∧ (after (.sourceSample 30) (up.setIcu { up.icu with srcs := [(30, { cfg := 2 })], pulses := [30] })).src 30 =
      { cfg := 2, inn := true, pend := true }
    ∧ (after (.sourceSample 30) (up.setIcu { up.icu with srcs := [(30, { cfg := 2, pend := true })], pulses := [30] })).src 30 =
      { cfg := 2, inn := true, pend := true, lost := true }
    ∧ (after (.sourceSample 30) (up.setIcu { up.icu with srcs := [(30, { cfg := 8, pend := true, active := true })] })).src 30 =
      { cfg := 8, pend := true, active := true } := by decide +kernel
theorem witness_SamplesAndGroups_groups :
    let s := up.setIcu { up.icu with grps := [(0, { cfg := 2, ev := 2 })] }
    (s.grp 0).isOpen = false ∧ (s.grp 0).due = true ∧ ((after (.groupOpen 0) s).grp 0).opn = true
    ∧ (let s := up.setIcu { up.icu with grps := [(0, { cfg := 2 })], srcs := [(30, { cfg := 0x402 }), (31, { cfg := 0x402 })], pulses := [30, 31] }
       let t := after (.sourceSample 31) (after (.sourceSample 30) s)
       t.grp 0 = { cfg := 2, ev := 1, evAt := some 0 } ∧ (clockEnd t).grp 0 = { cfg := 2, ev := 1, timer := 1, evAt := some 0 })
    ∧ groupPending (after (.groupOpen 0) s) 0 = false
    ∧ (after (.groupClose 0) (after (.groupOpen 0) s)).grp 0 = { cfg := 2 } := by decide +kernel
theorem witness_RaisedBitsFollowIndications : wired.formed = true ∧ nreq wired 2 = true ∧ freq wired 2 = false ∧ irqOut wired 3 = true
    ∧ (raiseAll wired).icucOf 2 = { nraised := true } ∧ (raiseAll wired).icu.hraised = 8 := by decide +kernel
theorem witness_ClaimsServeTheTopSource : Master.service.reaches wired (pgIcuc 2) 0x408 = true
    ∧ Master.service.reaches wired pgIcu 0x44C = true ∧ Master.service.reaches wired (pgIcuc 2) 0x40C = true
    ∧ (after (.claimn .service 2) wired).blk.svcData = 30 ∧ ((after (.claimn .service 2) wired).src 30).active = true
    ∧ ((after (.claimn .service 2) wired).src 30).actby = 2
    ∧ (after (.hclaim .service 3) wired).blk.svcData = 31 ∧ ((after (.hclaim .service 3) wired).src 31).actby = 19
    ∧ (after (.claimf .service 2) wired).blk.svcData = 0
    ∧ (after (.claimf .service 2) (atStart (wired.setIcuc 2 { fraised := true }))).blk.svcData = 1023
    ∧ (after (.claimn .service 2) (wired.setSrc 30 { wired.src 30 with pend := false })).blk.svcData = 30
    ∧ (after (.claimn .service 2) (after (.claimn .service 2) wired)).blk.svcData ≠ 30 := by decide +kernel
theorem witness_InterruptRegisterWrites_end : srcOk 29 = true ∧ Master.service.reaches wired (pgIcuc 2) 0x410 = true
    ∧ ((after (.eoi .service 2 29) wired).src 29).active = false ∧ ((after (.eoi .service 2 30) wired).icucOf 2).badeoi = true
    ∧ Master.service.reaches wired pgIcu 0x408 = true ∧ (after (.heoi .service 0x3001D) wired).icu.hbadeoi = true
    ∧ ((after (.heoi .service 0x3001F) (after (.hclaim .service 3) wired)).src 31).active = false := by decide +kernel
theorem witness_InterruptRegisterWrites_writes : Master.service.reaches up pgIcu 0x400 = true ∧ srcOk 40 = true
    ∧ (after (.swset .service 40) up).icu.pulses = [40] ∧ Master.service.reaches up pgIcu (0x480 + 4 * 5) = true
    ∧ (after (.gcfg .service 5 0xFF000203) up).grp 5 = { cfg := 0x203 }
    ∧ ((after (.gcfg .service 0 0x203) (up.setSrc 30 { cfg := 0x408, pend := true })).grp 0).opn = true ∧ Master.service.reaches up (pgIcuc 2) 0x400 = true
    ∧ (after (.icucCtl .service 2 3) wired).icucOf 2 = { nmask := true, fmask := true }
    ∧ srcCfgOk 0x8B = true ∧ (up.header pgIcu).cfgerr = false
    ∧ (after (.sourceTableWrite .service 240 false 0x8B) wired).src 30 = { cfg := 0x8B, senseAt := some 0 } := by decide +kernel
theorem witness_SeverityBitsDriveTheLines :
    let s := up.setRas { up.ras with queue := [(0, { e1 := 0x110 })] }
    s.blk.warmLow = false ∧ s.cullet.frozen = false ∧ (livePins s).attnLow = false ∧ (after .dailiesEntryWrite s).ras.attnp = true
    ∧ (livePins (after .dailiesEntryWrite s)).attnLow = true ∧ fixedLevel (after .dailiesEntryWrite s) 966 = true
    ∧ (let f := { up.setRas { up.ras with queue := List.replicate 64 (0, {}) } with bclk := 5 }
       (∀ x ∈ f.ras.queue, x.1 ≠ f.bclk) ∧ (logEv 0x14 2 0 0 f).ras.faultp = true ∧ (logEv 0x14 2 0 0 f).ras.queue = f.ras.queue) := by
  decide +kernel

/-! ## Power (R291 to R312) -/

/-- Domain 5 in GLORY, domain 6 in COLD, a budget of 2,000. -/
def asleep : State := { up with doms := [(5, { st := 2, dreq := 2, dack := 2 }), (6, { st := 4, dreq := 4, dack := 4 })],
                                pau := { up.pau with chip := 2000 } }

theorem witness_DemandsAndWakesStart_glory : (asleep.dom 5).waking = false ∧ (asleep.dom 5).goal = none ∧ domRetired asleep 5 = false
    ∧ wakeOne 5 asleep = (asleep.setPseq { asleep.pseq with wakecnt := 1 }).setDom 5 { st := 2, waking := true, dack := 2 }
    ∧ ((after (.demand 5) asleep).dom 5).waking = true
    ∧ gives (.scheduledWake 5) (asleep.setDom 5 { asleep.dom 5 with wsched := true })
        (wakeDom 5 (asleep.setDom 5 { asleep.dom 5 with wsched := true })) = true
    ∧ ((after (.keepExpiry 5) (asleep.setDom 5 { keepDbg := true })).dom 5).keepDbg = false := by decide +kernel
theorem witness_DemandsAndWakesStart_cold : (asleep.dom 6).st = 4 ∧ (asleep.pau.reqs.all fun r => decide (r.for_ ≠ .wake 6)) = true
    ∧ (wakeOne 6 asleep).pau.reqs = [⟨3, .wake 6, 0⟩] ∧ ((wakeOne 6 asleep).dom 6).wleave = true ∧ wakeOne 7 asleep = asleep := by decide +kernel
theorem witness_DemandsAndWakesStart_entering :
    let s := asleep.setDom 8 { goal := some 2, dreq := 2 }
    (s.dom 8).goal ≠ none ∧ (s.dom 8).demand = false ∧ ((wakeOne 8 s).dom 8).demand = true ∧ wakeOne 8 (wakeOne 8 s) = wakeOne 8 s
    ∧ ((after (.pwrDack 8 2) (wakeOne 8 s)).dom 8).waking = true := by decide +kernel
theorem witness_DomainsEnterAndWake_enter :
    let s := { up with bclk := 2 ^ 21 }
    (s.header pgPseq).freeze = false ∧ domBusy s 140 = false ∧ (s.dom 140).goal = none ∧ domKeep s 140 = false ∧ nextEvent s 140 = none
    ∧ min (s.dom 140).floor.toNat (limitOf s 140) = 2 ∧ ((after (.sequencerDecision 140) s).dom 140).goal = some 2
    ∧ ((after (.holdoffExpiry 140) s).dom 140).dreq = 2
    ∧ ((after (.sequencerDecision 140) (s.setDom 140 { demand := true })).dom 140) = { st := 0, idleAt := 2 ^ 21 }
    ∧ ((after (.demand 140) (after (.sequencerDecision 140) s)).dom 140).goal = none := by decide +kernel
theorem witness_DomainsEnterAndWake_event :
    let s := atStart { up with cue := { up.cue with tbl := [(1, { time := 5000, q1 := 0x01000010 })] } }
    domBusy s 140 = false ∧ nextEvent s 140 = some 5000 ∧ limitOf s 140 = 2 ∧ eventBclk s 5000 = 10000 ∧ (s.domCfg 140).floor = 2
    ∧ (let t := after (.sequencerDecision 140) s
       (t.dom 140).goal = some 2 ∧ (t.dom 140).wsched = true)
    ∧ (let s := atStart { s with mt := { s.mt with mtime := 4900 } }
       eventBclk s 5000 = 200 ∧ (after (.sequencerDecision 140) s).dom 140 = {}) := by decide +kernel
theorem witness_DomainsEnterAndWake_members :
    let s := { up with bclk := 2 ^ 21 }
    let u := slotDoms s 2
    u = [74, 75, 76] ∧ domUnit s 75 = u ∧ domBusy s 75 = false ∧ domKeep s 75 = false ∧ nextEvent s 75 = none
    ∧ (let t := after (.sequencerDecision 75) s
       u.map (fun e => (t.dom e).goal) = [some 2, some 2, some 2]
       ∧ (let w := after (.pwrDack 76 2) (after (.pwrDack 75 2) t)
          u.map (fun e => (w.dom e).st) = [1, 1, 1] ∧ u.map (fun e => ((after (.pwrDack 74 2) w).dom e).st) = [2, 2, 2]))
    ∧ (let s := u.foldl (fun s e => s.setDom e { st := 2, waking := true }) s
       u.map (fun e => ((after (.wakeComplete 75) s).dom e).st) = [1, 1, 1]) := by decide +kernel
theorem witness_DomainsEnterAndWake_ack :
    let s := up.setDom 140 { goal := some 2, dreq := 2 }
    (s.dom 140).goal = some 2 ∧ (after (.pwrDack 140 2) s).dom 140 = { st := 2, dreq := 2, dack := 2 }
    ∧ (after (.pwrDack 140 3) s).dom 140 = { goal := some 2, dreq := 2, dack := 3 } := by decide +kernel
theorem witness_DomainsEnterAndWake_wake :
    let s := asleep.setDom 6 { st := 4, waking := true }
    (s.dom 6).dack = (s.dom 6).dreq ∧ (after (.wakeComplete 6) s).dom 6 = {} := by decide +kernel
theorem witness_GrantsAndReleases_grant :
    let s := asleep.setPau { asleep.pau with reqs := [⟨1, .take 0 0, 1⟩, ⟨3, .wake 6, 2⟩, ⟨3, .take 1 1, 0⟩] }
    s.cullet.frozen = false ∧ (s.header pgPau).freeze = false ∧ s.pau.isOver = false
    ∧ heldSum s.pau + s.classCost 2 + s.pau.pool.toNat ≤ budgetB s.pau
    ∧ (after .grant s).pau.held = [(.wake 6, 128)] ∧ ((after .grant s).dom 6).waking = true
    ∧ (after .grant s).pau.reqs.length = 2 ∧ gives .grant (after .grant s) (after .grant s) = true := by decide +kernel
theorem witness_GrantsAndReleases_release :
    let s := asleep.setPau { asleep.pau with held := [(.take 0 3, 64), (.wake 6, 96)], bookings := [⟨0, 3, 64, 9, false⟩] }
    (s.slot 0 3).st = .free ∧ (after (.leaveRelease 0 3) s).pau.held = [(.wake 6, 96)] ∧ (after (.leaveRelease 0 3) s).pau.bookings = []
    ∧ (after (.pwrBudget 4000) s).pau.chip = 3200 ∧ (updOver { s with pau := { s.pau with chip := 100 } }).pau.isOver = true := by decide +kernel
theorem witness_ForceAndPowerTableWrites_force : Master.service.reaches up pgPseq 0x404 = true ∧ mayChoose up 140 = true ∧ wakeDue up 140 = false
    ∧ stateOf up 140 = 1 ∧ ((after (.pseqForce .service 0x38C) up).dom 140).goal = some 2
    ∧ ((after (.pseqForce .service 0x18C) up).dom 140) = {}
    ∧ ((after (.pseqForce .service 0x005) asleep).dom 5).waking = true := by decide +kernel
theorem witness_ForceAndPowerTableWrites_table : Master.service.reaches up pgPseq 0x400 = true ∧ domOk 0x26890 = true
    ∧ (up.header pgPseq).cfgerr = false
    ∧ ((after (.powerDomainTableWrite .service 2240 false 0x26890) up).dom 140).limitOr 140 = 2
    ∧ (after (.powerDomainTableWrite .service 2240 false 0x26890) up).domLimit 140 = 3
    ∧ gives (.powerDomainTableWrite .service 2244 false 7) up (Master.service.told up 0x12208C4 true 0 up) = true := by decide +kernel

/-! ## Scratchpad (R181, R226 to R239) -/

theorem witness_SecdedCorrectsOneAndDetectsTwo : eccDecode (flipSyn 17) = .single (some 17) ∧ eccDecode (flipSyn 66) = .single none
    ∧ eccDecode (flipSyn 3 ^^^ flipSyn 70) = .double ∧ checkByte (flipBit 0xDEADBEEF 5) = checkByte 0xDEADBEEF ^^^ flipSyn 5 := by decide +kernel
theorem witness_ScratchpadWordsAndErrors_word : spPeek (spWrite up 40000 0x1122334455667788) 40000 = (0x1122334455667788, .good)
    ∧ spPeek (spWrite up 40000 0x1122334455667788) 40001 = (0, .good) := by decide +kernel
/-- Word 7,232 of bank 1 with its data bit 9 flipped, waiting for its write-back. -/
def flawed : State := (flipStored 40000 9 (spWrite up 40000 0xFF)).setBank 1 { corrQ := [7232], scrub := 7232 }
theorem witness_ScratchpadWordsAndErrors_errors : awake flawed (domBank 1) = true ∧ (flawed.bank 1).copying = false
    ∧ spPeek flawed 40000 = (0xFF, .single (some 9)) ∧ spPeek (after (.correctionWriteback 1) flawed) 40000 = (0xFF, .good)
    ∧ ((after (.correctionWriteback 1) flawed).bank 1).corrQ = [] ∧ bit (flawed.bank 1).acfg 8 = true
    ∧ ((after (.scratchpadScrub 1) (flawed.setBank 1 { scrub := 7232 })).bank 1) = { scrub := 7233, corr := 1, winC := 1, corrQ := [7232] } := by
  decide +kernel
theorem witness_BankHandoverAndRepair_handover : Master.service.reaches up (pgSbank 1) 0x404 = true ∧ pageAsleep up (.sbank 1) = false
    ∧ ownerOk 0x14 = true ∧ ((after (.ownreq .service 1 0x14) up).bank 1).pend = some 0x14
    ∧ ((after (.ownreq .service 1 2) (after (.ownreq .service 1 0x14) up)).bank 1).holost = true
    ∧ ownerOf (after (.handoverEnd 1) (after (.ownreq .service 1 0x14) up)) 1 = 0x14 := by decide +kernel
theorem witness_BankHandoverAndRepair_repair : Master.service.reachesAsMachine up (pgSbank 1) 0x424 = true
    ∧ tget zeroD ((after (.repent .service 1 5) (up.setBank 1 { repsel := 0x203 })).bank 1).repair 14 = 5
    ∧ Master.service.reaches up (pgSbank 1) 0x428 = true ∧ (up.bank 1).rbusy = false ∧ ((after (.refresh .service 1) up).bank 1).rbusy = true
    ∧ ((after (.refreshEnd 1) (up.setBank 1 { rbusy := true })).bank 1).rbusy = false := by decide +kernel
/-- Bank 1 owned by host exchange, and its accesses at level MACHINE. -/
def exchanging : State := up.setBank 1 { owner := some 0x14 }
theorem witness_HostExchangeBursts : spIndex exchanging (5000 * 64) = some 40000 ∧ spOk exchanging 40000 (masterLvl exchanging .hostExchange) = true
    ∧ ownerOf exchanging 1 = 0x14 ∧ bankOpen exchanging 1 true = true
    ∧ (after (.hostExchangeWrite 5000 0x5) exchanging).blk.hxDone = true ∧ spPeek (after (.hostExchangeWrite 5000 0x5) exchanging) 40000 = (5, .good)
    ∧ (after (.hostExchangeRead 5000) (after (.hostExchangeWrite 5000 0x5) exchanging)).blk.hxRdata = 5
    ∧ gives (.hostExchangeWrite 5000 0x5) up (hxDrop 1 7232 up) = true
    ∧ (let s := exchanging.setDom (domBank 1) { exchanging.dom (domBank 1) with st := 2 }
       bankOpen s 1 true = false ∧ (after (.hostExchangeWrite 5000 0x5) s).blk.hx = some ⟨true, 5000, 5⟩
       ∧ (after (.hostExchangeRead 5000) s).blk.hx = some ⟨false, 5000, 0⟩) := by decide +kernel

/-! ## Cores (R39 to R105) -/

/-- Core 0 executing context 0 at 0x1000, the syllables `ws` there and `cells` on its stack, lowest first. -/
def coding (ws : List Nat) (cells : List Word) : State :=
  (spWrite up 0x200 (BitVec.ofNat 64 (ws.foldr (fun w n => w + 65536 * n) 0))).setCore 0 { cur := some 0, ctxs :=
    [(0, { state := 2, pc := 0x1000, osbase := 0x8000, osp := 0x8000, oslimit := 0x8100, depth := BitVec.ofNat 16 cells.length,
           cells := (List.range cells.length).foldl (fun t i => tset zeroD i (cells.getD i 0) t) [] })] }
/-- The same with the core released. -/
def program (ws : List Nat) (cells : List Word) : State :=
  let s := coding ws cells
  { s with blk := { s.blk with run := 1 } }

theorem witness_UnitsAndNearLoads_multiply :
    let s := running.setCore 0 { running.core 0 with mul := some ⟨true, -3, 5, 0⟩ }
    (s.dbgcOf 0).fbusy = false ∧ ((after (.multiplyComplete 0) s).ctx 0 0).phi = -1 ∧ ((after (.multiplyComplete 0) s).ctx 0 0).plo = -15
    ∧ ((after (.multiplyComplete 0) s).core 0).mul = none := by decide +kernel
theorem witness_UnitsAndNearLoads_divide :
    let s := running.setCore 0 { running.core 0 with div := some ⟨true, -7, 2, 0⟩ }
    let z := running.setCore 0 { running.core 0 with div := some ⟨false, 7, 0, 0⟩ }
    ((after (.divideComplete 0) s).ctx 0 0).quo = -3 ∧ ((after (.divideComplete 0) s).ctx 0 0).rem = -1
    ∧ ((after (.divideComplete 0) z).ctx 0 0).quo = BitVec.allOnes 64 ∧ ((after (.divideComplete 0) z).ctx 0 0).rem = 7
    ∧ ((after (.divideComplete 0) z).ctx 0 0).flags = 0x200 := by decide +kernel
theorem witness_UnitsAndNearLoads_landing :
    let s := running.setCtx 0 0 { running.ctx 0 0 with depth := 2, marks := [⟨1, 99, false⟩] }
    ((after (.nearLoadLanding 0) s).ctx 0 0).cells = [(1, 99)] ∧ ((after (.nearLoadLanding 0) s).ctx 0 0).marks = [] := by decide +kernel
theorem witness_BinaryStackBundleIssues :
    let s := program [0x8400] [7, 0xFFFFFFFFFFFFFFFF]
    let c := s.ctx 0 0
    s.formed = true ∧ tabWf ctxInit 0 (s.core 0).ctxs = true ∧ feedRuns s 0 = false ∧ bundleReady s 0 = true ∧ (s.core 0).cur = some 0
    ∧ (s.core 0).lock = none ∧ s.blk.testen = false ∧ (s.dbgcOf 0).cmps = [] ∧ (s.dbgcOf 0).stepping = false ∧ c.restored = false
    ∧ c.marks = [] ∧ bit c.flags 12 = false ∧ c.consistent = true ∧ (s.core 0).want = 0 ∧ c.spilled + 2 ≤ c.depth.toNat
    ∧ (fetchBundle 0 (c.level, c.tag) 9 c.pc.toNat s).2.toOption = some [0x8400] ∧ (let u := (fetchBundle 0 (c.level, c.tag) 9 c.pc.toNat s).1; { u with doms := s.doms, banks := s.banks } = s)
    ∧ ((after (.bundleIssue 0) s).ctx 0 0).depth = 1 ∧ ((after (.bundleIssue 0) s).ctx 0 0).cells = [(0, 6), (1, 0xFFFFFFFFFFFFFFFF)]
    ∧ ((after (.bundleIssue 0) s).ctx 0 0).pc = 0x1002 := by decide +kernel
/-- The state once core 0 has read its bundle. -/
def afterRead (s : State) : State := (fetchBundle 0 ((s.ctx 0 0).level, (s.ctx 0 0).tag) 9 (s.ctx 0 0).pc.toNat s).1
/-- `Issues` for core 0 and context 0, decided. -/
def comes (s : State) (ws : List Nat) : Bool :=
  let c := s.ctx 0 0
  s.formed && tabWf ctxInit 0 (s.core 0).ctxs && !feedRuns s 0 && bundleReady s 0 && decide ((s.core 0).cur = some 0)
    && decide ((s.core 0).lock = none) && decide ((s.core 0).want = 0) && !s.blk.testen && decide ((s.dbgcOf 0).cmps = [])
    && !(s.dbgcOf 0).stepping && !c.restored && decide (c.marks = []) && !bit c.flags 12
    && decide ((fetchBundle 0 (c.level, c.tag) 9 c.pc.toNat s).2.toOption = some ws)
    && decide ({ afterRead s with doms := s.doms, banks := s.banks } = s)
/-- `BundleEnded` for core 0 and context 0, decided. -/
def endsAs (v t : State) (k : CoreSt) (c : Ctx) : Bool :=
  decide ({ t with cores := v.cores, dbgc := v.dbgc } = v) && (List.range 16).all (fun j => decide (j = 0 ∨ t.core j = v.core j))
    && decide ({ t.core 0 with ctxs := k.ctxs } = k) && (List.range 65).all (fun y => decide (y = 0 ∨ t.ctx 0 y = v.ctx 0 y))
    && decide (t.ctx 0 0 = c) && (List.range 16).all fun j => decide ({ t.dbgcOf j with skipBrk := (v.dbgcOf j).skipBrk } = v.dbgcOf j)
/-- The bundle `ws` of core 0 issues in `s` and ends, with the context changed by `f`. -/
def acts (s : State) (ws : List Nat) (f : Ctx → Ctx) : Bool :=
  comes s ws && endsAs (afterRead s) (after (.bundleIssue 0) s) (s.core 0).settled (f (s.ctx 0 0))
theorem witness_Syllables_stack :
    acts (program [0x8000] []) (oneSyllable 0 []) (fun c => c.moved 2 0 []) = true
    ∧ acts (program [0x8001] [4]) (oneSyllable 1 []) (fun c => c.moved 2 1 [4, 4]) = true
    ∧ acts (program [0x8002] [4]) (oneSyllable 2 []) (fun c => c.moved 2 1 []) = true
    ∧ acts (program [0x8003] [4, 5]) (oneSyllable 3 []) (fun c => c.moved 2 2 [5, 4]) = true
    ∧ acts (program [0x8004] [4, 5]) (oneSyllable 4 []) (fun c => c.moved 2 2 [4, 5, 4]) = true
    ∧ acts (program [0x8005] [4, 5, 6]) (oneSyllable 5 []) (fun c => c.moved 2 3 [6, 4, 5]) = true
    ∧ acts (program [0x8006] [4, 5]) (oneSyllable 6 []) (fun c => c.moved 2 2 [5]) = true
    ∧ acts (program [0x8007] [4, 5, 6]) (oneSyllable 7 []) (fun c => c.moved 2 3 [4]) = true
    ∧ acts (program [0x8007] [4, 5, 0]) (oneSyllable 7 []) (fun c => c.moved 2 3 [5]) = true
    ∧ acts (program [0x831F] ((List.range 32).map (BitVec.ofNat 64))) (oneSyllable 0x31F []) (fun c => c.moved 2 0 [0]) = false
    ∧ acts (program [0x831E] ((List.range 31).map fun i => BitVec.ofNat 64 (i + 9))) (oneSyllable 0x31E []) (fun c => c.moved 2 0 [9]) = true := by
  decide +kernel
theorem witness_Syllables_values :
    acts (program [0x81FF] []) (oneSyllable 0x1FF []) (fun c => c.moved 2 0 [BitVec.allOnes 64]) = true
    ∧ acts (program [0x0201, 0x5002, 0xD800] []) (oneSyllable 0x201 [2, 0x800]) (fun c => c.moved 6 0 [0xFFFFFFFF80000201]) = true
    ∧ wideImm 8 1 [2, 0x800] = 0xFFFFFFFF80000201
    ∧ acts (program [0x8500] [1]) (oneSyllable 0x500 []) (fun c => c.moved 2 1 [0xFFFFFFFFFFFFFFFE]) = true
    ∧ acts (program [0x8501] [0x8000000000000000]) (oneSyllable 0x501 []) (fun c => { c.moved 2 1 [0x8000000000000000] with flags := 3 }) = true
    ∧ acts (program [0x8502] [1]) (oneSyllable 0x502 []) (fun c => c.moved 2 1 [63]) = true
    ∧ acts (program [0x8503] [0xFF]) (oneSyllable 0x503 []) (fun c => c.moved 2 1 [8]) = true
    ∧ acts (program [0x8607] [6]) (oneSyllable 0x607 []) (fun c => { c.moved 2 1 [] with a := [(7, 6)] }) = true
    ∧ acts (program [0x8707] [6]) (oneSyllable 0x707 []) (fun c => c.moved 2 0 [0]) = true
    ∧ acts (program [0x8FFE] []) (oneSyllable 0xFFE []) (fun c => { c.moved 2 0 [] with a := [(7, 0xFFFFFFFFFFFFFFFE)] }) = true := by decide +kernel
theorem witness_Syllables_pick_spills :
    let s := program [0x831F] ((List.range 32).map fun i => BitVec.ofNat 64 (i + 9))
    let v := spWriteBreak (addDemand (domBank 0) (afterRead s)) 0x1000 9 255 (some 0)
    comes s (oneSyllable 0x31F []) = true ∧ (s.ctx 0 0).depth.toNat = (s.ctx 0 0).spilled + 32 ∧ spIndex s (s.ctx 0 0).osp.toNat = some 0x1000
    ∧ endsAs v (after (.bundleIssue 0) s) (s.core 0).settled { (s.ctx 0 0).moved 2 0 [9] with osp := 0x8008 } = true := by decide +kernel
/-- The same with LC = 2 and the registers `a`. -/
def looping (ws : List Nat) (cells : List Word) (a : Tab Word) (fs : Tab Frame) (d : BitVec 7) : State :=
  let s := program ws cells
  s.setCtx 0 0 { s.ctx 0 0 with lc := 2, a := a, frames := fs, rsdepth := d, guard := decide (d = 61) }
theorem witness_Syllables_branches :
    acts (program [0xB1FF] []) (oneSyllable 0x31FF []) (fun c => { c with pc := 0xFFE }) = true
    ∧ acts (program [0x3000, 0xD001] []) (oneSyllable 0x3000 [1]) (fun c => { c with pc := 0x1400 }) = true
    ∧ acts (program [0xB202] [0]) (oneSyllable 0x3202 []) (fun c => { c.moved 2 1 [] with pc := 0x1004 }) = true
    ∧ acts (program [0xB202] [3]) (oneSyllable 0x3202 []) (fun c => { c.moved 2 1 [] with pc := 0x1002 }) = true
    ∧ acts (program [0xB402] [3]) (oneSyllable 0x3402 []) (fun c => { c.moved 2 1 [] with pc := 0x1004 }) = true
    ∧ acts (looping [0xB602] [] [] [] 0) (oneSyllable 0x3602 []) (fun c => { c with lc := 1, pc := 0x1004 }) = true
    ∧ acts (program [0xB602] []) (oneSyllable 0x3602 []) (fun c => { c with pc := 0x1002 }) = true := by decide +kernel
theorem witness_Syllables_calls :
    acts (looping [0x3802, 0xD081] [] [(0, 7), (7, 8)] [] 60) (oneSyllable 0x3802 [0x81])
      (fun c => { c with frames := c.frames, rsdepth := 61, pc := 0x1004 }) = false
    ∧ acts (looping [0x3802, 0xD081] [] [(0, 7), (7, 8)] [] 59) (oneSyllable 0x3802 [0x81])
      (fun c => { c with frames := [(59, { hdr := 0x0081000000001004, slots := [(0, 7), (7, 8)] })], rsdepth := 60, pc := 0x1004 }) = true
    ∧ acts (looping [0x3E00, 0xD001] [0x2000] [(0, 7)] [] 0) (oneSyllable 0x3E00 [1])
      (fun c => { c.moved 4 1 [] with frames := [(0, { hdr := 0x0001000000001004, slots := [(0, 7)] })], rsdepth := 1, pc := 0x2000 }) = true
    ∧ acts (looping [0xBE40] [] [(0, 9), (1, 5)] [(60, { hdr := 0x0001000000001004, slots := [(0, 7)] })] 61) (oneSyllable 0x3E40 [])
      (fun c => { c with a := [(0, 7), (1, 5)], rsdepth := 60, guard := false, pc := 0x1004 }) = true := by decide +kernel
/-- The bundle `ws` of core 0 issues in `s` and ends in `v`, with the registers changed by `g` and the context by `f`. -/
def actsTo (s : State) (ws : List Nat) (v : State → State) (g : CoreSt → CoreSt) (f : Ctx → Ctx) : Bool :=
  comes s ws && endsAs (v (afterRead s)) (after (.bundleIssue 0) s) (g (s.core 0).settled) (f (s.ctx 0 0))
theorem witness_Units_start :
    actsTo (program [0x9000] [7, 9]) (oneSyllable 0x1000 []) id (fun k => { k with mul := some ⟨true, 7, 9, 0⟩ }) (fun c => c.moved 2 2 []) = true
    ∧ actsTo (program [0x9003] [7, 9]) (oneSyllable 0x1003 []) id (fun k => { k with div := some ⟨false, 7, 9, 0⟩ }) (fun c => c.moved 2 2 []) = true
    ∧ (let s := program [0x9001] [7, 9]
       let s := s.setCore 0 { s.core 0 with mul := some ⟨true, 1, 1, 0⟩ }
       comes s (oneSyllable 0x1001 []) = true ∧ gives (.bundleIssue 0) s (afterRead s) = true)
    ∧ acts (program [0x9006] []) (oneSyllable 0x1006 []) (fun c => c.moved 2 0 [0]) = true
    ∧ actsTo (program [0x9008] []) (oneSyllable 0x1008 []) id (fun k => { k with mwait := true }) (fun c => c.moved 2 0 []) = true := by
  decide +kernel
theorem witness_Units_float :
    acts (program [0x9010] [0x3FF0000000000000, 0x3FF0000000000000]) (oneSyllable 0x1010 []) (fun c => c.moved 2 2 [0x4000000000000000]) = true
    ∧ acts (program [0x9011] [0x4000000000000000, 0x3FF0000000000000]) (oneSyllable 0x1011 []) (fun c => c.moved 2 2 [0x3FF0000000000000]) = true
    ∧ acts (program [0x9013] [0x4000000000000000, 0x4000000000000000, 0x3FF0000000000000]) (oneSyllable 0x1013 [])
        (fun c => c.moved 2 3 [0x4014000000000000]) = true
    ∧ acts (program [0x9101] [0, 0x3FF0000000000000]) (oneSyllable 0x1101 []) (fun c => c.moved 2 2 [1]) = true
    ∧ acts (program [0x9201] [2]) (oneSyllable 0x1201 []) (fun c => c.moved 2 1 [0x4000000000000000]) = true := by decide +kernel
/-- Word 0x300 of bank 0, at address 0x1800, holds a number. -/
def stocked (ws : List Nat) (cells : List Word) : State := spWrite (looping ws cells [(2, 0x1804)] [] 0) 0x300 0x8877665544332211
theorem witness_Near_accesses :
    actsTo (stocked [0xA080] [0x1802]) (oneSyllable 0x2080 []) (addDemand (domBank 0)) id
      (fun c => { c.moved 2 1 [] with depth := 1, marks := [⟨0, 0x4433, false⟩] }) = true
    ∧ actsTo (stocked [0xA520] []) (oneSyllable 0x2520 []) (addDemand (domBank 0)) id
      (fun c => { c.moved 2 0 [] with depth := 1, a := [(2, 0x1808)], marks := [⟨0, 0x88776655, false⟩] }) = true
    ∧ actsTo (stocked [0x292F, 0xDFFF] []) (oneSyllable 0x292F [0xFFF]) (addDemand (domBank 0)) id
      (fun c => { c.moved 4 0 [] with depth := 1, marks := [⟨0, 0x44332211, false⟩] }) = true
    ∧ actsTo (stocked [0xA200] [0x1FF, 0x1801]) (oneSyllable 0x2200 []) (fun u => spWriteBreak (addDemand (domBank 0) u) 0x300 0x1FF00 2 (some 0)) id
      (fun c => c.moved 2 2 []) = true
    ∧ actsTo (stocked [0xA720] [0x55]) (oneSyllable 0x2720 []) (fun u => spWriteBreak (addDemand (domBank 0) u) 0x300 0x5500000000 0xF0 (some 0)) id
      (fun c => { c.moved 2 1 [] with a := [(2, 0x1808)] }) = true
    ∧ actsTo (stocked [0xAC00] [5, 0x1800]) (oneSyllable 0x2C00 []) (addDemand (domBank 0)) id (fun c => c.moved 2 2 [0]) = true
    ∧ acts (stocked [0xAF00] []) (oneSyllable 0x2F00 []) (fun c => c.moved 2 0 []) = true := by decide +kernel
/-- A bundle of core 0 that faults with a code and FADDR. -/
def faultsAs (s : State) (ws : List Nat) (code : BitVec 8) (addr : Word) : Bool :=
  acts s ws fun c => { c with
    flags := setFld (setBit (setBit (setBit c.flags 31 false) 12 false) 14 false) 21 16 0, fcause := code, faddr := addr, fpc := c.pc, rc := 0,
    frames := [(0, { hdr := 0x0100000000001000, slots := if c.flags = 0 then [] else [(0, c.flags)] })], rsdepth := 1,
    pc := 0x20000200 + 0x20 * code.setWidth 48 }
theorem witness_Fault_entries :
    faultsAs (program [0xBF7F] []) (oneSyllable 0x3F7F []) 0x0D 0x7F = true ∧ faultsAs (program [0xF001] []) (oneSyllable 0x7001 []) 1 0x1000 = true
    ∧ faultsAs (program [0x8201] []) (oneSyllable 0x0201 []) 2 0x1000 = true ∧ faultsAs (program [0x8002] []) (oneSyllable 2 []) 4 0 = true
    ∧ faultsAs (program [0xBE80] []) (oneSyllable 0x3E80 []) 1 0x1000 = true
    ∧ faultsAs (program [0xA180] [0x30000000]) (oneSyllable 0x2180 []) 7 0x30000000 = true
    ∧ faultsAs (program [0xA180] [0x1801]) (oneSyllable 0x2180 []) 6 0x1801 = true
    ∧ (let s := program [0x8100] []
       let s := s.setCtx 0 0 { s.ctx 0 0 with depth := 64, oslimit := 0x8100, osp := 0x8100 }
       (s.ctx 0 0).capacity = 64 ∧ faultsAs s (oneSyllable 0x100 []) 3 0x8100 = true)
    ∧ (let s := program [0xBF01] []
       let s := s.setCtx 0 0 { s.ctx 0 0 with rsdepth := 64 }
       actsTo s (oneSyllable 0x3F01 []) id (fun k => { k with saving := some 0 }) (fun c => { c with fcause := 5, fpc := 0x1000 }) = true) := by
  decide +kernel
theorem witness_Fault_returns :
    acts (looping [0xBE80] [] [] [(0, { hdr := 0x0100000000002000, slots := [(0, 0x80000001), (1, 5)] })] 1) (oneSyllable 0x3E80 [])
      (fun c => { c with rsdepth := 0, flags := 0x80000000, rc := 5, pc := 0x2000 }) = true
    ∧ (let s := looping [0xBE80] [] [] [(0, { hdr := 0x0200000000000002 })] 1
       let s := s.setCtx 0 2 { state := 2 }
       let s := s.setCore 0 { s.core 0 with nest := 1 }
       actsTo s (oneSyllable 0x3E80 []) id (fun k => { k with cur := some 2, nest := 0 })
         (fun c => { c with rsdepth := 0, state := 1, pc := 0x1002 }) = true) := by decide +kernel
theorem witness_Csrs :
    acts (program [0xBA0B] []) (oneSyllable 0x3A0B []) (fun c => c.moved 2 0 [0x1000]) = true
    ∧ acts (looping [0xBA00] [] [] [] 0) (oneSyllable 0x3A00 []) (fun c => c.moved 2 0 [2]) = true
    ∧ (let s := program [0xBA25] []
       let s := s.setCtx 0 0 { s.ctx 0 0 with evt := 5 }
       acts s (oneSyllable 0x3A25 []) (fun c => { c.moved 2 0 [5] with evt := 0 }) = true)
    ∧ acts (program [0xBB06] [0xFFFFFFFFFFFFFFFF]) (oneSyllable 0x3B06 []) (fun c => { c.moved 2 1 [] with flags := 0x800003FF }) = true
    ∧ acts (program [0xBB07] [0x8008]) (oneSyllable 0x3B07 []) (fun c => { c.moved 2 1 [] with osbase := 0x8008, osp := 0x8008 }) = true
    ∧ acts (program [0xBB08] [0x1000000]) (oneSyllable 0x3B08 []) (fun c => { c.moved 2 1 [] with oslimit := 0x1000000 }) = true
    ∧ actsTo (program [0xBB23] [0x40]) (oneSyllable 0x3B23 []) id (fun k => { k with bankwin := 0x40 }) (fun c => c.moved 2 1 []) = true := by decide +kernel
/-- BANKWIN names context 64, whose LC is 9. -/
def banked (ws : List Nat) (cells : List Word) : State :=
  let s := program ws cells
  (s.setCore 0 { s.core 0 with bankwin := 0x40 }).setCtx 0 0x40 { lc := 9 }
theorem witness_Banks :
    acts (banked [0xBC09] []) (oneSyllable 0x3C09 []) (fun c => c.moved 2 0 [9]) = true
    ∧ actsTo (banked [0xBD00] [0x2001]) (oneSyllable 0x3D00 []) (fun u => u.setCtx 0 0x40 { lc := 9, pc := 0x2000 }) id (fun c => c.moved 2 1 []) = true
    ∧ actsTo (banked [0xBD13] [3]) (oneSyllable 0x3D13 []) (fun u => u.setCtx 0 0x40 { lc := 9, depth := 3, restored := true }) id
        (fun c => c.moved 2 1 []) = true := by decide +kernel
theorem witness_Context_saved :
    let s := running.setCtx 0 0 { running.ctx 0 0 with savea := 0x4000, rsdepth := 1, depth := 2, cells := [(0, 4), (1, 5)],
                                                       frames := [(0, { hdr := 0x00FF000000002000, slots := [(0, 7)] })] }
    let s := s.setCore 0 { s.core 0 with saving := some 0 }
    let t := after (.contextSaveComplete 0) s
    s.formed = true ∧ spIndex s 0x4000 = some 0x800 ∧ coreOwns s 0 0 = true ∧ bankOpen s 0 true = true ∧ spPeek t 0x800 = (0x20000000, .good)
    ∧ spPeek t 0x813 = (2, .good) ∧ spPeek t 0x820 = (5, .good) ∧ spPeek t 0x821 = (4, .good) ∧ spPeek t 0x840 = (0x00FF000000002000, .good)
    ∧ spPeek t 0x880 = (7, .good) ∧ (t.ctx 0 0).state = 4 ∧ (t.core 0).tend = true ∧ (t.core 0).savefail = false ∧ (t.core 0).saving = none := by
  decide +kernel
theorem witness_Alias_sent :
    let s := program [0xA180] [0x1001800]
    comes s (oneSyllable 0x2180 []) = true ∧ areaOf 0x1001800 = .atomic ∧ spIndex s 0x1800 = some 0x300
    ∧ gives (.bundleIssue 0) s ((afterRead s).setCore 0 { s.core 0 with
        far := some { addr := 0x1001800, size := 8, store := false, data := 0, fed := false, ctx := 0, ws := [0xA180] } }) = true := by decide +kernel
theorem witness_Blocks_load :
    let s := looping [0x2D90, 0xD103] [7] [(1, 0x1800)] [] 0
    let s := spWrite (spWrite s 0x300 11) 0x301 12
    let s := s.setCtx 0 0 { s.ctx 0 0 with a := [(3, 0x1800)] }
    let s := { s with mem := (spWrite s 0x200 0xD1032DB0).mem }
    let t := after (.bundleIssue 0) s
    comes s (oneSyllable 0x2DB0 [0x103]) = true ∧ (t.ctx 0 0).a = [(0, 11), (1, 12), (3, 0x1818)] ∧ (t.ctx 0 0).depth = 2
    ∧ (t.ctx 0 0).cells = [(0, 7)] ∧ (t.ctx 0 0).pc = 0x1004 := by decide +kernel
theorem witness_Blocks_store :
    let s := looping [0x2EB0, 0xD208] [7, 8, 9] [(3, 0x1800)] [] 0
    let t := after (.bundleIssue 0) s
    comes s (oneSyllable 0x2EB0 [0x208]) = true ∧ spPeek t 0x300 = (0x1800, .good) ∧ spPeek t 0x301 = (8, .good) ∧ spPeek t 0x302 = (9, .good)
    ∧ (t.ctx 0 0).a = [(3, 0x1818)] ∧ (t.ctx 0 0).depth = 1 := by decide +kernel
theorem witness_Takes_launch :
    let s := program [0xC000] [0x2000]
    let t := after (.bundleIssue 0) s
    comes s (oneSyllable 0x4000 []) = true ∧ awake s (domQuad 0) = true ∧ spIndex s 0x2000 = some 0x400 ∧ (t.slot 0 0).st = .queued
    ∧ (t.slot 0 0).desc = 0x2000 ∧ (t.slot 0 0).seq = 1 ∧ (t.ctx 0 0).cells = [(0, 1)] ∧ (t.slot 0 0).gen = 1
    ∧ actsTo (program [0xC006] []) (oneSyllable 0x4006 []) (addDemand (domQuad 0)) id (fun c => c.moved 2 0 [64]) = true
    ∧ actsTo (program [0xC002] [1]) (oneSyllable 0x4002 []) (addDemand (domQuad 0)) id (fun c => c.moved 2 1 [1]) = true
    ∧ actsTo (program [0xC001] [1]) (oneSyllable 0x4001 []) (addDemand (domQuad 0)) id (fun c => c.moved 2 1 []) = true := by decide +kernel
/-- Slot 0 of quadrant 0 holds a queued take of core 0, with generation 1. -/
def launched (ws : List Nat) (cells : List Word) : State := (program ws cells).setSlot 0 0 { st := .queued, gen := 1, byTake := true, seq := 1 }
theorem witness_Takes_live :
    actsTo (launched [0xC002] [1]) (oneSyllable 0x4002 []) (addDemand (domQuad 0)) id (fun c => c.moved 2 1 [0]) = true
    ∧ (let s := launched [0xC001] [1]
       gives (.bundleIssue 0) s ((afterRead s).setCore 0 { s.core 0 with twait := some 1 }) = true)
    ∧ (let t := after (.bundleIssue 0) (launched [0xC003] [1])
       (t.slot 0 0).st = .ending ∧ (t.slot 0 0).aborted = true ∧ (t.ctx 0 0).cells = [(0, 1)])
    ∧ ((after (.bundleIssue 0) ((launched [0xC005] []).setQuad 0 { ((launched [0xC005] []).quad 0) with seq := 1 })).quad 0).fences = [(0, 0, 1)] := by decide +kernel
theorem witness_Takes_cued :
    let s := program [0xC004] [0x2000, 50]
    let t := after (.bundleIssue 0) s
    comes s (oneSyllable 0x4004 []) = true ∧ (t.slot 0 0).st = .armed ∧ (t.slot 0 0).cued = true ∧ t.cue.held = [tcBase s]
    ∧ ((t.core 0).tcue.map fun p => (p.slot, p.time)) = some (0, 50) ∧ (t.ctx 0 0).depth = 0
    ∧ decide ({ t with quads := s.quads, cores := s.cores, cue := s.cue } = addDemand (domQuad 0) (afterRead s)) = true
    ∧ actsTo (program [0xC004] [0x2000, 0]) (oneSyllable 0x4004 []) (addDemand (domQuad 0)) id (fun c => c.moved 2 2 [BitVec.allOnes 64]) = true := by
  decide +kernel
/-- Core 0 executing its background context with IE = 1, contexts 1 and 64 READY, a normal request for it. -/
def interrupted (cfg : BitVec 16) : State :=
  { up with blk := { up.blk with run := 1 }, icu := { up.icu with srcs := [(30, { cfg := cfg, pend := true })] },
            cores := [(0, { cur := some 0, ctxs := [(0, { state := 2, flags := 0x80000000 }), (1, { state := 1, depth := 3 }), (64, { state := 1 })] })] }
theorem witness_InterruptEntryEntersTarget :
    let s := interrupted 0x8
    let f := interrupted 0x18
    entryTarget s 0 false = some 1 ∧ boundaryFree s 0 = true ∧ entryDue s 0 false = true ∧ entryDue s 0 true = false
    ∧ entryTarget f 0 true = some 64 ∧ entryDue f 0 true = true
    ∧ ((after (.interruptEntry 0 false) s).core 0).cur = some 1 ∧ ((after (.interruptEntry 0 false) s).ctx 0 1).depth = 0
    ∧ ((after (.interruptEntry 0 false) s).ctx 0 1).pc = 0x20000400 ∧ ((after (.interruptEntry 0 true) f).ctx 0 64).pc = 0x20000420 := by
  decide +kernel
def scheduled : State := { up with
  blk := { up.blk with run := 1 }
  cores := [(0, { mode := 1, last := [(2, 5)], ctxs := [(3, { state := 1, prio := 2 }), (7, { state := 1, prio := 2 }), (9, { state := 1, prio := 1 })] })] }
theorem witness_SchedulerPicksTask_picks : scheduled.formed = true ∧ tabWf ctxInit 0 (scheduled.core 0).ctxs = true
    ∧ boundaryFree scheduled 0 = true ∧ readyAt scheduled 0 3 = [] ∧ readyAt scheduled 0 2 = [3, 7] ∧ tget lastInit (scheduled.core 0).last 2 = 5
    ∧ (∀ t, t < 64 → (scheduled.ctx 0 t).state ≠ 3) ∧ ((after (.taskSwitch 0) scheduled).core 0).cur = some 7 := by decide +kernel
theorem witness_SchedulerPicksTask_mode :
    let s := scheduled.setCore 0 { scheduled.core 0 with mode := 0, cfgLive := 1 }
    let z := scheduled.setCtx 0 0 { state := 1 }
    (s.core 0).mode ≠ 1 ∧ boundaryOk s 0 = true ∧ (s.dbgcOf 0).halted = false ∧ ((after (.swmodeChange 0) s).core 0).mode = 1
    ∧ fld (z.core 0).cfgLive 1 0 = 0 ∧ ((after (.swmodeChange 0) z).core 0).cur = some 0 ∧ ((after (.swmodeChange 0) z).core 0).mode = 0
    ∧ ((after (.swmodeChange 0) scheduled).core 0).cur = none := by decide +kernel
/-- Core 0 executing with `d` cells, of which `p` are spilled. -/
def spilling (d p : Nat) : State := { up with blk := { up.blk with run := 1 }, cores := [(0, { cur := some 0, ctxs := [(0,
  { state := 2, osbase := 0x8000, osp := BitVec.ofNat 48 (0x8000 + 8 * p), oslimit := 0x8100, depth := BitVec.ofNat 16 d, cells := [(0, 11), (1, 12)] })] })] }
theorem witness_SpillEngineMovesOneCell_spill :
    let s := spilling 26 1
    let c := s.ctx 0 0
    spillCtx s 0 = some 0 ∧ c.consistent = true ∧ (s.core 0).want = 0 ∧ 24 < c.resident ∧ maySpill c = true
    ∧ spillWord s 0 (c.level, c.tag) c.osp.toNat = some 0x1001 ∧ bankOpen s 0 true = true
    ∧ (spPeek (after (.spillEngineMove 0) s) 0x1001).1 = 12 ∧ ((after (.spillEngineMove 0) s).ctx 0 0).osp = 0x8010 := by decide +kernel
theorem witness_SpillEngineMovesOneCell_fill :
    let s := spWrite (spilling 9 2) 0x1001 77
    let c := s.ctx 0 0
    spillCtx s 0 = some 0 ∧ c.consistent = true ∧ c.resident < 8 ∧ 0 < c.spilled ∧ spillWord s 0 (c.level, c.tag) (c.osp.toNat - 8) = some 0x1001
    ∧ ((after (.spillEngineMove 0) s).ctx 0 0).osp = 0x8008 ∧ ((after (.spillEngineMove 0) s).ctx 0 0).cells = [(0, 11), (1, 77)] := by decide +kernel
theorem witness_MailboxAndContextEnd :
    let s := running.setCore 0 { running.core 0 with saving := some 0, cur := none }
    Master.service.reaches running (pgCore 0) 0x418 = true ∧ pageAsleep running (.core 0) = false ∧ ctxExists 0 1 = true
    ∧ ((after (.mbox .service 0 0xB01) running).ctx 0 1).evt = 0x800 ∧ s.formed = true ∧ (s.ctx 0 0).savea = 0
    ∧ ((after (.contextSaveComplete 0) s).core 0).savefail = true ∧ ((after (.contextSaveComplete 0) s).ctx 0 0).state = 4 := by decide +kernel
/-- A far store of 5 to the alias window `k`, and what the word 0x200, which held 3, reads after it. -/
def aliased (k : Nat) (store : Bool) : Word :=
  (spPeek (after (.farAccessResponse 0) ((spWrite running 0x200 3).setCore 0 { running.core 0 with
    far := some { addr := k * 0x1000000 + 0x1000, size := 8, store := store, data := 5, fed := false } })) 0x200).1
theorem witness_AliasAccess : areaOf 0x1001000 = .atomic ∧ areaOf 0x4FFFFF8 = .atomic ∧ spIndex running 0x1000 = some 0x200
    ∧ aliased 1 true = 8 ∧ aliased 1 false = 4 ∧ aliased 2 true = 5 ∧ aliased 2 false = 0 ∧ aliased 3 true = 7 ∧ aliased 3 false = 3
    ∧ aliased 4 true = 2 ∧ aliased 4 false = 2 := by decide +kernel

/-! ## The debug port and halts (R318 to R335) -/

/-- A command of the debug port for word 0x200 of scratchpad, with AINC. -/
def debugging (wr : Bool) : State :=
  (spWrite up 0x200 42).setDbg { up.dbg with cmd := some ⟨wr, 0x68000001000, 7⟩, conn := true, ddata := 7, daddr := 0x68000001000 }
theorem witness_DebugSegment_command :
    let s := debugging false
    daddrOk s.dbg.daddr = true ∧ matrixRefuses s (dbgAccess ⟨false, 0x68000001000, 7⟩) = false ∧ fld s.dbg.daddr 40 39 = 1 ∧ bit s.dbg.daddr 41 = true
    ∧ fld s.dbg.daddr 38 0 < 0x1000000 ∧ spIndex s (fld s.dbg.daddr 38 0) = some 0x200 ∧ spOk s 0x200 (masterLvl s .debug) = true
    ∧ bankOpen s 0 false = true ∧ (after .debugCommandComplete s).dbg.rdata = 42 ∧ (after .debugCommandComplete s).dbg.result = 0
    ∧ (after .debugCommandComplete s).dbg.daddr = 0x68000001008
    ∧ (spPeek (after .debugCommandComplete (debugging true)) 0x200).1 = 7 := by decide +kernel
theorem witness_DebugSegment_refused :
    let f := { debugging true with sec := { up.sec with lcField := true } }
    let e := (debugging false).setDbg { (debugging false).dbg with cmd := some ⟨false, 0x68000001004, 7⟩ }
    daddrOk f.dbg.daddr = true ∧ matrixRefuses f (dbgAccess ⟨true, 0x68000001000, 7⟩) = true ∧ (after .debugCommandComplete f).dbg.result = 2
    ∧ (after .debugCommandComplete f).sec.privcnt = 1 ∧ daddrOk 0x68000001004 = false ∧ (after .debugCommandComplete e).dbg.result = 1 := by
  decide +kernel
theorem witness_DebugSegment_instructions :
    let c := after (.connect 0xC3) up
    c.dbg.conn = true ∧ (after .blkid up).dbg.tdo = 0x5B0100A0 ∧ (after (.connect 0xC4) up).dbg.conn = false
    ∧ (after .read c).dbg.cmd = some ⟨false, c.dbg.daddr, c.dbg.ddata⟩ ∧ (after .write up).dbg.result = 3 ∧ (after .write (after .read c)).dbg.result = 4
    ∧ (after .testLogicReset c).dbg.lost = true ∧ (after (.daddr 9) up).dbg.daddr = 9 ∧ (after (.ddata 9) up).dbg.ddata = 9
    ∧ (after .bypass c).dbg.ir = 0x3F := by decide +kernel
theorem witness_HaltsPend_requests : up.formed = true ∧ ctxExists 2 (up.dbgcOf 2).fctx.toNat = true
    ∧ Master.service.reaches up (pgDbgc 2) 0x400 = true ∧ Master.service.reaches up pgDbg 0x40C = true
    ∧ ((after (.halt .service 2) up).dbgcOf 2).pend = some 1 ∧ ((after (.forcedHalt .service 2) up).dbgcOf 2).pend = some 2
    ∧ ((after (.cancel .service 2) (after (.halt .service 2) up)).dbgcOf 2).pend = none
    ∧ ((after (.haltall .service 6) up).dbgcOf 1).pend = some 5 ∧ ((after (.haltall .service 6) up).dbgcOf 0).pend = none := by decide +kernel
theorem witness_HaltsPend_effect :
    let s := running.setDbgc 0 { pend := some 1 }
    s.formed = true ∧ haltAllowed s 0 = true ∧ ((after (.haltTakesEffect 0) s).dbgcOf 0) = { halted := true, cause := 1, ctx := 0 }
    ∧ (after (.haltTakesEffect 0) s).dbg.haltevt = true ∧ ((after (.haltTakesEffect 0) s).dom 68).keepHalt = true := by decide +kernel
/-- Core 0 halted in context 0. -/
def halted : State := running.setDbgc 0 { halted := true, ctx := 0 }
theorem witness_ResumeStepAndFeed_halted : halted.formed = true ∧ Master.service.reaches halted (pgDbgc 0) 0x41C = true
    ∧ ctxExists 0 (halted.dbgcOf 0).fctx.toNat = true ∧ Master.service.reaches halted (pgDbgc 0) 0x400 = true
    ∧ ((after (.resume .service 0) halted).dbgcOf 0).halted = false ∧ ((after (.step .service 0) halted).dbgcOf 0).stepping = true
    ∧ coreAwake halted 0 = true ∧ (halted.dbgcOf 0).fbusy = false ∧ ((after (.resumeall .service 1) halted).dbgcOf 0).halted = false
    ∧ Master.service.reaches halted pgDbg 0x410 = true := by decide +kernel
theorem witness_ResumeStepAndFeed_feed :
    let s := halted.setDbgc 0 { halted := true, ctx := 0, feed := [(0, 0xA000)] }
    ((after (.feedgo .service 0) s).dbgcOf 0).fbusy = ((issueFed 0 (s.setDbgc 0 { s.dbgcOf 0 with fbusy := true, fissue := true })).dbgcOf 0).fbusy := by
  decide +kernel
theorem witness_ResumeStepAndFeed_running : (running.dbgcOf 0).halted = false
    ∧ gives (.step .service 0) running (Master.service.told running 0x142400 true 0 running) = true
    ∧ ((after (.step .service 1) (up.setDbgc 1 { halted := true, ctx := 0x7F })).dbgcOf 1).pend = some 3 := by decide +kernel
theorem witness_LifecycleMoveSteps_start : Master.service.reachesAsMachine up pgSec 0x404 = true ∧ moveOk up = true ∧ up.sec.moving = false
    ∧ (after (.lccmd .service 0x7E1D) up).sec = { up.sec with moving := true } := by decide +kernel
theorem witness_LifecycleMoveSteps_wipe :
    let s := { spWrite up 0x200 42 with sec := { up.sec with moving := true } }
    s.formed = true ∧ ((wipeBanks s).all fun b => awake s (domBank b)) = true ∧ (after .wipeComplete s).mem = []
    ∧ (after .wipeComplete s).sec.prog = true := by decide +kernel
theorem witness_LifecycleMoveSteps_fuse :
    let s := { up with sec := { up.sec with moving := true, prog := true } }
    s.blk.warmDefer = false ∧ (after (.fuseProgramAnswer .ack) s).sec = { up.sec with lcField := true }
    ∧ (after (.fuseProgramAnswer .timeout) s).sec = { up.sec with movefail := true }
    ∧ (after (.fuseProgramAnswer .timeout) s).ras.queue.map (fun e => fld e.2.e1 23 0) = [0x140670] := by decide +kernel

/-! ## Register pages (R26 to R37) -/

theorem witness_RegisterWritesActOrRefuse_acts : pageOf 0x120 = some .mtime ∧ Master.service.reaches up 0x120 0x410 = true
    ∧ machineOnly .mtime 0x410 = false ∧ pageAsleep up .mtime = false ∧ storeWait up .mtime 0x410 = none ∧ moveHold up .mtime = false
    ∧ stagedReg .mtime 0x410 = false ∧ (after (.registerWrite .service 0x120410 5) up).mt.horatio = 5 := by decide +kernel
theorem witness_RegisterWritesActOrRefuse_refused : up.formed = true ∧ (up.header 0x120).cfgerr = false
    ∧ ((refuse 0x120 0x410 5 up).header 0x120).perr = 0x05000410 ∧ (refuse 0x120 0x410 5 up).sec.privcnt = 1
    ∧ (refuse 0x120 0x410 3 up).sec.privcnt = 0 := by decide +kernel
/-- Core 0 executing at level USER with tag 3. -/
def user : State := running.setCtx 0 0 { running.ctx 0 0 with level := 2, tag := 3 }
theorem witness_RegisterWritesActOrRefuse_permission : (user.core 0).cur.isSome = true
    ∧ mayWrite user { lj := masterLvl user (.core 0) } 0x120 .mtime 0x410 5 = false
    ∧ ((after (.registerWrite (.core 0) 0x120410 5) user).header 0x120).perr = 0x05000410 := by decide +kernel
theorem witness_RegisterWritesActOrRefuse_codes :
    let a : Acc := { lj := masterLvl running (.core 0) }
    let s := running.setHeader 0x070 { cmtpend := true }
    mayWrite running a 0x070 (.quad 0) 0xC00 1 = true ∧ ((after (.registerWrite (.core 0) 0x070C00 1) running).header 0x070).perr = 0x09000C00
    ∧ stagedReg (.quad 0) 0x804 = true ∧ mayWrite s a 0x070 (.quad 0) 0x804 1 = true
    ∧ ((after (.registerWrite (.core 0) 0x070804 1) s).header 0x070).perr = 0x03000804 := by decide +kernel
theorem witness_CounterAndLatchedReads : Master.service.reaches up 0x020 0x408 = true ∧ pageAsleep up (.chain 0) = false
    ∧ storeWait up (.chain 0) 0x408 = none ∧ (after (.counterRead .service 0x020408) (up.setChain 0 { rescnt := 6 })).blk.svcData = 6
    ∧ ((after (.counterRead .service 0x020408) (up.setChain 0 { rescnt := 6 })).chain 0).rescnt = 0
    ∧ (readReg true 0x020 (.chain 0) 0x408 (up.setChain 0 { rescnt := 6 })).2 = 6
    ∧ (after (.lowHalfRead .service 0x120400) { up with mt := { up.mt with mtime := 0x700000003 } }).blk.svcData = 3
    ∧ (after (.lowHalfRead .service 0x120400) { up with mt := { up.mt with mtime := 0x700000003 } }).mt.mtimeHi = 7 := by decide +kernel
theorem witness_PageCommit_requests : pageOf 0x001 = some (.core 0) ∧ Master.service.reaches up 0x001 0x008 = true ∧ up.sec.moving = false
    ∧ commitOk up 0x001 (.core 0) = true ∧ ((after (.commit .service 0x001) up).header 0x001).cmtpend = true
    ∧ ((after (.freeze .service 0x001 true) up).header 0x001).freeze = true
    ∧ ((after (.discard .service 0x001) ((up.setHeader 0x001 { cmtpend := true }).setCore 0 { cfgStg := 1 })).core 0).cfgStg = 0
    ∧ commitOk counting (chanPage 3) (.timer 0) = true ∧ Master.service.reaches counting (chanPage 3) 0x008 = true
    ∧ pageOf (chanPage 3) = some (.timer 0) := by decide +kernel
theorem witness_PageCommit_point :
    let s := (up.setHeader 0x001 { cmtpend := true }).setCore 0 { cfgStg := 1 }
    let u := (counting.setTimer 3 { counting.timer 3 with ctl := 0x200 }).setHeader (chanPage 3) { cmtpend := true }
    (s.header 0x001).cmtpend = true ∧ ((after (.commitPoint 0x001) s).core 0).cfgLive = 1 ∧ ((after (.commitPoint 0x001) s).header 0x001).cmtpend = false
    ∧ ((after (.commitPoint (BitVec.ofNat 12 (chanPage 3))) u).timer 3).per = 7 := by decide +kernel

/-! ## The boundary, resets and release (R360 to R383) -/

def csOk (r : CsOut) : Bool := match r with | .ok _ _ => true | _ => false

theorem witness_ControlPort : up.blk.cp = none ∧ masterOwes 0 up = false ∧ hostServed up (4 * 0x48104) = true
    ∧ csOk (csWrite { lj := masterLvl up .hostPort, be := 15 } (4 * 0x48104) false 5 up) = true
    ∧ (after (.controlPortBeat true 0x48104 2 5 15) up).mt.horatio = 5 ∧ (after (.controlPortBeat true 0x48104 2 5 15) up).blk.cp = some (true, 0x120414, 2)
    ∧ (after .cpSelFall (after (.controlPortBeat true 0x48104 2 5 15) up)).blk.cp = none := by decide +kernel
theorem witness_ServicePort : masterOwes 1 up = false ∧ csOk (csRead { lj := (0, 0) } (4 * 0x48104) false up) = true
    ∧ (after (.controlSpaceRead 0x48104) up).blk.svcData = 0x80000000 ∧ (after (.controlSpaceWrite 0x48104 5) up).mt.horatio = 5
    ∧ spIndex up (8 * 0x200) = some 0x200 ∧ (spPeek (after (.scratchpadWrite 0x200 9) up) 0x200).1 = 9
    ∧ (after (.scratchpadRead 0x200) (after (.scratchpadWrite 0x200 9) up)).blk.svcData = 9 ∧ (after (.undefinedCommand 5) up).blk.svcStat = 3
    ∧ (after .svcSelNRise (after (.undefinedCommand 0) up)).blk.svcDone = false := by decide +kernel
theorem witness_ColdReset : gives .coldReset running { State.reset with pending := [], dbg := { lost := true } } = true
    ∧ (after .islandUnpowered running).blk.powered = false
    ∧ gives (.startUp [] 0) (after .islandUnpowered running) (after .islandUnpowered running) = true := by decide +kernel
theorem witness_StartUp : State.reset.blk.powered = true ∧ State.reset.blk.started = false
    ∧ (after (.startUp [(0, 0xA05B)] 5) State.reset).blk.ready = true := by decide +kernel
theorem witness_WarmReset :
    let w := after .warmReset running
    running.formed = true ∧ running.blk.warmLow = false ∧ w.blk.ready = false ∧ w.blk.run = 0 ∧ w.blk.warm = true
    ∧ (w.ports.all fun p => p.2.tags.isEmpty) = true ∧ (after .warmResetDrainEnd w).blk.rstcause = 2 ∧ (after .warmResetDrainEnd w).blk.ready = false
    ∧ (after .warmResetRelease (after .warmResetDrainEnd w)).blk.ready = true ∧ (after .warmResetDrainEnd (after .warmResetRelease w)).blk.ready = true := by
  decide +kernel
theorem witness_RunReleasesCores : up.formed = true ∧ Master.service.reaches up 0 0x404 = true ∧ released up 2 = false ∧ (voters up 2).length = 3
    ∧ ((after (.run .service 4) up).core 2).cur = some 0 ∧ (after (.run .service 4) up).blk.run = 4
    ∧ ((after (.run .service 4) up).ctx 2 0).pc = 0x20000000 ∧ (after (.run .service 4) up).core 0 = up.core 0 := by decide +kernel

/-! ## Repairs (R338 to R347) -/

theorem witness_MembersAreReplaced_mismatch : running.formed = true ∧ running.cullet.frozen = false ∧ released running 0 = true
    ∧ (voters running 0).length = 3 ∧ (1, 1) ∈ voters running 0 ∧ running.slUnit 1 = 0 ∧ repairBusy running 2 0 = false
    ∧ freeSpare running 2 0 = some 12 ∧ (after (.memberMismatch 0 (some 1)) running).slUnit 1 = 2
    ∧ (after (.memberMismatch 0 (some 1)) running).mbSlot 1 = some 12 ∧ released (after (.memberMismatch 0 none) running) 0 = false
    ∧ ((after (.memberMismatch 0 none) running).header (pgCore 0)).fault = true := by decide +kernel
theorem witness_MembersAreReplaced_resynchronised :
    let r := after (.memberMismatch 0 (some 1)) running
    let s := r.setDom (domSlot 12) {}
    (resyncOf s 0).isSome = true ∧ boundaryOk s 0 = true ∧ ((after (.resynchronisationPause 0) s).core 0).pause = true
    ∧ (resyncOf s 0).bind Repair.spare = some 12 ∧ awake s (domSlot 12) = true ∧ s.cullet.waiting = []
    ∧ (after (.resynchronisationEnded 0) (after (.resynchronisationPause 0) s)).cullet.running = [] := by decide +kernel
theorem witness_MembersAreReplaced_short :
    let r := after (.memberMismatch 0 (some 1)) running
    (voters r 0).length < 3 ∧ (0, 0) ∈ voters r 0 ∧ released (after (.memberMismatch 0 (some 0)) r) 0 = false := by decide +kernel
/-- Chain 0 with a strip of slot 0 of quadrant 0, its newest checkpoint at element 4,096. -/
def stripped : State := (up.setSlot 0 0 { st := .running, chains := [0], fetched := true }).setChain 0 
  { srLive := 1, strip := some { q := 0, slot := 0, gen := 0, lchain := 0, pos := 0, lo := 0, hi := 8192, ready := true, cptr := 5000, cks := [(1, { micro := { ptr := 4096 } })] } }
theorem witness_ChainsAreReplaced :
    let f := after (.chainHardFault 0) stripped
    let g := f.setDom (domChain 16) {}
    stripped.formed = true ∧ stripped.chUnit 0 = 0 ∧ repairOf stripped 0 0 = false ∧ stripped.chLog 0 = some 0 ∧ repairBusy stripped 0 0 = false
    ∧ (freeSpare stripped 0 0).isSome = true ∧ takeLinked stripped (stripped.slot 0 0) = false ∧ (f.header (pgChain 0)).fault = true
    ∧ (f.chain 0).strip = none ∧ f.cullet.running = [⟨0, 0, 0, 0, some 16, false⟩] ∧ awake g (domChain 16) = true ∧ g.cullet.waiting = []
    ∧ (after (.chainRepaired 0) g).chPhys 0 = some 16 ∧ (after (.chainRepaired 0) g).chUnit 0 = 2
    ∧ ((after (.chainRepaired 0) g).slot 0 0).replays = 1 ∧ ((after (.chainHardFault 1) f).cullet.waiting.map Repair.old) = [1] := by decide +kernel
theorem witness_ChainsAreReplaced_lost_frame :
    let f := (after (.chainHardFault 0) stripped).setDom (domChain 16) {}
    let g := f.setCullet { f.cullet with moved := f.cullet.moved.map fun m => (m.1, { m.2 with ckBad := true }) }
    (g.cullet.moved.map Prod.fst) = [0] ∧ tabWf slotInit 0 (g.quad 0).slots = true ∧ (g.slot 0 0).st = .running ∧ (g.slot 0 0).fault = none
    ∧ ((after (.chainRepaired 0) g).slot 0 0).fault = some ⟨0x0C, 4096, 0⟩ := by decide +kernel
theorem witness_BanksMigrate_start :
    let s := up.setBank 1 { winU := 2 }
    let m := after (.bankMigration 1) s
    s.formed = true ∧ bankBad s 1 = true ∧ (s.header (pgSbank 1)).fault = false ∧ s.bkUnit 1 = 0 ∧ s.bkLog 1 = some 1 ∧ repairOf s 1 1 = false
    ∧ repairBusy s 1 0 = false ∧ freeSpare s 1 0 = some 16 ∧ (m.header (pgSbank 1)).fault = true
    ∧ m.cullet.running = [⟨1, 0, 1, 1, some 16, false⟩] ∧ (m.bank 16).copying = true := by decide +kernel
theorem witness_BanksMigrate_end :
    let m := (after (.bankMigration 1) (up.setBank 1 { winU := 2, owner := some 5 })).setDom (domBank 16) {}
    awake m (domBank 16) = true ∧ awake m (domBank 1) = true ∧ m.cullet.waiting = []
    ∧ ((after (.bkcfgWindowEnd 1) m).bank 1).winU = 0 ∧ ((after (.rescfgWindowEnd 0) (up.setChain 0 { winCnt := 3 })).chain 0).winCnt = 0 := by
  decide +kernel

/-! ## Takes (R108 to R145) -/

/-- A descriptor of COPY over forty elements, with its record at 0x3000. -/
def copyWords : List Word := [0, 40, 0x10000, 0x100000001, 0, 0, 0, 0, 0, 0, 0x20000, 0x100000001, 0, 0, 0, 0x3000]
/-- Library reel 0 installed, that descriptor at 0x1000, and bank 0 owned by the fetcher of quadrant 0. -/
def library : State :=
  let s := ((List.range 16).foldl (fun s i => spWrite s (0x200 + i) (copyWords.getD i 0)) up).setBank 0 { owner := some 0x10 }
  s.setQuad 0 { s.quad 0 with dir := [(0, { libEntry 0 with count := 1 })] }
theorem witness_Takes_header :
    let s := library.setSlot 0 3 { st := .queued, desc := 0x1000, seq := 1 }
    spIndex s 0x1000 = some 0x200 ∧ spOk s 0x200 (0, 0) = true ∧ bankOpen s 0 true = true ∧ ownerOf s 0 = BitVec.ofNat 8 16
    ∧ ((after (.headerRead 0 3) s).slot 0 3).w1 = some 40 := by decide +kernel
theorem witness_Takes_admission :
    let a := library.setSlot 0 3 { st := .queued, desc := 0x1000, seq := 1, w0 := some 0, w1 := some 40 }
    let b := library.setSlot 0 3 { st := .queued, desc := 0x1000, seq := 1, w0 := some 0, w1 := some 40, leave := true }
    candOf (a.quad 0) = some 3 ∧ chainCount a 0 (a.slot 0 3) = some 1 ∧ (after (.admission 0) a).pau.reqs = [⟨0, .take 0 3, 0⟩]
    ∧ (b.header (pgQuad 0)).freeze = false ∧ ((inService b 0).filter (chainFree b)).length = 16
    ∧ ((after (.admission 0) b).slot 0 3).st = .running ∧ ((after (.admission 0) b).slot 0 3).chains = [0]
    ∧ (((after (.admission 0) b).chain 0).strip.map Strip.hi) = some 40 := by decide +kernel
/-- The take of slot 3 admitted on chain 0. -/
def admitted : State := after (.admission 0) (library.setSlot 0 3 { st := .queued, desc := 0x1000, seq := 1, w0 := some 0, w1 := some 40, leave := true })
theorem witness_Takes_fetch :
    let f := after (.descriptorFetch 0 3) admitted
    let g := after (.descriptorFetch 0 3) (admitted.setQuad 0 { admitted.quad 0 with dir := [] })
    awake admitted (domStore 0) = true ∧ bit (copyWords.getD 0 0) 20 = false ∧ (f.slot 0 3).fetched = true ∧ (f.slot 0 3).words = copyWords
    ∧ (f.slot 0 3).st = .running ∧ (f.slot 0 3).ship = some 0 ∧ (g.slot 0 3).st = .ending ∧ (g.slot 0 3).fault = some ⟨2, 0, 0⟩ := by decide +kernel
theorem witness_RecordsAndArmings_record :
    let s := library.setSlot 0 3 { st := .ending, desc := 0x1000, seq := 1, w0 := some 0, w1 := some 40, words := copyWords, fetched := true }
    let u := after (.completionRecord 0 3) s
    s.formed = true ∧ tabWf slotInit 0 (s.quad 0).slots = true ∧ recordReady s 0 3 (s.slot 0 3) = true ∧ (s.slot 0 3).cradr = 0x3000
    ∧ spIndex s 0x3000 = some 0x600 ∧ spOk s 0x600 (0, 0) = true ∧ bankOpen s 0 true = true ∧ follows (s.slot 0 3) = false
    ∧ (u.quad 0).tkdone = 1 ∧ u.slot 0 3 = {} ∧ (spPeek u 0x600).2 = .good := by decide +kernel
/-- Core 0 with a TCUE for slot 3 and cue entry 2 at time 50 whose header is not read. -/
def tcueing : State := ((library.setBank 0 {}).setSlot 0 3 { st := .armed, desc := 0x1000 }).setCore 0
  { cur := some 0, ctxs := [(0, { state := 2, pc := 0x1000, depth := 3 })], tcue := some { slot := 3, entry := 2, time := 50, ctx := 0, fed := false, ws := [0xC004] } }
def bundleOk (r : Except Nat Bundle) : Bool := match r with | .ok _ => true | .error _ => false
theorem witness_RecordsAndArmings_arming : tcueing.formed = true ∧ spIndex tcueing 0x1000 = some 0x200
    ∧ bankOpen tcueing 0 (coreOwns tcueing 0 0) = true ∧ spPeek tcueing 0x200 = (0, .good) ∧ spPeek tcueing 0x201 = (40, .good)
    ∧ (tcueing.slot 0 3).st = .armed ∧ bundleOk (decodeBundle [0xC004] false) = true
    ∧ ((after (.tcueArmingDecision 0) tcueing).slot 0 3).w1 = some 40 ∧ ((after (.tcueArmingDecision 0) tcueing).cueEnt 2).time = 50
    ∧ ((after (.tcueArmingDecision 0) tcueing).ctx 0 0).cells = [(3, 0x300)]
    ∧ ((after (.tcueArmingDecision 0) (tcueing.setPau { tcueing.pau with pool := 0, cost := [(0, 100)] })).ctx 0 0).cells = [(3, 0xFFFFFFFFFFFFFFFF)]
    ∧ (after (.tcueArmingDecision 0) (tcueing.setPau { tcueing.pau with pool := 0, cost := [(0, 100)] })).slot 0 3 = {} := by decide +kernel

/-! ## Chains (R150 to R173) -/

/-- The take of slot 3 fetched: chain 0 holds its strip, the reel not started. -/
def fetched : State := after (.descriptorFetch 0 3) admitted
/-- Its reel started, and its first `n` elements landed. -/
def started (n : Nat) : State :=
  let s := after (.reelStart 0) fetched
  match (s.chain 0).strip with
  | some r => s.setChain 0 { s.chain 0 with strip := some { r with landed := (List.range n).map fun (i : Nat) => ⟨0, (i : Int), BitVec.ofNat 64 (7 + i), 0x400, 8 * i⟩ } }
  | none => s
def strip0 (s : State) : Strip := (s.chain 0).strip.getD { q := 0, slot := 0, gen := 0, lchain := 0, pos := 0, lo := 0, hi := 0 }

theorem witness_Reels_start : fetched.formed = true ∧ (fetched.chain 0).strip.isSome = true ∧ (strip0 fetched).ready = false
    ∧ cacheHit fetched 0 (strip0 fetched) = false ∧ (strip0 (after (.reelStart 0) fetched)).ready = true
    ∧ ((after (.reelStart 0) fetched).chain 0).cache.length = 8 ∧ 8 < (fetched.slot 0 3).ent.len
    ∧ cacheHit ((after (.reelStart 0) fetched).setChain 0 { (after (.reelStart 0) fetched).chain 0 with strip := some (strip0 fetched) }) 0 (strip0 fetched) = true := by
  decide +kernel
theorem witness_Reels_fill :
    let s := after (.reelStart 0) fetched
    s.formed = true ∧ (strip0 s).ready = true ∧ (strip0 s).ended = false ∧ (strip0 s).stop = false ∧ awake s (domStore 0) = true
    ∧ (s.quad 0).flips ((s.slot 0 3).ent.basew + 8) = 0 ∧ (s.quad 0).mcBad = [] ∧ (s.quad 0).rewrite = []
    ∧ ((after (.reelCacheFill 0) s).chain 0).cache.length = 12 := by decide +kernel
theorem witness_Reels_issue :
    let s := started 16
    let r := strip0 s
    let u := strip0 (after (.microwordIssue 0) s)
    s.formed = true ∧ (s.slot 0 3).imgWait = false ∧ awake s (domChain 0) = true ∧ stagedLines r + 2 * 16 ≤ 1024 ∧ s.blk.testen = false
    ∧ shipOf (s.chain 0) (s.slot 0 3) = some 0 ∧ r.spliced = false ∧ (s.slot 0 3).mode 0 = 1 ∧ (s.slot 0 3).mode 4 = 1 ∧ (s.slot 0 3).mode 5 = 0
    ∧ r.micro.ptr + (s.slot 0 3).width < r.hi ∧ (∀ i ∈ active (s.slot 0 3) r, landGet r 0 i = some (BitVec.ofNat 64 (7 + i)))
    ∧ (∀ i ∈ active (s.slot 0 3) r, 0 ≤ linAddr (s.slot 0 3) 4 i ∧ linAddr (s.slot 0 3) 4 i + 8 ≤ 2 ^ 39)
    ∧ u.micro.ptr = 16 ∧ u.staged.length = 16 ∧ u.staged.getLast? = some ⟨4, 15, 0x20078, 22⟩ := by decide +kernel
/-- A strip of 70 elements whose first vectors have issued, with terms and flags of groups 0 and 1. -/
def grouped : State := (library.setSlot 0 3 { st := .running, fetched := true, chains := [0] }).setChain 0
  { strip := some { q := 0, slot := 3, gen := 0, lchain := 0, pos := 0, lo := 0, hi := 70, ready := true, micro := { ptr := 70 },
                    snaps := [(0, {}), (1, { ptr := 64 })], grp := [(1, { terms := 2 }), (17, { terms := 1 })], gflags := [(0, 3), (1, 4)],
                    staged := [⟨4, 3, 24, 9⟩] } }
theorem witness_Groups_commit : grouped.formed = true ∧ (strip0 grouped).cptr < groupEnd (strip0 grouped) ∧ groupEnd (strip0 grouped) = 64
    ∧ 64 ≤ reached (strip0 grouped) ∧ (strip0 (after (.groupCommit 0) grouped)).cptr = 64 ∧ (strip0 (after (.groupCommit 0) grouped)).flags = 3
    ∧ (strip0 (after (.groupCommit 0) grouped)).grp = [(17, { terms := 1 })] ∧ ((after (.groupCommit 0) grouped).chain 0).elem = 64 := by decide +kernel
theorem witness_Groups_frame :
    let s := grouped.setChain 0 { strip := some { strip0 grouped with hi := 5000, micro := { ptr := 4200 }, cptr := 4032, snaps := [(64, { ptr := 4096 })] } }
    groupEnd (strip0 s) = 4096 ∧ ((strip0 (after (.groupCommit 0) s)).cks.map Prod.fst) = [1]
    ∧ (lastCk (strip0 (after (.groupCommit 0) s))).micro.ptr = 4096 := by decide +kernel
theorem witness_Groups_mismatch :
    let m := after (.residueMismatch 0) grouped
    uncommitted (strip0 grouped) = true ∧ failing (grouped.slot 0 3) = false ∧ (grouped.chain 0).en = true ∧ (strip0 grouped).retried = false
    ∧ (grouped.chain 0).winCnt + 1 < fld (grouped.chain 0).rescfg 7 0 ∧ (m.chain 0).rescnt = 1 ∧ (m.chain 0).greplay = 1 ∧ (m.slot 0 3).replays = 1
    ∧ (strip0 m).staged = [] ∧ (strip0 m).micro.ptr = 0 ∧ grouped.chUnit 0 = 0 ∧ repairOf grouped 0 0 = false ∧ grouped.chLog 0 = some 0
    ∧ repairBusy grouped 0 0 = false ∧ (freeSpare grouped 0 0).isSome = true := by decide +kernel
theorem witness_Groups_faulty :
    let s := grouped.setChain 0 { strip := some { strip0 grouped with retried := true } }
    (strip0 s).retried = true ∧ ((after (.residueMismatch 0) s).header (pgChain 0)).fault = true ∧ ((after (.residueMismatch 0) s).chain 0).strip = none := by
  decide +kernel
/-- A strip of DOTE whose elements have all committed, in a take with two chains; `t` completes the slot. -/
def reducing (pos : Nat) (t : Slot) : State :=
  (library.setSlot 0 3 { t with ship := some 4, words := copyWords, w0 := some 0, w1 := some 40, fetched := true }).setChain 0
  { cache := [none], strip := some { q := 0, slot := 3, gen := 0, lchain := pos, pos := pos, lo := 0, hi := 40, ready := true, ended := true,
                                     micro := { ptr := 40 }, cptr := 40, lanes := [(0, { acc0 := 5 }), (2, { acc0 := 7 })] } }
theorem witness_Reductions_fold :
    let s := reducing 1 { st := .running, chains := [0, 1] }
    s.formed = true ∧ passEnded (strip0 s) = true ∧ redOp (s.chain 0) (s.slot 0 3) ≠ 0 ∧ twoPass (s.slot 0 3) = false ∧ partOf (s.slot 0 3) 1 = none
    ∧ ((after (.laneFold 0) s).slot 0 3).parts = [⟨1, { acc0 := 12 }, []⟩] := by decide +kernel
theorem witness_Reductions_hop :
    let s := reducing 1 { st := .running, chains := [0, 1], parts := [⟨1, { acc0 := 12 }, []⟩], total := { acc0 := 1 } }
    partOf (s.slot 0 3) 1 = some ⟨1, { acc0 := 12 }, []⟩ ∧ (s.slot 0 3).hops = [] ∧ failing (s.slot 0 3) = false
    ∧ ((after (.combineHop 0) s).slot 0 3).total.acc0 = 13 ∧ ((after (.combineHop 0) s).slot 0 3).hops = [1] := by decide +kernel
theorem witness_Reductions_final :
    let s := reducing 0 { st := .ending, chains := [0, 1], parts := [⟨0, {}, []⟩, ⟨1, {}, []⟩], hops := [1] }
    (s.slot 0 3).st = .ending ∧ (s.slot 0 3).stored = false ∧ (s.slot 0 3).cru = false ∧ (s.slot 0 3).mode 4 = 1 ∧ 0 ≤ linAddr (s.slot 0 3) 4 0
    ∧ linAddr (s.slot 0 3) 4 0 + 8 ≤ 2 ^ 39 ∧ ((after (.finalRounding 0) s).slot 0 3).stored = true
    ∧ (strip0 (after (.finalRounding 0) s)).staged = [⟨4, 0, 0x20000, 0⟩] := by decide +kernel

/-! ## Elements, the marver and ports (R170 to R201) -/

theorem witness_Elements_channel :
    let s := fetched.setChain 0 { strip := some { strip0 fetched with chan := [[1, 2], [3]], ready := true } }
    (strip0 s).fin = [] ∧ (s.slot 0 3).imgWait = false ∧ (s.slot 0 3).ship ≠ some 0x0D
    ∧ (strip0 (after (.spliceVectorArrival 0) s)).spin = [[1, 2]] ∧ (strip0 (after (.spliceVectorArrival 0) s)).chan = [[3]] := by decide +kernel
/-- Chain 0 at the consuming end of a link that carries the value 9, whose producer is slot 0 of quadrant 1. -/
def linked : State :=
  let s := (up.setSlot 0 3 { st := .running, words := List.replicate 15 0 ++ [0], w0 := some 0x200000, w1 := some 40, chains := [0] })
  { s.setChain 0 { srLive := 1, strip := some { q := 0, slot := 3, gen := 0, lchain := 0, pos := 0, lo := 0, hi := 40, spliced := true } } with
    link := [(0, [⟨9, 1, 0, 0, 5⟩])] }
theorem witness_Elements_link : linked.formed = true ∧ recvLink linked (linked.slot 0 3) (strip0 linked) = true ∧ tget (fun _ => []) linked.link 0 = [⟨9, 1, 0, 0, 5⟩]
    ∧ (strip0 linked).lo + (strip0 linked).lin.length < (strip0 linked).hi
    ∧ (strip0 linked).lin.length < ((strip0 linked).cptr - (strip0 linked).lo) + 8 * regionLines (strip0 linked)
    ∧ (strip0 (after (.linkElementArrival 0) linked)).lin = [9] ∧ (after (.linkElementArrival 0) linked).link = [] := by decide +kernel
theorem witness_Marver_store :
    let s := (started 0).setChain 0 { (started 0).chain 0 with strip := some { strip0 (started 0) with ended := true, staged := [⟨4, 15, 0x20078, 22⟩], steered := [(0x801, 0, 0)] } }
    generatorOn s 0 (strip0 s) = true ∧ s.blk.testen = false ∧ bstAwake s (0x20078 / 64 / 2 ^ 14) = true ∧ tget zeroD s.steer.synd 0 = 0
    ∧ steerCheck (s.bstEntry 0) 0 0 false true = none
    ∧ ((after (.marverEntryCreation 0) s).chain 0).marver.map MvEntry.line = [0x801] ∧ (strip0 (after (.marverEntryCreation 0) s)).staged = [] := by
  decide +kernel
theorem witness_Marver_read :
    let s := (started 0).setChain 0 { (started 0).chain 0 with strip := some { strip0 (started 0) with hi := 1 } }
    (strip0 s).streams = [0] ∧ (s.slot 0 3).mode 0 = 1 ∧ (strip0 s).hi = (strip0 s).from_ + 1 ∧ (strip0 s).micro.ptr = (strip0 s).from_
    ∧ (strip0 s).nxt = [] ∧ (s.chain 0).marver = [] ∧ (s.slot 0 3).cap = none ∧ (s.slot 0 3).serial = false ∧ (s.slot 0 3).holds = []
    ∧ (s.slot 0 3).width = 16 ∧ linAddr (s.slot 0 3) 0 0 = 0x10000 ∧ steerCheck (s.bstEntry 0) 0 0 false false = none
    ∧ ((after (.marverEntryCreation 0) s).chain 0).marver.map MvEntry.line = [0x400] ∧ (strip0 (after (.marverEntryCreation 0) s)).nxt = [(0, 1)] := by
  decide +kernel
/-- A read of line 77 through port 2, with no store. -/
def readEntry : MvEntry := { line := 77, wr := false, lp := 2, pp := 2, places := [(0, 0, 8)], elems := [] }
/-- Chain 0 offers that read. -/
def offering : State := up.setChain 0 { strip := some { q := 0, slot := 3, gen := 0, lchain := 0, pos := 0, lo := 0, hi := 1 }, marver := [readEntry] }
theorem witness_Ports_offer : offering.formed = true ∧ offering.steer.gwQ = [] ∧ offering.chains.length = 1 ∧ offering.bclk < readEntry.stamp + 1024
    ∧ (offering.port 2).lost = false ∧ portTakes offering 2 false = true ∧ ((after .marverOffer offering).port 2).reqCrd = 31
    ∧ ((after .marverOffer offering).port 2).tags.map Prod.fst = [0] ∧ ((after .marverOffer offering).chain 0).marver = []
    ∧ ((after .marverOffer offering).pgrp 0).taghw = 1 := by decide +kernel
/-- Port 2 holds that read under tag 0, sent. -/
def asked : State := after (.requestAtBoundary 2) (after .marverOffer offering)
theorem witness_Ports_boundary : (asked.port 2).outTag = some 0 ∧ ((asked.port 2).tags.map fun x => x.2.sent) = [true] := by decide +kernel
/-- A store to 8 bytes of line 0x1A07 that port 2 has accepted under tag 5. -/
def storingLine : State := up.setPort 2 { tags := [(5, { src := .gateway 0, ent := { readEntry with line := 0x1A07, wr := true, lp := 2, data := 0x1122, be := 0xFF } })] }
theorem witness_Ports_outputs :
    let o := portPins (after (.requestAtBoundary 2) storingLine) 2
    portPark storingLine (portGroup 2) = none ∧ o.reqV = true ∧ o.tag = 5 ∧ o.laddr = 0xD ∧ o.reqPar = false ∧ o.beats.map WdBeat.last = [false, true]
    ∧ o.beats.map WdBeat.data = [0x1122, 0] ∧ o.beats.map WdBeat.ecc = [(checkByte 0x1122).setWidth 32, 0] := by decide +kernel
theorem witness_Ports_credits : asked.blk.started = true ∧ asked.ptUnit 2 ≠ 2 ∧ (asked.port 2).reqCrd < initReq (asked.pgrp 0)
    ∧ ((after (.reqCrd 2) asked).port 2).reqCrd = 32 ∧ ((after (.reqCrd 3) asked).port 3).fault = true
    ∧ ((after (.wdCrd 2) (asked.setPort 2 { wdCrd := 30 })).port 2).wdCrd = 31 ∧ ((after (.wdCrd 3) asked).port 3).fault = true
    ∧ ((after (.responseCreditReturn 2) (asked.setPort 2 { rspOwe := 1, rspCrd := 31 })).port 2).rspCrd = 32 := by decide +kernel
theorem witness_Ports_fault : (asked.port 2).fault = false ∧ asked.ptLog 2 = some 2 ∧ ((after (.portLogicFault 2) asked).port 2).fault = true
    ∧ (after (.portLogicFault 2) asked).cullet.running = [⟨3, 0, 2, 2, none, false⟩]
    ∧ ((after (.tagTimeout 2 0) { asked with bclk := 9000 }).port 2).fault = true := by decide +kernel
theorem witness_Ports_substituted :
    let s := { after (.portLogicFault 2) asked with bclk := 9000 }
    (s.port 2).faultAt + s.cullet.ptmo.toNat ≤ s.bclk ∧ freeSpare (endRepair ⟨3, 0, 2, 2, none, false⟩ s) 3 0 = some 512 ∧ s.cullet.waiting = []
    ∧ (after (.portSubstituted 2) s).ptPhys 2 = 512 ∧ ((after (.portSubstituted 2) s).port 2).tags = []
    ∧ (((after (.portSubstituted 2) s).port 512).tags.map fun x => (x.1, x.2.sent, x.2.pay)) = [(0, false, true)] := by decide +kernel
theorem witness_Responses_outcomes : asked.formed = true ∧ asked.blk.started = true ∧ asked.blk.testen = false ∧ asked.ptUnit 2 ≠ 2
    ∧ ((asked.port 2).tags.find? fun y => decide (y.1 = 0) && y.2.sent).isSome = true ∧ (asked.port 2).rspCrd ≠ 0
    ∧ ((after (.uerr 2 0 ⟨true, 1⟩) asked).port 2).fault = true ∧ ((after (.uerr 2 0 ⟨false, 2⟩) asked).port 2).fault = true
    ∧ ((after (.ack 2 0 ⟨false, 1⟩) asked).port 2).fault = true ∧ ((after (.uerr 2 0 ⟨false, 1⟩) asked).pgrp 0).uerr = 1 ∧ ((after (.uerr 2 0 ⟨false, 1⟩) asked).port 2).tags = [] := by decide +kernel
theorem witness_Responses_data_lands :
    ((strip0 (after (.data 2 0 0 ⟨⟨true, 2⟩, 0, crc32c (crcBytes 0 0)⟩) asked)).landed.map Land.key) = [0]
    ∧ (∀ j, j < 8 → checkByte (lineWord 0 j) = byteOf (0 : BitVec 64) j)
    ∧ ((after (.data 2 0 0 ⟨⟨true, 2⟩, 0, 1 + crc32c (crcBytes 0 0)⟩) asked).pgrp 0).crcrty = 1 := by decide +kernel
/-- Port 2 holds a store under tag 0, sent for the second time. -/
def storing : State := up.setPort 2 { tags := [(0, { src := .gateway 0, ent := { readEntry with wr := true }, sent := true, resent := true })] }
theorem witness_Responses_store : ((after (.ack 2 0 ⟨false, 1⟩) storing).port 2).tags = [] ∧ ((after (.ack 2 0 ⟨false, 1⟩) storing).port 2).rspCrd = 31
    ∧ ((after (.retry 2 0 ⟨true, 1⟩) storing).pgrp 0).uerr = 1
    ∧ (let s := storing.setPort 2 { tags := [(0, { src := .gateway 0, ent := { readEntry with wr := true }, sent := true })] }
       ((after (.retry 2 0 ⟨true, 1⟩) s).pgrp 0).crcrty = 1 ∧ ((after (.retry 2 0 ⟨true, 1⟩) s).port 2).tags.map (fun x => x.2.resent) = [true]) := by
  decide +kernel

/-! ## The microcode store and steering (R183 to R225, R345) -/

theorem witness_Microcode_start : library.formed = true ∧ pageAsleep library (.quad 0) = false ∧ awake library (domStore 0) = true
    ∧ Master.service.reachesAsMachine library (pgQuad 0) 0x488 = true ∧ Master.service.reachesAsMachine library (pgQuad 0) 0x48C = true
    ∧ ((after (.install .service 0) library).quad 0).mcRun = some (1, 0) ∧ ((after (.clear .service 0) library).quad 0).mcRun = some (2, 0)
    ∧ (((after (.clear .service 0) library).quad 0).entry 0).valid = false ∧ ((after (.reload .service 0) library).quad 0).mcRun = some (3, 0)
    ∧ reelRuns library 0 (fun k => decide (k < 16)) = false ∧ (after (.reload .service 0) library).pau.reqs.length = 1
    ∧ ((after (.clear .service 0) (after (.install .service 0) library)).quad 0).cmdlost = true := by decide +kernel
theorem witness_Microcode_window : Master.service.reachesAsMachine up (pgQuad 0) 0x400 = true ∧ mcLocked (up.quad 0) 8000 = false
    ∧ tabWf storeD 0 (up.quad 0).store = true ∧ tget zeroD ((after (.diridx .service 0 0) library).quad 0).dird 0 = (libEntry 0).d0
    ∧ dataHalf (((after (.microcodeWindowWrite .service 0 256000 false 0x1234) up).quad 0).data 8000) 0 % 2 ^ 32 = 0x1234 := by decide +kernel
theorem witness_Microcode_install :
    let v := library.setQuad 0 { library.quad 0 with mcRun := some (1, 0) }
    let b := up.setQuad 0 { mcRun := some (1, 20), dird := [(0, 0x2000)] }
    awake v (domStore 0) = true ∧ ((v.quad 0).entry 0).valid = true ∧ ((after (.installComplete 0) v).quad 0).mcResult = 8
    ∧ ((b.quad 0).entry 20).valid = false ∧ dirBad (b.quad 0).described = true
    ∧ ((after (.installComplete 0) b).quad 0).mcResult = 1 := by decide +kernel
theorem witness_Microcode_ends :
    let c := library.setQuad 0 { library.quad 0 with mcRun := some (2, 0) }
    reelRuns c 0 (fun j => decide (j = 0)) = false ∧ ((after (.clearComplete 0) c).quad 0).mcRun = none := by decide +kernel
/-- An INSTALL of a reel of one word, which ends at once. -/
def installing : State := up.setQuad 0 { mcRun := some (1, 20), dird := [(0, 8000)], store := [(8000, some 0xC00)] }
theorem witness_Microcode_install_described : dirBad (installing.quad 0).described = false := by decide +kernel
theorem witness_Microcode_install_verified : (mcVerify 0 20 installing).2 = (0, 0) := by decide +kernel
theorem witness_Microcode_reload :
    let s := up.setPau { up.pau with held := [(.reload 0, 0)] }
    let s := s.setQuad 0 { mcRun := some (3, 0), store := [(1, some 5), (8000, some 0xC00)] }
    (s.pau.held.any fun h => decide (h.1 = .reload 0)) = true ∧ tabWf storeD 0 (s.quad 0).store = true ∧ tabWf dirInit 0 (s.quad 0).dir = true
    ∧ ((after (.reloadComplete 0) s).quad 0).mcRun = none ∧ ((after (.reloadComplete 0) s).quad 0).store = [(8000, some 0xC00)] := by decide +kernel
theorem witness_Microcode_scrub :
    let s := up.setQuad 0 { mcSynd := [(0, 4)], mcctl := 1 }
    s.blk.started = true ∧ bit (s.quad 0).mcctl 0 = true ∧ (s.quad 0).flips 0 = BitVec.ofNat 144 (2 ^ 2)
    ∧ ((after (.microcodeScrub 0) s).quad 0).mccorr = 1 ∧ ((after (.microcodeScrub 0) s).quad 0).mcSynd = []
    ∧ ((after (.microcodeScrub 0) (up.setQuad 0 { mcctl := 1, scrub := 8191 })).quad 0).scrub = 0
    ∧ ((after (.microwordRewrite 0) (up.setQuad 0 { rewrite := [5], store := [(5, some 1)] })).quad 0).store = [] := by decide +kernel
theorem witness_Steering_read :
    let s := up.setSteer { up.steer with synd := [(7, 4)] }
    let m := after (.controlSpaceRead (BitVec.ofNat 24 (0x1000000 / 4 + 7))) s
    bstOk s (0, 0) = true ∧ bstAwake s 7 = true ∧ popLow (tget zeroD s.steer.synd 7) 39 = 1 ∧ m.steer.synd = [] ∧ m.steer.corr = 1
    ∧ m.blk.svcData = 1 := by decide +kernel
theorem witness_Steering_write : Master.service.reaches up pgSteer 0x400 = true ∧ (masterLvl up .service).1 ≠ 2 ∧ bstAwake up 7 = true
    ∧ (after (.bankSteeringTableWrite .service 28 false 0x20003) up).bstEntry 7 = 0x20003
    ∧ (after (.bankSteeringTableWrite .service 2097148 false 5) up).bstEntry 524287 = 5 := by decide +kernel
theorem witness_Steering_scrub :
    let s := up.setSteer { up.steer with bstctl := 1, scrub := 64, synd := [(64, 2)] }
    bit s.steer.bstctl 0 = true ∧ bstAwake s 64 = true ∧ popLow (tget zeroD s.steer.synd 64) 39 = 1 ∧ s.steer.rowPrev = []
    ∧ (after .bstScrub s).steer.rowNow = [1] ∧ (after .bstScrub s).steer.corr = 1 ∧ (after .bstScrub s).steer.scrub = 65
    ∧ (after .bstScrub (up.setSteer { up.steer with bstctl := 1 })).steer.scrub = 1 := by decide +kernel
theorem witness_Windows_refused_and_misaligned :
    let b := Master.core 0
    let t := after (.bankSteeringTableWrite b 28 false 0x1000000) running
    b.reaches running pgSteer 0x400 = true ∧ (masterLvl running b).1 ≠ 2 ∧ (t.header pgSteer).cfgerr = true ∧ t.steer.err = 0x1000007
    ∧ ((after (.bankSteeringTableWrite b 32 false 0x1000000) t).steer.err) = 0x1000007
    ∧ (after (.bankSteeringTableWrite b 32 false 9) t).bstEntry 8 = 9
    ∧ ((after (.cueTableWrite b 16 true 0) running).header pgCue).cfgerr = false
    ∧ gives (.bankSteeringTableWrite b 4 true 0) running running = true ∧ gives (.cueTableWrite b 2 false 0) running running = true
    ∧ gives (.sourceTableWrite b 4 true 0) running running = true ∧ gives (.powerDomainTableWrite b 4 true 0) running running = true
    ∧ gives (.microcodeWindowWrite b 1 4 true 0) running running = true := by decide +kernel
theorem witness_Steering_rest :
    let s := up.setSteer { up.steer with rowDue := [4095, 4096], gwBuf := [(1, 0)] }
    (after (.steeringRowReplaced 4095) s).steer.spare0 = 15 ∧ (after (.steeringRowReplaced 4096) s).steer.spare1 = 15
    ∧ Master.service.reaches up pgSteer 0x41C = true ∧ (after (.flush .service) s).steer.gwBuf = []
    ∧ Master.service.reaches up pgHotmon 0x400 = true ∧ (after (.hmcfg .service 0x20A) up).hot.cfg = 0x20A
    ∧ (after .hotWindowEnd (up.setHot { up.hot with counts := [(1, 2)] })).hot.counts = [] := by decide +kernel

/-! ## Spares, the island, the dailies, injection (R338, R346 to R359) -/

theorem witness_Spares_retire : Master.service.reachesAsMachine up pgCullet 0x4C8 = true ∧ unitSt up 0 16 = 1 ∧ repairOf up 0 16 = false
    ∧ unitSt (after (.retire .service 0x100000) up) 0 16 = 2 ∧ ((after (.retire .service 0x100000) up).dom (domChain 16)).goal = some 4
    ∧ unitSt (after (.unret .service 0x100000) (after (.retire .service 0x100000) up)) 0 16 = 1
    ∧ Master.service.reaches up (pgChain 16) 0x008 = true ∧ up.chUnit 16 = 1
    ∧ (after (.retireReq .service (BitVec.ofNat 12 (pgChain 16))) up).chUnit 16 = 2 := by decide +kernel
theorem witness_Spares_active : Master.service.reaches up (pgSbank 2) 0x008 = true ∧ up.chUnit 3 = 0 ∧ up.bkUnit 2 = 0
    ∧ (let t := after (.retire .service 0x30000) up
       (t.header (pgChain 3)).fault = true ∧ t.cullet.running = [⟨0, 0, 3, 3, some 16, false⟩] ∧ t.chLog 3 = some 3
       ∧ (after (.retireReq .service (BitVec.ofNat 12 (pgChain 5))) t).cullet.waiting = [⟨0, 0, 5, 5, none, false⟩])
    ∧ (let t := after (.retireReq .service (BitVec.ofNat 12 (pgSbank 2))) up
       (t.header (pgSbank 2)).fault = true ∧ t.cullet.running = [⟨1, 0, 2, 2, some 16, false⟩] ∧ (t.bank 2).copying = true
       ∧ t.bkLog 2 = some 2 ∧ t.bkUnit 2 = 0) := by decide +kernel
theorem witness_Spares_active_lost :
    let s := after (.retire .service 0x100000) up
    let t := after (.retireReq .service (BitVec.ofNat 12 (pgChain 3))) s
    fabricSettled up (domChain 16) = true ∧ s.chUnit 16 = 2 ∧ t.chUnit 3 = 2 ∧ t.cullet.running = []
    ∧ (after (.retire .service 0x100001) up).bkUnit 16 = 2
    ∧ (after (.retireReq .service (BitVec.ofNat 12 (pgSbank 2))) (after (.retire .service 0x100001) up)).bkUnit 2 = 0
    ∧ (after (.retire .service 2) up).slUnit 0 = 2 ∧ ((after (.retire .service 3) up).port 0).fault = true := by decide +kernel
theorem witness_Island : up.cullet.isl = none ∧ (after (.islandCopyFault 1) up).cullet.isl = some 1
    ∧ (after (.islandCopyFault 2) (after (.islandCopyFault 1) up)).cullet.frozen = true
    ∧ (after .islandReloadEnd (after (.islandCopyFault 1) up)).cullet.isl = none := by decide +kernel
theorem witness_Dailies :
    let s := up.setRas { up.ras with queue := [(0, { time := 5, e1 := 0x210 })], wridx := 1023, rdidx := 0 }
    (after .dailiesEntryWrite s).ras.lostcnt = 1 ∧ (after .dailiesEntryWrite s).ras.rdidx = 1 ∧ (after .dailiesEntryWrite s).ras.wridx = 0
    ∧ (after .dailiesEntryWrite s).ras.faultp = true ∧ Master.service.reaches up pgRas 0x40C = true ∧ (after (.rdidx .service 9) up).ras.rdidx = 9
    ∧ Master.service.reaches up pgRas 0x414 = true ∧ (after (.dent0Read .service) (up.setRas { up.ras with ring := [(0, { time := 5 })] })).blk.svcData = 5 := by
  decide +kernel
/-- With TESTEN = 1. -/
def testing : State := up.setBlk { up.blk with testen := true }
theorem witness_Injections_registers : Master.service.reachesAsMachine up 0 0x410 = true ∧ (after (.testen .service 1) up).blk.testen = true
    ∧ (after (.testen .service 0) testing).blk.testen = false ∧ Master.service.reaches testing pgPert 0xC10 = true
    ∧ (after (.seed .service 9) testing).pert.lfsr = 9 ∧ Master.service.reaches testing (pgChain 0) 0xC00 = true
    ∧ pageAsleep testing (.chain 0) = false ∧ injOk (pgChain 0) { testing.injOf (pgChain 0) with ctl := 0x11 } = true
    ∧ ((after (.injctl .service (BitVec.ofNat 12 (pgChain 0)) 0x11) testing).injOf (pgChain 0)).ctl = 0x11 := by decide +kernel
theorem witness_Injections_bank : Master.service.reaches testing (pgSbank 1) 0xC00 = true ∧ pageAsleep testing (.sbank 1) = false
    ∧ injOk (pgSbank 1) { testing.injOf (pgSbank 1) with ctl := 0x11 } = true ∧ spPeek testing 32768 = (0, .good)
    ∧ (spPeek (after (.injctl .service (BitVec.ofNat 12 (pgSbank 1)) 0x11) testing) 32768) = (0, .single (some 0)) := by decide +kernel

/-! ## The whole block -/

theorem witness_Step : step { up with pending := [.demand 5] } = exec (.demand 5) up := by rfl
theorem witness_EmptyQueue : up.pending = [] ∧ up.blk.owed = [] ∧ (match step up with | .next t => t.bclk | _ => 0) = 1
    ∧ (match step State.reset with | .next t => decide (t = State.reset) | _ => false) = true := by decide +kernel
theorem witness_EmptyQueue_slate :
    let s := (up.setTimer 5 { capcfg := 0x830, cnt := 77 }).setTimer 6 { capcfg := 0x31, cnt := 8 }
    let s := { s with start := { s.snap with slate := true } }
    s.formed = true ∧ s.blk.hx = none ∧ s.blk.hxReq = []
    ∧ (match step s with | .next t => decide ((t.timer 5) = s.timer 5) && decide ((t.timer 6).cap = 8) && bit (t.timer 6).stat 2 | _ => false) = true
    ∧ (match step (s.setTimer 5 { capcfg := 0x831, cnt := 77 }) with | .next t => decide ((t.timer 5) = { capcfg := 0x831, cnt := 77, edges := 1 }) | _ => false)
      = true := by decide +kernel
theorem witness_StepKeeps : up.formed = true ∧ (match step { up with pending := [.hostExchangeWrite 5000 5] } with | .next t => t.formed | _ => false) = true := by
  decide +kernel
theorem witness_Field :
    let s := { up with sec := { up.sec with lcField := true } }
    s.sec.lcField = true ∧ (after (.lccmd .service 0x7E1D) s).sec.lcField = true ∧ (Instr.demand 5 : Instr) ≠ .coldReset := by decide +kernel

end Sys2Proof.Tests
end

section
/-! PROOFS. Reads of counters of type RC and of latched halves (R33, R262). -/

namespace Sys2Proof.Machine

/-! ## A table entry read back after its own update -/

theorem State.formed_chains {s : State} (h : s.formed = true) : tabWf chainInit 0 s.chains = true := by
  simp only [State.formed, Bool.and_eq_true] at h
  simp only [h]

theorem State.formed_quads {s : State} (h : s.formed = true) : tabWf quadInit 0 s.quads = true := by
  simp only [State.formed, Bool.and_eq_true] at h
  simp only [h]

theorem State.formed_pgrps {s : State} (h : s.formed = true) : tabWf pgrpInit 0 s.pgrps = true := by
  simp only [State.formed, Bool.and_eq_true] at h
  simp only [h]

theorem State.formed_banks {s : State} (h : s.formed = true) : tabWf bankInit 0 s.banks = true := by
  simp only [State.formed, Bool.and_eq_true] at h
  simp only [h]

theorem State.formed_timers {s : State} (h : s.formed = true) : tabWf timerInit 0 s.timers = true := by
  simp only [State.formed, Bool.and_eq_true] at h
  simp only [h]

@[simp] theorem State.chain_setChain_self {s : State} (h : s.formed = true) (p : Nat) (v : Chain) : (s.setChain p v).chain p = v :=
  tget_tset_self (State.formed_chains h) p v

@[simp] theorem State.quad_setQuad_self {s : State} (h : s.formed = true) (q : Nat) (v : Quad) : (s.setQuad q v).quad q = v :=
  tget_tset_self (State.formed_quads h) q v

@[simp] theorem State.pgrp_setPgrp_self {s : State} (h : s.formed = true) (n : Nat) (v : Pgrp) : (s.setPgrp n v).pgrp n = v :=
  tget_tset_self (State.formed_pgrps h) n v

@[simp] theorem State.bank_setBank_self {s : State} (h : s.formed = true) (b : Nat) (v : Bank) : (s.setBank b v).bank b = v :=
  tget_tset_self (State.formed_banks h) b v

@[simp] theorem State.timer_setTimer_self {s : State} (h : s.formed = true) (c : Nat) (v : Timer) : (s.setTimer c v).timer c = v :=
  tget_tset_self (State.formed_timers h) c v

/-! ## Counters of type RC (R33) -/

/-- The counters of type RC of the pages, those of unit `p` where a page has units: page and offset. -/
def rcCounters (p : Nat) : List (PageId × Nat) :=
  [(.chain p, 0x408), (.chain p, 0x40C), (.quad p, 0x408), (.quad p, 0x40C), (.quad p, 0x4A4), (.quad p, 0x4A8),
   (.pgrp p, 0x408), (.pgrp p, 0x40C), (.pgrp p, 0x410), (.pgrp p, 0x414), (.sbank p, 0x40C), (.sbank p, 0x410), (.sbank p, 0x418),
   (.icu, 0x410), (.cue, 0x40C), (.cue, 0x410), (.pau, 0x414), (.pau, 0x418), (.pseq, 0x408), (.pseq, 0x40C), (.sec, 0x410),
   (.ras, 0x424), (.steer, 0x404), (.steer, 0x408), (.hotmon, 0x40C)]

/-- The register at `o` of page `g` is a counter of type RC: a peek leaves the block as it is, and a second read finds it cleared. -/
structure ReadsAndClears (s : State) (g : Nat) (k : PageId) (o : Nat) : Prop where
  peek    : readReg true g k o s = (s, (readReg false g k o s).2)
  cleared : (readReg false g k o (readReg false g k o s).1).2 = 0

/-- A register that holds the counter `f`, with the side effect `clear` on it. -/
theorem readReg_rc {g o : Nat} {k : PageId} {f : State → Reg} {clear : State → State}
    (hr : ∀ peek t, readReg peek g k o t = rcRead peek (f t) t (clear t)) {s : State} (hc : f (clear s) = 0) :
    ReadsAndClears s g k o where
  peek := by simp only [hr, rcRead, if_true]
  cleared := by simp only [hr, rcRead, Bool.false_eq_true, if_false, hc]

/-- Every counter of type RC, page by page: its own table or record holds the counter that its read clears. -/
theorem readReg_counter {s : State} (hs : s.formed = true) (g p : Nat) :
    ∀ r ∈ rcCounters p, ReadsAndClears s g r.1 r.2 := by
  simp only [rcCounters, List.forall_mem_cons, List.not_mem_nil, false_implies, implies_true, and_true]
  and_intros
  all_goals exact readReg_rc (fun _ _ => rfl) (by simp [hs])

/-! ## Halves of a 64-bit value (R262) -/

/-- The two halves of a word give it back. -/
theorem hi32w_append_lo32w (w : Word) : hi32w w ++ lo32w w = w := by
  apply BitVec.eq_of_toNat_eq
  have hw := w.isLt
  simp only [hi32w, lo32w, fld, BitVec.toNat_append, BitVec.toNat_ofNat]
  rw [← Nat.shiftLeft_add_eq_or_of_lt (by omega)]
  omega

/-- The live registers of a timer channel are read at its page (R270). -/
theorem readReg_channel {c o : Nat} (hc : c < 16) (ho : o < 0x40) (peek : Bool) (g p : Nat) (s : State) :
    readReg peek g (.timer p) (0x400 + o + 0x40 * c) s = readChannel peek s (16 * p + c) o := by
  have hi : readInj peek g (0x400 + o + 0x40 * c) s = none := by
    unfold readInj
    split
    · omega
    · omega
    · omega
    · rfl
  have hd : (0x400 + o + 0x40 * c - 0x400) / 0x40 = c := by omega
  have hm : (0x400 + o + 0x40 * c) % 0x40 = o := by omega
  simp only [readReg, hi, readBody, readTimer, hd, hm]
  rw [if_neg (by omega), if_neg (by omega), if_pos (by omega)]

/-- A read of CNTLO latches the high half of CNT, which CNTHI then returns. -/
theorem readReg_cnt {s : State} (hs : s.formed = true) {c : Nat} (hc : c < 16) (peek : Bool) (g : Nat) :
    (readReg peek g (.timer 0) (0x40C + 0x40 * c) (readReg peek g (.timer 0) (0x408 + 0x40 * c) s).1).2
      ++ (readReg peek g (.timer 0) (0x408 + 0x40 * c) s).2 = (s.timer c).cnt := by
  rw [readReg_channel (o := 0x0C) hc (by decide), readReg_channel (o := 0x08) hc (by decide)]
  simp only [readChannel, Nat.mul_zero, Nat.zero_add, State.timer_setTimer_self hs, hi32w_append_lo32w]

/-- A read of CAPLO latches the high half of CAP, which CAPHI then returns. -/
theorem readReg_cap {s : State} (hs : s.formed = true) {c : Nat} (hc : c < 16) (peek : Bool) (g : Nat) :
    (readReg peek g (.timer 0) (0x424 + 0x40 * c) (readReg peek g (.timer 0) (0x420 + 0x40 * c) s).1).2
      ++ (readReg peek g (.timer 0) (0x420 + 0x40 * c) s).2 = (s.timer c).cap := by
  rw [readReg_channel (o := 0x24) hc (by decide), readReg_channel (o := 0x20) hc (by decide)]
  simp only [readChannel, Nat.mul_zero, Nat.zero_add, State.timer_setTimer_self hs, hi32w_append_lo32w]

/-! ## The register read of a master -/

/-- A master's read at a control-space offset that its page permits and serves (R26). The debug port peeks. -/
theorem makes_read {m : Master} {off : BitVec 24} {k : PageId} {s : State} (ha : off.toNat % 4 = 0) (hk : pageOf (off.toNat / 0x1000) = some k)
    (hm : m.reaches s (off.toNat / 0x1000) (off.toNat % 0x1000) = true) (hw : pageAsleep s k = false)
    (hq : storeWait s k (off.toNat % 0x1000) = none) :
    makes m off.toNat false none s = m.told s off.toNat false
      ((readReg (decide (m = .debug)) (off.toNat / 0x1000) k (off.toNat % 0x1000) s).2.setWidth 64)
      (readReg (decide (m = .debug)) (off.toNat / 0x1000) k (off.toNat % 0x1000) s).1 := by
  have hg := off.isLt
  have ho : off.toNat / 0x1000 * 0x1000 + off.toNat % 0x1000 = off.toNat := by omega
  have hr := reads_done hk (by omega) hm (by omega) (by omega) hw hq
  rwa [reads, ho] at hr

end Sys2Proof.Machine

namespace Sys2Proof
open Machine

/-- Settles O32: a master is told what the page's read returns (`makes_read`); a counter is read by `readReg_counter`, and the two
halves of a latched value make it up (`hi32w_append_lo32w`). -/
theorem counterAndLatchedReads : Obligations.CounterAndLatchedReads := by
  unfold Obligations.CounterAndLatchedReads
  refine ⟨?_, ?_, ?_⟩
  · intro s m off k g o ha hk hm hw hq r
    have hr := makes_read ha hk hm hw hq
    exact ⟨congrArg Host.Outcome.next hr, congrArg Host.Outcome.next hr⟩
  · intro s g p k o hs h
    obtain ⟨hp, hc⟩ := readReg_counter hs g p (k, o) h
    exact ⟨hp, hc⟩
  · intro s pk g c hs hc
    exact ⟨hi32w_append_lo32w _, hi32w_append_lo32w _, hi32w_append_lo32w _, readReg_cnt hs hc pk g, readReg_cap hs hc pk g⟩

end Sys2Proof
end

section
/-! PROOFS. Where a register write is made otherwise than its statement says: a core whose far access is outstanding makes none (R17), and
the SEC page admits no writer below MACHINE, whatever its POWN holds (R316). -/

namespace Sys2Proof.Machine

/-! ## A core with a transaction outstanding (R17) -/

/-- A core makes no control-space access while an earlier one of it is outstanding. -/
theorem makes_core_busy {n : Fin 16} {s : State} (h : masterFree s (.core n) = false) (o : Nat) (wide : Bool) (wr : Option Word) :
    makes (.core n) o wide wr s = s := by
  simp only [makes, h, Bool.and_false, Bool.false_eq_true, if_false]

/-- Core 0 executes its context 0, of level MACHINE, and waits for the answer of a far load from boot ROM. -/
def farWaiting : State :=
  { blk := { started := true, ready := true, run := 1 }
    cores := [(0, { cur := some 0, far := some { addr := 0x20000000, size := 8, store := false, data := 0, fed := false } })] }

/-! ## The SEC page (R316) -/

/-- A register value survives the 64-bit data of the crossbar. -/
theorem lo32w_setWidth (v : Reg) : lo32w (v.setWidth 64) = v := by
  apply BitVec.eq_of_toNat_eq
  have hv := v.isLt
  simp only [lo32w, fld, BitVec.toNat_ofNat, BitVec.toNat_setWidth]
  omega

/-- The access of the control port to a register that it is not permitted to write is refused with code 0x05, and the beat ends without
an error response (R35, R363). -/
theorem writes_hostPort_denied {s : State} {g off : Nat} {k : PageId} {v : Reg} (hk : pageOf g = some k) (hg : g < 0x1000)
    (ho : off < 0x1000) (ha : off % 4 = 0) (hm : Master.hostPort.reaches s g off = true)
    (hd : mayWrite s { lj := masterLvl s .hostPort } g k off v = false) :
    writes .hostPort g off v s = Master.hostPort.told s (g * 0x1000 + off) true 0 (refuse g off 5 s) := by
  have h1 : (g * 0x1000 + off) / 0x1000 = g := by omega
  have h2 : (g * 0x1000 + off) % 0x1000 = off := by omega
  have h3 : g * 0x1000 + off < 0x1000000 := by omega
  have h0 : csAligned (g * 0x1000 + off) false = true := by
    simp only [csAligned, Bool.false_eq_true, if_false, decide_eq_true_eq]
    omega
  have hw : csWrite { lj := masterLvl s .hostPort } (g * 0x1000 + off) false (v.setWidth 64) s = .denied (refuse g off 5 s) := by
    simp only [csWrite, h0, h3, pageAccess, h1, h2, hk, regWrite, lo32w_setWidth, hd, Bool.not_true, Bool.not_false, Bool.false_eq_true,
      if_false, if_true, Nat.reduceEqDiff]
  simp only [Master.reaches, Bool.and_eq_true] at hm
  obtain ⟨⟨_, hf⟩, hs⟩ := hm
  simp only [writes, makes, masterWide, hf, hs, hw, Ended.ofCs, hostAnswer, Master.told, Bool.and_self, if_true]
  rfl

/-- The block is up, the control port is at level HOST, and the POWN of the SEC page names HOST. -/
def secOwnedByHost : State :=
  { blk := { started := true, ready := true }, sec := { cplvl := 1 }, hdr := [(pgSec, { level := 1 })] }

end Sys2Proof.Machine

namespace Sys2Proof
open Machine

/-- Refutes O31: nothing in the clauses on a core's refused write says that the core is free to make one. Core 0 waits for a far access
(R17), so its write to the test region, which TESTEN = 0 forbids, is not made and no refusal is recorded. -/
theorem not_registerWritesActOrRefuse : ¬ Obligations.RegisterWritesActOrRefuse := by
  unfold Obligations.RegisterWritesActOrRefuse
  rintro ⟨_, _, h⟩
  have hr : exec (.registerWrite (.core 0) 0x120C00 0) farWaiting = .next (refuse 0x120 0xC00 0x09 farWaiting) :=
    (h farWaiting 0 0x120C00 0 .mtime rfl rfl rfl (fun _ => rfl) rfl rfl).2.1 rfl (by decide) rfl
  have hn : exec (.registerWrite (.core 0) 0x120C00 0) farWaiting = .next farWaiting :=
    congrArg Host.Outcome.next (makes_core_busy rfl _ _ _)
  have he : refuse 0x120 0xC00 0x09 farWaiting = farWaiting := Host.Outcome.next.inj (hr.symm.trans hn)
  have hc : ((refuse 0x120 0xC00 0x09 farWaiting).header 0x120).cfgerr = (farWaiting.header 0x120).cfgerr := by rw [he]
  exact absurd hc (by decide)

/-- Refutes O33: its first premise lets a HOST writer reach a SEC page whose POWN names HOST, but R316 refuses every write to that
page from below MACHINE, so FREEZE does not follow the write. -/
theorem not_pageCommitAndFreeze : ¬ Obligations.PageCommitAndFreeze := by
  unfold Obligations.PageCommitAndFreeze
  intro h
  have hm : Master.hostPort.reaches secOwnedByHost pgSec 0x008 = true := by decide
  have hf := ((h secOwnedByHost .hostPort 0x140 .sec (by decide) rfl rfl).1 hm).1 true
  have hr : exec (.freeze .hostPort 0x140 true) secOwnedByHost
      = .next (Master.hostPort.told secOwnedByHost (pgSec * 0x1000 + 8) true 0 (refuse pgSec 0x008 0x05 secOwnedByHost)) :=
    congrArg Host.Outcome.next (writes_hostPort_denied (k := .sec) rfl (by decide) (by decide) rfl hm rfl)
  have he := congrArg (fun t => (t.header pgSec).freeze) (Host.Outcome.next.inj (hf.symm.trans hr))
  exact absurd he (by decide)

end Sys2Proof
end

section
/-! PROOFS. The power class that the arming of a TCUE books (R107, R121, R304): it stands in the first header word. -/

namespace Sys2Proof.Machine

/-- What the debugger sees of a bundle leaves the cue engine. -/
theorem debugAfter_cue (e : BEnv) (r : Run) (s : State) : (debugAfter e r s).cue = s.cue := by
  have hmark : ∀ n hits (t : State), (cmpMark n hits t).cue = t.cue := by
    intro n hits t; unfold cmpMark; dsimp only; split <;> rfl
  have hwatch : (watch e r.acc s).cue = s.cue := by
    unfold watch
    dsimp only
    split
    · rfl
    · split
      · exact hmark _ _ _
      · exact hmark _ _ _
  have hsettle : ∀ n (t : State), (fedSettle n t).cue = t.cue := by
    intro n t; unfold fedSettle; dsimp only; split <;> rfl
  unfold debugAfter
  split
  · exact hsettle _ _
  · exact hwatch

/-- The end of a bundle that is no REP leaves the cue engine as its syllables did (R39, R56). -/
theorem commitBundle_cue {e : BEnv} {r : Run} (h : e.b.pfx ≠ some 0) : (commitBundle e r).cue = r.s.cue := by
  unfold commitBundle
  dsimp only
  rw [if_neg (fun hp => h hp.1), debugAfter_cue]
  rfl

/-- The bundle of a TCUE alone. -/
def tcueOnly : Bundle := { v := some ⟨4, 4, []⟩, len := 2 }

/-- A TCUE of core 0 in slot 3 with cue entry 2, its header not read. -/
def tcueUndecided : TcuePend := { slot := 3, entry := 2, time := 50, ctx := 0, fed := false, ws := [0xC004] }

/-- The header at address 0 has PCLASS 0 in its first word and 1 in the same bits of its second; the pool has room for the cost of
class 0 (64) and not for that of class 1 (96). -/
def tcueHeaderClasses : State :=
  { blk := { started := true, ready := true }
    mem := [(11, 1)]
    pau := { pool := 64 }
    quads := [(0, { slots := [(3, { st := .armed })] })]
    cores := [(0, { cur := some 0, ctxs := [(0, { state := 2, pc := 0x1000, depth := 3 })], tcue := some tcueUndecided })] }

/-- The arming books class 0, and the pool entry is armed. -/
theorem tcueHeaderClasses_armed :
    (match exec (.tcueArmingDecision 0) tcueHeaderClasses with | .next t => t.cue.tbl | _ => []) = [(2, tcueEntry tcueHeaderClasses 0 50 0x300)] := by
  decide

end Sys2Proof.Machine

namespace Sys2Proof
open Machine

/-- Refutes O42: its clause on the arming books the class in bits [27:24] of the header's second word, but PCLASS stands in the first
(R107, R121). Where only the class of the first word fits the pool, the cue is armed, while the clause has the cue table unchanged. -/
theorem not_recordsAndArmings : ¬ Obligations.RecordsAndArmings := by
  unfold Obligations.RecordsAndArmings
  rintro ⟨_, harm, _⟩
  obtain ⟨d, v, ⟨hexec, _⟩, _, _, hrefused⟩ := harm tcueHeaderClasses 0 tcueUndecided tcueOnly 0 0 0x1000000 (by decide) rfl rfl
    rfl (by decide) (by decide) (by decide) (by decide) rfl
  obtain ⟨_, htbl, _⟩ := hrefused (by decide)
  have ht := tcueHeaderClasses_armed
  rw [hexec rfl] at ht
  dsimp only at ht
  rw [commitBundle_cue (show tcueOnly.pfx ≠ some 0 by decide)] at ht
  exact absurd (htbl.symm.trans ht) (by decide)

end Sys2Proof
end

section
/-! PROOFS. The take engine: header reads, the descriptor fetch and admission (R121 to R128). -/

namespace Sys2Proof.Machine

/-! ## Table entries without the canonical form -/

section
variable {α : Type} [DecidableEq α]

/-- A value other than the reset value is read back where it was set, in any table. -/
theorem tget_tset_of_ne {d : Nat → α} {i : Nat} {v : α} (hv : v ≠ d i) (t : Tab α) : tget d (tset d i v t) i = v := by
  induction t with
  | nil => simp [tset, tget, hv]
  | cons e t ih =>
    obtain ⟨j, w⟩ := e
    by_cases h1 : i < j
    · simp [tset, tget, h1, hv]
    · by_cases h2 : i = j
      · simp [tset, tget, h2, h2 ▸ hv]
      · simp [tset, tget, h1, h2, ih]

/-- The entries of a canonical table are its values other than the reset value. -/
theorem mem_tab_iff {d : Nat → α} {lo : Nat} {t : Tab α} (h : tabWf d lo t = true) (i : Nat) (v : α) :
    (i, v) ∈ t ↔ lo ≤ i ∧ v ≠ d i ∧ tget d t i = v := by
  induction t generalizing lo with
  | nil =>
    simp only [List.not_mem_nil, tget, false_iff, not_and]
    exact fun _ hv he => hv he.symm
  | cons e t ih =>
    obtain ⟨j, w⟩ := e
    simp only [tabWf, Bool.and_eq_true, decide_eq_true_eq] at h
    obtain ⟨⟨hl, hw⟩, ht⟩ := h
    rw [List.mem_cons, ih ht, Prod.mk.injEq]
    by_cases hij : i = j
    · subst hij
      simp only [tget, if_true, true_and]
      constructor
      · rintro (rfl | ⟨h, _⟩)
        · exact ⟨hl, hw, rfl⟩
        · omega
      · exact fun h => Or.inl h.2.2.symm
    · by_cases hlt : i < j
      · simp only [tget, hij, hlt, if_true, if_false, false_and, false_or]
        constructor
        · rintro ⟨h, _⟩; omega
        · exact fun h => absurd h.2.2.symm h.2.1
      · simp only [tget, hij, hlt, if_false, false_and, false_or]
        constructor
        · exact fun h => ⟨by omega, h.2⟩
        · exact fun h => ⟨by omega, h.2⟩
end

/-! ## Slots -/

/-- A slot that is not FREE is read back where it was set, whatever the table of slots. -/
theorem State.slot_setSlot_of_ne {s : State} (h : tabWf quadInit 0 s.quads = true) (q k : Nat) {v : Slot} (hv : v.st ≠ .free) :
    (s.setSlot q k v).slot q k = v := by
  have hd : v ≠ slotInit k := fun he => hv (he ▸ rfl)
  have hq : (s.setSlot q k v).quad q = (s.quad q).setSlot k v := tget_tset_self h q _
  rw [State.slot, hq]
  exact tget_tset_of_ne hd _

/-! ## A demand -/

section
variable (d : Nat) (s : State)
/-- A demand writes domains only. -/
theorem addDemand_eq : addDemand d s = { s with doms := (addDemand d s).doms } :=
  (congrArg (fun t : State => { t with doms := (addDemand d s).doms }) (addDemand_frame d s) :)
@[simp] theorem addDemand_quads : (addDemand d s).quads = s.quads := (congrArg State.quads (addDemand_frame d s) :)
@[simp] theorem addDemand_chains : (addDemand d s).chains = s.chains := (congrArg State.chains (addDemand_frame d s) :)
@[simp] theorem addDemand_cullet : (addDemand d s).cullet = s.cullet := (congrArg State.cullet (addDemand_frame d s) :)
@[simp] theorem addDemand_bclk : (addDemand d s).bclk = s.bclk := (congrArg State.bclk (addDemand_frame d s) :)
@[simp] theorem addDemand_mem : (addDemand d s).mem = s.mem := (congrArg State.mem (addDemand_frame d s) :)
@[simp] theorem addDemand_synd : (addDemand d s).synd = s.synd := (congrArg State.synd (addDemand_frame d s) :)
@[simp] theorem addDemand_quad (q : Nat) : (addDemand d s).quad q = s.quad q := by rw [State.quad, addDemand_quads, State.quad]
@[simp] theorem addDemand_slot (q k : Nat) : (addDemand d s).slot q k = s.slot q k := by rw [State.slot, addDemand_quad, State.slot]
@[simp] theorem addDemand_spPeek (w : Nat) : spPeek (addDemand d s) w = spPeek s w := by
  simp only [spPeek, rawWord, addDemand_mem, addDemand_synd]
end

/-- A demand leaves quadrants and chains. -/
theorem addDemand_with (d : Nat) (s : State) : { addDemand d s with quads := s.quads, chains := s.chains } = addDemand d s := by
  rw [← addDemand_quads d s, ← addDemand_chains d s]

/-! ## Reads of the take engine -/

theorem spRead_good {s : State} {w : Nat} (h : (spPeek s w).2 = .good) : spRead s w = (s, (spPeek s w).1, false) := by
  unfold spRead
  simp only [h]

/-- Words without an error are read as they stand, with no effect (R234). -/
theorem readWords_good {s : State} {w n : Nat} (h : ∀ i, i < n → (spPeek s (w + i)).2 = .good) :
    readWords w n s = (s, (List.range n).map (fun i => (spPeek s (w + i)).1), none) := by
  induction n with
  | zero => rfl
  | succ n ih =>
    have ih := ih fun i hi => h i (by omega)
    rw [readWords] at ih ⊢
    rw [List.range_succ, List.foldl_append, ih]
    simp [spRead_good (h n (by omega))]

/-- A read of the take engine from an open bank that the take may use gives the words (R123, R128). -/
theorem takeRead_ok {q : Nat} {t : Slot} {a n w : Nat} {s : State} (hi : spIndex s a = some w) (hp : spOk s w (t.level, t.tag) = true)
    (ho : bankOpen s (w / 32768) (decide (ownerOf s (w / 32768) = BitVec.ofNat 8 (16 + q))) = true)
    (hg : ∀ i, i < n → (spPeek s (w + i)).2 = .good) :
    takeRead q t a n s = (addDemand (domBank (w / 32768)) s, .ok ((List.range n).map fun i => (spPeek s (w + i)).1)) := by
  have hr := readWords_good (s := addDemand (domBank (w / 32768)) s) (w := w) (n := n) (by simpa using hg)
  simp only [addDemand_spPeek] at hr
  simp only [takeRead, hi, hp, ho, hr, Bool.not_true, Bool.false_eq_true, if_false]

/-- The header read of a queued take fills both header words (R121). -/
theorem execHeaderRead_ok {q : Fin 4} {k : Fin 64} {w : Nat} {s : State} (hst : (s.slot q k).st = .queued) (hw : (s.slot q k).w0 = none)
    (hi : spIndex s (s.slot q k).desc = some w) (hp : spOk s w ((s.slot q k).level, (s.slot q k).tag) = true)
    (ho : bankOpen s (w / 32768) (decide (ownerOf s (w / 32768) = BitVec.ofNat 8 (16 + q))) = true)
    (hg : ∀ i, i < 2 → (spPeek s (w + i)).2 = .good) :
    exec (.headerRead q k) s = .next ((addDemand (domBank (w / 32768)) s).setSlot q k
      { s.slot q k with w0 := some (spPeek s w).1, w1 := some (spPeek s (w + 1)).1 }) := by
  change execHeaderRead q k s = _
  have hr := takeRead_ok hi hp ho hg
  simp only [execHeaderRead, hst, hw, and_self, if_true, hr, addDemand_slot]
  rfl

/-! ## Strips that wait, and the strips of a take -/

/-- No strip of the quadrant waits for a chain: none is placed (R130). -/
theorem placeWaiting_none {q : Nat} {s : State} (h : ∀ m ∈ s.cullet.moved, m.2.q ≠ q) : placeWaiting q s = s := by
  have hf : (s.cullet.moved.filter fun m => decide (m.1 = 64) && decide (m.2.q = q)) = [] :=
    List.filter_eq_nil_iff.2 fun m hm hc => by
      simp only [Bool.and_eq_true, decide_eq_true_eq] at hc
      exact h m hm hc.2
  rw [placeWaiting, hf, List.foldl_nil]

/-- No strip of the quadrant waits for a chain: none of the take does. -/
theorem not_isMoved {q k : Nat} {s : State} (h : ∀ m ∈ s.cullet.moved, m.2.q ≠ q) {m : Nat × Strip} (hm : m ∈ s.cullet.moved) :
    isMoved q k m = false := by
  simp [isMoved, h m hm]

/-- A chain runs a strip of the take: its strip names the take's quadrant and slot. -/
def runsTake (s : State) (q k p : Nat) : Prop := ∃ r, (s.chain p).strip = some r ∧ r.q = q ∧ r.slot = k

/-- The chains of a take are those whose strip is of the take. -/
theorem mem_takeChains {s : State} (h : tabWf chainInit 0 s.chains = true) (q k p : Nat) : p ∈ takeChains s q k ↔ runsTake s q k p := by
  simp only [takeChains, List.mem_map, List.mem_filter, Prod.exists]
  constructor
  · rintro ⟨i, c, ⟨hm, hc⟩, rfl⟩
    obtain ⟨_, _, hg⟩ := (mem_tab_iff h i c).1 hm
    split at hc
    next r hr =>
      simp only [Bool.and_eq_true, decide_eq_true_eq] at hc
      exact ⟨r, by rw [State.chain, hg, hr], hc⟩
    next => cases hc
  · rintro ⟨r, hr, hq, hk⟩
    have hne : s.chain p ≠ chainInit p := fun he => by rw [he] at hr; cases hr
    exact ⟨p, s.chain p, ⟨(mem_tab_iff h p _).2 ⟨Nat.zero_le _, hne, rfl⟩, by simp [hr, hq, hk]⟩, rfl⟩

/-! ## A fetch that passes (R126, R128) -/

/-- A take's other chains released: nothing but chains and its slot change (R133). -/
theorem keepOne_eq {q k : Nat} {s : State} (hm : ∀ m ∈ s.cullet.moved, m.2.q ≠ q) :
    ∃ C, keepOne q k s = { s with chains := C }.setSlot q k { s.slot q k with chains := (s.slot q k).chains.take 1 } := by
  unfold keepOne
  extract_lets t s1 keep src s2
  have h1 : { s1 with chains := s.chains } = s := by
    refine foldl_leaves (g := fun u : State => { u with chains := s.chains }) (fun u p => ?_) _ s
    dsimp only
    split
    · split <;> rfl
    · rfl
  have h1 : s1 = { s with chains := s1.chains } := by rw [← h1]
  have hany : s1.cullet.moved.any (isMoved q k) = false := by
    rw [h1]
    exact List.any_eq_false.2 fun m h => by simp [not_isMoved hm h]
  have h2 : s2 = s1 := if_neg (by simp [hany])
  refine ⟨s1.chains, ?_⟩
  rw [h2, placeWaiting_none]
  · rw [← h1]
  · rw [h1]; exact hm

/-- The slot of a take whose fetch has passed, with the chains that it keeps: with LENGTH 0 the take ends, and with SERIAL its width is 1
(R109, R126, R133, R134). -/
def Slot.passed (t : Slot) (ls : List Nat) : Slot :=
  let o := overlapOf t
  let ser := t.hSerial || o.asSer
  { t with chains := ls, fetched := true, serial := ser, holds := if ser then [] else o.holds, imgWait := t.cru && decide (0 < t.len),
           width := if ser then 1 else match o.holds with | [] => 16 | h :: r => pow2Le (r.foldl (fun m x => min m x.2.2) h.2.2),
           st := if t.len = 0 then .ending else t.st }

/-- A fetch that has passed sets the slot, and may release chains (R126, R133). -/
theorem fetchPassed_eq {q k : Nat} {s : State} (hw : tabWf quadInit 0 s.quads = true) (hm : ∀ m ∈ s.cullet.moved, m.2.q ≠ q)
    (hst : (s.slot q k).st = .running) :
    ∃ C Q ls, fetchPassed q k s = { s with chains := C, quads := Q }.setSlot q k ((s.slot q k).passed ls) ∧ tabWf quadInit 0 Q = true := by
  unfold fetchPassed
  extract_lets t o ser w s1 t1
  by_cases hb : (o.one && !t.splice && decide (1 < t.chains.length)) = true
  · obtain ⟨C, hC⟩ := keepOne_eq (k := k) hm
    have hs1 : s1 = { s with chains := C }.setSlot q k { s.slot q k with chains := (s.slot q k).chains.take 1 } := (if_pos hb).trans hC
    have ht1 : t1 = { s.slot q k with chains := (s.slot q k).chains.take 1 } := by
      change s1.slot q k = _
      rw [hs1]
      exact State.slot_setSlot_of_ne (s := { s with chains := C }) hw q k (by simp [hst])
    rw [ht1, hs1]
    exact ⟨C, _, (s.slot q k).chains.take 1, rfl, tabWf_tset hw (Nat.zero_le _) _⟩
  · have hs1 : s1 = s := if_neg hb
    have ht1 : t1 = s.slot q k := by change s1.slot q k = _; rw [hs1]
    rw [ht1, hs1]
    exact ⟨s.chains, s.quads, (s.slot q k).chains, rfl, hw⟩

/-- A fetch that has passed writes chains and quadrants only. -/
theorem fetchPassed_frame {q k : Nat} {s : State} (hw : tabWf quadInit 0 s.quads = true) (hm : ∀ m ∈ s.cullet.moved, m.2.q ≠ q)
    (hst : (s.slot q k).st = .running) (Q : Tab Quad) (C : Tab Chain) :
    { fetchPassed q k s with quads := Q, chains := C } = { s with quads := Q, chains := C } := by
  obtain ⟨_, _, _, he, _⟩ := fetchPassed_eq hw hm hst
  rw [he]
  rfl

/-- The slot after a fetch that has passed. -/
theorem fetchPassed_slot {q k : Nat} {s : State} (hw : tabWf quadInit 0 s.quads = true) (hm : ∀ m ∈ s.cullet.moved, m.2.q ≠ q)
    (hst : (s.slot q k).st = .running) : ∃ ls, (fetchPassed q k s).slot q k = (s.slot q k).passed ls := by
  obtain ⟨C, Q, ls, he, hQ⟩ := fetchPassed_eq hw hm hst
  have hne : ((s.slot q k).passed ls).st ≠ .free := by
    simp only [Slot.passed, hst]
    split <;> simp
  exact ⟨ls, by rw [he, State.slot_setSlot_of_ne (s := { s with chains := C, quads := Q }) hQ q k hne]⟩

/-! ## A fetch that fails (R128, R138) -/

/-- What the record of the take's fault rests on while the strips stop: the slot ENDING with the fault, and `M` the cullet. Every chain
of `L` whose strip stands runs the take. -/
structure Failing (q k : Nat) (f : Option TFault) (M : Cullet) (L : List Nat) (s : State) : Prop where
  quads  : tabWf quadInit 0 s.quads = true
  chains : tabWf chainInit 0 s.chains = true
  ending : (s.slot q k).st = .ending
  fault  : (s.slot q k).fault = f
  cullet : s.cullet = M
  mine   : ∀ p ∈ L, ∀ r, (s.chain p).strip = some r → r.q = q ∧ r.slot = k

section
variable {q k : Nat} {f : Option TFault} {M : Cullet} {L : List Nat} {s : State}

theorem Failing.setChain (h : Failing q k f M L s) (p : Nat) (c : Chain) (hc : p ∈ L → ∀ r, c.strip = some r → r.q = q ∧ r.slot = k) :
    Failing q k f M L (s.setChain p c) where
  quads := h.quads
  chains := tabWf_tset h.chains (Nat.zero_le _) c
  ending := h.ending
  fault := h.fault
  cullet := h.cullet
  mine := fun i hi r hr => by
    rw [State.chain, State.setChain_chains, tget_tset h.chains] at hr
    split at hr
    next he => exact hc (he ▸ hi) r hr
    next => exact h.mine i hi r hr

theorem Failing.setSlot (h : Failing q k f M L s) {t : Slot} (ht : t.st = .ending) (hf : t.fault = f) : Failing q k f M L (s.setSlot q k t) where
  quads := tabWf_tset h.quads (Nat.zero_le _) _
  chains := h.chains
  ending := by rw [State.slot_setSlot_of_ne h.quads q k (by simp [ht]), ht]
  fault := by rw [State.slot_setSlot_of_ne h.quads q k (by simp [ht]), hf]
  cullet := h.cullet
  mine := h.mine

/-- A replay undone writes the strip's own slot, and there REPLAYS only (R161). -/
theorem Failing.undoReplay (h : Failing q k f M L s) {p : Nat} (hp : p ∈ L) : Failing q k f M L (undoReplay p s) := by
  unfold Machine.undoReplay
  dsimp only
  split
  next u r _ hr =>
    obtain ⟨hq, hk⟩ := h.mine p hp r hr
    subst hq hk
    split
    · exact h
    · have h1 := h.setChain p { s.chain p with greplay := if u.2.1 then (s.chain p).greplay - 1 else (s.chain p).greplay, undo := none }
        (fun hp => h.mine p hp)
      have h2 := h1.setSlot (t := { s.slot r.q r.slot with replays := if u.2.2 then (s.slot r.q r.slot).replays - 1 else (s.slot r.q r.slot).replays })
        h.ending h.fault
      exact ⟨h2.quads, h2.chains, h2.ending, h2.fault, h2.cullet, h2.mine⟩
  next => exact h

/-- An element dropped leaves the strip with its take. -/
theorem dropElem_take (r : Strip) (e : Nat) : (r.dropElem e).q = r.q ∧ (r.dropElem e).slot = r.slot := by
  unfold Strip.dropElem
  split <;> exact ⟨rfl, rfl⟩

theorem Failing.dropFaulted (h : Failing q k f M (takeChains s q k) s) (e : Nat) : Failing q k f M (takeChains s q k) (dropFaulted q k e s) := by
  unfold Machine.dropFaulted
  refine List.foldlRecOn (motive := Failing q k f M (takeChains s q k)) _ _ h fun t ht p hp => ?_
  split
  next r hr =>
    have hm := ht.mine p hp r hr
    have hd := dropElem_take r e
    refine Failing.setChain ?_ p _ fun _ r' hr' => ?_
    · split
      · exact ht.undoReplay hp
      · exact ht
    · cases hr'
      exact ⟨hd.1.trans hm.1, hd.2.trans hm.2⟩
  next => exact ht

/-- No strip of the take waits for a chain, so that its strips only stop. -/
theorem Failing.stopStrips (h : Failing q k f M L s) (hm : ∀ m ∈ M.moved, m.2.q ≠ q) : Failing q k f M [] (stopStrips q k s) := by
  have h0 : Failing q k f M [] s := ⟨h.quads, h.chains, h.ending, h.fault, h.cullet, fun _ hp => nomatch hp⟩
  have hf : Failing q k f M [] ((takeChains s q k).foldl (fun s p => stopStrip p s) s) := by
    refine List.foldlRecOn (motive := Failing q k f M []) _ _ h0 fun t ht p _ => ?_
    unfold stopStrip
    split
    · exact ht
    · exact ht.setChain p _ nofun
  unfold Machine.stopStrips
  extract_lets s1 ms t src
  have hms : ms.isEmpty = true := by
    refine List.isEmpty_iff.2 (List.filter_eq_nil_iff.2 fun m hmem => ?_)
    rw [hf.cullet] at hmem
    simp [isMoved, hm m hmem]
  rw [if_pos hms]
  exact hf

end

/-- One chain is freed. -/
def clearStrip (s : State) (p : Nat) : State := s.setChain p { s.chain p with strip := none }

theorem freeStrips_eq (q k : Nat) (s : State) : freeStrips q k s = placeWaiting q ((takeChains s q k).foldl clearStrip s) := rfl

/-- Of the chains of a list that are freed none has a strip, and every other keeps its own. -/
theorem foldl_clearStrip_strip (L : List Nat) {s : State} (h : tabWf chainInit 0 s.chains = true) (p : Nat) :
    ((L.foldl clearStrip s).chain p).strip = if p ∈ L then none else (s.chain p).strip := by
  induction L generalizing s with
  | nil => simp
  | cons a L ih =>
    have ha : ((clearStrip s a).chain p).strip = if p = a then none else (s.chain p).strip := by
      rw [State.chain, clearStrip, State.setChain_chains, tget_tset h]
      split
      · rfl
      · rfl
    rw [List.foldl_cons, ih (tabWf_tset h (Nat.zero_le _) _), ha]
    by_cases hL : p ∈ L <;> simp [hL]

/-- The chains of the take are freed: none runs it. -/
theorem Failing.freeStrips {q k : Nat} {f : Option TFault} {M : Cullet} {L : List Nat} {s : State} (h : Failing q k f M L s)
    (hm : ∀ m ∈ M.moved, m.2.q ≠ q) : Failing q k f M L (freeStrips q k s) ∧ takeChains (freeStrips q k s) q k = [] := by
  have hf : Failing q k f M L ((takeChains s q k).foldl clearStrip s) :=
    List.foldlRecOn (motive := Failing q k f M L) _ _ h fun t ht p _ => ht.setChain p _ (by rintro _ r ⟨⟩)
  rw [freeStrips_eq, placeWaiting_none (by rw [hf.cullet]; exact hm)]
  refine ⟨hf, List.eq_nil_iff_forall_not_mem.2 fun p hp => ?_⟩
  obtain ⟨r, hr, hq, hk⟩ := (mem_takeChains hf.chains q k p).1 hp
  rw [foldl_clearStrip_strip _ h.chains] at hr
  split at hr
  next => cases hr
  next hp => exact hp ((mem_takeChains h.chains q k p).2 ⟨r, hr, hq, hk⟩)

/-- A fetch check that fails ends the take with its code, and no chain runs it (R128). -/
theorem fetchFails_spec {q k : Nat} {s : State} (hw : tabWf quadInit 0 s.quads = true) (hc : tabWf chainInit 0 s.chains = true)
    (hm : ∀ m ∈ s.cullet.moved, m.2.q ≠ q) (hst : (s.slot q k).st = .running) (ha : (s.slot q k).aborted = false)
    (hf : (s.slot q k).fault = none) (f : TFault) :
    ((fetchFails q k f s).slot q k).st = .ending ∧ ((fetchFails q k f s).slot q k).fault = some f
      ∧ takeChains (fetchFails q k f s) q k = [] := by
  have hfail : Failing q k (some f) s.cullet [] (takeFault q k f s) := by
    unfold takeFault
    extract_lets t better t1
    rw [if_neg (by simp [t, hst])]
    have ht1 : t1.st = .ending ∧ t1.fault = some f := by simp [t1, t, better, ha, hf]
    have hread := State.slot_setSlot_of_ne hw q k (v := t1) (by simp [ht1.1])
    refine (Failing.dropFaulted (s := s.setSlot q k t1) ⟨tabWf_tset hw (Nat.zero_le _) _, hc, ?_, ?_, rfl, ?_⟩ f.elem).stopStrips hm
    · rw [hread, ht1.1]
    · rw [hread, ht1.2]
    · intro p hp r hr
      obtain ⟨r', hr', hq, hk⟩ := (mem_takeChains hc q k p).1 hp
      cases hr.symm.trans hr'
      exact ⟨hq, hk⟩
  obtain ⟨hend, hnone⟩ := hfail.freeStrips hm
  exact ⟨hend.ending, hend.fault, hnone⟩

/-! ## The descriptor fetch (R128) -/

/-- The slot of the take as the fetch checks it: the words `ws` that were read, and the directory entry as it stands. -/
def Slot.asRead (t : Slot) (s : State) (q : Nat) (ws : List Word) : Slot :=
  let e := (s.quad q).seen (fld (lget 0 ws 0) 8 0) s.bclk
  { t with words := ws, ent := e, ship := shippedReel (s.quad q) e, fetchAt := some s.bclk }

/-- The checks of a fetch look at a state's chains and maps only. -/
theorem fetchCode_congr {s u : State} (hc : u.chains = s.chains) (hm : u.cullet = s.cullet) (t : Slot) : fetchCode u t = fetchCode s t := by
  cases u
  cases s
  dsimp only at hc hm
  subst hc hm
  rfl

/-- A fetch that reads its words makes its checks on them, and the take runs or fails with the code (R128). -/
theorem execDescriptorFetch_read {q : Fin 4} {k : Fin 64} {w : Nat} {s : State} {ws : List Word} (hst : (s.slot q k).st = .running)
    (hfet : (s.slot q k).fetched = false) (hst' : awake s (domStore q) = true)
    (hi : spIndex s (s.slot q k).desc = some w) (hp : spOk s w ((s.slot q k).level, (s.slot q k).tag) = true)
    (ho : bankOpen s (w / 32768) (decide (ownerOf s (w / 32768) = BitVec.ofNat 8 (16 + q))) = true)
    (hws : ws = (List.range 16).map fun i => (spPeek s (w + i)).1) (hg : ∀ i, i < 16 → (spPeek s (w + i)).2 = .good)
    (hx : bit (lget 0 ws 0) 20 = false) :
    let f := (s.slot q k).asRead s q ws
    let u := (addDemand (domBank (w / 32768)) s).setSlot q k f
    exec (.descriptorFetch q k) s = .next (match fetchCheck u f with | some c => fetchFails q k ⟨c, 0, 0⟩ u | none => fetchPassed q k u) := by
  intro f u
  change execDescriptorFetch q k s = _
  have hr := takeRead_ok hi hp ho hg
  rw [← hws] at hr
  unfold execDescriptorFetch
  dsimp only
  rw [if_neg (by simp [hst, hfet]), if_neg (by simp [hst']), hr]
  dsimp only
  rw [if_neg (by rw [hx]; exact Bool.false_ne_true)]
  simp only [List.append_nil, addDemand_quad]
  change (match fetchCheck u f with | some c => Host.Outcome.next (fetchFails q k ⟨c, 0, 0⟩ u) | none => .next (fetchPassed q k u)) = _
  cases fetchCheck u f <;> rfl


/-- The slot, once the words of its descriptor are in it, is read back. -/
theorem slot_setSlot_asRead {q k : Nat} {s : State} (hs : s.formed = true) (hst : (s.slot q k).st = .running) (d : Nat) (ws : List Word) :
    ((addDemand d s).setSlot q k ((s.slot q k).asRead s q ws)).slot q k = (s.slot q k).asRead s q ws :=
  State.slot_setSlot_of_ne (by rw [addDemand_quads]; exact State.formed_quads hs) q k (by simp [Slot.asRead, hst])

section
variable {q k : Nat} {s : State} (hs : s.formed = true) (hst : (s.slot q k).st = .running) (hm : ∀ m ∈ s.cullet.moved, m.2.q ≠ q)
  (d : Nat) (ws : List Word)
include hs hst hm

/-- A fetch that passes its checks (R126, R128). -/
theorem fetchPassed_asRead :
    let f := (s.slot q k).asRead s q ws
    let u := fetchPassed q k ((addDemand d s).setSlot q k f)
    { u with quads := s.quads, chains := s.chains } = addDemand d s ∧ (u.slot q k).fetched = true ∧ (u.slot q k).words = ws
      ∧ (u.slot q k).st = (if f.len = 0 then .ending else .running)
      ∧ (f.hSerial = true → (u.slot q k).serial = true ∧ (u.slot q k).width = 1) := by
  intro f u
  have hread := slot_setSlot_asRead hs hst d ws
  have hw : tabWf quadInit 0 ((addDemand d s).setSlot q k f).quads = true :=
    tabWf_tset (by rw [addDemand_quads]; exact State.formed_quads hs) (Nat.zero_le _) _
  have hm' : ∀ m ∈ ((addDemand d s).setSlot q k f).cullet.moved, m.2.q ≠ q := by
    rw [State.setSlot_cullet, addDemand_cullet]; exact hm
  have hst' : (((addDemand d s).setSlot q k f).slot q k).st = .running := by rw [hread]; exact hst
  obtain ⟨ls, hslot⟩ := fetchPassed_slot hw hm' hst'
  rw [hread] at hslot
  refine ⟨(fetchPassed_frame hw hm' hst' s.quads s.chains).trans (addDemand_with d s), ?_, ?_, ?_, fun hser => ?_⟩
  all_goals rw [hslot]
  · rfl
  · rfl
  · rw [← hst]; rfl
  · simp [Slot.passed, f, hser]

/-- A fetch that fails a check (R128). -/
theorem fetchFails_asRead (ha : (s.slot q k).aborted = false) (hf : (s.slot q k).fault = none) (x : TFault) :
    let u := fetchFails q k x ((addDemand d s).setSlot q k ((s.slot q k).asRead s q ws))
    (u.slot q k).st = .ending ∧ (u.slot q k).fault = some x ∧ takeChains u q k = [] := by
  have hread := slot_setSlot_asRead hs hst d ws
  refine fetchFails_spec (tabWf_tset ?_ (Nat.zero_le _) _) ?_ ?_ ?_ ?_ ?_ x
  · rw [addDemand_quads]; exact State.formed_quads hs
  · rw [State.setSlot_chains, addDemand_chains]; exact State.formed_chains hs
  · rw [State.setSlot_cullet, addDemand_cullet]; exact hm
  · rw [hread]; exact hst
  · rw [hread]; exact ha
  · rw [hread]; exact hf
end

/-! ## Admission (R126, R127) -/

/-- A commit of a chain page writes that chain, its header and the dailies (R37). -/
theorem chainCommit_frame (p : Nat) {s : State} (hw : tabWf chainInit 0 s.chains = true) :
    ∃ c, { chainCommit p s with hdr := s.hdr, ras := s.ras } = s.setChain p c := by
  unfold chainCommit
  dsimp only
  split
  · refine ⟨{ s.chain p with srLive := (s.chain p).srStg, swLive := (s.chain p).swStg }, ?_⟩
    split
    · exact congrArg (fun t : State => { t with hdr := s.hdr }) (logEv_frame 0x02 0 (pgChain p) 0 _ false)
    · rfl
  · split
    · exact ⟨_, rfl⟩
    · exact ⟨s.chain p, by rw [State.setChain, State.chain, tset_tget hw]⟩

/-- One chain is given to a take (R127): the strip at position `x.2` starts on the chain that serves logical chain `x.1`. -/
def placeNew (q k : Nat) (t : Slot) (n : Nat) (s : State) (x : Nat × Nat) : State :=
  match s.chPhys x.1 with
  | some p =>
    let s := chainCommit p s
    addDemand (domChain p) (s.setChain p { s.chain p with strip := some (newStrip q k t n x.2 x.1) })
  | none => s

theorem allocate_eq (q k : Nat) (ls : List Nat) (s : State) :
    allocate q k ls s = ls.zipIdx.foldl (placeNew q k (s.slot q k) ls.length) s := rfl

section
variable {q k n : Nat} {t : Slot}

/-- One allocation writes chains, headers, the dailies and demands. -/
theorem placeNew_frame (s : State) (x : Nat × Nat) (hw : tabWf chainInit 0 s.chains = true) :
    { placeNew q k t n s x with chains := s.chains, hdr := s.hdr, ras := s.ras, doms := s.doms } = s
      ∧ tabWf chainInit 0 (placeNew q k t n s x).chains = true := by
  unfold placeNew
  split
  next p _ =>
    obtain ⟨c, hc⟩ := chainCommit_frame p hw
    have hch : (chainCommit p s).chains = tset chainInit p c s.chains := congrArg State.chains hc
    dsimp only
    constructor
    · calc _ = { ({ chainCommit p s with hdr := s.hdr, ras := s.ras } : State) with chains := s.chains, doms := s.doms } := by
            rw [addDemand_eq]; rfl
        _ = s := by rw [hc]; rfl
    · rw [addDemand_chains, State.setChain_chains, hch]
      exact tabWf_tset (tabWf_tset hw (Nat.zero_le _) _) (Nat.zero_le _) _
  next => exact ⟨rfl, hw⟩

/-- One allocation gives its chain the strip and leaves the strip of every other. -/
theorem placeNew_strip {s : State} (hw : tabWf chainInit 0 s.chains = true) (x : Nat × Nat) (p : Nat) :
    ((placeNew q k t n s x).chain p).strip = if s.chPhys x.1 = some p then some (newStrip q k t n x.2 x.1) else (s.chain p).strip := by
  unfold placeNew
  split
  next i hi =>
    obtain ⟨c, hc⟩ := chainCommit_frame i hw
    have hch : (chainCommit i s).chains = tset chainInit i c s.chains := congrArg State.chains hc
    rw [hi, State.chain, addDemand_chains, State.setChain_chains, hch, tget_tset (tabWf_tset hw (Nat.zero_le _) _), tget_tset hw]
    by_cases hp : p = i
    · simp [hp]
    · simp [hp, Ne.symm hp, State.chain]
  next hi => simp [hi]

/-- The strips of the chains allocated: where every logical chain of the list has its own physical chain, each runs the strip at its position,
and a chain that serves none of them keeps its own. -/
theorem foldl_placeNew_strip (l : List (Nat × Nat)) {s : State} (hw : tabWf chainInit 0 s.chains = true)
    (hi : l.Pairwise fun x y => s.chPhys x.1 ≠ none → s.chPhys x.1 ≠ s.chPhys y.1) (p : Nat) :
    (∀ x ∈ l, s.chPhys x.1 = some p → ((l.foldl (placeNew q k t n) s).chain p).strip = some (newStrip q k t n x.2 x.1))
    ∧ ((∀ x ∈ l, s.chPhys x.1 ≠ some p) → ((l.foldl (placeNew q k t n) s).chain p).strip = (s.chain p).strip) := by
  induction l generalizing s with
  | nil => simp
  | cons a l ih =>
    obtain ⟨hf, hw'⟩ := placeNew_frame (q := q) (k := k) (n := n) (t := t) s a hw
    have hcul : (placeNew q k t n s a).cullet = s.cullet := (congrArg State.cullet hf :)
    have hph : ∀ i, (placeNew q k t n s a).chPhys i = s.chPhys i := fun i => by rw [State.chPhys, hcul, State.chPhys]
    obtain ⟨ha, hl⟩ := List.pairwise_cons.1 hi
    have hs := placeNew_strip (q := q) (k := k) (n := n) (t := t) hw a p
    obtain ⟨ih1, ih2⟩ := ih hw' (by simpa only [hph] using hl)
    simp only [hph] at ih1 ih2
    rw [List.foldl_cons]
    refine ⟨fun x hx hp => ?_, fun hn => ?_⟩
    · rcases List.mem_cons.1 hx with rfl | hx
      · rw [ih2 fun y hy hpy => ha y hy (by simp [hp]) (hp.trans hpy.symm), hs, if_pos hp]
      · exact ih1 x hx hp
    · rw [ih2 fun x hx => hn x (List.mem_cons_of_mem _ hx), hs, if_neg (hn a List.mem_cons_self)]

/-- The allocation of chains leaves everything but chains, their headers, the dailies and demands. -/
theorem allocate_frame (ls : List Nat) {s : State} (hw : tabWf chainInit 0 s.chains = true) :
    { allocate q k ls s with chains := s.chains, hdr := s.hdr, ras := s.ras, doms := s.doms } = s := by
  rw [allocate_eq]
  refine (List.foldlRecOn (motive := fun u : State => { u with chains := s.chains, hdr := s.hdr, ras := s.ras, doms := s.doms } = s
    ∧ tabWf chainInit 0 u.chains = true) _ _ ⟨rfl, hw⟩ fun u hu x _ => ?_).1
  obtain ⟨hf, hw'⟩ := placeNew_frame (q := q) (k := k) (n := ls.length) (t := s.slot q k) u x hu.2
  exact ⟨(congrArg (fun v : State => { v with chains := s.chains, hdr := s.hdr, ras := s.ras, doms := s.doms }) hf).trans hu.1, hw'⟩

/-- Each chain allocated runs the strip at its position (R127, R129). -/
theorem allocate_strip {ls : List Nat} {s : State} (hw : tabWf chainInit 0 s.chains = true) (hnd : ls.Nodup)
    (hi : ∀ a ∈ ls, ∀ b ∈ ls, s.chPhys a = s.chPhys b → a = b) {x : Nat × Nat} (hx : x ∈ ls.zipIdx) {p : Nat} (hp : s.chPhys x.1 = some p) :
    ((allocate q k ls s).chain p).strip = some (newStrip q k (s.slot q k) ls.length x.2 x.1) := by
  have hpw : ls.zipIdx.Pairwise fun x y => s.chPhys x.1 ≠ none → s.chPhys x.1 ≠ s.chPhys y.1 := by
    have hfst : (ls.zipIdx.map Prod.fst).Pairwise (· ≠ ·) := by rwa [List.zipIdx_map_fst]
    refine (List.pairwise_map.1 hfst).imp_of_mem fun {a b} ha hb hne _ he => hne ?_
    exact hi a.1 (List.fst_mem_of_mem_zipIdx ha) b.1 (List.fst_mem_of_mem_zipIdx hb) he
  rw [allocate_eq]
  exact (foldl_placeNew_strip _ hw hpw p).1 x hx hp
end

/-- The candidate with its number of chains fixed asks for leave (R124). -/
theorem execAdmission_asks {q : Fin 4} {k n : Nat} {s : State} (hr : s.blk.ready = true) (hz : s.cullet.frozen = false)
    (hm : ∀ m ∈ s.cullet.moved, m.2.q ≠ q) (hc : candOf (s.quad q) = some k) (hn : fixedCount s q (s.slot q k) = some n)
    (hl : (s.slot q k).len ≠ 0) (hlv : (s.slot q k).leave = false) :
    exec (.admission q) s = .next (askLeave ⟨(s.slot q k).prio, .take q k, (s.slot q k).pclass⟩ (fixCount q (s.slot q k) n s)) := by
  change execAdmission q s = _
  simp only [execAdmission, hr, hz, placeWaiting_none hm, hc, hn, hl, hlv, Bool.not_true, Bool.or_self, Bool.not_false, Bool.false_eq_true,
    if_false, if_true]

/-- With leave the candidate is given the chains that are free (R124, R127). -/
theorem execAdmission_gives {q : Fin 4} {k n : Nat} {s : State} {ls : List Nat} (hr : s.blk.ready = true) (hz : s.cullet.frozen = false)
    (hm : ∀ m ∈ s.cullet.moved, m.2.q ≠ q) (hc : candOf (s.quad q) = some k) (hn : fixedCount s q (s.slot q k) = some n)
    (hl : (s.slot q k).len ≠ 0) (hlv : (s.slot q k).leave = true) (hfr : (s.header (pgQuad q)).freeze = false)
    (hls : freeSet s q n (s.slot q k) = some ls) :
    exec (.admission q) s = .next (allocate q k ls
      ((fixCount q (s.slot q k) n s).setSlot q k { s.slot q k with st := .running, chains := ls })) := by
  have hfr' : ((fixCount q (s.slot q k) n s).header (pgQuad q)).freeze = false := hfr
  have hls' : freeSet (fixCount q (s.slot q k) n s) q n (s.slot q k) = some ls := hls
  change execAdmission q s = _
  unfold execAdmission
  dsimp only
  rw [if_neg (by simp [hr, hz]), placeWaiting_none hm, hc]
  dsimp only
  rw [hn]
  dsimp only
  rw [if_neg hl, if_neg (by simp [hlv]), if_neg (by simp [hfr']), hls']

/-- A take that is no pipeline gets the lowest free chains of its quadrant (R127). -/
theorem freeSet_lowest {s : State} {q n : Nat} {t : Slot} (hs : t.splice = false) (h0 : 0 < n)
    (hn : n ≤ ((inService s q).filter (chainFree s)).length) : freeSet s q n t = some (((inService s q).filter (chainFree s)).take n) := by
  unfold freeSet
  rw [if_neg (by simp [hs])]
  exact if_pos ⟨hn, h0⟩

theorem inService_nodup (s : State) (q : Nat) : (inService s q).Nodup :=
  (List.pairwise_map.2 (List.nodup_range.imp fun hne he => hne (Nat.add_left_cancel he))).filter _

/-- The state once the candidate runs on the chains `ls`, each with its own physical chain: its slot names them, and each has its strip. -/
theorem allocate_spec {q k n : Nat} {s : State} {ls : List Nat} (hs : s.formed = true) (hls : ls.length = n) (hnd : ls.Nodup)
    (hi : ∀ a ∈ ls, ∀ b ∈ ls, s.chPhys a = s.chPhys b → a = b) (t : Slot) :
    let u := allocate q k ls ((fixCount q t n s).setSlot q k { t with st := .running, chains := ls })
    { u with quads := s.quads, chains := s.chains, hdr := s.hdr, ras := s.ras, doms := s.doms } = s
      ∧ u.slot q k = { t with st := .running, chains := ls }
      ∧ ∀ x ∈ ls.zipIdx, ∀ p, s.chPhys x.1 = some p → (u.chain p).strip = some (newStrip q k t n x.2 x.1) := by
  intro u
  have hchains := State.formed_chains hs
  have hread : ((fixCount q t n s).setSlot q k { t with st := .running, chains := ls }).slot q k = { t with st := .running, chains := ls } :=
    State.slot_setSlot_of_ne (tabWf_tset (State.formed_quads hs) (Nat.zero_le _) _) q k (by simp)
  have hf := allocate_frame (q := q) (k := k) ls (s := (fixCount q t n s).setSlot q k { t with st := .running, chains := ls }) hchains
  refine ⟨(congrArg (fun u : State => { u with quads := s.quads }) hf :), ?_, fun x hx p hp => ?_⟩
  · exact (congrArg (fun v : State => v.slot q k) hf :).trans hread
  · have h := allocate_strip (q := q) (k := k) (s := (fixCount q t n s).setSlot q k { t with st := .running, chains := ls }) hchains hnd hi hx hp
    rw [hread, hls] at h
    exact h

end Sys2Proof.Machine

namespace Sys2Proof
open Machine

/-- Settles O41: the reads of the take engine find what scratchpad holds (`takeRead_ok`); a fetch that passes only fixes how the take runs
(`fetchPassed_eq`), one that fails ends it and frees its chains (`fetchFails_spec`); admission gives each free chain its strip
(`allocate_spec`). -/
theorem takesAreFetchedAndAdmitted : Obligations.TakesAreFetchedAndAdmitted := by
  unfold Obligations.TakesAreFetchedAndAdmitted
  intro s q k w hs t mineA v
  refine ⟨fun hi hp ho => ⟨fun hst hw hg => execHeaderRead_ok hst hw hi hp ho hg, ?_⟩, ?_⟩
  · intro ws hst hfet haw hws hg hx hm e f c
    have hcode : fetchCheck (v.setSlot q k f) f = c := fetchCode_congr (addDemand_chains _ _) (addDemand_cullet _ _) _
    have hexec := execDescriptorFetch_read hst hfet haw hi hp ho hws hg hx
    change exec (.descriptorFetch q k) s = .next (match fetchCheck (v.setSlot q k f) f with
      | some c => fetchFails q k ⟨c, 0, 0⟩ (v.setSlot q k f) | none => fetchPassed q k (v.setSlot q k f)) at hexec
    rw [hcode] at hexec
    refine ⟨fun hc => ?_, fun x hc ha hf => ?_⟩
    · rw [hc] at hexec
      exact ⟨_, hexec, fetchPassed_asRead hs hst hm _ ws⟩
    · rw [hc] at hexec
      exact ⟨_, hexec, fetchFails_asRead hs hst hm _ ws ha hf ⟨x, 0, 0⟩⟩
  · intro n hr hz hc hl hm hn
    refine ⟨fun hlv => execAdmission_asks hr hz hm hc hn hl hlv, fun hlv hfr hsp h0 hlen hinj => ?_⟩
    have hsub : ∀ a ∈ ((inService s q).filter (chainFree s)).take n, a ∈ inService s q :=
      fun a ha => (List.mem_filter.1 (List.mem_of_mem_take ha)).1
    exact ⟨_, execAdmission_gives hr hz hm hc hn hl hlv hfr (freeSet_lowest hsp h0 hlen),
      allocate_spec hs (List.length_take_of_le hlen) (((inService_nodup s q).filter _).sublist (List.take_sublist _ _))
        (fun a ha b hb => hinj a (hsub a ha) b (hsub b hb)) t⟩

end Sys2Proof
end

section
/-! PROOFS. The address generator of a chain, and what reaches a chain on channel P or a link (R170, R173, R191). -/

namespace Sys2Proof.Machine

/-! ## A chain written and read back -/

/-- What chain `i` holds once chain `p` has been set. -/
theorem State.chain_setChain {s : State} (h : tabWf chainInit 0 s.chains = true) (p i : Nat) (v : Chain) :
    (s.setChain p v).chain i = if i = p then v else s.chain i := tget_tset h p i v

theorem State.setChain_setChain {s : State} (h : tabWf chainInit 0 s.chains = true) (p : Nat) (v w : Chain) :
    (s.setChain p v).setChain p w = s.setChain p w :=
  congrArg (fun c => { s with chains := c }) (tset_tset h p v w)

theorem State.setChain_chain {s : State} (h : tabWf chainInit 0 s.chains = true) (p : Nat) : s.setChain p (s.chain p) = s :=
  congrArg (fun c => { s with chains := c }) (tset_tget h p)

theorem State.setChain_wf {s : State} (h : tabWf chainInit 0 s.chains = true) (p : Nat) (v : Chain) :
    tabWf chainInit 0 (s.setChain p v).chains = true := tabWf_tset h (Nat.zero_le _) v

/-! ## Steering (R183 to R187, R294) -/

@[simp] theorem addDemand_steer (d : Nat) (s : State) : (addDemand d s).steer = s.steer := (congrArg State.steer (addDemand_frame d s) :)
@[simp] theorem addDemand_chain (d : Nat) (s : State) (p : Nat) : (addDemand d s).chain p = s.chain p := by
  rw [State.chain, addDemand_chains, State.chain]

/-- An entry without an error is read as it stands, with no effect (R187). -/
theorem bstLookup_clean {g : Nat} {s : State} (h : tget zeroD s.steer.synd g = 0) : bstLookup g s = (s, s.bstEntry g) := by
  have hbad : decide (popLow (0 : BitVec 40) 39 ≥ 2) = false := by decide
  simp only [bstLookup, bstCheck, noteRowInj, h, hbad, if_true, Bool.false_and, Bool.false_eq_true, if_false]

/-- A take may steer line `l`: the half with its entry is awake, and the entry is without an error and passes the checks (R185, R187, R188). -/
structure Steers (s : State) (t : Slot) (st : Bool) (l : Nat) : Prop where
  awake : bstAwake s (l / 2 ^ 14) = true
  clean : tget zeroD s.steer.synd (l / 2 ^ 14) = 0
  check : steerCheck (s.bstEntry (l / 2 ^ 14)) t.level t.jobtag false st = none

/-- The line gets the port that its entry gives; the lookup is a demand (R183, R294). -/
theorem Steers.steerLine_eq {s : State} {t : Slot} {st : Bool} {l : Nat} (h : Steers s t st l) :
    steerLine l t.level t.jobtag false st s = (addDemand (domBst (bstHalf (l / 2 ^ 14))) s,
      .ok (steerPort (s.bstEntry (l / 2 ^ 14)) l, s.ptPhys (steerPort (s.bstEntry (l / 2 ^ 14)) l))) := by
  have hb : (addDemand (domBst (bstHalf (l / 2 ^ 14))) s).bstEntry (l / 2 ^ 14) = s.bstEntry (l / 2 ^ 14) := by
    rw [State.bstEntry, addDemand_steer, State.bstEntry]
  unfold steerLine
  rw [bstLookup_clean (by rw [addDemand_steer]; exact h.clean)]
  dsimp only
  rw [hb, h.check]
  simp only [State.ptPhys, addDemand_steer]

/-! ## Channel P and links (R170, R173) -/

theorem takeForwarded_nil {r : Strip} (h : r.fin = []) : takeForwarded r = ([], r.fin) := by simp [takeForwarded, h]

/-- No element is forwarded where none has landed. -/
theorem forward_nil (r : Strip) (s : State) : forward r [] s = s := by
  unfold forward
  split
  · rfl
  · split <;> simp

/-- Where no element lands, and the take waits for no image or row pointer, the chain stays as it is. -/
theorem landIn_nil {p : Nat} {r : Strip} {s : State} (hw : tabWf chainInit 0 s.chains = true) (hr : (s.chain p).strip = some r)
    (hi : (s.slot r.q r.slot).imgWait = false) (hs : (s.slot r.q r.slot).ship ≠ some 0x0D) : landIn p [] s = s := by
  have hl : landAll [] r = r := by simp [landAll]
  simp only [landIn, hr, hl, hs, false_and, if_false, forward_nil, hi, Bool.false_eq_true]
  rw [← hr]
  exact State.setChain_chain hw p

/-- A vector of channel P reaches a prepared chain (R170). -/
theorem execSpliceVectorArrival_vector {s : State} {p : Fin 68} {r : Strip} (hs : s.formed = true) (hr : (s.chain p).strip = some r)
    {v : List Word} {l : List (List Word)} (hready : r.ready = true) (hc : r.chan = v :: l) (hf : r.fin = [])
    (hi : (s.slot r.q r.slot).imgWait = false) (hship : (s.slot r.q r.slot).ship ≠ some 0x0D) :
    exec (.spliceVectorArrival p) s
      = .next (s.setChain p { s.chain p with strip := some { r with spin := r.spin ++ [v], chan := l } }) := by
  have hw := State.formed_chains hs
  change execSpliceVectorArrival p s = _
  simp only [execSpliceVectorArrival, hr]
  rw [if_neg (by simp [hready]), takeForwarded_nil hf, hc]
  refine congrArg Host.Outcome.next (landIn_nil (r := { r with spin := r.spin ++ [v], chan := l }) (State.setChain_wf hw _ _) ?_ hi hship)
  rw [State.chain_setChain_self hs]
  rfl

/-- The next element of a link reaches the consumer's read region, and counts as stored at its producer (R173). -/
theorem execLinkElementArrival_accepts {s : State} {p : Fin 68} {r : Strip} (hr : (s.chain p).strip = some r) {e : LinkEl} {l : List LinkEl}
    (hrecv : recvLink s (s.slot r.q r.slot) r = true) (hl : tget (fun _ => []) s.link r.lchain = e :: l)
    (hhi : r.lo + r.lin.length < r.hi) (hroom : r.lin.length < (r.cptr - r.lo) + 8 * regionLines r) :
    exec (.linkElementArrival p) s = .next (linkStored e
      { s.setChain p { s.chain p with strip := some { r with lin := r.lin ++ [e.val] } } with link := tset (fun _ => []) r.lchain l s.link }) := by
  change execLinkElementArrival p s = _
  simp only [execLinkElementArrival, hr, hrecv, hl]
  rw [if_neg (by omega)]
  rfl

/-! ## Store entries (R191) -/

theorem marverLimit_of_testen {s : State} (h : s.blk.testen = false) : marverLimit s = 512 := by simp [marverLimit, h]

/-- With nothing staged no store entry is made. -/
theorem createStores_nil {p : Nat} {r : Strip} {s : State} (hr : (s.chain p).strip = some r) (hs : r.staged = []) (n : Nat) :
    createStores p n s = s := by
  cases n with
  | zero => rfl
  | succ n => simp [createStores, hr, hs, storeOrder]

/-- The one staged element of a strip that has ended goes into an entry of its line, with the port of its steering. -/
theorem createStores_single {p n : Nat} {r : Strip} {s : State} {x : Staged} {l : Nat × Nat × Nat} (hw : tabWf chainInit 0 s.chains = true)
    (hr : (s.chain p).strip = some r) (ht : s.blk.testen = false) (hm : (s.chain p).marver.length < 512) (he : r.ended = true)
    (hs : r.staged = [x]) (hg : r.stgErr = []) (hl : (r.steered.find? fun y => decide (y.1 = x.addr / 64)) = some l) :
    createStores p (n + 1) s = s.setChain p
      { s.chain p with
        strip := some { r with staged := [], steered := r.steered.filter fun y => decide (y.1 ≠ x.addr / 64) },
        marver := (s.chain p).marver ++ [storeEntry (x.addr / 64) [x] (s.slot r.q r.slot) s.bclk l.2] } := by
  have hready : lineReady (s.slot r.q r.slot) r (x.addr / 64) = true := by simp [lineReady, he]
  have hfind : ((storeOrder r.staged).find? fun x => lineReady (s.slot r.q r.slot) r (x.addr / 64)) = some x := by
    simp [hs, storeOrder, hready]
  have hfull : ¬ marverLimit s ≤ (s.chain p).marver.length := by rw [marverLimit_of_testen ht]; omega
  have hgood : ([x].any fun y => r.stgErr.contains (y.stream, y.elem)) = false := by simp [hg]
  have hline : (r.staged.filter fun y => decide (y.addr / 64 = x.addr / 64)) = [x] := by simp [hs]
  have hrest : (r.staged.filter fun y => decide (y.addr / 64 ≠ x.addr / 64)) = [] := by simp [hs]
  rw [createStores]
  simp only [hr, hfind, hline, hrest, hgood, Bool.false_eq_true, if_false, hfull, hl]
  refine createStores_nil (r := { r with staged := [], steered := r.steered.filter fun y => decide (y.1 ≠ x.addr / 64) }) ?_ rfl n
  rw [State.chain_setChain hw, if_pos rfl]

/-! ## The read entry of a COPY's last element (R111, R191) -/

/-- The strip reads stream A of a COPY in place, nothing holds its reads back, and it has one element to ask for. -/
structure AsksOne (t : Slot) (r : Strip) : Prop where
  ship    : t.ship = some 0
  linear  : t.mode 0 = 1
  image   : t.imgWait = false
  cap     : t.cap = none
  serial  : t.serial = false
  holds   : t.holds = []
  spliced : r.spliced = false
  streams : r.streams = [0]
  stop    : r.stop = false
  nxt     : r.nxt = []
  hi      : r.hi = r.from_ + 1

/-- The strip once its element has been asked for. -/
def Strip.asked (r : Strip) : Strip := { r with nxt := [(0, 1)] }

section
variable {s : State} {c : Chain} {t : Slot} {r : Strip} {p : Nat} (h : AsksOne t r)
include h

theorem AsksOne.nextItem_eq : nextItem c t r 0 = some ⟨r.from_, r.from_, 1⟩ := by
  simp [nextItem, h.ship, h.image, h.nxt, h.hi, tget]

theorem AsksOne.nextItem_asked : nextItem c t r.asked 0 = none := by
  simp [nextItem, Strip.asked, h.ship, h.image, h.hi, tget]

theorem AsksOne.itemAddr_eq (i : Item) : itemAddr t r 0 i = some (linAddr t 0 i.key) := by
  simp [itemAddr, streamOf, elementOf, h.ship, h.linear]

theorem AsksOne.mayAsk_eq (e : Nat) : mayAsk s t r e = true := by
  simp [mayAsk, h.cap, h.stop, h.serial]

theorem AsksOne.holdOf_eq (key : Int) : holdOf t 0 key = none := by simp [holdOf, h.holds]

theorem AsksOne.pickItem_eq (hroom : roomFor s p r 0 = true) :
    pickItem s p t r = some (0, ⟨r.from_, r.from_, 1⟩, linAddr t 0 r.from_) := by
  simp [pickItem, askStreams, h.spliced, h.image, h.streams, h.nextItem_eq, h.itemAddr_eq, h.mayAsk_eq, hroom]

theorem AsksOne.pickItem_asked : pickItem s p t r.asked = none := by
  have hstr : askStreams t r.asked = [0] := by simp [askStreams, Strip.asked, h.spliced, h.image, h.streams]
  simp [pickItem, hstr, h.nextItem_asked]

/-- The element's line serves no other item. -/
theorem AsksOne.sameLine_eq {a : Nat} (ha : linAddr t 0 r.from_ = a) (hend : (a : Int) + t.esize 0 ≤ 2 ^ 39) (n : Nat) :
    sameLine s c t 0 (a / 64) none (n + 2) r = ([(0, (r.from_ : Int), a % 64)], r.asked) := by
  have hn : { r with nxt := tset (fun _ => 0) 0 1 r.nxt } = r.asked := by rw [h.nxt]; rfl
  have hnext : sameLine s c t 0 (a / 64) none (n + 1) r.asked = ([], r.asked) := by
    rw [sameLine, h.nextItem_asked]
  have hfits : 0 ≤ (a : Int) ∧ (a : Int).toNat / 64 = a / 64 ∧ (a : Int) + itemSize t 0 ≤ 2 ^ 39 ∧ holdOf t 0 (r.from_ : Nat) = none
      ∧ mayAsk s t r r.from_ = true := ⟨Int.natCast_nonneg a, rfl, hend, h.holdOf_eq _, h.mayAsk_eq _⟩
  rw [sameLine, h.nextItem_eq]
  simp only [h.itemAddr_eq, ha]
  rw [if_pos hfits, hn, hnext]
  rfl
end

/-- The read entry of the strip's one element, at byte `a`, with the port that the Bank Steering Table gives. -/
def readEntryAt (s : State) (t : Slot) (r : Strip) (a : Nat) : MvEntry :=
  let o := steerPort (s.bstEntry (a / 64 / 2 ^ 14)) (a / 64)
  { line := a / 64, wr := false, lp := o, pp := s.ptPhys o, places := [(0, (r.from_ : Int), a % 64)], elems := [], stamp := s.bclk,
    jobtag := t.jobtag, elem := r.from_ }

/-- The strip's one element gets an entry of an empty marver; the lookup is a demand (R191, R294). -/
theorem AsksOne.createReads_eq {s : State} {t : Slot} {r : Strip} {p a n k : Nat} (h : AsksOne t r) (hw : tabWf chainInit 0 s.chains = true)
    (hr : (s.chain p).strip = some r) (ht : s.slot r.q r.slot = t) (hm : (s.chain p).marver = []) (hlim : marverLimit s = 512)
    (hroom : roomFor s p r 0 = true) (ha : linAddr t 0 r.from_ = a) (hend : (a : Int) + t.esize 0 ≤ 2 ^ 39) (hst : Steers s t false (a / 64)) :
    createReads p (n + 1) (k + 1) s = (addDemand (domBst (bstHalf (a / 64 / 2 ^ 14))) s).setChain p
      { s.chain p with strip := some r.asked, marver := [readEntryAt s t r a] } := by
  have hdone : ∀ u : State, (u.chain p).strip = some r.asked → u.slot r.q r.slot = t → createReads p n k u = u := by
    intro u hu hslot
    cases n with
    | zero => rfl
    | succ n =>
      have hpick : pickItem u p (u.slot r.asked.q r.asked.slot) r.asked = none := hslot ▸ h.pickItem_asked
      rw [createReads, hu]
      simp only [hpick]
  have hin : ¬ ((a : Int) < 0 ∨ (a : Int) + itemSize t 0 > 2 ^ 39) := by
    have : itemSize t 0 = t.esize 0 := rfl
    omega
  rw [createReads, hr]
  simp only [ht, h.pickItem_eq hroom, ha, hm, h.holdOf_eq, Int.toNat_natCast, h.sameLine_eq ha hend, mergeEntry, List.length_nil, hlim]
  rw [if_neg hin, if_neg (by rw [hst.awake]; decide), if_neg (by omega), hst.steerLine_eq]
  simp only [addDemand_chain, List.nil_append]
  refine hdone _ ?_ ((addDemand_slot _ _ _ _).trans ht)
  rw [State.chain_setChain (by rw [addDemand_chains]; exact hw), if_pos rfl]

/-! ## Entry creation (R191) -/

theorem execMarverEntryCreation_on {s : State} {p : Fin 68} {r : Strip} (hr : (s.chain p).strip = some r) (hg : generatorOn s p r = true) :
    exec (.marverEntryCreation p) s = .next (createStores p 2 (if r.ended then s else createReads p 16 4 s)) := by
  change execMarverEntryCreation p s = _
  simp only [execMarverEntryCreation, hr, hg, Bool.not_true, Bool.false_eq_true, if_false]

end Sys2Proof.Machine

namespace Sys2Proof
open Machine

/-- Settles O45: a vector of channel P and a link's element go into the strip; a store line that is ready takes one entry
(`createStores_single`), and the one element left to read gets an entry with the port of its steering (`AsksOne.createReads_eq`). -/
theorem elementsReachChainsAndMarver : Obligations.ElementsReachChainsAndMarver := by
  unfold Obligations.ElementsReachChainsAndMarver
  intro s p r hs hr c t port looked open_
  have hw := State.formed_chains hs
  refine ⟨?_, ?_, fun hg ht hm => ⟨?_, ?_⟩⟩
  · exact fun v l hready hc hf hi hship => execSpliceVectorArrival_vector hs hr hready hc hf hi hship
  · exact fun e l hrecv hl hhi hroom => execLinkElementArrival_accepts hr hrecv hl hhi hroom
  · intro x l he hst hgood hl
    rw [execMarverEntryCreation_on hr hg, if_pos he, createStores_single hw hr ht hm he hst hgood hl]
  · intro he hship hsp hstr hmode hhi _ hnxt hmv hst himg hcap hstop hser hholds _ hroom hlo hend hopen a
    obtain ⟨hawake, hsynd, hcheck⟩ := hopen
    have h : AsksOne t r := ⟨hship, hmode, himg, hcap, hser, hholds, hsp, hstr, hstop, hnxt, hhi⟩
    have ha : linAddr t 0 r.from_ = a := (Int.toNat_of_nonneg hlo).symm
    rw [execMarverEntryCreation_on hr hg, if_neg (by simp [he]),
      h.createReads_eq hw hr rfl hmv (marverLimit_of_testen ht) hroom ha (ha ▸ hend) ⟨hawake, hsynd, hcheck⟩]
    refine congrArg Host.Outcome.next (createStores_nil (r := r.asked) ?_ hst 2)
    rw [State.chain_setChain (by rw [addDemand_chains]; exact hw), if_pos rfl]

end Sys2Proof
end

section
/-! PROOFS. Groups that commit, are replayed or make their chain faulty (R156 to R161), and the fold, combine and rounding of
reductions (R164, R165). -/

namespace Sys2Proof.Machine

/-! ## Group commit (R156, R159, R161) -/

/-- A strip that runs on owes nothing yet at its end. -/
theorem finishStrip_running {p : Nat} {r : Strip} {s : State} (hr : (s.chain p).strip = some r) (he : r.ended = false) :
    finishStrip p s = s := by
  simp [finishStrip, hr, lastDone, settled, he]

/-- The strip with its oldest group committed, but for the checkpoint of a frame. -/
def Strip.committed (c : Chain) (t : Slot) (r : Strip) : Strip :=
  { mergeGroup c t (groupOf r r.cptr) r with
    cptr := groupEnd r, retried := false,
    snaps := r.snaps.filter fun x => decide (x.1 ≠ groupOf r r.cptr),
    landed := freeLanded t r (groupEnd r) (tget (fun _ => r.micro) r.snaps (groupOf r r.cptr + 1)).pks,
    badGrp := if r.badGrp = some r.cptr then none else r.badGrp }

/-- The checkpoint that the strip keeps as its oldest group commits, with the number of its frame. -/
def Strip.commitCk (c : Chain) (t : Slot) (r : Strip) : Nat × Ckpt :=
  (groupEnd r / 4096 + (if r.pass2 then 2 ^ 30 else 0),
    { micro := tget (fun _ => r.micro) r.snaps (groupOf r r.cptr + 1), pass2 := r.pass2, lanes := (r.committed c t).lanes,
      flags := (r.committed c t).flags })

/-- The checkpoints of the strip once its oldest group is committed: a new one at the end of a frame (R161). -/
def Strip.commitCks (c : Chain) (t : Slot) (r : Strip) : List (Nat × Ckpt) :=
  if groupEnd r % 4096 = 0 ∧ groupEnd r < r.hi then r.cks ++ [r.commitCk c t] else r.cks

/-- The oldest group of a running strip commits once all its vectors have issued. -/
theorem execGroupCommit_full {s : State} {p : Fin 68} {r : Strip} (hs : s.formed = true) (hr : (s.chain p).strip = some r)
    (he : r.ended = false) (hlt : r.cptr < groupEnd r) (hle : groupEnd r ≤ reached r) :
    exec (.groupCommit p) s = .next (s.setChain p
      { s.chain p with
        strip := some { r.committed (s.chain p) (s.slot r.q r.slot) with cks := r.commitCks (s.chain p) (s.slot r.q r.slot) },
        elem := if (s.chain p).en then (s.chain p).elem + BitVec.ofNat 64 (groupEnd r - r.cptr) else (s.chain p).elem }) := by
  have hen : ∀ x, ({ s.chain p with strip := some x, elem := if (s.chain p).en then (s.chain p).elem + BitVec.ofNat 64 (groupEnd r - r.cptr)
        else (s.chain p).elem } : Chain)
      = { (if (s.chain p).en then { s.chain p with elem := (s.chain p).elem + BitVec.ofNat 64 (groupEnd r - r.cptr) } else s.chain p) with
          strip := some x } := by
    intro x
    split <;> rfl
  have hrun : ∀ x l, x = ({ r.committed (s.chain p) (s.slot r.q r.slot) with cks := l } : Strip) → ∀ c : Chain,
      finishStrip p (s.setChain p { c with strip := some x }) = s.setChain p { c with strip := some x } := by
    rintro x l rfl c
    exact finishStrip_running (congrArg Chain.strip (State.chain_setChain_self hs p _)) he
  rw [hen, Strip.commitCks]
  change execGroupCommit p s = _
  unfold execGroupCommit
  dsimp only
  rw [hr]
  dsimp only
  simp only [he, Bool.false_eq_true, if_false, Bool.not_false, and_true]
  rw [if_neg (by omega)]
  by_cases hf : groupEnd r % 4096 = 0 ∧ groupEnd r < r.hi
  · rw [if_pos hf, if_pos hf]
    exact congrArg Host.Outcome.next (hrun _ _ rfl _)
  · rw [if_neg hf, if_neg hf]
    exact congrArg Host.Outcome.next (hrun _ _ rfl _)

/-! ## Residue (R159, R160) -/

theorem countResidue_en {p : Nat} {s : State} (h : (s.chain p).en = true) :
    countResidue p s = s.setChain p { s.chain p with rescnt := satInc (s.chain p).rescnt, winCnt := (s.chain p).winCnt + 1 } := by
  simp [countResidue, h]

/-- The snapshot that a replay goes back to, and what it keeps (R159, R214). -/
theorem replayGroup_spec (t : Slot) (r : Strip) :
    let x := replayGroup t r
    x.cptr = r.cptr ∧ x.retried = true ∧ x.ended = false ∧ x.grp = [] ∧ x.gflags = []
      ∧ x.micro = tget (fun _ => r.micro) r.snaps (groupOf r r.cptr) ∧ ∀ e ∈ x.staged, e ∈ r.staged ∧ e.elem < r.cptr := by
  have hst : ∀ e ∈ (discardGroups r).staged, e ∈ r.staged ∧ e.elem < r.cptr := fun e he => by
    simpa only [discardGroups, Strip.trim, List.mem_filter, decide_eq_true_eq] using he
  unfold replayGroup
  dsimp only
  split <;> exact ⟨rfl, rfl, rfl, rfl, rfl, rfl, hst⟩

/-- A replay is counted in the slot (R160), whatever the table of slots. -/
theorem slot_addReplay {s : State} (h : tabWf quadInit 0 s.quads = true) (q k : Nat) :
    (addReplay q k s).slot q k = { s.slot q k with replays := min 255 ((s.slot q k).replays + 1) } := by
  have hd : { s.slot q k with replays := min 255 ((s.slot q k).replays + 1) } ≠ slotInit k := fun he => by
    have : min 255 ((s.slot q k).replays + 1) = 0 := congrArg Slot.replays he
    omega
  rw [addReplay, State.slot, State.setSlot, State.quad, State.setQuad, tget_tset_self h]
  exact tget_tset_of_ne hd _

section
variable {s : State} {p : Nat} {r : Strip} (hw : tabWf chainInit 0 s.chains = true) (hr : (s.chain p).strip = some r)
  (hready : r.ready = true) (hunc : uncommitted r = true) (hstop : r.stop = false) (hfail : failing (s.slot r.q r.slot) = false)
  (hbad : r.badGrp ≠ some r.cptr) (hen : (s.chain p).en = true)
include hw hr hready hunc hstop hfail hbad hen

/-- The first mismatch of a group, below the window's limit, is replayed (R159, R160). -/
theorem residue_first (hretr : r.retried = false) (hwin : fld (s.chain p).rescfg 7 0 = 0 ∨ (s.chain p).winCnt + 1 < fld (s.chain p).rescfg 7 0)
    (inj : Bool) : residue p inj s = logEv 0x20 0 (pgChain p) (handleOf r.q r.slot r.gen) ((addReplay r.q r.slot s).setChain p
      { s.chain p with
        strip := some (replayGroup (s.slot r.q r.slot) r), rescnt := satInc (s.chain p).rescnt, winCnt := (s.chain p).winCnt + 1,
        greplay := satInc (s.chain p).greplay,
        undo := some (s.bclk, decide ((s.chain p).greplay ≠ BitVec.allOnes 32), decide ((s.slot r.q r.slot).replays < 255)) }) inj := by
  have hadd : ∀ v, addReplay r.q r.slot (s.setChain p v) = (addReplay r.q r.slot s).setChain p v := fun _ => rfl
  have hwa : tabWf chainInit 0 (addReplay r.q r.slot s).chains = true := hw
  unfold residue
  rw [hr]
  dsimp only
  rw [if_neg (by simp [hready, hunc]), countResidue_en hen, if_neg (by simp [hstop, hfail]), if_neg hbad, if_neg (by simp [hretr])]
  simp only [State.chain_setChain hw, if_true, State.setChain_setChain hw, hadd, State.chain_setChain hwa, State.setChain_setChain hwa, hen,
    Bool.true_and]
  rw [if_neg (by omega), if_neg (by simp [hunc])]
  rfl

/-- A second mismatch of a group is a hard fault of its chain (R160). -/
theorem residue_again (hretr : r.retried = true) (inj : Bool) : residue p inj s = hardFault p (s.setChain p
    { s.chain p with
      strip := some { r with badGrp := some r.cptr }, rescnt := satInc (s.chain p).rescnt, winCnt := (s.chain p).winCnt + 1 }) inj := by
  unfold residue
  rw [hr]
  dsimp only
  rw [if_neg (by simp [hready, hunc]), countResidue_en hen, if_neg (by simp [hstop, hfail]), if_neg hbad, if_pos hretr]
  simp only [State.chain_setChain hw, if_true, State.setChain_setChain hw]
end

/-! ## A chain with a hard fault stops (R160, R341) -/

/-- A replay undone writes GREPLAY and `undo` of the chain, the slot and the dailies (R161). -/
theorem undoReplay_eq {s : State} (hw : tabWf chainInit 0 s.chains = true) (p : Nat) :
    ∃ g d Q R, undoReplay p s = { s.setChain p { s.chain p with greplay := g, undo := d } with quads := Q, ras := R } := by
  have hid : s = { s.setChain p { s.chain p with greplay := (s.chain p).greplay, undo := (s.chain p).undo } with quads := s.quads, ras := s.ras } :=
    (State.setChain_chain hw p).symm
  unfold undoReplay
  dsimp only
  split
  · split
    · exact ⟨_, _, _, _, hid⟩
    · exact ⟨_, _, _, _, rfl⟩
  · exact ⟨_, _, _, _, hid⟩

/-- The chain whose replay is undone keeps its RESCNT; headers and the cullet stand. -/
theorem undoReplay_keeps {s : State} (hw : tabWf chainInit 0 s.chains = true) (p : Nat) :
    tabWf chainInit 0 (undoReplay p s).chains = true ∧ ((undoReplay p s).chain p).rescnt = (s.chain p).rescnt
      ∧ (undoReplay p s).hdr = s.hdr ∧ (undoReplay p s).cullet = s.cullet := by
  obtain ⟨g, d, Q, R, he⟩ := undoReplay_eq hw p
  rw [he]
  exact ⟨State.setChain_wf hw p _, (congrArg Chain.rescnt (tget_tset_self hw p { s.chain p with greplay := g, undo := d }) :), rfl, rfl⟩

/-- What the fault of chain `p` rests on while the strips of its take stop or move: the chain has no strip and its RESCNT is `n`, the page
headers are `H`, and of the cullet `M` at most the strips that wait have changed. -/
structure Stopped (p : Nat) (n : Reg) (H : Tab Header) (M : Cullet) (s : State) : Prop where
  chains : tabWf chainInit 0 s.chains = true
  strip  : (s.chain p).strip = none
  rescnt : (s.chain p).rescnt = n
  hdr    : s.hdr = H
  cullet : { s.cullet with moved := M.moved } = M

section
variable {p : Nat} {n : Reg} {H : Tab Header} {M : Cullet} {s : State}

/-- A chain that runs a strip is another one. -/
theorem Stopped.ne (h : Stopped p n H M s) {i : Nat} {r : Strip} (hr : (s.chain i).strip = some r) : p ≠ i := by
  rintro rfl
  rw [h.strip] at hr
  cases hr

theorem Stopped.setChain (h : Stopped p n H M s) {i : Nat} (hi : p ≠ i) (c : Chain) : Stopped p n H M (s.setChain i c) where
  chains := State.setChain_wf h.chains i c
  strip := by rw [State.chain_setChain h.chains, if_neg hi, h.strip]
  rescnt := by rw [State.chain_setChain h.chains, if_neg hi, h.rescnt]
  hdr := h.hdr
  cullet := h.cullet

theorem Stopped.setSlot (h : Stopped p n H M s) (q k : Nat) (t : Slot) : Stopped p n H M (s.setSlot q k t) :=
  ⟨h.chains, h.strip, h.rescnt, h.hdr, h.cullet⟩

theorem Stopped.setMoved (h : Stopped p n H M s) (l : List (Nat × Strip)) : Stopped p n H M (s.setCullet { s.cullet with moved := l }) :=
  ⟨h.chains, h.strip, h.rescnt, h.hdr, h.cullet⟩

theorem Stopped.undoReplay (h : Stopped p n H M s) {i : Nat} (hi : p ≠ i) : Stopped p n H M (undoReplay i s) := by
  obtain ⟨g, d, Q, R, he⟩ := undoReplay_eq h.chains i
  have hc := h.setChain hi { s.chain i with greplay := g, undo := d }
  rw [he]
  exact ⟨hc.chains, hc.strip, hc.rescnt, hc.hdr, hc.cullet⟩

theorem Stopped.dropFaulted (h : Stopped p n H M s) (q k e : Nat) : Stopped p n H M (dropFaulted q k e s) := by
  unfold Machine.dropFaulted
  refine foldl_keeps (P := Stopped p n H M) (fun t i ht => ?_) _ h
  split
  next r hr =>
    dsimp only
    split
    · exact (ht.undoReplay (ht.ne hr)).setChain (ht.ne hr) _
    · exact ht.setChain (ht.ne hr) _
  next => exact ht

theorem Stopped.stopStrips (h : Stopped p n H M s) (q k : Nat) : Stopped p n H M (stopStrips q k s) := by
  have hf : Stopped p n H M ((takeChains s q k).foldl (fun s p => stopStrip p s) s) := by
    refine foldl_keeps (P := Stopped p n H M) (fun t i ht => ?_) _ h
    unfold stopStrip
    split
    next => exact ht
    next r hr => exact ht.setChain (ht.ne hr) _
  unfold Machine.stopStrips
  extract_lets s1 ms t src
  split
  · exact hf
  · exact (hf.setSlot q k _).setMoved _

theorem Stopped.takeFault (h : Stopped p n H M s) (q k : Nat) (f : TFault) : Stopped p n H M (takeFault q k f s) := by
  unfold Machine.takeFault
  extract_lets t better t1
  split
  · exact h
  · exact ((h.setSlot q k t1).dropFaulted q k f.elem).stopStrips q k

theorem Stopped.restartPipe (h : Stopped p n H M s) (q k : Nat) : Stopped p n H M (restartPipe q k s) := by
  unfold Machine.restartPipe
  dsimp only
  refine Stopped.setMoved (Stopped.setSlot ?_ q k _) _
  refine foldl_keeps (P := Stopped p n H M) (fun t i ht => ?_) _ h
  split
  next r hr => exact ht.setChain (ht.ne hr) _
  next => exact ht
end

/-- The strip of a chain that stops leaves it (R341). -/
theorem moveStrip_stopped {s : State} (hw : tabWf chainInit 0 s.chains = true) (p l : Nat) :
    Stopped p (s.chain p).rescnt s.hdr s.cullet (moveStrip p l s) := by
  have hc : ∀ c : Chain, c.strip = none → c.rescnt = (s.chain p).rescnt → Stopped p (s.chain p).rescnt s.hdr s.cullet (s.setChain p c) :=
    fun c h1 h2 => ⟨State.setChain_wf hw p c, by rw [State.chain_setChain hw, if_pos rfl, h1], by rw [State.chain_setChain hw, if_pos rfl, h2],
      rfl, rfl⟩
  unfold moveStrip
  split
  next hr => exact hc _ hr rfl
  next r hr =>
    have h0 := hc { s.chain p with strip := none, marver := [] } rfl rfl
    dsimp only
    split
    · exact h0.takeFault _ _ _
    · split
      · exact h0.setSlot _ _ _
      · have h1 := h0.setMoved (s.cullet.moved ++ [(l, restartAt r (lastCk r))])
        split <;> split
        · exact (h1.setSlot _ _ _).restartPipe _ _
        · exact h1.restartPipe _ _
        · exact h1.setSlot _ _ _
        · exact h1

/-- The free spares follow the chains' states and the repairs that run. -/
theorem freeSpare_congr {s u : State} (hst : u.cullet.chSt = s.cullet.chSt) (hrun : u.cullet.running = s.cullet.running) (q : Nat) :
    freeSpare u 0 q = freeSpare s 0 q := by
  simp only [freeSpare, unitSt, State.chUnit, spareTaken, hst, hrun]

/-- The logical chain that a chain serves follows the cullet's map. -/
theorem chLog_congr {s u : State} (h : u.cullet = s.cullet) (p : Nat) : u.chLog p = s.chLog p := by
  have hph : u.chPhys = s.chPhys := funext fun l => by rw [State.chPhys, h, State.chPhys]
  rw [State.chLog, hph, State.chLog]

/-- A chain repair that waits, or that has a spare, writes neither chains nor headers as it starts (R340, R341). -/
theorem queueChainRepair_keeps {x : Repair} {s : State} (h : repairBusy s 0 x.scope = true ∨ (freeSpare s 0 x.scope).isSome = true) :
    (queueChainRepair x s).chains = s.chains ∧ (queueChainRepair x s).hdr = s.hdr := by
  have hstart : (freeSpare s 0 x.scope).isSome = true → (startChainRepair x s).chains = s.chains ∧ (startChainRepair x s).hdr = s.hdr := by
    intro hf
    obtain ⟨u, hu⟩ := Option.isSome_iff_exists.1 hf
    unfold startChainRepair
    rw [hu]
    exact ⟨(congrArg State.chains (wakeDom_frame _ _) :).trans (congrArg State.chains (addDemand_frame _ _) :),
      (congrArg State.hdr (wakeDom_frame _ _) :).trans (congrArg State.hdr (addDemand_frame _ _) :)⟩
  unfold queueChainRepair
  split
  · exact ⟨rfl, rfl⟩
  next hb => exact hstart (h.resolve_left hb)

/-- FAULT of a page is set once it has been raised (R31). -/
theorem raiseFault_fault {s : State} (h : tabWf hdrInit 0 s.hdr = true) (pg : Nat) (inj : Bool) : ((raiseFault pg s inj).header pg).fault = true := by
  have hset : ((s.setHeader pg { s.header pg with fault := true }).header pg).fault = true := congrArg Header.fault (tget_tset_self h pg _)
  unfold raiseFault
  dsimp only
  split
  next hf => exact hf
  · split
    · rw [State.header, (congrArg State.hdr (logEv_frame ..) :)]
      exact hset
    · exact hset

theorem State.formed_hdr {s : State} (h : s.formed = true) : tabWf hdrInit 0 s.hdr = true := by
  simp only [State.formed, Bool.and_eq_true] at h
  simp only [h]

/-- The strip of a chain whose fault has been raised leaves it, a replay of this BCLK undone (R161, R341). -/
theorem moveStrip_raiseFault_stopped {s : State} (hw : tabWf chainInit 0 s.chains = true) (p l : Nat) (inj : Bool) :
    Stopped p (s.chain p).rescnt (raiseFault (pgChain p) s inj).hdr s.cullet
      (moveStrip p l (undoReplay p (raiseFault (pgChain p) s inj))) := by
  have hf := raiseFault_frame (pgChain p) s inj
  have hcul : (raiseFault (pgChain p) s inj).cullet = s.cullet := (congrArg State.cullet hf :)
  have hch : (raiseFault (pgChain p) s inj).chains = s.chains := (congrArg State.chains hf :)
  have hwf : tabWf chainInit 0 (raiseFault (pgChain p) s inj).chains = true := by rw [hch]; exact hw
  obtain ⟨hwu, hres, hhdr, hculu⟩ := undoReplay_keeps hwf p
  have hmove := moveStrip_stopped hwu p l
  rwa [hres, hhdr, hculu, hcul, State.chain, hch] at hmove

/-- A chain in service that has a hard fault shows it, its strip moves, and its repair starts or waits (R341). -/
theorem hardFault_eq {s : State} {p l : Nat} (hu : s.chUnit p = 0) (hrep : repairOf s 0 p = false) (hl : s.chLog p = some l) (inj : Bool) :
    hardFault p s inj = queueChainRepair ⟨0, l / 16, l, p, none, inj⟩ (moveStrip p l (undoReplay p (raiseFault (pgChain p) s inj))) := by
  have hold : (s.cullet.running ++ s.cullet.waiting).any (fun r => decide (r.kind = 0) && decide (r.old = p)) = false := by
    rw [repairOf, List.any_eq_false] at hrep
    refine List.any_eq_false.2 fun x hx hc => hrep x hx ?_
    simp only [Bool.and_eq_true, decide_eq_true_eq, Bool.or_eq_true] at hc ⊢
    exact ⟨hc.1, Or.inl hc.2⟩
  have hcul : (raiseFault (pgChain p) s inj).cullet = s.cullet := (congrArg State.cullet (raiseFault_frame (pgChain p) s inj) :)
  unfold hardFault
  rw [if_neg (by simp [hu, hold])]
  dsimp only
  rw [chLog_congr hcul, hl]

/-- After a hard fault of a chain in service its page shows the fault, and it runs no strip. -/
theorem hardFault_serving {s : State} {p l : Nat} (hw : tabWf chainInit 0 s.chains = true) (hh : tabWf hdrInit 0 s.hdr = true)
    (hu : s.chUnit p = 0) (hrep : repairOf s 0 p = false) (hl : s.chLog p = some l)
    (hspare : repairBusy s 0 (l / 16) = true ∨ (freeSpare s 0 (l / 16)).isSome = true) (inj : Bool) :
    ((hardFault p s inj).header (pgChain p)).fault = true ∧ ((hardFault p s inj).chain p).strip = none
      ∧ ((hardFault p s inj).chain p).rescnt = (s.chain p).rescnt := by
  have hstop := moveStrip_raiseFault_stopped hw p l inj
  rw [hardFault_eq hu hrep hl]
  generalize moveStrip p l (undoReplay p (raiseFault (pgChain p) s inj)) = m at hstop ⊢
  have hrun : m.cullet.running = s.cullet.running := (congrArg Cullet.running hstop.cullet :)
  have hst : m.cullet.chSt = s.cullet.chSt := (congrArg Cullet.chSt hstop.cullet :)
  obtain ⟨hqc, hqh⟩ := queueChainRepair_keeps (x := ⟨0, l / 16, l, p, none, inj⟩) (s := m) (by rwa [repairBusy, hrun, freeSpare_congr hst hrun])
  rw [State.header, State.chain, hqh, hqc, hstop.hdr]
  exact ⟨raiseFault_fault hh _ _, hstop.strip, hstop.rescnt⟩

/-! ## Fold, combine and rounding (R164, R165) -/

/-- A step of the combine that succeeds ends the retry of the strip. -/
def retryEnded (p : Nat) (r : Strip) (u : State) : State :=
  if r.retried then u.setChain p { u.chain p with strip := some { r with retried := false } } else u

theorem clearRetry_eq {p : Nat} {r : Strip} {s : State} (hr : (s.chain p).strip = some r) : clearRetry p s = retryEnded p r s := by
  simp only [clearRetry, hr, retryEnded]

section
variable {s : State} {p : Fin 68} {r : Strip} (hr : (s.chain p).strip = some r) (hend : passEnded r = true) (hsp : r.spliced = false)
  (hop : redOp (s.chain p) (s.slot r.q r.slot) ≠ 0) (htwo : twoPass (s.slot r.q r.slot) = false)
include hr hend hsp hop htwo

/-- The lanes of a strip that has ended are folded into one crucible. -/
theorem execLaneFold_folds (hpart : partOf (s.slot r.q r.slot) r.pos = none) :
    exec (.laneFold p) s = .next (retryEnded p r (s.setSlot r.q r.slot
      { s.slot r.q r.slot with parts := (s.slot r.q r.slot).parts ++ [⟨r.pos, r.lanes.foldl (fun a x =>
          crucAdd (s.slot r.q r.slot).rm (s.slot r.q r.slot).etype (redOp (s.chain p) (s.slot r.q r.slot)) a x.2) {}, r.micro.pks⟩] })) := by
  have hfirst : firstPass (s.slot r.q r.slot) r = false := by simp [firstPass, htwo]
  have hkey : partKey (s.slot r.q r.slot) r = r.pos := by simp [partKey, htwo]
  change execLaneFold p s = _
  unfold execLaneFold
  dsimp only
  rw [hr]
  dsimp only
  rw [hfirst, hkey, if_neg (by simp [hend, hop, isLast, hsp, hpart]), clearRetry_eq (by rw [← hr]; rfl)]
  rfl

/-- A folded crucible joins the take's total in one hop. -/
theorem execCombineHop_joins {x : Part} (hpart : partOf (s.slot r.q r.slot) r.pos = some x) (hpos : r.pos ≠ 0)
    (hhop : (s.slot r.q r.slot).hops.contains r.pos = false) (hfail : failing (s.slot r.q r.slot) = false) :
    exec (.combineHop p) s = .next (finishStrip p (retryEnded p r (s.setSlot r.q r.slot
      { s.slot r.q r.slot with
        total := crucAdd (s.slot r.q r.slot).rm (s.slot r.q r.slot).etype (redOp (s.chain p) (s.slot r.q r.slot)) (s.slot r.q r.slot).total x.cr,
        hops := (s.slot r.q r.slot).hops ++ [r.pos] }))) := by
  have hfirst : firstPass (s.slot r.q r.slot) r = false := by simp [firstPass, htwo]
  have hkey : partKey (s.slot r.q r.slot) r = r.pos := by simp [partKey, htwo]
  change execCombineHop p s = _
  unfold execCombineHop
  dsimp only
  rw [hr]
  dsimp only
  rw [if_neg (by simp [hend, hfail]), hfirst, if_neg Bool.false_ne_true, hkey, hpart]
  dsimp only
  rw [if_neg (by simp [hop, hsp, hpos, List.contains_eq_mem] at hhop ⊢; exact hhop), clearRetry_eq (by rw [← hr]; rfl)]
end

/-- The granule of a byte's line. -/
theorem granule_eq (a : Nat) : a / 64 / 2 ^ 14 = a / 2 ^ 20 := by omega

/-- A value for a line of a LINEAR output that holds no staged element yet is staged, its line steered (R150, R191). -/
theorem stageOne_linear {t : Slot} {s : State} {r : Strip} {a : Nat} {v : Word} (hmode : t.mode 4 = 1) (ha : linAddr t 4 0 = a)
    (hend : a + 8 ≤ 2 ^ 39) (hcap : (s.slot r.q r.slot).cap = none) (hst : (r.steered.any fun x => decide (x.1 = a / 64)) = false)
    (hline : Steers s t true (a / 64)) :
    stageOne none t (s, r) (4, 0, 0, v) = (addDemand (domBst (bstHalf (a / 2 ^ 20))) s,
      { r with staged := r.staged ++ [⟨4, 0, a, v⟩], unacked := r.unacked ++ [⟨4, 0, a / 64⟩],
               steered := r.steered ++ [(a / 64, steerPort (s.bstEntry (a / 2 ^ 20)) (a / 64),
                 s.ptPhys (steerPort (s.bstEntry (a / 2 ^ 20)) (a / 64)))] }) := by
  have haddr : outAddr t r 4 0 = some (a : Int) := by simp [outAddr, hmode, ← ha]
  have hfind : (r.steered.find? fun l => decide (l.1 = a / 64)) = none := by
    rw [List.find?_eq_none]
    exact List.any_eq_false.1 hst
  have hsteer := hline.steerLine_eq
  rw [granule_eq] at hsteer
  unfold stageOne
  dsimp only
  rw [haddr]
  dsimp only
  rw [if_neg (by simp [hcap]), if_neg (by omega), Int.toNat_natCast, hfind]
  dsimp only
  rw [hsteer]
  simp only [putStaged, hst, Bool.false_eq_true, if_false]

/-- The one value of a reduction needs no half of the table that sleeps (R188, R191). -/
theorem steerWaits_awake {t : Slot} {s : State} {r : Strip} {a : Nat} (hmode : t.mode 4 = 1) (ha : linAddr t 4 0 = a)
    (hline : Steers s t true (a / 64)) (v : Word) : steerWaits s none t r [(4, 0, 0, v)] = none := by
  have haddr : outAddr t r 4 0 = some (a : Int) := by simp [outAddr, hmode, ← ha]
  have hor : (a : Int) < 0 ∨ (a : Int) + 8 > 2 ^ 39 ∨ (r.steered.any fun l => decide (l.1 = (a : Int).toNat / 64)) = true
      ∨ bstAwake s ((a : Int).toNat / 2 ^ 20) = true := Or.inr (Or.inr (Or.inr (granule_eq a ▸ hline.awake)))
  simp only [steerWaits, List.findSome?_cons, List.findSome?_nil, Option.isSome_none, Bool.false_eq_true, and_false, if_false, haddr]
  rw [if_pos hor]

/-- The strip of a chain put back after its final value has been staged; a stop that it has met since stands. -/
def putRounded (p : Nat) (y : State × Strip) : State :=
  y.1.setChain p { y.1.chain p with strip := some { y.2 with stop := y.2.stop || (match (y.1.chain p).strip with | some z => z.stop | none => false) } }

theorem putRounded_eq {p : Nat} {u : State} {r x : Strip} (hr : (u.chain p).strip = some r) (hx : x.stop = r.stop) :
    putRounded p (u, x) = u.setChain p { u.chain p with strip := some x } := by
  simp only [putRounded, hr, ← hx, Bool.or_self]

/-- The rounding of a take is due: every strip has ended without fault or abort, the combine is complete, and E(0), of a LINEAR stream
and without an image, is not yet stored (R138, R164, R165). -/
structure RoundingDue (t : Slot) : Prop where
  onePass : twoPass t = false
  ending  : t.st = .ending
  sound   : failing t = false
  stored  : t.stored = false
  image   : t.cru = false
  linear  : t.mode 4 = 1
  hops    : ∀ i, 0 < i → i < t.chains.length → t.hops.contains i = true

/-- The total is rounded once, with the chain of the first strip, and staged for E(0). -/
theorem execFinalRounding_rounds {s : State} {p : Fin 68} {r : Strip} {t : Slot} {x : Part} {a : Nat} (hs : s.formed = true)
    (hr : (s.chain p).strip = some r) (ht : s.slot r.q r.slot = t) (hsp : r.spliced = false) (hpos : r.pos = 0)
    (hop : redOp (s.chain p) t ≠ 0) (hdue : RoundingDue t) (hpart : partOf t r.pos = some x) (ha : linAddr t 4 0 = a) (hend : a + 8 ≤ 2 ^ 39)
    (hnew : (r.steered.any fun x => decide (x.1 = a / 64)) = false) (hline : Steers s t true (a / 64)) :
    let y := finalValue s (s.chain p) t (crucAdd t.rm t.etype (redOp (s.chain p) t) t.total x.cr)
    let o := steerPort (s.bstEntry (a / 2 ^ 20)) (a / 64)
    exec (.finalRounding p) s = .next (finishStrip p ((addDemand (domBst (bstHalf (a / 2 ^ 20)))
      { s.setSlot r.q r.slot { t with stored := true, flags := t.flags ||| y.2 } with fresh := s.fresh + 1 }).setChain p
      { s.chain p with
        strip := some { r with
          retried := false, staged := r.staged ++ [⟨4, 0, a, y.1⟩], unacked := r.unacked ++ [⟨4, 0, a / 64⟩],
          steered := r.steered ++ [(a / 64, o, s.ptPhys o)] } })) := by
  intro y o
  have hfirst : firstPass t r = false := by simp [firstPass, hdue.onePass]
  have hkey : partKey t r = r.pos := by simp [partKey, hdue.onePass]
  have hsend : ∀ u, sendsOn u t r = none := fun u => by simp [sendsOn, sendLink, hsp]
  have hall : ((rangeFrom 1 (t.chains.length - 1)).all fun i => t.hops.contains i) = true := by
    refine List.all_eq_true.2 fun i hi => ?_
    obtain ⟨j, hj, rfl⟩ := List.mem_map.1 hi
    have := List.mem_range.1 hj
    exact hdue.hops _ (by omega) (by omega)
  have hstores : ∀ v k, finalStores v t k = [(4, 0, 0, v)] := fun v k => by simp [finalStores, hdue.image]
  have hcap : (({ s.setSlot r.q r.slot { t with stored := true, flags := t.flags ||| y.2 } with fresh := s.fresh + 1 } : State).slot r.q r.slot).cap
      = none := by
    have hread := State.slot_setSlot_of_ne (State.formed_quads hs) r.q r.slot (v := { t with stored := true, flags := t.flags ||| y.2 })
      (by simp [hdue.ending])
    refine (congrArg Slot.cap hread).trans ?_
    have hsound := hdue.sound
    simp only [failing, Bool.or_eq_false_iff, Option.isSome_eq_false_iff, Option.isNone_iff_eq_none] at hsound
    exact hsound.2
  have hstage := stageOne_linear (r := { r with retried := false }) (v := y.1) hdue.linear ha hend hcap hnew
    ⟨hline.awake, hline.clean, hline.check⟩
  change execFinalRounding p s = _
  unfold execFinalRounding
  dsimp only
  rw [hr]
  dsimp only
  rw [ht, hkey, hpart]
  dsimp only
  rw [if_neg (by simp only [hfirst, hdue.ending, hdue.sound, hdue.stored, hop, hsp, hpos, hall]; simp), hsend, hstores,
    steerWaits_awake hdue.linear ha hline]
  dsimp only
  rw [hsend]
  refine (congrArg (fun y => Host.Outcome.next (finishStrip p (putRounded p y))) hstage).trans ?_
  refine congrArg (fun u => Host.Outcome.next (finishStrip p u)) ((putRounded_eq (r := r) ?_ ?_).trans ?_)
  · exact (congrArg Chain.strip (addDemand_chain _ _ _)).trans hr
  · rfl
  · rw [addDemand_chain]
    rfl

end Sys2Proof.Machine

namespace Sys2Proof
open Machine

/-- Settles O44: the oldest group commits (`execGroupCommit_full`), is replayed once (`residue_first`) and then makes its chain faulty
(`residue_again`, `hardFault_serving`); lanes are folded (`execLaneFold_folds`), crucibles join the total (`execCombineHop_joins`), and the
total is rounded once (`execFinalRounding_rounds`). -/
theorem groupsAndReductions : Obligations.GroupsAndReductions := by
  unfold Obligations.GroupsAndReductions
  refine ⟨?_, ?_⟩
  · intro s p r hs hr c t
    have hw := State.formed_chains hs
    refine ⟨?_, fun hready hunc hstop hfail hbad hen => ⟨?_, ?_⟩, replayGroup_spec t r⟩
    · intro he hlt hle
      exact ⟨_, execGroupCommit_full hs hr he hlt hle, rfl, rfl, rfl, rfl, rfl, rfl, rfl,
        fun h1 h2 => ⟨_, if_pos ⟨h1, h2⟩⟩, fun h => if_neg fun hf => h.elim (fun hn => hn hf.1) (fun hn => by omega)⟩
    · intro hretr hwin
      have hwa : tabWf chainInit 0 (addReplay r.q r.slot s).chains = true := hw
      have hlog := fun u => logEv_frame 0x20 0 (pgChain p) (handleOf r.q r.slot r.gen) u false
      refine ⟨_, congrArg Host.Outcome.next (residue_first hw hr hready hunc hstop hfail hbad hen hretr hwin false), ?_, ?_, ?_⟩
      · exact (congrArg (fun u : State => { u with chains := s.chains, quads := s.quads }) (hlog _) :)
      · rw [State.chain, (congrArg State.chains (hlog _) :)]
        exact tget_tset_self hwa p _
      · rw [State.slot, State.quad, (congrArg State.quads (hlog _) :)]
        exact slot_addReplay (State.formed_quads hs) r.q r.slot
    · intro hretr l hu hrep hl hspare
      have hf := hardFault_serving (s := s.setChain p { c with
        strip := some { r with badGrp := some r.cptr }, rescnt := satInc c.rescnt, winCnt := c.winCnt + 1 })
        (State.setChain_wf hw p _) (State.formed_hdr (s := s) hs) hu hrep hl hspare false
      rw [State.chain_setChain_self hs] at hf
      exact ⟨_, congrArg Host.Outcome.next (residue_again hw hr hready hunc hstop hfail hbad hen hretr false), hf⟩
  · intro s p r hs hr hend hsp c t op once hop htwo
    refine ⟨execLaneFold_folds hr hend hsp hop htwo, fun x hpart hpos hhop hfail => execCombineHop_joins hr hend hsp hop htwo hpart hpos hhop hfail, ?_⟩
    intro x hpart hpos hst hfail hstored hcru hmode hhops hlo hhi y a g o hnew hawake hsynd hcheck
    have ha : linAddr t 4 0 = a := (Int.toNat_of_nonneg hlo).symm
    have hline : Steers s t true (a / 64) := by
      refine ⟨?_, ?_, ?_⟩ <;> rw [granule_eq]
      · exact hawake
      · exact hsynd
      · exact hcheck
    exact execFinalRounding_rounds hs hr rfl hsp hpos hop ⟨htwo, hst, hfail, hstored, hcru, hmode, hhops⟩ hpart ha (by omega) hnew hline

end Sys2Proof
end
